-- ==== Sys2Proof/Word.lean ====
section
/-! DEFINITION. The byte type and the unit numbers of the part: which ramp, lane, detector channel,
output channel, line and authority source a command or a record names (spec 00_scope, 3.2). -/

namespace Sys2Proof

/-- One byte of a frame or record. -/
abbrev Byte := BitVec 8

/-- Ramps A to D, A = 0. -/
abbrev Ramp := Fin 4

/-- Lanes 1 to 12; lane n is number n - 1 here. -/
abbrev Lane := Fin 12

/-- Detector channels 0 to 63. -/
abbrev Channel := Fin 64

/-- Output channels 0 to 15. -/
abbrev OutCh := Fin 16

/-- The eight debounced lines: 0 to 3 are PRE0 to PRE3, 4 to 7 are PNL0 to PNL3. -/
abbrev Line := Fin 8

/-- Authority sources 0 to 5; a lower number is a higher priority: 0 FAILSAFE, 1 PREEMPT, 2 SPILLBACK,
3 CENTRAL_URGENT, 4 PANEL, 5 CENTRAL_PLAN (06_override_authority, 6.1). -/
abbrev Source := Fin 6

end Sys2Proof
end

