-- ==== Sys2Proof/Config.lean ====
section
/-! DEFINITION. What the model fixes once (its unit of time, the part's constant numbers) and the
values the spec leaves open, which have no body. -/

namespace Sys2Proof.Config

/-- Microseconds in a tenth of a second: the model's unit of time is the microsecond
(DESIGN CHOICE, log entry 1). -/
def tenth : Nat := 100000

/-- Tenths in a day: corridor time runs over 0 to `dayTenths - 1` (R139, R140). -/
def dayTenths : Nat := 864000

/-- The longest sending, in microseconds: a quarter of a millisecond (R160). -/
def longestSending : Nat := 250

/-- The window length while Part Settings is unset (R172). -/
def defaultWindow : Nat := 200

/-- The vendor code of IDENTIFY (spec 11, 11.4). -/
def vendorCode : Nat := 23115

/-- The part code of IDENTIFY (R178). -/
def partCode : Nat := 2410

/-- The part's revision less one, so 1 to 255 (R178): each part fixes it, the spec gives no number
(log entry 9). -/
opaque revisionLessOne : Fin 255

/-- The corridor-time bytes of an AUTHORITY response of a ramp with no last grant, which the layout
of 11.4 leaves open: a fresh free value for each response (log entry 10). -/
opaque freeValue : Nat → BitVec 24

end Sys2Proof.Config
end

