-- ==== Sys2Proof/Syntax.lean ====
section
/-! DEFINITION. The commands of the part: one constructor for each row of spec/opcode_table.json.
The table gives no operands; each constructor carries what the rules say the event or request
carries. A request carries the station its CMD frame comes from and the bytes of its fields as that
frame carries them (spec 11, 11.3). -/

namespace Sys2Proof

/-- The two sources with a lease (R121): CENTRAL_URGENT, source 3, and CENTRAL_PLAN, source 5. -/
inductive Central where
  | urgent
  | plan
deriving DecidableEq, Repr

inductive Instr where
  /-- The RESET line, or power-up, with the levels of the straps ADR5..ADR0 at that moment (R152, R166). -/
  | powerOnReset (straps : BitVec 6)
  /-- RUN RESET from station `src` (R185). -/
  | runReset (src : Nat)
  /-- The last byte of a frame is received at ring-in (R154). -/
  | frameArrival (bytes : List Byte)
  /-- IDENTIFY (R178). -/
  | identify (src : Nat)
  /-- TABLE WRITE (R171). -/
  | tableWrite (src : Nat) (table index : Byte) (record : List Byte)
  /-- TABLE READ (R173). -/
  | tableRead (src : Nat) (table index : Byte)
  /-- TABLE CLEAR (R174). -/
  | tableClear (src : Nat) (table index : Byte)
  /-- TABLE CHECK (R176). -/
  | tableCheck (src : Nat) (table : Byte)
  /-- RAMP MODE with mode AUTO (R58). -/
  | rampModeAuto (src : Nat) (ramp : Byte)
  /-- RAMP MODE with mode OFF (R72). -/
  | rampModeOff (src : Nat) (ramp : Byte)
  /-- ARM (R116). -/
  | arm (src : Nat) (ramp source setting : Byte)
  /-- ASSERT (R121). -/
  | assertSource (src : Nat) (ramp source : Byte) (lease : BitVec 16)
  /-- RELEASE (R122). -/
  | releaseSource (src : Nat) (ramp source : Byte)
  /-- STATUS (R179). -/
  | status (src : Nat) (ramp sect : Byte)
  /-- DETECTORS (R183). -/
  | detectors (src : Nat) (first count : Byte)
  /-- COUNTS (R184). -/
  | counts (src : Nat) (ramp : Byte)
  /-- CLEAR FAULT (R136). -/
  | clearFault (src : Nat) (ramp : Byte)
  /-- A channel's filter timer expires (R9). -/
  | filterTimerExpiry (ch : Channel)
  /-- A channel's silence timer expires (R10). -/
  | silenceTimerExpiry (ch : Channel)
  /-- A channel's stuck timer expires (R11). -/
  | stuckTimerExpiry (ch : Channel)
  /-- Corridor time has reached a multiple of W (R15, R19). -/
  | windowClose
  /-- The warn time expires (R63). -/
  | warnExpiry (r : Ramp)
  /-- The start green time expires (R64). -/
  | startGreenExpiry (r : Ramp)
  /-- The start yellow time expires (R65). -/
  | startYellowExpiry (r : Ramp)
  /-- The start red time expires (R66). -/
  | startRedExpiry (r : Ramp)
  /-- The shutdown flush expires (R71). -/
  | shutdownFlushExpiry (r : Ramp)
  /-- The slot clock ends a slot (R67). -/
  | slotBoundary (r : Ramp)
  /-- A lane's counter reaches the delay end (R90). -/
  | delayEnd (l : Lane)
  /-- A lane's counter reaches the maximum green point (R91). -/
  | maximumGreen (l : Lane)
  /-- A lane's counter reaches the minimum green point (R91). -/
  | minimumGreenPoint (l : Lane)
  /-- A lane's counter reaches the yellow end (R94). -/
  | yellowEnd (l : Lane)
  /-- A lane's counter reaches the red end (R94). -/
  | redEnd (l : Lane)
  /-- The holder's hold reaches zero (R110). -/
  | holdExpiry (r : Ramp)
  /-- A central source's lease reaches zero (R122). -/
  | leaseExpiry (r : Ramp) (c : Central)
  /-- A preempt or panel line's input takes the level given (R114). -/
  | lineInputChange (line : Line) (level : Bool)
  /-- A line's changed input has held for 5 tenths (R114). -/
  | debounceExpiry (line : Line)
  /-- A spillback channel's on-timer expires (R118). -/
  | onTimerExpiry (ch : Channel)
  /-- A ramp's spillback clear timer expires (R119). -/
  | clearTimerExpiry (r : Ramp)
  /-- An output channel's mismatch timer expires (R134). -/
  | mismatchTimerExpiry (ch : OutCh)
  /-- A driver station's silence timer expires (R135). -/
  | driverSilenceExpiry (station : Nat)
  /-- A driver station's refresh timer expires (R131). -/
  | refreshTimerExpiry (station : Nat)
  /-- The sync timer expires (R144). -/
  | syncTimerExpiry
  /-- The quiet timer expires (R164). -/
  | quietTimerExpiry
  /-- The last byte of the frame in flight leaves ring-out (R160). -/
  | sendingEnd
deriving DecidableEq, Repr

end Sys2Proof
end

