-- ==== Sys2Proof/Decode.lean ====
section
/-! DEFINITION. The command a word spells by the bits of spec/opcode_table.json. No row of that table
gives bits ("fields" is empty in each and none has "fixed"), so no word spells a command (log entry
27). The bytes of frames and records are read in Machine/Operands.lean. -/

namespace Sys2Proof

/-- No row of the table gives bits: every word is refused. -/
def decodeTableWord (_nbits _w : Nat) : Option Instr := none

end Sys2Proof
end

