-- ==== Sys2Proof/Machine/State.lean ====
section
/-! DEFINITION. The state of the part as plain data, block by block, and its value right after
power-on reset. Timers hold microseconds (`Config.tenth` to a tenth, log entry 1). -/

namespace Sys2Proof.Machine

/-- A timer: stopped (or clear), running with the microseconds it has run, or expired. -/
inductive Timer where
  | stopped
  | running (us : Nat)
  | expired
deriving DecidableEq, Repr

/-! ### Table records (R170) -/

/-- Role of a detector channel (R1). -/
inductive Role where
  | mainline | demand | passage | queue | spillback | other
deriving DecidableEq, Repr

/-- Table 1, Detector Map (R1). -/
structure DetRec where
  station : Nat
  input : Nat
  role : Role
  /-- the ramp set, ramp r at bit r -/
  ramps : BitVec 4
  lane : Option Lane
  filter : Nat
  stuckLimit : Nat
  chatterLimit : Nat
  subst : Bool
  /-- substitute mode ALWAYS (otherwise ON_FAIL) -/
  always : Bool
deriving DecidableEq, Repr

/-- Table 2, Condition Definitions (R22). -/
structure CondRec where
  chans : List Channel
  /-- measure FLOW (otherwise OCCUPANCY) -/
  flow : Bool
  /-- comparison BELOW (otherwise ABOVE) -/
  below : Bool
  threshold : Nat
  hysteresis : Nat
  subst : Bool
  force : Bool
deriving DecidableEq, Repr

/-- Table 3, Match Table (R31). -/
structure MatchRec where
  value : BitVec 16
  care : BitVec 16
  plan : Nat
  persistence : Option Nat
deriving DecidableEq, Repr

/-- The fields of a Rate Plan that only an ADAPTIVE record has (R38). -/
structure Adaptive where
  minSlot : Nat
  maxSlot : Nat
  curve : Nat
  queueThreshold : Option Nat
  reliefStep : Nat
  reliefHyst : Nat
deriving DecidableEq, Repr

/-- Table 4, Rate Plans (R38); `adaptive` is absent from a FIXED record. -/
structure PlanRec where
  slot : Nat
  adaptive : Option Adaptive
  period : Nat
  /-- the mask of each lane position, the pattern count k at bit k -/
  masks : Vector (BitVec 16) 4
  coordinated : Bool
deriving DecidableEq, Repr

/-- Table 5, Occupancy Curves (R41): breakpoint and slot length of each point. -/
structure CurveRec where
  points : List (Nat × Nat)
deriving DecidableEq, Repr

/-- Table 6, Ramp Config (R54). -/
structure RampRec where
  lanes : List Lane
  beacon : Option OutCh
  defaultPlan : Nat
  warn : Nat
  startGreen : Nat
  startYellow : Nat
  startRed : Nat
  shutFlush : Nat
  offset : Nat
  preLine : Option (Fin 4)
  panelLine : Option (Fin 4)
  spillOn : Nat
  spillClear : Nat
deriving DecidableEq, Repr

/-- Table 7, Lane Config (R77). -/
structure LaneRec where
  head : OutCh
  demand : Channel
  passage : Option Channel
  /-- call mode LOCK (otherwise PRESENCE) -/
  lock : Bool
  delay : Nat
  maxGreen : Nat
  minGreen : Nat
  yellow : Nat
  minRed : Nat
  vehicles : Nat
deriving DecidableEq, Repr

/-- Table 8, Output Map (R125). -/
structure OutRec where
  station : Nat
  output : Fin 8
  /-- use BEACON (otherwise HEAD) -/
  beacon : Bool
  lampCheck : Bool
deriving DecidableEq, Repr

/-- Action kinds (R108), PLAN with its plan. -/
inductive ActionKind where
  | dark
  | flush
  | hold
  | plan (n : Nat)
deriving DecidableEq, Repr

/-- Table 9, Actions (R108). -/
structure ActionRec where
  kind : ActionKind
  cap : Option Nat
deriving DecidableEq, Repr

/-- The ten tables; an unset record is `none` (R170). Plans and curves count from 1, so plan n is at
n - 1; so is curve n. Table 10 holds the window length. -/
structure Tables where
  detMap : Vector (Option DetRec) 64
  conds : Vector (Option CondRec) 64
  matches_ : Vector (Option MatchRec) 48
  plans : Vector (Option PlanRec) 32
  curves : Vector (Option CurveRec) 8
  rampCfg : Vector (Option RampRec) 4
  laneCfg : Vector (Option LaneRec) 12
  outMap : Vector (Option OutRec) 16
  actions : Vector (Option ActionRec) 20
  settings : Option Nat
deriving DecidableEq, Repr

/-! ### Detector Unit (R4, R15) -/

inductive Health where
  | unseen | ok | silent | stuck | chatter | loopFault
deriving DecidableEq, Repr

/-- A pending change: its target and the microseconds its filter timer has run (R7). -/
structure PendingChange where
  target : Bool
  ran : Nat
deriving DecidableEq, Repr

/-- The detector state record of a channel (R4). `onTime` is in microseconds; the on-time of R4 is
its whole tenths. -/
structure DetState where
  reported : Bool
  loopReported : Bool
  filtered : Bool
  pending : Option PendingChange
  health : Health
  silence : Timer
  stuck : Timer
  onTime : Nat
  volume : Nat
  glitches : Nat
  okThroughout : Bool
  lastOcc : Nat
  lastVol : Nat
  lastValid : Bool
deriving DecidableEq, Repr

/-- The Detector Unit: the channels, the microseconds of the current window (whose whole tenths are
the elapsed count, R15) and the last-window elapsed length in tenths (R19). -/
structure DetUnit where
  chans : Vector DetState 64
  elapsed : Nat
  lastElapsed : Nat
deriving DecidableEq, Repr

/-! ### Rate Unit (R43) -/

structure RateRec where
  relief : Nat
  adaptive : Option Nat
  degraded : Bool
deriving DecidableEq, Repr

/-! ### Ramp Controller (R35, R57) -/

inductive Mode where
  | off | auto
deriving DecidableEq, Repr

inductive RampState where
  | off | standby | warn | startGreen | startClear | metering | shutClear | shutFlush | darkFail
deriving DecidableEq, Repr

inductive ClearPhase where
  | yellow | red
deriving DecidableEq, Repr

/-- A candidate plan (0 is NONE) and its count (R35). -/
structure Candidate where
  plan : Nat
  count : Nat
deriving DecidableEq, Repr

/-- The adopted copy of a Rate Plan (R57). -/
structure Adopted where
  number : Nat
  adaptive : Bool
  slot : Nat
  period : Nat
  masks : Vector (BitVec 16) 4
  coordinated : Bool
deriving DecidableEq, Repr

/-- The ramp context (R57); `autoPlan` 0 is NONE. `stopStands` is the stop demand as the ramp last judged it, which
stands between R61's events and which START_CLEAR takes at its end (R61, R65; log entry 24). -/
structure RampCtx where
  mode : Mode
  state : RampState
  clearPhase : Option ClearPhase
  phaseTimer : Timer
  autoPlan : Nat
  candidate : Option Candidate
  planUnset : Bool
  actionUnset : Bool
  stopStands : Bool
  adopted : Option Adopted
  patternCount : Nat
  slotClock : Timer
  slotLength : Option Nat
  lastNominal : Option Nat
  aligned : Bool
  slotCount : Nat
  lastSlotCount : Nat
  attention : Bool
deriving DecidableEq, Repr

/-! ### Lane Sequencer (R80, R89) -/

inductive LaneState where
  | dark | greenRest | restRed | delay | green | yellow | minRed
deriving DecidableEq, Repr

inductive Regime where
  | meter | hold | flush
deriving DecidableEq, Repr

/-- What a release copies beside the yellow and the minimum red (R89, R91), in tenths. -/
structure ReleaseCopy where
  delay : Nat
  minGreen : Nat
  maxGreen : Nat
  vehicles : Nat
deriving DecidableEq, Repr

/-- A lane's interval (R89). `counter` and `greenEnd` are in microseconds; a clearing interval has no
`release`, so the points before its green end are absent. -/
structure Interval where
  counter : Nat
  release : Option ReleaseCopy
  yellow : Nat
  minRed : Nat
  greenEnd : Option Nat
  cut : Bool
deriving DecidableEq, Repr

/-- The six window counts of a lane (R80, R100). -/
structure LaneCounts where
  releases : Nat
  idleOffers : Nat
  overrunSkips : Nat
  greenPassages : Nat
  yellowPassages : Nat
  violations : Nat
deriving DecidableEq, Repr

/-- The lane context (R80). -/
structure LaneCtx where
  state : LaneState
  regime : Regime
  call : Bool
  interval : Option Interval
  greenPassageCount : Option Nat
  counts : LaneCounts
  last : LaneCounts
deriving DecidableEq, Repr

/-! ### Authority Unit (R102) -/

/-- A granted action (R108, R109). -/
inductive Granted where
  | dark
  | flush
  | hold
  | plan (n : Nat)
  | failsafe
deriving DecidableEq, Repr

/-- A hold: remaining microseconds while RUNNING or PAUSED, or UNCAPPED (R102). -/
inductive Hold where
  | running (left : Nat)
  | paused (left : Nat)
  | uncapped
deriving DecidableEq, Repr

/-- One source's record (R102); `standing` true is ELIGIBLE; `lease` is the remaining microseconds. -/
structure SourceRec where
  asserted : Bool
  armed : Bool
  spent : Bool
  standing : Bool
  lease : Option Nat
  hold : Option Hold
deriving DecidableEq, Repr

inductive GrantKind where
  | fresh | resumed
deriving DecidableEq, Repr

structure LastGrant where
  source : Source
  time : Nat
  kind : GrantKind
deriving DecidableEq, Repr

/-- An Authority Unit (R102), with the ramp's spillback clear timer (R117). The stack is highest
priority first; each entry's hold stands in its source's record. -/
structure AuthUnit where
  sources : Vector SourceRec 6
  holder : Option Source
  granted : Option Granted
  stack : List Source
  lastGrant : Option LastGrant
  clearTimer : Timer
deriving DecidableEq, Repr

/-- A preempt or panel line: the input level, the debounced level and the 5-tenth debounce (R114). -/
structure LineState where
  input : Bool
  active : Bool
  timer : Timer
deriving DecidableEq, Repr

/-! ### Output Unit (R128) -/

inductive Aspect where
  | dark | red | yellow | green | flash
deriving DecidableEq, Repr

/-- What a channel's driver last said of it (R128). -/
inductive Reported where
  | absent
  | notCarried
  | shows (a : Aspect)
deriving DecidableEq, Repr

structure OutChan where
  commanded : Aspect
  reported : Reported
  lampOut : Bool
  mismatch : Timer
  /-- the lamp fault is LATCHED -/
  fault : Bool
deriving DecidableEq, Repr

/-- A driver station's timers; its image is computed from the commanded aspects (R131). -/
structure DriverRec where
  station : Nat
  refresh : Timer
  silence : Timer
deriving DecidableEq, Repr

/-- The Output Unit. `drivers` is in ascending station order. `sigDue` holds, while an event runs,
the stations for which it enqueues a SIG, ascending; it is empty between events (log entry 17). -/
structure OutUnit where
  chans : Vector OutChan 16
  drivers : List DriverRec
  sigDue : List Nat
deriving DecidableEq, Repr

/-! ### Timekeeper (R139) -/

/-- `phase` is the microseconds of the running tenth that have passed; `closeDue` says that corridor
time has reached a multiple of W whose close is not yet taken (log entry 13). -/
structure TimeUnit where
  corridor : Nat
  phase : Nat
  locked : Bool
  syncTimer : Timer
  closeDue : Bool
deriving DecidableEq, Repr

/-! ### Ring Interface (R152 to R166) -/

/-- A frame in the insert queue: a SIG for a driver station with the image of outputs 0 up, or an RSP
to a station with its payload. -/
inductive Insert where
  | sig (station : Nat) (image : List Aspect)
  | rsp (dst : Nat) (payload : List Byte)
deriving DecidableEq, Repr

/-- A SIG waiting outside the insert queue (R163). -/
structure WaitingSig where
  station : Nat
  image : List Aspect
deriving DecidableEq, Repr

/-- The frame the out port is sending and the microseconds since it was taken (R160). -/
structure InFlight where
  frame : List Byte
  ran : Nat
deriving DecidableEq, Repr

/-- The Ring Interface. `straps` is the number read from ADR5..ADR0 at the last power-on reset; the
station address and the mode follow from it (R152). -/
structure RingUnit where
  straps : BitVec 6
  forward : List (List Byte)
  inFlight : Option InFlight
  insert : List Insert
  waiting : List WaitingSig
  run : Nat
  quiet : Bool
  quietTimer : Timer
  bad : Nat
  overflow : Nat
  discard : Nat
deriving DecidableEq, Repr

/-- The part's state. `pending`, `stride` and `freeCount` are the model's own: the queue of commands,
how many microseconds an idle step lets pass at most (log entry 2), and how many free values have been
drawn (log entry 10). -/
structure State where
  pending : List Instr
  stride : Nat
  freeCount : Nat
  tables : Tables
  det : DetUnit
  vectors : Vector (Vector Bool 16) 4
  rate : Vector RateRec 4
  ramps : Vector RampCtx 4
  lanes : Vector LaneCtx 12
  auth : Vector AuthUnit 4
  onTimers : Vector Timer 64
  lines : Vector LineState 8
  out : OutUnit
  time : TimeUnit
  ring : RingUnit
deriving DecidableEq, Repr

/-- The spec gives no event at which the part stops, so no fault has a constructor: nothing raises
one, which is neither safe nor unsafe. -/
inductive Fault
deriving DecidableEq, Repr

/-- Why a command is refused. -/
inductive Refusal where
  /-- Raised by an arm of `exec` that has no meaning yet, with the row's mnemonic; safe. No arm uses it. -/
  | notModelled (mnemonic : String)
deriving DecidableEq, Repr

/-! ### Reset values -/

/-- All tables unset (R170). -/
def Tables.unset : Tables where
  detMap := Vector.replicate 64 none
  conds := Vector.replicate 64 none
  matches_ := Vector.replicate 48 none
  plans := Vector.replicate 32 none
  curves := Vector.replicate 8 none
  rampCfg := Vector.replicate 4 none
  laneCfg := Vector.replicate 12 none
  outMap := Vector.replicate 16 none
  actions := Vector.replicate 20 none
  settings := none

/-- R4. -/
def DetState.reset : DetState where
  reported := false
  loopReported := false
  filtered := false
  pending := none
  health := .unseen
  silence := .stopped
  stuck := .stopped
  onTime := 0
  volume := 0
  glitches := 0
  okThroughout := false
  lastOcc := 0
  lastVol := 0
  lastValid := false

/-- R4, R21. -/
def DetUnit.reset : DetUnit where
  chans := Vector.replicate 64 DetState.reset
  elapsed := 0
  lastElapsed := 0

/-- The all-FALSE condition vector (R30). -/
def vectorFalse : Vector Bool 16 := Vector.replicate 16 false

/-- R43. -/
def RateRec.reset : RateRec where
  relief := 0
  adaptive := none
  degraded := false

/-- R57; a mode of OFF is a stop demand (R61). -/
def RampCtx.reset : RampCtx where
  mode := .off
  state := .off
  clearPhase := none
  phaseTimer := .stopped
  autoPlan := 0
  candidate := none
  planUnset := false
  actionUnset := false
  stopStands := true
  adopted := none
  patternCount := 0
  slotClock := .stopped
  slotLength := none
  lastNominal := none
  aligned := false
  slotCount := 0
  lastSlotCount := 0
  attention := false

def LaneCounts.zero : LaneCounts where
  releases := 0
  idleOffers := 0
  overrunSkips := 0
  greenPassages := 0
  yellowPassages := 0
  violations := 0

/-- R80. -/
def LaneCtx.reset : LaneCtx where
  state := .dark
  regime := .meter
  call := false
  interval := none
  greenPassageCount := none
  counts := LaneCounts.zero
  last := LaneCounts.zero

/-- R102: armed is YES, fixed, for sources 0 and 1. -/
def SourceRec.reset (armed : Bool) : SourceRec where
  asserted := false
  armed := armed
  spent := false
  standing := false
  lease := none
  hold := none

/-- R102. -/
def AuthUnit.reset : AuthUnit where
  sources := #v[SourceRec.reset true, SourceRec.reset true, SourceRec.reset false,
    SourceRec.reset false, SourceRec.reset false, SourceRec.reset false]
  holder := none
  granted := none
  stack := []
  lastGrant := none
  clearTimer := .stopped

/-- A line after a reset: its input is as it is, the debounced level INACTIVE, and an active input
starts its 5 tenths (R114). -/
def LineState.reset (input : Bool) : LineState where
  input := input
  active := false
  timer := if input then .running 0 else .stopped

/-- R128. -/
def OutChan.reset : OutChan where
  commanded := .dark
  reported := .absent
  lampOut := false
  mismatch := .stopped
  fault := false

/-- R137. -/
def OutUnit.reset : OutUnit where
  chans := Vector.replicate 16 OutChan.reset
  drivers := []
  sigDue := []

/-- R139, after power-on. -/
def TimeUnit.reset : TimeUnit where
  corridor := 0
  phase := 0
  locked := false
  syncTimer := .stopped
  closeDue := false

/-- R166, after power-on, with the straps read. -/
def RingUnit.reset (straps : BitVec 6) : RingUnit where
  straps := straps
  forward := []
  inFlight := none
  insert := []
  waiting := []
  run := 0
  quiet := false
  quietTimer := .running 0
  bad := 0
  overflow := 0
  discard := 0

/-- The machine right after power-on reset. The straps read 9 (DESIGN CHOICE, log entry 7), the lines'
inputs are inactive (DESIGN CHOICE, log entry 8), and an idle step lets up to a tenth pass
(DESIGN CHOICE, log entry 2). -/
def State.reset : State where
  pending := []
  stride := Config.tenth
  freeCount := 0
  tables := Tables.unset
  det := DetUnit.reset
  vectors := Vector.replicate 4 vectorFalse
  rate := Vector.replicate 4 RateRec.reset
  ramps := Vector.replicate 4 RampCtx.reset
  lanes := Vector.replicate 12 LaneCtx.reset
  auth := Vector.replicate 4 AuthUnit.reset
  onTimers := Vector.replicate 64 .stopped
  lines := Vector.replicate 8 (LineState.reset false)
  out := OutUnit.reset
  time := TimeUnit.reset
  ring := RingUnit.reset 9#6

end Sys2Proof.Machine
end

