-- ==== Sys2Proof/Machine/Ops.lean ====
section
/-! DEFINITION. Named operations over the state that several blocks share: counts, timers, bytes and
the check, access to one unit's record, and look-ups in the tables. -/

namespace Sys2Proof.Machine

/-! ### Counts and timers -/

/-- A count of 0 to 65535 rises by one and holds at 65535 (R8, R9, R67, R100, R165). -/
def satInc (n : Nat) : Nat := if n < 65535 then n + 1 else 65535

/-- The microseconds of a number of tenths. -/
def tenths (n : Nat) : Nat := n * Config.tenth

/-- The whole tenths in a time (R140: a count rises at the end of each whole tenth). -/
def wholeTenths (us : Nat) : Nat := us / Config.tenth

/-- A remaining time as a count of tenths that falls at the end of each whole tenth that passes
(DEDUCED from R140, log entry 12). -/
def remainingTenths (us : Nat) : Nat := (us + (Config.tenth - 1)) / Config.tenth

/-- Time passes for a running timer. -/
def Timer.advance (d : Nat) : Timer → Timer
  | .running n => .running (n + d)
  | .stopped => .stopped
  | .expired => .expired

/-- The microseconds until a running timer has run for `limit`. -/
def Timer.left (limit : Nat) : Timer → Option Nat
  | .running n => some (limit - n)
  | .stopped => none
  | .expired => none

/-- A timer that is to run: it starts from zero if it is stopped and otherwise runs on. -/
def Timer.keepRunning : Timer → Timer
  | .stopped => .running 0
  | t => t

/-! ### Bytes and the check -/

/-- The number in two bytes, most significant first (spec 11). -/
def num16 (hi lo : Byte) : Nat := hi.toNat * 256 + lo.toNat

/-- Two bytes of a number, most significant first. -/
def be16 (n : Nat) : List Byte := [BitVec.ofNat 8 (n / 256), BitVec.ofNat 8 n]

/-- Three bytes of a number, most significant first. -/
def be24 (n : Nat) : List Byte := [BitVec.ofNat 8 (n / 65536), BitVec.ofNat 8 (n / 256), BitVec.ofNat 8 n]

def byte (n : Nat) : Byte := BitVec.ofNat 8 n

def boolByte (b : Bool) : Byte := if b then 1#8 else 0#8

/-- The station number a destination or source byte carries: bits 0 to 5 (R187). -/
def stationOf (b : Byte) : Nat := b.toNat % 64

/-- One bit into the CRC-16 register: polynomial x^16 + x^12 + x^5 + 1 (R155). -/
def crcBit (reg : BitVec 16) (b : Bool) : BitVec 16 :=
  if reg.msb != b then (reg <<< 1) ^^^ 0x1021#16 else reg <<< 1

/-- One byte into the register, most significant bit first (R155). -/
def crcByte (reg : BitVec 16) (x : Byte) : BitVec 16 :=
  [7, 6, 5, 4, 3, 2, 1, 0].foldl (fun c i => crcBit c (x.getLsbD i)) reg

/-- The check over bytes in the order they are sent; the register starts at all ones (R155). -/
def crc16 (bytes : List Byte) : BitVec 16 := bytes.foldl crcByte 0xFFFF#16

/-- Bytes followed by their check, most significant byte first (R155). -/
def withCheck (bytes : List Byte) : List Byte := bytes ++ be16 (crc16 bytes).toNat

/-- A frame of 11.1: destination, source, kind, payload length, payload, check. -/
def frameBytes (dst src kind : Nat) (payload : List Byte) : List Byte :=
  withCheck ([byte dst, byte src, byte kind, byte payload.length] ++ payload)

/-! ### Vectors -/

/-- Every entry of a vector rewritten from its place and its old value. -/
def vmap {α β : Type} {n : Nat} (f : Fin n → α → β) (v : Vector α n) : Vector β n :=
  Vector.ofFn fun i => f i v[i]

/-- One entry of a vector replaced. -/
def vset {α : Type} {n : Nat} (v : Vector α n) (i : Fin n) (x : α) : Vector α n := v.set i.val x i.isLt

/-! ### One unit's record -/

namespace State

def setRamp (s : State) (r : Ramp) (x : RampCtx) : State := { s with ramps := vset s.ramps r x }

def modRamp (s : State) (r : Ramp) (f : RampCtx → RampCtx) : State := s.setRamp r (f s.ramps[r])

def setLane (s : State) (l : Lane) (x : LaneCtx) : State := { s with lanes := vset s.lanes l x }

def setAuth (s : State) (r : Ramp) (x : AuthUnit) : State := { s with auth := vset s.auth r x }

def setRate (s : State) (r : Ramp) (x : RateRec) : State := { s with rate := vset s.rate r x }

def setVector (s : State) (r : Ramp) (x : Vector Bool 16) : State :=
  { s with vectors := vset s.vectors r x }

def setChan (s : State) (ch : Channel) (x : DetState) : State :=
  { s with det := { s.det with chans := vset s.det.chans ch x } }

def setOut (s : State) (ch : OutCh) (x : OutChan) : State :=
  { s with out := { s.out with chans := vset s.out.chans ch x } }

def setLine (s : State) (l : Line) (x : LineState) : State := { s with lines := vset s.lines l x }

def setOnTimer (s : State) (ch : Channel) (x : Timer) : State :=
  { s with onTimers := vset s.onTimers ch x }

/-- The station address, 2 to 62, or none in PASSIVE mode (R152). -/
def station (s : State) : Option Nat :=
  if 2 ≤ s.ring.straps.toNat ∧ s.ring.straps.toNat ≤ 62 then some s.ring.straps.toNat else none

end State

/-- An operation done for each ramp, A first. -/
def forRamps (f : Ramp → State → State) (s : State) : State := f 3 (f 2 (f 1 (f 0 s)))

/-- An operation done for each member of a list, in its order. -/
def forEach {α : Type} (l : List α) (f : α → State → State) (s : State) : State :=
  l.foldl (fun t a => f a t) s

/-! ### Look-ups in the tables -/

/-- The record of plan n; plan 0 is NONE and has none (R38). -/
def planRec (t : Tables) (n : Nat) : Option PlanRec := if n = 0 then none else (t.plans[n - 1]?).join

/-- The record of curve n (R41). -/
def curveRec (t : Tables) (n : Nat) : Option CurveRec := if n = 0 then none else (t.curves[n - 1]?).join

/-- The condition record c of a ramp: index ramp * 16 + c (R22). -/
def condRec (t : Tables) (r : Ramp) (c : Fin 16) : Option CondRec := (t.conds[r.val * 16 + c.val]?).join

/-- The Match Table entry of a ramp at position - 1: index ramp * 12 + position - 1 (R31). -/
def matchRec (t : Tables) (r : Ramp) (p : Fin 12) : Option MatchRec :=
  (t.matches_[r.val * 12 + p.val]?).join

/-- The Action record of a source 1 to 5: index ramp * 5 + source - 1; FAILSAFE has none (R108). -/
def actionRec (t : Tables) (r : Ramp) (k : Source) : Option ActionRec :=
  if k = 0 then none else (t.actions[r.val * 5 + k.val - 1]?).join

/-- The window length W (R172). -/
def windowLength (t : Tables) : Nat := t.settings.getD Config.defaultWindow

/-- The lanes of a ramp's list, in position order; none while its Ramp Config is unset (R54). -/
def lanesOf (t : Tables) (r : Ramp) : List Lane :=
  match t.rampCfg[r] with
  | some c => c.lanes
  | none => []

/-- The ramp whose set Ramp Config lists a lane (R82). -/
def rampOfLane (t : Tables) (l : Lane) : Option Ramp :=
  (List.finRange 4).find? fun r => (lanesOf t r).contains l

/-- The head channel a set Lane Config names (R77). -/
def headOf (t : Tables) (l : Lane) : Option OutCh := (t.laneCfg[l]).map (·.head)

/-- The beacon channel a set Ramp Config names (R54). -/
def beaconOf (t : Tables) (r : Ramp) : Option OutCh := (t.rampCfg[r]).bind (·.beacon)

/-- A channel belongs to a ramp: the head of a listed lane, or the beacon (R130). -/
def belongs (t : Tables) (r : Ramp) (ch : OutCh) : Bool :=
  beaconOf t r == some ch || (lanesOf t r).any fun l => headOf t l == some ch

/-- The ramp a channel belongs to (R130). -/
def ownerOf (t : Tables) (ch : OutCh) : Option Ramp := (List.finRange 4).find? fun r => belongs t r ch

/-- A checked channel: its record is set with lamp check ON and it belongs to a ramp (R130). -/
def isChecked (t : Tables) (ch : OutCh) : Bool :=
  match t.outMap[ch] with
  | some o => o.lampCheck && (ownerOf t ch).isSome
  | none => false

/-- A ramp is in use while its state is other than OFF (R175). -/
def inUse (s : State) (r : Ramp) : Bool := decide ((s.ramps[r]).state ≠ .off)

end Sys2Proof.Machine
end

