-- ==== Sys2Proof/Machine/Operands.lean ====
section
/-! DEFINITION. The operands of the part's commands as bytes: the ten table records of spec 11, 11.6, their
shape (R188), their reading with the range tests of each table's rule, and their form when read back.
A reader answers none where a field lies outside its range or holds an undefined code: BADVALUE. -/

namespace Sys2Proof.Machine

/-! ### Fields -/

/-- A number as a member of a bounded type. -/
def asFin (n k : Nat) : Option (Fin n) := if h : k < n then some ⟨k, h⟩ else none

/-- A lane number 1 to 12. -/
def asLane (b : Byte) : Option Lane := if b.toNat = 0 then none else asFin 12 (b.toNat - 1)

/-- The lane number of a lane. -/
def laneNumber (l : Lane) : Byte := byte (l.val + 1)

/-- A two-valued field: 0 for the first named, 1 for the second (11.5). -/
def asBool (b : Byte) : Option Bool := if b = 0#8 then some false else if b = 1#8 then some true else none

/-- A number within a range, both ends included. -/
def within (lo hi n : Nat) : Option Nat := if lo ≤ n ∧ n ≤ hi then some n else none

/-- An optional field: absent at a code, otherwise read. -/
def optional {α : Type} (absent : Byte) (read : Byte → Option α) (b : Byte) : Option (Option α) :=
  if b = absent then some none else (read b).map some

/-- Every member of a list read, none where one cannot be. -/
def readAll {α : Type} (read : Byte → Option α) : List Byte → Option (List α)
  | [] => some []
  | b :: bs => do
    let x ← read b
    let xs ← readAll read bs
    pure (x :: xs)

/-- Numbers of two bytes each. -/
def pairs16 : List Byte → List Nat
  | hi :: lo :: rest => num16 hi lo :: pairs16 rest
  | _ => []

/-! ### Shape (R188) -/

/-- The bytes that a Rate Plan's presence byte calls for (11.6, table 4, order 4). -/
def presentLength (p : Byte) : Nat :=
  (if p.getLsbD 0 then 1 else 0) + (if p.getLsbD 1 then 1 else 0) + (if p.getLsbD 2 then 1 else 0)
    + (if p.getLsbD 3 then 2 else 0) + (if p.getLsbD 4 then 1 else 0) + (if p.getLsbD 5 then 1 else 0)

/-- The length that a record's own count and presence fields give it; none where such a field is cut
off (R188). -/
def recordLength (table : Nat) (bytes : List Byte) : Option Nat :=
  match table with
  | 1 => some 11
  | 2 => (bytes[0]?).map fun k => 9 + k.toNat
  | 3 => some 6
  | 4 => do
    let p ← bytes[1]?
    let m ← bytes[4 + presentLength p]?
    pure (6 + presentLength p + 2 * m.toNat)
  | 5 => (bytes[0]?).map fun c => 1 + c.toNat + (c.toNat + 3) / 4 + c.toNat
  | 6 => (bytes[0]?).map fun k => 18 + k.toNat
  | 7 => some 10
  | 8 => some 4
  | 9 => some 4
  | 10 => some 2
  | _ => some bytes.length

/-- A TABLE WRITE's record is neither cut short nor runs on (R169 row 1, R188); a table id outside 1 to 10
takes every byte. -/
def shapeOk (table : Nat) (bytes : List Byte) : Bool := recordLength table bytes == some bytes.length

/-! ### Table 1, Detector Map (R1, R2) -/

def roleOf (b : Byte) : Option Role :=
  match b.toNat with
  | 0 => some .mainline
  | 1 => some .demand
  | 2 => some .passage
  | 3 => some .queue
  | 4 => some .spillback
  | 5 => some .other
  | _ => none

def roleCode : Role → Byte
  | .mainline => 0#8
  | .demand => 1#8
  | .passage => 2#8
  | .queue => 3#8
  | .spillback => 4#8
  | .other => 5#8

/-- The number of ramps in a ramp set. -/
def setSize (x : BitVec 4) : Nat := ((List.finRange 4).filter fun r => x.getLsbD r.val).length

/-- The role's demands on ramp set and lane (R2). -/
def roleOk (role : Role) (ramps : BitVec 4) (lane : Option Lane) : Bool :=
  match role with
  | .mainline => setSize ramps != 0 && lane.isNone
  | .queue => setSize ramps == 1 && lane.isNone
  | .spillback => setSize ramps == 1 && lane.isNone
  | .other => lane.isNone
  | .demand => setSize ramps == 0 && lane.isSome
  | .passage => setSize ramps == 0 && lane.isSome

def readDet : List Byte → Option DetRec
  | [st, inp, role, ramps, lane, filter, s1, s0, chatter, sub, mode] => do
    let station ← within 2 62 st.toNat
    let input ← within 0 7 inp.toNat
    let role ← roleOf role
    let ramps ← within 0 15 ramps.toNat
    let lane ← optional 0#8 asLane lane
    let filter ← within 0 10 filter.toNat
    let stuckLimit ← within 100 36000 (num16 s1 s0)
    let chatterLimit ← within 1 255 chatter.toNat
    let subst ← asBool sub
    let always ← asBool mode
    if roleOk role (BitVec.ofNat 4 ramps) lane then
      some { station, input, role, ramps := BitVec.ofNat 4 ramps, lane, filter, stuckLimit, chatterLimit,
             subst, always }
    else none
  | _ => none

def writeDet (d : DetRec) : List Byte :=
  [byte d.station, byte d.input, roleCode d.role, byte d.ramps.toNat,
    (match d.lane with | some l => laneNumber l | none => 0#8), byte d.filter]
  ++ be16 d.stuckLimit ++ [byte d.chatterLimit, boolByte d.subst, boolByte d.always]

/-! ### Table 2, Condition Definitions (R22, R23) -/

/-- Threshold and hysteresis fit the measure and the comparison (R22, R23). -/
def bandOk (flow below : Bool) (threshold hysteresis : Nat) : Bool :=
  let top := if flow then 9000 else 1000
  decide (threshold ≤ top) && decide (hysteresis ≤ top)
    && (if below then decide (threshold + hysteresis ≤ top) else decide (hysteresis ≤ threshold))

def readCond : List Byte → Option CondRec
  | [] => none
  | k :: rest => do
    let chans ← readAll (fun b => asFin 64 b.toNat) (rest.take k.toNat)
    match rest.drop k.toNat with
    | [measure, comparison, t1, t0, h1, h0, sub, force] =>
      let flow ← asBool measure
      let below ← asBool comparison
      let subst ← asBool sub
      let force ← asBool force
      if 1 ≤ k.toNat ∧ k.toNat ≤ 4 ∧ chans.Nodup ∧ bandOk flow below (num16 t1 t0) (num16 h1 h0) then
        some { chans, flow, below, threshold := num16 t1 t0, hysteresis := num16 h1 h0, subst, force }
      else none
    | _ => none

def writeCond (c : CondRec) : List Byte :=
  [byte c.chans.length] ++ c.chans.map (fun ch => byte ch.val) ++ [boolByte c.flow, boolByte c.below]
    ++ be16 c.threshold ++ be16 c.hysteresis ++ [boolByte c.subst, boolByte c.force]

/-! ### Table 3, Match Table (R31) -/

def readMatch : List Byte → Option MatchRec
  | [v1, v0, c1, c0, plan, pers] => do
    let plan ← within 0 32 plan.toNat
    let persistence ← optional 0#8 (fun b => within 1 10 b.toNat) pers
    pure { value := v1 ++ v0, care := c1 ++ c0, plan, persistence }
  | _ => none

def writeMatch (m : MatchRec) : List Byte :=
  be16 m.value.toNat ++ be16 m.care.toNat ++ [byte m.plan, byte (m.persistence.getD 0)]

/-! ### Table 4, Rate Plans (R38, R39) -/

/-- The next bytes of a list when a presence bit is set. -/
def takeIf (present : Bool) (n : Nat) (l : List Byte) : List Byte × List Byte :=
  if present then (l.take n, l.drop n) else ([], l)

/-- The ADAPTIVE fields as they lie, in order; the presence byte says which are there. -/
def readAdaptive (p : Byte) (slot : Nat) (l : List Byte) : Option Adaptive := do
  let a := takeIf (p.getLsbD 0) 1 l
  let b := takeIf (p.getLsbD 1) 1 a.2
  let c := takeIf (p.getLsbD 2) 1 b.2
  let q := takeIf (p.getLsbD 3) 2 c.2
  let s := takeIf (p.getLsbD 4) 1 q.2
  let h := takeIf (p.getLsbD 5) 1 s.2
  match a.1, b.1, c.1, s.1, h.1 with
  | [a], [b], [c], [s], [h] =>
    let minSlot ← within 20 150 a.toNat
    let maxSlot ← within 20 150 b.toNat
    let curve ← within 1 8 c.toNat
    let reliefStep ← within 0 20 s.toNat
    let reliefHyst ← within 0 200 h.toNat
    let _ ← within minSlot maxSlot slot
    match q.1 with
    | [t1, t0] =>
      let t ← within 0 1000 (num16 t1 t0)
      let _ ← within 0 t reliefHyst
      pure { minSlot, maxSlot, curve, queueThreshold := some t, reliefStep, reliefHyst }
    | _ => pure { minSlot, maxSlot, curve, queueThreshold := none, reliefStep, reliefHyst }
  | _, _, _, _, _ => none

/-- The part of a record that follows the ADAPTIVE fields: period, masks, coordinated. -/
def readPattern (l : List Byte) : Option (Nat × Vector (BitVec 16) 4 × Bool) :=
  match l with
  | [period, m, a1, a0, b1, b0, c1, c0, d1, d0, coord] => do
    let period ← within 1 16 period.toNat
    let coordinated ← asBool coord
    if m.toNat = 4 then
      some (period, #v[a1 ++ a0, b1 ++ b0, c1 ++ c0, d1 ++ d0], coordinated)
    else none
  | _ => none

/-- A Rate Plan; presence bits that name no field are 0 (R188 leaves them to the value test). -/
def readPlan : List Byte → Option PlanRec
  | mode :: p :: slot :: rest => do
    let adaptiveMode ← asBool mode
    let slot ← within 20 150 slot.toNat
    let pattern ← readPattern (rest.drop (presentLength p))
    if adaptiveMode then
      let a ← if p.getLsbD 6 ∨ p.getLsbD 7 then none else readAdaptive p slot (rest.take (presentLength p))
      some { slot, adaptive := some a, period := pattern.1, masks := pattern.2.1, coordinated := pattern.2.2 }
    else if p = 0#8 then
      some { slot, adaptive := none, period := pattern.1, masks := pattern.2.1, coordinated := pattern.2.2 }
    else none
  | _ => none

def writeAdaptive (a : Adaptive) : List Byte :=
  [byte a.minSlot, byte a.maxSlot, byte a.curve]
    ++ (match a.queueThreshold with | some t => be16 t | none => [])
    ++ [byte a.reliefStep, byte a.reliefHyst]

/-- The presence byte of a stored record. -/
def presenceByte (p : PlanRec) : Byte :=
  match p.adaptive with
  | none => 0#8
  | some a => if a.queueThreshold.isSome then 0x3F#8 else 0x37#8

def writePlan (p : PlanRec) : List Byte :=
  [boolByte p.adaptive.isSome, presenceByte p, byte p.slot]
    ++ (match p.adaptive with | some a => writeAdaptive a | none => [])
    ++ [byte p.period, 4#8] ++ p.masks.toList.flatMap (fun m => be16 m.toNat) ++ [boolByte p.coordinated]

/-! ### Table 5, Occupancy Curves (R41) -/

/-- The high two bits of breakpoint `i`, from 0 (11.6, table 5). -/
def highBits (high : List Byte) (i : Nat) : Nat := ((high[i / 4]?).getD 0#8).toNat / 4 ^ (i % 4) % 4

/-- The unused pairs of the high-bits bytes are 0 (11.6; a record has one form, R170; log entry 20). -/
def unusedPairsZero (c : Nat) (high : List Byte) : Bool :=
  (List.range (4 * high.length)).all fun i => decide (i < c) || decide (highBits high i = 0)

/-- The tests of R41 on the points. -/
def pointsOk (l : List (Nat × Nat)) : Bool :=
  decide (2 ≤ l.length ∧ l.length ≤ 16)
    && (l.all fun p => decide (p.1 ≤ 1000 ∧ 20 ≤ p.2 ∧ p.2 ≤ 150))
    && decide ((l.map (·.1)).head? = some 0)
    && decide ((l.map (·.1)).Pairwise (· < ·))
    && decide ((l.map (·.2)).Pairwise (· ≤ ·))

def readCurve : List Byte → Option CurveRec
  | [] => none
  | c :: rest =>
    let n := c.toNat
    let high := (rest.drop n).take ((n + 3) / 4)
    let breaks := (rest.take n).zipIdx.map fun p => p.1.toNat + 256 * highBits high p.2
    let points := breaks.zip ((rest.drop (n + (n + 3) / 4)).map (·.toNat))
    if pointsOk points ∧ points.length = n ∧ unusedPairsZero n high then some { points } else none

/-- One byte of high bits: the pairs of four points. -/
def highByte (l : List (Nat × Nat)) (j : Nat) : Byte :=
  byte (((List.range 4).map fun q => ((l[4 * j + q]?).map (·.1)).getD 0 / 256 * 4 ^ q).sum)

def writeCurve (c : CurveRec) : List Byte :=
  [byte c.points.length] ++ c.points.map (fun p => byte p.1)
    ++ (List.range ((c.points.length + 3) / 4)).map (highByte c.points)
    ++ c.points.map (fun p => byte p.2)

/-! ### Table 6, Ramp Config (R54, R55) -/

def readRamp : List Byte → Option RampRec
  | [] => none
  | k :: rest => do
    let lanes ← readAll asLane (rest.take k.toNat)
    match rest.drop k.toNat with
    | [beacon, dplan, w1, w0, sg, sy, sr, f1, f0, o1, o0, pre, pan, on1, on0, cl1, cl0] =>
      let beacon ← optional 255#8 (fun b => asFin 16 b.toNat) beacon
      let defaultPlan ← within 0 32 dplan.toNat
      let warn ← within 50 600 (num16 w1 w0)
      let startGreen ← within 30 150 sg.toNat
      let startYellow ← within 30 50 sy.toNat
      let startRed ← within 20 100 sr.toNat
      let shutFlush ← within 50 600 (num16 f1 f0)
      let offset ← within 0 1499 (num16 o1 o0)
      let preLine ← optional 255#8 (fun b => asFin 4 b.toNat) pre
      let panelLine ← optional 255#8 (fun b => asFin 4 b.toNat) pan
      let spillOn ← within 50 600 (num16 on1 on0)
      let spillClear ← within 20 600 (num16 cl1 cl0)
      if 1 ≤ k.toNat ∧ k.toNat ≤ 4 ∧ lanes.Nodup then
        some { lanes, beacon, defaultPlan, warn, startGreen, startYellow, startRed, shutFlush, offset,
               preLine, panelLine, spillOn, spillClear }
      else none
    | _ => none

/-- An optional channel or line number, 255 when absent. -/
def optByte {n : Nat} (x : Option (Fin n)) : Byte :=
  match x with
  | some k => byte k.val
  | none => 255#8

def writeRamp (c : RampRec) : List Byte :=
  [byte c.lanes.length] ++ c.lanes.map laneNumber ++ [optByte c.beacon, byte c.defaultPlan] ++ be16 c.warn
    ++ [byte c.startGreen, byte c.startYellow, byte c.startRed] ++ be16 c.shutFlush ++ be16 c.offset
    ++ [optByte c.preLine, optByte c.panelLine] ++ be16 c.spillOn ++ be16 c.spillClear

/-! ### Table 7, Lane Config (R77, R78) -/

/-- The yellow is 0 or 20 to 50 (R78). -/
def readYellow (n : Nat) : Option Nat := if n = 0 then some 0 else within 20 50 n

def readLane : List Byte → Option LaneRec
  | [head, demand, passage, mode, delay, maxg, ming, yellow, minr, veh] => do
    let head ← asFin 16 head.toNat
    let demand ← asFin 64 demand.toNat
    let passage ← optional 255#8 (fun b => asFin 64 b.toNat) passage
    let presence ← asBool mode
    let delay ← within 0 20 delay.toNat
    let maxGreen ← within 10 50 maxg.toNat
    let minGreen ← within 5 maxGreen ming.toNat
    let yellow ← readYellow yellow.toNat
    let minRed ← within 10 50 minr.toNat
    let vehicles ← within 1 3 veh.toNat
    if passage ≠ some demand then
      some { head, demand, passage, lock := !presence, delay, maxGreen, minGreen, yellow, minRed, vehicles }
    else none
  | _ => none

def writeLane (c : LaneRec) : List Byte :=
  [byte c.head.val, byte c.demand.val, optByte c.passage, boolByte (!c.lock), byte c.delay, byte c.maxGreen,
    byte c.minGreen, byte c.yellow, byte c.minRed, byte c.vehicles]

/-! ### Table 8, Output Map (R125, R126) -/

def readOut : List Byte → Option OutRec
  | [st, out, use, check] => do
    let station ← within 2 62 st.toNat
    let output ← asFin 8 out.toNat
    let beacon ← asBool use
    let lampCheck ← asBool check
    pure { station, output, beacon, lampCheck }
  | _ => none

def writeOut (o : OutRec) : List Byte :=
  [byte o.station, byte o.output.val, boolByte o.beacon, boolByte o.lampCheck]

/-! ### Table 9, Actions (R108) -/

/-- The kind with its plan: present for PLAN, absent otherwise. -/
def kindOf (code plan : Nat) : Option ActionKind :=
  match code with
  | 1 => if plan = 0 then some .dark else none
  | 2 => if plan = 0 then some .flush else none
  | 3 => if plan = 0 then some .hold else none
  | 4 => (within 1 32 plan).map .plan
  | _ => none

/-- The hold cap's range for its kind; 0 is absent, which HOLD does not allow. -/
def capOf (kind : ActionKind) (n : Nat) : Option (Option Nat) :=
  match kind with
  | .hold => (within 10 3000 n).map some
  | .dark => if n = 0 then some none else (within 10 36000 n).map some
  | .flush => if n = 0 then some none else (within 10 36000 n).map some
  | .plan _ => if n = 0 then some none else (within 10 36000 n).map some

def readAction : List Byte → Option ActionRec
  | [kind, plan, c1, c0] => do
    let kind ← kindOf kind.toNat plan.toNat
    let cap ← capOf kind (num16 c1 c0)
    pure { kind, cap }
  | _ => none

def kindBytes : ActionKind → List Byte
  | .dark => [1#8, 0#8]
  | .flush => [2#8, 0#8]
  | .hold => [3#8, 0#8]
  | .plan n => [4#8, byte n]

def writeAction (a : ActionRec) : List Byte := kindBytes a.kind ++ be16 (a.cap.getD 0)

/-! ### Table 10, Part Settings (R172) -/

/-- The window lengths a record may hold (R172). -/
def windowLengths : List Nat := [100, 120, 150, 200, 240, 300, 400, 600]

def readSettings : List Byte → Option Nat
  | [w1, w0] => if num16 w1 w0 ∈ windowLengths then some (num16 w1 w0) else none
  | _ => none

/-! ### Records read back (R170, R173) -/

/-- The index range of a table, first and last (R170). -/
def indexRange (table : Nat) : Option (Nat × Nat) :=
  match table with
  | 1 => some (0, 63)
  | 2 => some (0, 63)
  | 3 => some (0, 47)
  | 4 => some (1, 32)
  | 5 => some (1, 8)
  | 6 => some (0, 3)
  | 7 => some (1, 12)
  | 8 => some (0, 15)
  | 9 => some (0, 19)
  | 10 => some (0, 0)
  | _ => none

/-- The indices of a table in ascending order. -/
def indicesOf (table : Nat) : List Nat :=
  match indexRange table with
  | some (lo, hi) => (List.range (hi + 1 - lo)).map fun i => lo + i
  | none => []

/-- The stored record at an index in the form of 11.6, none when it is unset. -/
def storedRecord (t : Tables) (table index : Nat) : Option (List Byte) :=
  match table with
  | 1 => (t.detMap[index]?).join.map writeDet
  | 2 => (t.conds[index]?).join.map writeCond
  | 3 => (t.matches_[index]?).join.map writeMatch
  | 4 => (planRec t index).map writePlan
  | 5 => (curveRec t index).map writeCurve
  | 6 => (t.rampCfg[index]?).join.map writeRamp
  | 7 => if index = 0 then none else (t.laneCfg[index - 1]?).join.map writeLane
  | 8 => (t.outMap[index]?).join.map writeOut
  | 9 => (t.actions[index]?).join.map writeAction
  | 10 => t.settings.map be16
  | _ => none

end Sys2Proof.Machine
end

