-- ==== Sys2Proof/Machine/Flags.lean ====
section
/-! DEFINITION. Attention (R76) and the flag bits of responses and forwarded frames (spec 11). -/

namespace Sys2Proof.Machine

/-- A ramp's attention becomes SET (R76). -/
def setAttention (r : Ramp) (s : State) : State := s.modRamp r fun c => { c with attention := true }

/-- Attention becomes SET where a condition says that a watched field changed (R76). -/
def attentionIf (b : Bool) (r : Ramp) (s : State) : State := if b then setAttention r s else s

/-- The attention of the ramp a channel belongs to becomes SET: its fault set changed (R113). -/
def attentionOwner (ch : OutCh) (s : State) : State :=
  match ownerOf s.tables ch with
  | some r => setAttention r s
  | none => s

/-- A number whose bit i is the i-th flag. -/
def flagBits : List Bool → Nat
  | [] => 0
  | b :: bs => (if b then 1 else 0) + 2 * flagBits bs

/-- Byte 2 of an RSP: attention of ramps A to D in bits 0 to 3, sync state in bit 4 (spec 11, 11.3). -/
def rspFlags (s : State) : Byte :=
  byte (flagBits [(s.ramps[(0 : Ramp)]).attention, (s.ramps[(1 : Ramp)]).attention,
    (s.ramps[(2 : Ramp)]).attention, (s.ramps[(3 : Ramp)]).attention, s.time.locked])

/-- The verdict a channel's state gives (R158): FORCED under ALWAYS, else by health. The health is never
UNSEEN or SILENT after the frame has been applied; for those two the card's verdict would stay. -/
def verdictCode (d : DetRec) (c : DetState) : Option (BitVec 3) :=
  if d.always then some 5#3
  else match c.health with
    | .ok => some 1#3
    | .stuck => some 2#3
    | .chatter => some 3#3
    | .loopFault => some 4#3
    | .unseen => none
    | .silent => none

/-- A DPR input byte with its verdict, bits 4 to 6, replaced; the other bits stay (R187). -/
def setVerdict (b : Byte) (v : BitVec 3) : Byte := (b &&& 0x8F#8) ||| (v.zeroExtend 8 <<< 4)

end Sys2Proof.Machine
end

