-- ==== Sys2Proof/Machine/Outputs.lean ====
section
/-! DEFINITION. Output Unit (spec 07): commanded aspects, the lamp check and its latches, and the
images of the driver stations. A change made here marks the driver stations that get a SIG
(`sigDue`); the SIGs are enqueued when the event's effects are complete (Machine/Ring.lean). -/

namespace Sys2Proof.Machine

/-- The driver record of a station (R128). -/
def driverOf (o : OutUnit) (st : Nat) : Option DriverRec := o.drivers.find? fun d => d.station == st

/-- The silence timer of a station has expired and no LMP has come since (R135). -/
def silentStation (o : OutUnit) (st : Nat) : Bool :=
  match driverOf o st with
  | some d => decide (d.silence = .expired)
  | none => false

/-- The driver record of a station rewritten. -/
def modDriver (st : Nat) (f : DriverRec → DriverRec) (l : List DriverRec) : List DriverRec :=
  l.map fun d => if d.station = st then f d else d

/-- A driver record put in its place by station number. -/
def insertDriver (x : DriverRec) : List DriverRec → List DriverRec
  | [] => [x]
  | d :: ds => if x.station < d.station then x :: d :: ds else d :: insertDriver x ds

/-- A station put in its place among those due a SIG, once. -/
def insertStation (st : Nat) : List Nat → List Nat
  | [] => [st]
  | x :: xs => if st = x then x :: xs else if st < x then st :: x :: xs else x :: insertStation st xs

/-- The event enqueues a SIG for a station (R131). -/
def dueSig (st : Nat) (s : State) : State :=
  { s with out := { s.out with sigDue := insertStation st s.out.sigDue } }

/-- The event enqueues a SIG for the station whose image holds a channel (R131). -/
def dueSigOf (ch : OutCh) (s : State) : State :=
  match s.tables.outMap[ch] with
  | some o => dueSig o.station s
  | none => s

/-- A channel's reports disagree with its command (R133), its check and latch apart. -/
def disagrees (c : OutChan) : Bool :=
  match c.reported with
  | .absent => false
  | .notCarried => c.lampOut || decide (c.commanded ≠ .dark)
  | .shows a => c.lampOut || decide (a ≠ c.commanded)

/-- A checked channel is in mismatch (R133). -/
def inMismatch (t : Tables) (ch : OutCh) (c : OutChan) : Bool :=
  isChecked t ch && !c.fault && disagrees c

/-- The mismatch judgement of R133: the timer starts where the channel enters mismatch, runs on while
it stays there, and is stopped where it leaves. -/
def judgeMismatch (ch : OutCh) (s : State) : State :=
  s.setOut ch { s.out.chans[ch] with
    mismatch := if inMismatch s.tables ch s.out.chans[ch] then (s.out.chans[ch]).mismatch.keepRunning
      else .stopped }

/-- A lamp fault latches; the timer stops and the owner's fault set changes (R134, R113). -/
def latchFault (ch : OutCh) (s : State) : State :=
  attentionOwner ch (s.setOut ch { s.out.chans[ch] with fault := true, mismatch := .stopped })

/-- A checked, unlatched channel that is commanded lit has its fault latched while its driver is
silent (R135). -/
def judgeSilence (ch : OutCh) (s : State) : State :=
  match s.tables.outMap[ch] with
  | some o =>
    if isChecked s.tables ch && !(s.out.chans[ch]).fault
        && decide ((s.out.chans[ch]).commanded ≠ .dark) && silentStation s.out o.station
    then latchFault ch s else s
  | none => s

/-- A channel becomes checked or is unlatched: it is judged at once (R130, R136). -/
def judgeChannel (ch : OutCh) (s : State) : State := judgeSilence ch (judgeMismatch ch s)

/-- The silence latch of a change of commanded aspect: only a change from DARK to another aspect (R135). -/
def judgeLit (old : Aspect) (ch : OutCh) (s : State) : State :=
  if old = .dark then judgeSilence ch s else s

/-- The commanded aspect of a channel is set (R129). A change enqueues a SIG (R131), is judged for
mismatch (R133) and, when it lights a channel of a silent driver, latches (R135). Where one event changes the
aspect more than once, each change is judged, a passing DARK too (DESIGN CHOICE, log entry 35). -/
def setAspect (ch : OutCh) (a : Aspect) (s : State) : State :=
  if (s.out.chans[ch]).commanded = a then s
  else judgeLit (s.out.chans[ch]).commanded ch
    (judgeMismatch ch (dueSigOf ch (s.setOut ch { s.out.chans[ch] with commanded := a })))

/-- A latched fault is unlatched; the owner's fault set changes (R134, R113). -/
def unlatch (ch : OutCh) (s : State) : State :=
  attentionOwner ch (s.setOut ch { s.out.chans[ch] with fault := false })

/-- CLEAR FAULT for one channel of the ramp: a latched fault is unlatched and judged at once (R136). -/
def clearLatched (ch : OutCh) (s : State) : State :=
  if (s.out.chans[ch]).fault then judgeChannel ch (unlatch ch s) else s

/-- A ramp's channels that hold a latched lamp fault, ascending (R113). -/
def faultedChannels (s : State) (r : Ramp) : List OutCh :=
  (List.finRange 16).filter fun ch => belongs s.tables r ch && (s.out.chans[ch]).fault

/-! ### SIG images (R131) -/

/-- The channel whose set record names a station and output. -/
def channelAt (t : Tables) (st : Nat) (k : Fin 8) : Option OutCh :=
  (List.finRange 16).find? fun ch =>
    match t.outMap[ch] with
    | some o => o.station == st && decide (o.output = k)
    | none => false

/-- A station is named by some set record of the Output Map (R125). -/
def namesStation (t : Tables) (st : Nat) : Bool :=
  (List.finRange 16).any fun ch =>
    match t.outMap[ch] with
    | some o => o.station == st
    | none => false

/-- One more than the highest driver output named for a station (R131). -/
def outputCount (t : Tables) (st : Nat) : Nat :=
  ((List.finRange 8).filter fun k => (channelAt t st k).isSome).foldl (fun m k => max m (k.val + 1)) 0

/-- The image of a station: the commanded aspect at each output, DARK where no record names it; the
last SIG of a station that has left the map is eight DARK outputs (R127, R131). -/
def sigImage (s : State) (st : Nat) : List Aspect :=
  if namesStation s.tables st then
    ((List.finRange 8).take (outputCount s.tables st)).map fun k =>
      match channelAt s.tables st k with
      | some ch => (s.out.chans[ch]).commanded
      | none => .dark
  else List.replicate 8 .dark

/-! ### Lamp reports (R132, R187) -/

/-- The aspect of an aspect code 0 to 4 (11.5). -/
def aspectOfCode (n : Nat) : Option Aspect :=
  match n with
  | 0 => some .dark
  | 1 => some .red
  | 2 => some .yellow
  | 3 => some .green
  | 4 => some .flash
  | _ => none

/-- The aspect code of an aspect (11.5). -/
def aspectCode : Aspect → Byte
  | .dark => 0#8
  | .red => 1#8
  | .yellow => 2#8
  | .green => 3#8
  | .flash => 4#8

/-- A channel's report from the output byte the LMP carries for it, if it carries one (R132, R187). -/
def reportFrom (b : Option Byte) (c : OutChan) : OutChan :=
  match b with
  | none => { c with reported := .notCarried, lampOut := false }
  | some b =>
    { c with
      reported := match aspectOfCode (b.toNat % 8) with
        | some a => .shows a
        | none => .notCarried
      lampOut := b.getLsbD 3 }

/-- One channel's part of an LMP from a station (R132, steps 2 and 3). -/
def lampReportChannel (st : Nat) (outs : List Byte) (ch : OutCh) (s : State) : State :=
  match s.tables.outMap[ch] with
  | some o =>
    if o.station = st then
      judgeMismatch ch (s.setOut ch (reportFrom (outs[o.output.val]?) s.out.chans[ch]))
    else s
  | none => s

/-- An LMP from a station, with the output bytes it carries (R132); one from a station that is not a
driver station changes nothing. -/
def lampReport (st : Nat) (outs : List Byte) (s : State) : State :=
  match driverOf s.out st with
  | none => s
  | some _ =>
    forEach (List.finRange 16) (lampReportChannel st outs)
      { s with out := { s.out with
          drivers := modDriver st (fun d => { d with silence := .running 0 }) s.out.drivers } }

/-! ### Expiries -/

/-- The mismatch timer of a channel has run for 15 tenths: its fault latches (R134). -/
def mismatchExpired (ch : OutCh) (s : State) : State := latchFault ch s

/-- One channel at its station's silence expiry (R135). -/
def silenceLatch (st : Nat) (ch : OutCh) (s : State) : State :=
  match s.tables.outMap[ch] with
  | some o => if o.station = st then judgeSilence ch s else s
  | none => s

/-- The silence timer of a station has run for 50 tenths (R135). -/
def driverSilent (st : Nat) (s : State) : State :=
  forEach (List.finRange 16) (silenceLatch st)
    { s with out := { s.out with
        drivers := modDriver st (fun d => { d with silence := .expired }) s.out.drivers } }

/-! ### Belonging and the Output Map (R127, R130) -/

/-- A channel after a write or clear that may change which channels are checked (R130): one that ceases
to be checked stops its timer and is unlatched, the ramp it belonged to seeing its fault set change;
one that becomes checked is judged. -/
def reviewCheckedChannel (before : Tables) (ch : OutCh) (s : State) : State :=
  if isChecked before ch && !isChecked s.tables ch then
    let s' := s.setOut ch { s.out.chans[ch] with mismatch := .stopped, fault := false }
    match ownerOf before ch with
    | some r => attentionIf (s.out.chans[ch]).fault r s'
    | none => s'
  else if !isChecked before ch && isChecked s.tables ch then judgeChannel ch s
  else s

/-- All channels after a write or clear of a Lane Config or Ramp Config record (R130). -/
def reviewChecked (before : Tables) (s : State) : State :=
  forEach (List.finRange 16) (reviewCheckedChannel before) s

/-- A channel's record at an Output Map write or clear: reset values, the commanded aspect kept (R127). -/
def resetOutChan (c : OutChan) : OutChan := { OutChan.reset with commanded := c.commanded }

/-- A station's driver record after an Output Map write or clear: formed when the station enters the
map, its silence timer starting from zero; discarded when it leaves (R127). -/
def reviewDriver (st : Nat) (s : State) : State :=
  if namesStation s.tables st then
    match driverOf s.out st with
    | some _ => s
    | none => { s with out := { s.out with
        drivers := insertDriver ⟨st, .stopped, .running 0⟩ s.out.drivers } }
  else { s with out := { s.out with drivers := s.out.drivers.filter fun d => d.station != st } }

/-- A station that the old or the new record of an Output Map write or clear names: its driver record is reviewed and
a SIG is enqueued for it (R127), where the record written equals the stored one too (R171); that a record which
differs in its use alone gets the same is DEDUCED, log entry 36. -/
def touchStation (st : Option Nat) (s : State) : State :=
  match st with
  | some st => dueSig st (reviewDriver st s)
  | none => s

/-- An accepted write (`some`) or clear (`none`) of an Output Map record (R127). -/
def putOutMap (ch : OutCh) (rec : Option OutRec) (s : State) : State :=
  let old := s.tables.outMap[ch]
  let owner := ownerOf s.tables ch
  let s1 := ({ s with tables := { s.tables with outMap := vset s.tables.outMap ch rec } }).setOut ch
    (resetOutChan s.out.chans[ch])
  let s2 := match owner with
    | some r => attentionIf (s.out.chans[ch]).fault r s1
    | none => s1
  judgeSilence ch (touchStation (rec.map (·.station)) (touchStation (old.map (·.station)) s2))

end Sys2Proof.Machine
end

