-- ==== Sys2Proof/Machine/Lanes.lean ====
section
/-! DEFINITION. Lane Sequencers (spec 05): states, calls, offers, the release interval, passages,
the ramp's orders and the window counts. -/

namespace Sys2Proof.Machine

/-! ### What a lane reads of its detector channels -/

/-- Effective presence (R13). -/
def effective (d : Option DetRec) (c : DetState) : Bool :=
  match d with
  | none => false
  | some d => if d.always then d.subst else if c.health = .ok then c.filtered else d.subst

/-- Effective presence of a channel as the state stands (R13). -/
def effectiveOf (s : State) (ch : Channel) : Bool := effective s.tables.detMap[ch] s.det.chans[ch]

/-! ### States and aspects (R81) -/

def laneAspect : LaneState → Aspect
  | .dark => .dark
  | .greenRest => .green
  | .green => .green
  | .yellow => .yellow
  | .delay => .red
  | .minRed => .red
  | .restRed => .red

/-- A lane's record written, and the aspect of its state set on its head channel (R81, R129). -/
def putLane (l : Lane) (x : LaneCtx) (s : State) : State :=
  match s.tables.laneCfg[l] with
  | some c => setAspect c.head (laneAspect x.state) (s.setLane l x)
  | none => s.setLane l x

/-! ### The interval (R89) -/

/-- The microseconds from the release at which the delay ends, absent in a clearing interval. -/
def Interval.delayEnd (v : Interval) : Option Nat := v.release.map fun c => tenths c.delay

/-- The minimum green point. -/
def Interval.minPoint (v : Interval) : Option Nat := v.release.map fun c => tenths (c.delay + c.minGreen)

/-- The maximum green point. -/
def Interval.maxPoint (v : Interval) : Option Nat := v.release.map fun c => tenths (c.delay + c.maxGreen)

/-- The yellow end: green end + yellow. -/
def Interval.yellowEnd (v : Interval) : Option Nat := v.greenEnd.map fun g => g + tenths v.yellow

/-- The red end: green end + yellow + minimum red. -/
def Interval.redEnd (v : Interval) : Option Nat := v.greenEnd.map fun g => g + tenths v.yellow + tenths v.minRed

/-- The counter is at or past a point that is present. -/
def Interval.reached (v : Interval) (point : Option Nat) : Bool :=
  match point with
  | some p => decide (p ≤ v.counter)
  | none => false

/-- The interval of a release: counter 0 and the Lane Config values copied (R89). -/
def releaseInterval (c : LaneRec) : Interval where
  counter := 0
  release := some { delay := c.delay, minGreen := c.minGreen, maxGreen := c.maxGreen, vehicles := c.vehicles }
  yellow := c.yellow
  minRed := c.minRed
  greenEnd := none
  cut := false

/-- A clearing interval from GREEN_REST: yellow and minimum red copied, green end 0 (R97). -/
def clearingInterval (c : LaneRec) : Interval where
  counter := 0
  release := none
  yellow := c.yellow
  minRed := c.minRed
  greenEnd := some 0
  cut := false

/-- The clearing interval of start-up: a red end equal to the minimum red (R95). -/
def startupInterval (c : LaneRec) : Interval := { clearingInterval c with yellow := 0 }

/-! ### Entering a state -/

/-- Entering DARK (R99). -/
def laneDark (x : LaneCtx) : LaneCtx :=
  { x with state := .dark, regime := .meter, call := false, interval := none, greenPassageCount := none }

/-- Entering GREEN_REST: the call and the interval clear (R85, R89). -/
def laneGreenRest (x : LaneCtx) : LaneCtx :=
  { x with state := .greenRest, call := false, interval := none, greenPassageCount := none }

/-- Entering REST_RED: the interval becomes absent, and a LOCK call is latched while the demand channel's
effective presence is ON (R85, R94). -/
def laneRestRed (c : LaneRec) (demand : Bool) (x : LaneCtx) : LaneCtx :=
  { x with state := .restRed, call := x.call || (c.lock && demand), interval := none,
           greenPassageCount := none }

/-- Entering GREEN: the call clears and the green passage count is 0 (R90). -/
def laneGreen (x : LaneCtx) : LaneCtx := { x with state := .green, call := false, greenPassageCount := some 0 }

/-- A GREEN ends: the green end takes the counter, and the lane enters YELLOW, or MIN_RED when the copied
yellow is 0 (R91). -/
def laneGreenEnds (v : Interval) (x : LaneCtx) : LaneCtx :=
  { x with state := if v.yellow = 0 then .minRed else .yellow, greenPassageCount := none,
           interval := some { v with greenEnd := some v.counter } }

/-- From GREEN_REST into a clearing interval: YELLOW, or MIN_RED when the lane's yellow is 0 (R97, R98). -/
def laneClearing (c : LaneRec) (x : LaneCtx) : LaneCtx :=
  { x with state := if c.yellow = 0 then .minRed else .yellow, greenPassageCount := none,
           interval := some (clearingInterval c) }

/-! ### Calls and passages -/

/-- The demand channel's effective presence has changed from OFF to ON (R85): a LOCK lane not in DARK
latches its call. -/
def laneDemand (c : LaneRec) (x : LaneCtx) : LaneCtx :=
  if c.lock ∧ x.state ≠ .dark then { x with call := true } else x

/-- The call as section 5.4 defines it: held in LOCK mode, the effective presence in PRESENCE mode (R85, R86). -/
def laneCall (c : LaneRec) (demand : Bool) (x : LaneCtx) : Bool := if c.lock then x.call else demand

/-- A passage in GREEN: counted, and ending the green where it completes vehicles per green at or past
the minimum green point (R91, R92). -/
def laneGreenPassage (x : LaneCtx) : LaneCtx :=
  let y := { x with counts := { x.counts with greenPassages := satInc x.counts.greenPassages } }
  match x.interval, x.greenPassageCount with
  | some v, some n =>
    match v.release with
    | some p =>
      if n < p.vehicles then
        if n + 1 = p.vehicles ∧ v.reached v.minPoint then laneGreenEnds v y
        else { y with greenPassageCount := some (n + 1) }
      else y
    | none => y
  | _, _ => y

/-- A passage, by the lane's state (R92). -/
def lanePassage (x : LaneCtx) : LaneCtx :=
  match x.state with
  | .green => laneGreenPassage x
  | .yellow => { x with counts := { x.counts with yellowPassages := satInc x.counts.yellowPassages } }
  | .delay => { x with counts := { x.counts with violations := satInc x.counts.violations } }
  | .minRed => { x with counts := { x.counts with violations := satInc x.counts.violations } }
  | .restRed => { x with counts := { x.counts with violations := satInc x.counts.violations } }
  | .greenRest => x
  | .dark => x

/-! ### Offers (R87) -/

/-- A lane releases: its interval begins, and it enters DELAY, or GREEN when its D is 0 (R87, R89, R90). -/
def laneRelease (c : LaneRec) (x : LaneCtx) : LaneCtx :=
  let y := { x with interval := some (releaseInterval c),
                    counts := { x.counts with releases := satInc x.counts.releases } }
  if c.delay = 0 then laneGreen y else { y with state := .delay }

/-- An offer, by the lane's state and call (R87). -/
def laneOffer (c : LaneRec) (demand : Bool) (x : LaneCtx) : LaneCtx :=
  match x.state with
  | .restRed =>
    if laneCall c demand x then laneRelease c x
    else { x with counts := { x.counts with idleOffers := satInc x.counts.idleOffers } }
  | .delay => { x with counts := { x.counts with overrunSkips := satInc x.counts.overrunSkips } }
  | .green => { x with counts := { x.counts with overrunSkips := satInc x.counts.overrunSkips } }
  | .yellow => { x with counts := { x.counts with overrunSkips := satInc x.counts.overrunSkips } }
  | .minRed => { x with counts := { x.counts with overrunSkips := satInc x.counts.overrunSkips } }
  | .greenRest => { x with counts := { x.counts with overrunSkips := satInc x.counts.overrunSkips } }
  | .dark => { x with counts := { x.counts with overrunSkips := satInc x.counts.overrunSkips } }

/-! ### Orders from the ramp (R95 to R99) -/

/-- Start-up's GREEN_REST order: a lane in DARK enters GREEN_REST with regime METER (R95). -/
def laneStartGreen (x : LaneCtx) : LaneCtx :=
  if x.state = .dark then { laneGreenRest x with regime := .meter } else x

/-- Start-up's YELLOW order: a lane in GREEN_REST enters YELLOW and keeps no interval (R95). -/
def laneStartYellow (x : LaneCtx) : LaneCtx :=
  if x.state = .greenRest then { x with state := .yellow, interval := none } else x

/-- Start-up's MIN_RED order: a lane in YELLOW enters MIN_RED with a clearing interval (R95). -/
def laneStartRed (c : LaneRec) (x : LaneCtx) : LaneCtx :=
  if x.state = .yellow then { x with state := .minRed, interval := some (startupInterval c) } else x

/-- A FLUSH order (R96). -/
def laneFlush (x : LaneCtx) : LaneCtx :=
  let y := { x with regime := .flush }
  match x.state with
  | .restRed => laneGreenRest y
  | .delay => laneGreenRest y
  | .green => laneGreenRest y
  | .yellow => y
  | .minRed => y
  | .greenRest => y
  | .dark => y

/-- A HOLD order to a GREEN lane: the cut is SET, and ends the green at once at or past its minimum green
point (R91, R97). -/
def laneCut (x : LaneCtx) : LaneCtx :=
  match x.interval with
  | some v =>
    if v.reached v.minPoint then laneGreenEnds { v with cut := true } x
    else { x with interval := some { v with cut := true } }
  | none => x

/-- A HOLD order (R97). The interval of a DELAY becomes absent and a LOCK call stays SET. -/
def laneHold (c : LaneRec) (demand : Bool) (x : LaneCtx) : LaneCtx :=
  let y := { x with regime := .hold }
  match x.state with
  | .restRed => y
  | .delay => laneRestRed c demand y
  | .green => laneCut y
  | .yellow => y
  | .minRed => y
  | .greenRest => laneClearing c y
  | .dark => y

/-- A return to metering (R98): only a lane leaving FLUSH in GREEN_REST moves. A lane whose regime is
METER already has nothing to return from. -/
def laneReturn (c : LaneRec) (x : LaneCtx) : LaneCtx :=
  match x.regime with
  | .meter => x
  | .hold => { x with regime := .meter }
  | .flush =>
    if x.state = .greenRest then laneClearing c { x with regime := .meter } else { x with regime := .meter }

/-- An order carried out by one lane, from its Lane Config and its demand channel. -/
def orderLane (f : LaneRec → Bool → LaneCtx → LaneCtx) (l : Lane) (s : State) : State :=
  match s.tables.laneCfg[l] with
  | some c => putLane l (f c (effectiveOf s c.demand) s.lanes[l]) s
  | none => s

/-- An order to every lane of a ramp's list (section 5.7). -/
def orderLanes (f : LaneRec → Bool → LaneCtx → LaneCtx) (r : Ramp) (s : State) : State :=
  forEach (lanesOf s.tables r) (orderLane f) s

def orderDark : Ramp → State → State := orderLanes fun _ _ x => laneDark x
def orderStartGreen : Ramp → State → State := orderLanes fun _ _ x => laneStartGreen x
def orderStartYellow : Ramp → State → State := orderLanes fun _ _ x => laneStartYellow x
def orderStartRed : Ramp → State → State := orderLanes fun c _ x => laneStartRed c x
def orderFlush : Ramp → State → State := orderLanes fun _ _ x => laneFlush x
def orderHold : Ramp → State → State := orderLanes laneHold
def orderReturn : Ramp → State → State := orderLanes fun c _ x => laneReturn c x

/-- An offer to one lane (R87). -/
def offerLane (l : Lane) (s : State) : State := orderLane laneOffer l s

/-! ### Points of the interval reached -/

/-- The delay end (R90). -/
def delayEnded (x : LaneCtx) : LaneCtx := laneGreen x

/-- The maximum green point, or the minimum green point with a complete count or a cut: the green ends
(R91). -/
def greenEnded (x : LaneCtx) : LaneCtx :=
  match x.interval with
  | some v => laneGreenEnds v x
  | none => x

/-- The yellow end (R94). -/
def yellowEnded (x : LaneCtx) : LaneCtx := { x with state := .minRed }

/-- The red end: REST_RED, or GREEN_REST when the regime is FLUSH (R94). -/
def redEnded (c : LaneRec) (demand : Bool) (x : LaneCtx) : LaneCtx :=
  match x.regime with
  | .flush => laneGreenRest x
  | .meter => laneRestRed c demand x
  | .hold => laneRestRed c demand x

/-- Every lane of a ramp's list rests in GREEN_REST (R71, R96). -/
def allGreenRest (s : State) (r : Ramp) : Bool :=
  (lanesOf s.tables r).all fun l => decide ((s.lanes[l]).state = .greenRest)

/-- The six window counts roll over (R100). -/
def rollLane (x : LaneCtx) : LaneCtx := { x with last := x.counts, counts := LaneCounts.zero }

/-! ### Announcements to a lane (R14) -/

/-- What a lane hears of an event of the Detector Unit or the Detector Map: a rise of its demand
channel's effective presence (R85), and a filtered rise of its passage channel that is OK after the
event (R92). -/
def laneHears (before : State) (l : Lane) (s : State) : State :=
  match s.tables.laneCfg[l] with
  | none => s
  | some c =>
    let x := s.lanes[l]
    let x1 := if !effectiveOf before c.demand && effectiveOf s c.demand then laneDemand c x else x
    let x2 := match c.passage with
      | some p =>
        if !(before.det.chans[p]).filtered && (s.det.chans[p]).filtered
            && decide ((s.det.chans[p]).health = .ok) then lanePassage x1 else x1
      | none => x1
    putLane l x2 s

end Sys2Proof.Machine
end

