-- ==== Sys2Proof/Machine/Authority.lean ====
section
/-! DEFINITION. Authority Units (spec 06): eligibility and standing, arbitration and the stack, holds,
grants. What the Ramp Controller does with a result is in Machine/Ramps.lean. -/

namespace Sys2Proof.Machine

/-- A source is eligible when it is asserted, armed and not spent (R102). -/
def SourceRec.eligible (x : SourceRec) : Bool := x.asserted && x.armed && !x.spent

namespace AuthUnit

def setSource (a : AuthUnit) (k : Source) (x : SourceRec) : AuthUnit := { a with sources := vset a.sources k x }

/-- The standing of a source is refreshed (R103). -/
def refresh (a : AuthUnit) (k : Source) : AuthUnit :=
  a.setSource k { a.sources[k] with standing := (a.sources[k]).eligible }

/-- The standings of sources 2 to 5 are refreshed, as at a slot boundary (R103). -/
def refreshLower (a : AuthUnit) : AuthUnit := (((a.refresh 2).refresh 3).refresh 4).refresh 5

/-- Every standing is refreshed, as at RAMP MODE AUTO from OFF (R103). -/
def refreshAll (a : AuthUnit) : AuthUnit := ((a.refresh 0).refresh 1).refreshLower

/-- The standings of sources 2 to 5 agree with their eligibility. -/
def lowerCurrent (a : AuthUnit) : Bool :=
  [2, 3, 4, 5].all fun k : Source => (a.sources[k]).standing == (a.sources[k]).eligible

/-- A source's hold is discarded. -/
def dropHold (a : AuthUnit) (k : Source) : AuthUnit := a.setSource k { a.sources[k] with hold := none }

def dropHolds (a : AuthUnit) (l : List Source) : AuthUnit := l.foldl dropHold a

/-- Step 1 of R105: stack entries whose standing is NOT are removed, their holds discarded; the rest keep
their order. -/
def prune (a : AuthUnit) : AuthUnit :=
  { a.dropHolds (a.stack.filter fun k => !(a.sources[k]).standing) with
    stack := a.stack.filter fun k => (a.sources[k]).standing }

/-- The highest source whose standing is ELIGIBLE (R105, step 2). -/
def winner (a : AuthUnit) : Option Source := (List.finRange 6).find? fun k => (a.sources[k]).standing

/-- Step 2 of R105 with no winner: no holder, no granted action, an empty stack, and the holds of the
sources removed discarded. -/
def vacate (a : AuthUnit) : AuthUnit :=
  { a.dropHolds (a.holder.toList ++ a.stack) with holder := none, granted := none, stack := [] }

/-- A hold that reaches zero marks its source spent, is discarded, and takes the standing away (R110). -/
def expireHold (a : AuthUnit) (k : Source) : AuthUnit :=
  a.setSource k { a.sources[k] with spent := true, standing := false, hold := none }

/-- A source holds, its hold is at zero, and the expiry is not yet taken. -/
def holdAtZero (a : AuthUnit) (k : Source) : Bool :=
  decide (a.holder = some k) && decide ((a.sources[k]).hold = some (.running 0))

/-- The holder is pushed at the head of the stack with its hold PAUSED (R105, R106). -/
def push (a : AuthUnit) (h : Source) : AuthUnit :=
  { a.setSource h { a.sources[h] with
      hold := match (a.sources[h]).hold with
        | some (.running n) => some (.paused n)
        | o => o } with
    stack := h :: a.stack }

/-- Step 4 of R105: an ELIGIBLE holder is suspended, unless its remaining time is zero (R111); a holder
that is not ELIGIBLE gives way, its hold discarded. -/
def suspend (a : AuthUnit) : AuthUnit :=
  match a.holder with
  | none => a
  | some h =>
    if (a.sources[h]).standing then
      if (a.sources[h]).hold = some (.running 0) then a.expireHold h else a.push h
    else a.dropHold h

end AuthUnit

/-- The action a record grants (R109): an unset record is FLUSH for source 1 and DARK for sources 2 to 5;
FAILSAFE takes no record. -/
def grantedAction (k : Source) (rec : Option ActionRec) : Granted :=
  if k = 0 then .failsafe
  else match rec with
    | some a =>
      match a.kind with
      | .dark => .dark
      | .flush => .flush
      | .hold => .hold
      | .plan n => .plan n
    | none => if k = 1 then .flush else .dark

/-- The hold of a FRESH grant (R109). -/
def freshHold (k : Source) (rec : Option ActionRec) : Hold :=
  if k = 0 then .uncapped
  else match rec.bind (·.cap) with
    | some n => .running (tenths n)
    | none => .uncapped

/-- A hold that runs again at a resumption (R105). -/
def Hold.resume : Hold → Hold
  | .paused n => .running n
  | .running n => .running n
  | .uncapped => .uncapped

/-- Step 5 of R105: the winner is granted RESUMED from the stack, or FRESH (R109), and the last-grant
record takes the grant (R124). -/
def AuthUnit.grant (a : AuthUnit) (w : Source) (rec : Option ActionRec) (now : Nat) : AuthUnit :=
  if w ∈ a.stack then
    { a.setSource w { a.sources[w] with hold := (a.sources[w]).hold.map Hold.resume } with
      stack := a.stack.filter (· ≠ w), holder := some w, granted := some (grantedAction w rec),
      lastGrant := some { source := w, time := now, kind := .resumed } }
  else
    { a.setSource w { a.sources[w] with hold := some (freshHold w rec) } with
      holder := some w, granted := some (grantedAction w rec),
      lastGrant := some { source := w, time := now, kind := .fresh } }

/-- Arbitration (R105). The flag says that there is a result to hand over: a grant, or no holder (R107). -/
def AuthUnit.arbitrate (a : AuthUnit) (rec : Source → Option ActionRec) (now : Nat) : AuthUnit × Bool :=
  let p := a.prune
  match p.winner with
  | none => (p.vacate, true)
  | some w => if p.holder = some w then (p, false) else (p.suspend.grant w (rec w) now, true)

/-- A ramp is arbitrated; a change of holder sets its attention (R76, R107). -/
def arbitrateRamp (r : Ramp) (s : State) : State × Bool :=
  let a := (s.auth[r]).arbitrate (actionRec s.tables r) s.time.corridor
  (attentionIf (decide (a.1.holder ≠ (s.auth[r]).holder)) r (s.setAuth r a.1), a.2)

/-- On entering OFF: no holder, an empty stack, every standing NOT and every hold discarded; asserted,
armed, spent, leases and the last grant are kept (R73, R103, R110). -/
def AuthUnit.enterOff (a : AuthUnit) : AuthUnit :=
  { a with
    sources := vmap (fun _ x => { x with standing := false, hold := none }) a.sources
    holder := none
    granted := none
    stack := [] }

/-- An asserted field is set; a deassertion clears the spent mark (R110). -/
def AuthUnit.setAsserted (a : AuthUnit) (k : Source) (v : Bool) : AuthUnit :=
  a.setSource k { a.sources[k] with asserted := v, spent := (a.sources[k]).spent && v }

end Sys2Proof.Machine
end

