-- ==== Sys2Proof/Machine/Rate.lean ====
section
/-! DEFINITION. Rate Unit (spec 03) and the alignment of slots to the corridor grid (spec 08, 8.4). -/

namespace Sys2Proof.Machine

/-- The mean of published occupancies, rounded down, when there is any (R45, R47). -/
def meanOf (l : List Nat) : Option Nat := if l.isEmpty then none else some (l.sum / l.length)

/-- The published occupancies of the VALID channels of a role whose ramp set holds a ramp (R45, R47). -/
def roleOccupancies (s : State) (role : Role) (r : Ramp) : List Nat :=
  (List.finRange 64).filterMap fun ch =>
    match s.tables.detMap[ch] with
    | some d =>
      if d.role = role ∧ d.ramps.getLsbD r.val ∧ (s.det.chans[ch]).lastValid then
        some (s.det.chans[ch]).lastOcc
      else none
    | none => none

/-- The mainline occupancy of a ramp at a close (R45). -/
def mainlineOccupancy (s : State) (r : Ramp) : Option Nat := meanOf (roleOccupancies s .mainline r)

/-- The queue occupancy of a ramp at a close (R47). -/
def queueOccupancy (s : State) (r : Ramp) : Option Nat := meanOf (roleOccupancies s .queue r)

/-- The curve value: the slot length of the last point whose breakpoint is at or below the occupancy (R46). -/
def curveValue (c : CurveRec) (occ : Nat) : Option Nat :=
  ((c.points.filter fun p => p.1 ≤ occ).getLast?).map (·.2)

/-- The relief level stepped once (R47); the first case that applies decides. -/
def stepRelief (a : Adaptive) (q : Option Nat) (level : Nat) : Nat :=
  match a.queueThreshold with
  | none => 0
  | some t =>
    match q with
    | none => level - 1
    | some q =>
      if t ≤ q then min (level + 1) 8
      else if q < t - a.reliefHyst then level - 1
      else level

/-- The adaptive result from a curve value and a relief level: shortened, raised to min slot, lowered to
max slot (R48). -/
def relieved (a : Adaptive) (curve level : Nat) : Nat := min (max (curve - level * a.reliefStep) a.minSlot) a.maxSlot

/-- The curve value of a close, when there is a mainline occupancy and the named curve is set (R45, R46). -/
def closeCurveValue (s : State) (r : Ramp) (a : Adaptive) : Option Nat :=
  match mainlineOccupancy s r, curveRec s.tables a.curve with
  | some m, some c => curveValue c m
  | _, _ => none

/-- The Rate Unit's record after a close that R44 takes (R47 to R49). -/
def rateAtClose (s : State) (r : Ramp) (p : PlanRec) (a : Adaptive) (x : RateRec) : RateRec :=
  let level := stepRelief a (queueOccupancy s r) x.relief
  match closeCurveValue s r a with
  | some v => { relief := level, adaptive := some (relieved a v level), degraded := false }
  | none => { relief := level, adaptive := some p.slot, degraded := true }

/-- The ADAPTIVE stored record of a METERING ramp's adopted plan, which R44 asks for. -/
def adoptedAdaptive (s : State) (r : Ramp) : Option (PlanRec × Adaptive) :=
  if (s.ramps[r]).state = .metering then
    (s.ramps[r]).adopted.bind fun d => (planRec s.tables d.number).bind fun p => p.adaptive.map fun a => (p, a)
  else none

/-- The Rate Unit takes the publication of a close for a ramp (R44). -/
def rateClose (r : Ramp) (s : State) : State :=
  match adoptedAdaptive s r with
  | some (p, a) => s.setRate r (rateAtClose s r p a s.rate[r])
  | none => s

/-- The Rate Unit's record at the adoption of a different plan (R43). -/
def rateAdopted (p : PlanRec) : RateRec :=
  { RateRec.reset with adaptive := p.adaptive.map fun _ => p.slot }

/-- The nominal slot length at a boundary and the Rate Unit's record after it (R50). -/
def nominalSlot (p : PlanRec) (x : RateRec) : Nat × RateRec :=
  match p.adaptive with
  | none => (p.slot, RateRec.reset)
  | some _ =>
    match x.adaptive with
    | some n => (n, x)
    | none => (p.slot, { x with adaptive := some p.slot })

/-! ### Alignment -/

/-- The error of a boundary at corridor time `t`: the remainder of t - offset on division by the nominal
length, 0 to length - 1 (R147). -/
def gridError (t offset len : Nat) : Nat := (((t : Int) - (offset : Int)) % (len : Int)).toNat

/-- The slot length before the clamp (R147). -/
def correctedSlot (len e : Nat) : Nat := if 2 * e ≤ len then len - min e 5 else len + min (len - e) 5

/-- Raised to 20, lowered to 150 (R147). -/
def clampSlot (n : Nat) : Nat := min (max n 20) 150

/-- The slot length and the aligned flag for a nominal length, where alignment applies or not (R146, R147). -/
def alignedSlot (apply : Bool) (t offset len : Nat) : Nat × Bool :=
  if apply then (clampSlot (correctedSlot len (gridError t offset len)), decide (gridError t offset len = 0))
  else (len, false)

end Sys2Proof.Machine
end

