-- ==== Sys2Proof/Machine/Ramps.lean ====
section
/-! DEFINITION. Ramp Controllers (spec 04): the effective action and the demands, the ramp states, what
a ramp does with an arbitration's result, the slot boundary, start-up and shutdown. -/

namespace Sys2Proof.Machine

/-! ### Effective action and demands (R60, R61) -/

/-- The effective action; `auto 0` is AUTO with auto plan NONE. -/
inductive Effective where
  | auto (plan : Nat)
  | dark
  | flush
  | hold
  | plan (n : Nat)
  | failsafe
deriving DecidableEq, Repr

/-- A Rate Plan is set (R60). -/
def planSet (t : Tables) (n : Nat) : Bool := (planRec t n).isSome

/-- The auto plan as a judgement takes it: NONE when its record is unset (R60). -/
def autoJudged (s : State) (r : Ramp) : Nat :=
  if planSet s.tables (s.ramps[r]).autoPlan then (s.ramps[r]).autoPlan else 0

/-- The judgement finds the holder's PLAN action naming an unset plan (R60). -/
def judgedUnset (s : State) (r : Ramp) : Bool :=
  match (s.auth[r]).granted with
  | some (.plan n) => !planSet s.tables n
  | _ => false

/-- The effective action judged (R60). -/
def effectiveAction (s : State) (r : Ramp) : Effective :=
  match (s.auth[r]).granted with
  | none => .auto (autoJudged s r)
  | some .dark => .dark
  | some .flush => .flush
  | some .hold => .hold
  | some .failsafe => .failsafe
  | some (.plan n) => if planSet s.tables n then .plan n else .auto (autoJudged s r)

/-- The effective action that stands between judgements, which STATUS reports: the holder's action, or AUTO, under the
ACTION_UNSET mark too, with the auto plan (R60, R180). The auto plan stands here by its number even where the last
judgement took it as NONE for an unset record, so a later AUTO with NONE counts as another action (R70; DEDUCED, log
entry 37). -/
def standingAction (s : State) (r : Ramp) : Effective :=
  match (s.auth[r]).granted with
  | none => .auto (s.ramps[r]).autoPlan
  | some .dark => .dark
  | some .flush => .flush
  | some .hold => .hold
  | some .failsafe => .failsafe
  | some (.plan n) => if (s.ramps[r]).actionUnset then .auto (s.ramps[r]).autoPlan else .plan n

/-- An effective action that is a start demand (R61). -/
def Effective.starts : Effective → Bool
  | .auto n => n != 0
  | .hold => true
  | .plan _ => true
  | .dark => false
  | .flush => false
  | .failsafe => false

/-- An effective action that is a stop demand (R61). -/
def Effective.stops : Effective → Bool
  | .auto n => n == 0
  | .dark => true
  | .hold => false
  | .plan _ => false
  | .flush => false
  | .failsafe => false

/-- A judgement of this moment finds a stop demand (R61). -/
def stopDemand (s : State) (r : Ramp) : Bool :=
  decide ((s.ramps[r]).mode = .off) || (effectiveAction s r).stops

/-- A judgement of this moment finds a start demand and no stop demand (R61, R62). -/
def startDemand (s : State) (r : Ramp) : Bool := (effectiveAction s r).starts && !stopDemand s r

/-- The ramp judges its effective action and its demands: the ACTION_UNSET mark follows, each change setting attention
(R60), and the stop demand stands as judged until the next of R61's events. -/
def judge (r : Ramp) (s : State) : State :=
  attentionIf (decide (judgedUnset s r ≠ (s.ramps[r]).actionUnset)) r
    (s.modRamp r fun c => { c with actionUnset := judgedUnset s r, stopStands := stopDemand s r })

/-! ### States (R59) -/

/-- The beacon aspect a ramp state commands (R59, R129). -/
def beaconAspect : RampState → Aspect
  | .off => .dark
  | .standby => .dark
  | .darkFail => .dark
  | .warn => .flash
  | .startGreen => .flash
  | .startClear => .flash
  | .metering => .flash
  | .shutClear => .flash
  | .shutFlush => .flash

/-- What leaving METERING does to the ramp context (R59). -/
def RampCtx.leaveMetering (c : RampCtx) : RampCtx :=
  { c with adopted := none, patternCount := 0, slotClock := .stopped, slotLength := none,
           lastNominal := none, aligned := false }

/-- The ramp leaves METERING, if it is there: its slot state and the Rate Unit's record empty (R43, R59). -/
def leaveMetering (r : Ramp) (s : State) : State :=
  if (s.ramps[r]).state = .metering then (s.modRamp r RampCtx.leaveMetering).setRate r RateRec.reset else s

/-- The beacon of a ramp is commanded (R59); a ramp without one commands none. -/
def commandBeacon (r : Ramp) (a : Aspect) (s : State) : State :=
  match beaconOf s.tables r with
  | some ch => setAspect ch a s
  | none => s

/-- A ramp enters a state with a clear phase and a phase timer: attention is SET and its beacon is commanded
(R59, R76). -/
def enter (r : Ramp) (st : RampState) (ph : Option ClearPhase) (tm : Timer) (s : State) : State :=
  commandBeacon r (beaconAspect st)
    ((leaveMetering r s).modRamp r fun c =>
      { c with state := st, clearPhase := ph, phaseTimer := tm, attention := true })

/-- After METERING has been left for a state: the standings of sources 2 to 5 are refreshed at that event,
and if any changed the ramp is arbitrated again there (R103, R104). In the states METERING is left for, a
change of holder below FAILSAFE moves nothing (R71, R74); the judgement follows (R61). -/
def arbitrateAfterMetering (r : Ramp) (s : State) : State :=
  if (s.auth[r]).lowerCurrent then s
  else
    let a := arbitrateRamp r (s.setAuth r (s.auth[r]).refreshLower)
    if a.2 then judge r a.1 else a.1

/-- Entering SHUT_FLUSH: the phase timer starts for the shutdown flush (R71). -/
def enterShutFlush (r : Ramp) (s : State) : State := enter r .shutFlush none (.running 0) s

/-- A SHUT_CLEAR ramp whose lanes all rest in GREEN_REST enters SHUT_FLUSH (R71, R96). -/
def shutClearDone (r : Ramp) (s : State) : State :=
  if (s.ramps[r]).state = .shutClear ∧ allGreenRest s r then enterShutFlush r s else s

/-- Entering SHUT_CLEAR (R71). -/
def enterShutClear (r : Ramp) (s : State) : State :=
  let left := decide ((s.ramps[r]).state = .metering)
  let t := shutClearDone r (orderFlush r (enter r .shutClear none .stopped s))
  if left then arbitrateAfterMetering r t else t

/-- Entering DARK_FAIL: every lane and the beacon go DARK at once (R74). -/
def enterDarkFail (r : Ramp) (s : State) : State :=
  let left := decide ((s.ramps[r]).state = .metering)
  let t := orderDark r (enter r .darkFail none .stopped s)
  if left then arbitrateAfterMetering r t else t

/-- The ramp context on entering OFF: selection state and marks clear (R35, R73). -/
def RampCtx.enterOff (c : RampCtx) : RampCtx :=
  { c with autoPlan := 0, candidate := none, planUnset := false, actionUnset := false }

/-- Entering OFF (R73). -/
def enterOff (r : Ramp) (s : State) : State :=
  let t := (orderDark r (enter r .off none .stopped s)).modRamp r RampCtx.enterOff
  (t.setVector r vectorFalse).setAuth r (t.auth[r]).enterOff

/-- Entering WARN (R62). -/
def enterWarn (r : Ramp) (s : State) : State := enter r .warn none (.running 0) s

/-- A STANDBY ramp acts on its demand (R62). -/
def standbyActs (r : Ramp) (s : State) : State := if startDemand s r then enterWarn r s else s

/-- Entering STANDBY, where the ramp judges its demands and may go on to WARN by the same event (R61, R62). A beacon
that flashed is commanded DARK and FLASH again, and judged at each (DESIGN CHOICE, log entry 35). -/
def enterStandby (r : Ramp) (s : State) : State :=
  standbyActs r (judge r (orderDark r (enter r .standby none .stopped s)))

/-- OFF when the mode is OFF, STANDBY otherwise (R63, R71, R74). -/
def enterOffOrStandby (r : Ramp) (s : State) : State :=
  if (s.ramps[r]).mode = .off then enterOff r s else enterStandby r s

/-- A ramp outside METERING and DARK_FAIL acts on the demand that stands (R62 to R65, R71). -/
def actOnDemand (r : Ramp) (s : State) : State :=
  match (s.ramps[r]).state with
  | .standby => standbyActs r s
  | .warn => if stopDemand s r then enterOffOrStandby r s else s
  | .startGreen => if stopDemand s r then enterShutFlush r s else s
  | .off => s
  | .startClear => s
  | .metering => s
  | .shutClear => s
  | .shutFlush => s
  | .darkFail => s

/-- A METERING ramp takes a change of effective action between boundaries (R70); `old` is the action that
stood before. A stop that the change did not bring waits for the boundary (DEDUCED, log entry 25; what counts as another
action where the auto plan's record is unset is log entry 37's). -/
def meteringTakes (r : Ramp) (old : Effective) (s : State) : State :=
  match effectiveAction s r with
  | .failsafe => enterDarkFail r s
  | .dark => enterShutClear r s
  | .flush => orderFlush r s
  | .hold => orderHold r s
  | .plan _ => orderReturn r s
  | .auto n =>
    if n = 0 then (if old = .auto 0 then s else enterShutClear r s) else orderReturn r s

/-- A ramp in start-up or shutdown takes the result of an arbitration (R70, R71, R74). -/
def startingTakes (r : Ramp) (s : State) : State :=
  if effectiveAction s r = .failsafe then enterDarkFail r s else actOnDemand r s

/-- The Ramp Controller takes the result of an arbitration at its event (R107). -/
def takeResult (r : Ramp) (old : Effective) (s : State) : State :=
  match (s.ramps[r]).state with
  | .off => s
  | .standby => standbyActs r s
  | .metering => meteringTakes r old s
  | .darkFail => if effectiveAction s r = .failsafe then s else enterOffOrStandby r s
  | .warn => startingTakes r s
  | .startGreen => startingTakes r s
  | .startClear => startingTakes r s
  | .shutClear => startingTakes r s
  | .shutFlush => startingTakes r s

/-- A decision point other than a slot boundary: the ramp is arbitrated and a result is taken (R104, R107). -/
def decisionPoint (r : Ramp) (s : State) : State :=
  let a := arbitrateRamp r s
  if a.2 then takeResult r (standingAction s r) (judge r a.1) else a.1

/-- A source's asserted, armed or spent field has changed: its standing is refreshed where R103 says, and
a standing that changes is a decision point (R104). -/
def sourceChanged (r : Ramp) (k : Source) (s : State) : State :=
  if (s.ramps[r]).state = .off then s
  else if (s.ramps[r]).state = .metering ∧ 2 ≤ k.val then s
  else if ((s.auth[r]).sources[k]).standing = ((s.auth[r]).sources[k]).eligible then s
  else decisionPoint r (s.setAuth r ((s.auth[r]).refresh k))

/-- The holder's hold has reached zero: the source is spent, and the ramp is arbitrated (R104, R110). -/
def holdExpired (r : Ramp) (s : State) : State :=
  match (s.auth[r]).holder with
  | some k => decisionPoint r (s.setAuth r ((s.auth[r]).expireHold k))
  | none => s

/-- A deassertion at the moment of the expiry of the source's own hold: R111 gives both orders one outcome, the
source deasserted, not spent and off the ramp, and the expiry is taken first (DEDUCED, log entry 16). -/
def expireFirst (r : Ramp) (k : Source) (v : Bool) (s : State) : State :=
  if !v && (s.auth[r]).holdAtZero k then holdExpired r s else s

/-- A change of a source's asserted field, made and presented (R103, R110). -/
def changeAsserted (r : Ramp) (k : Source) (v : Bool) (s : State) : State :=
  sourceChanged r k (s.setAuth r ((s.auth[r]).setAsserted k v))

/-- A source's asserted field is given a value; a change of it is an event of the ramp's unit (R103, R110, R111). -/
def setAsserted (r : Ramp) (k : Source) (v : Bool) (s : State) : State :=
  if ((s.auth[r]).sources[k]).asserted = v then s else changeAsserted r k v (expireFirst r k v s)

/-- FAILSAFE's causes are present: ring quiet, or a latched fault of the ramp (R112). -/
def failsafeCause (s : State) (r : Ramp) : Bool := s.ring.quiet || !(faultedChannels s r).isEmpty

/-- A ramp's FAILSAFE source is judged afresh (R112). -/
def judgeFailsafe (r : Ramp) (s : State) : State := setAsserted r 0 (failsafeCause s r) s

/-- The FAILSAFE sources are judged when an event's own effects are complete. A release may light a channel
of a silent driver, whose latch is judged in its turn, so each ramp is judged twice (log entry 14). -/
def settle (s : State) : State := forRamps (fun r t => judgeFailsafe r (judgeFailsafe r t)) s

/-! ### The slot boundary (R67 to R69) -/

/-- Alignment applies to the slot a boundary begins (R146). -/
def aligns (s : State) (c : RampCtx) : Bool :=
  s.time.locked && (match c.adopted with | some a => a.coordinated | none => false)

/-- The coordination offset of a ramp (R54). -/
def offsetOf (t : Tables) (r : Ramp) : Nat :=
  match t.rampCfg[r] with
  | some c => c.offset
  | none => 0

/-- The next slot is fixed from a nominal length and started (R68, R69, R146, R147). -/
def startSlot (r : Ramp) (len : Nat) (s : State) : State :=
  let p := alignedSlot (aligns s s.ramps[r]) s.time.corridor (offsetOf s.tables r) len
  s.modRamp r fun c => { c with slotLength := some p.1, aligned := p.2, slotClock := .running 0 }

/-- A holding slot: the last nominal length, or 50 tenths (R68). -/
def holdingSlot (r : Ramp) (s : State) : State := startSlot r ((s.ramps[r]).lastNominal.getD 50) s

/-- The copy of a Rate Plan a ramp adopts (R57, R69). -/
def adoptedOf (n : Nat) (p : PlanRec) : Adopted where
  number := n
  adaptive := p.adaptive.isSome
  slot := p.slot
  period := p.period
  masks := p.masks
  coordinated := p.coordinated

/-- The number of the adopted plan. -/
def adoptedNumber (c : RampCtx) : Option Nat := c.adopted.map (·.number)

/-- The pattern count is returned to 0 at step 3: a different plan, or a changed period (R83). -/
def countReturns (c : RampCtx) (n : Nat) (p : PlanRec) : Bool :=
  match c.adopted with
  | some a => decide (a.number ≠ n) || decide (a.period ≠ p.period)
  | none => true

/-- The pattern count after steps 3 and 4 (R83). -/
def nextPatternCount (c : RampCtx) (n : Nat) (p : PlanRec) : Nat :=
  if countReturns c n p then 0
  else if c.patternCount + 1 = p.period then 0 else c.patternCount + 1

/-- Steps 3 and 4 of a boundary under plan n: adopt or re-read, fix the slot, advance the count
(R43, R50, R69, R83). -/
def meterPlan (r : Ramp) (n : Nat) (p : PlanRec) (s : State) : State :=
  let c := s.ramps[r]
  let different := decide (adoptedNumber c ≠ some n)
  let q := nominalSlot p (if different then rateAdopted p else s.rate[r])
  startSlot r q.1
    ((attentionIf different r s).setRate r q.2 |>.modRamp r fun d =>
      { d with adopted := some (adoptedOf n p), patternCount := nextPatternCount c n p, lastNominal := some q.1 })

/-- A lane position's mask holds the pattern count (R84). -/
def offersAt (c : RampCtx) (pos : Nat) : Bool :=
  match c.adopted with
  | some a => ((a.masks[pos]?).getD 0).getLsbD c.patternCount
  | none => false

/-- Step 5: offers to the lanes whose mask holds the count (R84, R87). -/
def makeOffers (r : Ramp) (s : State) : State :=
  forEach ((lanesOf s.tables r).zipIdx.filter fun p => offersAt s.ramps[r] p.2) (fun p => offerLane p.1) s

/-- Steps 3 to 5 under an effective plan (R67). -/
def meteredBoundary (r : Ramp) (n : Nat) (s : State) : State :=
  match planRec s.tables n with
  | some p => makeOffers r (meterPlan r n p (orderReturn r s))
  | none => s

/-- Step 1: the standings of sources 2 to 5 are refreshed and the ramp is arbitrated (R67, R103). -/
def boundaryArbitration (r : Ramp) (s : State) : State :=
  (arbitrateRamp r (s.setAuth r (s.auth[r]).refreshLower)).1

/-- Step 2 on, by the effective action judged (R67, R68). -/
def boundaryActs (r : Ramp) (s : State) : State :=
  if effectiveAction s r = .failsafe then enterDarkFail r s
  else if stopDemand s r then enterShutClear r s
  else match effectiveAction s r with
    | .hold => holdingSlot r (orderHold r s)
    | .flush => holdingSlot r (orderFlush r s)
    | .plan n => meteredBoundary r n s
    | .auto n => meteredBoundary r n s
    | .dark => s
    | .failsafe => s

/-- A slot boundary of a METERING ramp (R67). -/
def slotBoundary (r : Ramp) (s : State) : State :=
  boundaryActs r (judge r (boundaryArbitration r
    (s.modRamp r fun c => { c with slotCount := satInc c.slotCount })))

/-! ### Start-up, shutdown and the mode (R58, R63 to R66, R71, R72) -/

/-- The warn time expires (R63). -/
def warnExpired (r : Ramp) (s : State) : State := orderStartGreen r (enter r .startGreen none (.running 0) s)

/-- The start green time expires (R64). -/
def startGreenExpired (r : Ramp) (s : State) : State :=
  orderStartYellow r (enter r .startClear (some .yellow) (.running 0) s)

/-- The yellow phase of START_CLEAR ends (R65): a change of phase, not of state. -/
def startYellowExpired (r : Ramp) (s : State) : State :=
  orderStartRed r (s.modRamp r fun c => { c with clearPhase := some .red, phaseTimer := .running 0 })

/-- Entering METERING, whose moment is the first slot boundary (R66). -/
def enterMetering (r : Ramp) (s : State) : State :=
  slotBoundary r ((enter r .metering none .stopped s).modRamp r fun c =>
    { c with adopted := none, patternCount := 0 })

/-- The red phase of START_CLEAR ends: the demand is taken as it stands, which is as it was last judged, since the
expiry is none of the events that judge it (R61, R65; log entry 24). METERING's first boundary then judges (R66, R67). -/
def startRedExpired (r : Ramp) (s : State) : State :=
  if (s.ramps[r]).stopStands then enterShutClear r s else enterMetering r s

/-- The shutdown flush expires (R71). -/
def shutFlushExpired (r : Ramp) (s : State) : State := enterOffOrStandby r s

/-- The configuration RAMP MODE AUTO asks for is set (R58). -/
def configComplete (t : Tables) (r : Ramp) : Bool :=
  match t.rampCfg[r] with
  | none => false
  | some c =>
    (c.lanes.all fun l =>
      match t.laneCfg[l] with
      | some x => (t.outMap[x.head]).isSome
      | none => false)
    && (match c.beacon with
      | some ch => (t.outMap[ch]).isSome
      | none => true)

/-- RAMP MODE AUTO of a ramp in OFF whose configuration is complete: it enters STANDBY, every standing is
refreshed, the ramp is arbitrated, and STANDBY judges its demands (R58, R103). -/
def leaveOff (r : Ramp) (s : State) : State :=
  let t := orderDark r (enter r .standby none .stopped (s.modRamp r fun c => { c with mode := .auto }))
  standbyActs r (judge r (arbitrateRamp r (t.setAuth r (t.auth[r]).refreshAll)).1)

/-- RAMP MODE AUTO of a ramp in any other state (R58, R61). -/
def modeAuto (r : Ramp) (s : State) : State :=
  actOnDemand r (judge r (s.modRamp r fun c => { c with mode := .auto }))

/-- RAMP MODE OFF (R72): the mode, the judgement, and what each state does. -/
def modeOff (r : Ramp) (s : State) : State :=
  let t := s.modRamp r fun c => { c with mode := .off }
  match (s.ramps[r]).state with
  | .off => t
  | .standby => enterOff r (judge r t)
  | .warn => enterOff r (judge r t)
  | .darkFail => enterOff r (judge r t)
  | .startGreen => enterShutFlush r (judge r t)
  | .startClear => judge r t
  | .metering => judge r t
  | .shutClear => judge r t
  | .shutFlush => judge r t

end Sys2Proof.Machine
end

