-- ==== Sys2Proof/Machine/Detectors.lean ====
section
/-! DEFINITION. Detector Unit (spec 01) up to its announcements, and the spillback logic that hears them
(spec 06, 6.8). The window close is in Machine/Window.lean. -/

namespace Sys2Proof.Machine

/-! ### One channel's record -/

/-- A change of health; leaving OK clears the OK-throughout flag (R16). -/
def DetState.setHealth (h : Health) (c : DetState) : DetState :=
  { c with health := h, okThroughout := c.okThroughout && decide (h = .ok) }

/-- The filtered presence takes a value (section 1.4): a rise counts a volume and starts the stuck timer; a
fall clears it, and a STUCK channel returns to OK (R9, R11). -/
def DetState.setFiltered (v : Bool) (c : DetState) : DetState :=
  if v = c.filtered then c
  else if v then { c with filtered := true, volume := satInc c.volume, stuck := .running 0 }
  else
    let d := { c with filtered := false, stuck := .stopped }
    if c.health = .stuck then d.setHealth .ok else d

/-- A report applied to the filter (R7, R8). -/
def applyFilter (d : DetRec) (v : Bool) (c : DetState) : DetState :=
  match c.pending with
  | none =>
    if v = c.filtered then c
    else if d.filter = 0 then c.setFiltered v
    else { c with pending := some { target := v, ran := 0 } }
  | some p =>
    if v = p.target then c else { c with pending := none, glitches := satInc c.glitches }

/-- Where a channel that leaves CHATTER or LOOP_FAULT goes: STUCK while its stuck timer is expired, OK
otherwise (R11, R12, R17). -/
def recoveredHealth (c : DetState) : Health := if c.stuck = .expired then .stuck else .ok

/-- The loop-fault flag judged (R12). -/
def judgeLoop (fault : Bool) (c : DetState) : DetState :=
  if fault then
    match c.health with
    | .ok => c.setHealth .loopFault
    | .stuck => c.setHealth .loopFault
    | .chatter => c.setHealth .loopFault
    | .loopFault => c
    | .unseen => c
    | .silent => c
  else if c.health = .loopFault then c.setHealth (recoveredHealth c)
  else c

/-- Steps 1 and 2 of R5. -/
def takeReport (v fault : Bool) (c : DetState) : DetState :=
  { c with reported := v, loopReported := fault, silence := .running 0 }

/-- Step 3 of R5: an UNSEEN or SILENT channel comes into service unfiltered (R6); otherwise the filter. -/
def serveReport (d : DetRec) (v : Bool) (c : DetState) : DetState :=
  match c.health with
  | .unseen => (c.setHealth .ok).setFiltered v
  | .silent => (c.setHealth .ok).setFiltered v
  | .ok => applyFilter d v c
  | .stuck => applyFilter d v c
  | .chatter => applyFilter d v c
  | .loopFault => applyFilter d v c

/-- A report of one input applied to its channel (R5). -/
def applyReport (d : DetRec) (v fault : Bool) (c : DetState) : DetState :=
  judgeLoop fault (serveReport d v (takeReport v fault c))

/-- The filter timer expires (R9). -/
def filterExpired (c : DetState) : DetState :=
  match c.pending with
  | some p => { c with pending := none }.setFiltered p.target
  | none => c

/-- The silence timer expires: the channel enters SILENT (R10). -/
def silenceExpired (c : DetState) : DetState :=
  { c with pending := none, stuck := .stopped, silence := .stopped, loopReported := false,
           okThroughout := false, health := .silent }

/-- The stuck timer expires (R11). -/
def stuckExpired (c : DetState) : DetState :=
  let d := { c with stuck := .expired }
  if c.health = .ok then d.setHealth .stuck else d

/-! ### Spillback (R117 to R120) -/

/-- The ramp whose spillback channel a channel is (R117). -/
def spillRamp (t : Tables) (ch : Channel) : Option Ramp :=
  match t.detMap[ch] with
  | some d => if d.role = .spillback then (List.finRange 4).find? fun r => d.ramps.getLsbD r.val else none
  | none => none

/-- A spillback channel is usable: OK, with substitute mode ON_FAIL (R117). -/
def usable (s : State) (ch : Channel) : Bool :=
  match s.tables.detMap[ch] with
  | some d => decide ((s.det.chans[ch]).health = .ok) && !d.always
  | none => false

/-- The spillback channels of a ramp, ascending (R117). -/
def spillChannels (s : State) (r : Ramp) : List Channel :=
  (List.finRange 64).filter fun ch => spillRamp s.tables ch == some r

/-- A channel's on-timer is to run: it is a usable spillback channel of a ramp with a set Ramp Config, and
its filtered presence is ON (R118, R120). -/
def onTimerRuns (s : State) (ch : Channel) : Bool :=
  match spillRamp s.tables ch with
  | some r => (s.tables.rampCfg[r]).isSome && usable s ch && (s.det.chans[ch]).filtered
  | none => false

/-- The on-timers after an event: one that is to run starts from zero unless it runs or is expired; any
other is stopped and cleared (R118). -/
def reviewOnTimers (s : State) : State :=
  { s with onTimers := vmap (fun ch t => if onTimerRuns s ch then t.keepRunning else .stopped) s.onTimers }

/-- The clear timer of a ramp is written. -/
def setClearTimer (r : Ramp) (t : Timer) (s : State) : State := s.setAuth r { s.auth[r] with clearTimer := t }

/-- The SPILLBACK source and the clear timer of a ramp after an event (R119, R120). -/
def reviewClear (r : Ramp) (s : State) : State :=
  let us := (spillChannels s r).filter (usable s)
  if !(s.tables.rampCfg[r]).isSome then setAsserted r 2 false (setClearTimer r .stopped s)
  else if !((s.auth[r]).sources[(2 : Source)]).asserted then setClearTimer r .stopped s
  else if us.isEmpty then setAsserted r 2 false (setClearTimer r .stopped s)
  else if us.all fun ch => !(s.det.chans[ch]).filtered then
    setClearTimer r (s.auth[r]).clearTimer.keepRunning s
  else setClearTimer r .stopped s

/-- The spillback logic of every ramp after an event of the Detector Unit or the Detector Map. -/
def reviewSpillback (s : State) : State := forRamps reviewClear (reviewOnTimers s)

/-- The on-timer of a spillback channel expires (R118). -/
def onTimerExpired (ch : Channel) (s : State) : State :=
  match spillRamp s.tables ch with
  | some r => reviewClear r (setAsserted r 2 true (s.setOnTimer ch .expired))
  | none => s

/-- The clear timer of a ramp expires (R119). -/
def clearTimerExpired (r : Ramp) (s : State) : State := setAsserted r 2 false (setClearTimer r .stopped s)

/-- A Ramp Config write or clear restarts the ramp's spillback logic (R120). -/
def restartSpillback (r : Ramp) (s : State) : State :=
  let stopped := vmap (fun ch x => if spillRamp s.tables ch = some r then .stopped else x) s.onTimers
  let t := { s with onTimers := stopped }
  reviewClear r (reviewOnTimers (setAsserted r 2 false (setClearTimer r .stopped t)))

/-! ### Announcements (R14) -/

/-- The readers of the channels hear an event of the Detector Unit, `before` being the state ahead of it:
each lane, then the spillback logic. Each reader sees the state after the whole event (R14). -/
def announce (before : State) (s : State) : State :=
  reviewSpillback (forEach (List.finRange 12) (laneHears before) s)

/-- One channel's record rewritten and announced. -/
def changeChannel (ch : Channel) (f : DetState → DetState) (s : State) : State :=
  announce s (s.setChan ch (f s.det.chans[ch]))

/-- A well-formed DPR from a station, with the input bytes it carries, applied to each active channel that
maps a carried input (R5). -/
def applyDpr (st : Nat) (inputs : List Byte) (s : State) : State :=
  announce s { s with det := { s.det with
    chans := vmap (fun ch c =>
      match s.tables.detMap[ch] with
      | some d =>
        if d.station = st then
          match inputs[d.input]? with
          | some b => applyReport d (b.getLsbD 0) (b.getLsbD 1) c
          | none => c
        else c
      | none => c) s.det.chans } }

/-- The active channel that maps an input of a station (R5). -/
def channelOfInput (t : Tables) (st k : Nat) : Option Channel :=
  (List.finRange 64).find? fun ch =>
    match t.detMap[ch] with
    | some d => d.station == st && d.input == k
    | none => false

/-- The verdict written for an input, from the state once the frame has been applied (R158). -/
def verdictFor (s : State) (st k : Nat) : Option (BitVec 3) :=
  (channelOfInput s.tables st k).bind fun ch =>
    (s.tables.detMap[ch]).bind fun d => verdictCode d s.det.chans[ch]

/-- The carried inputs with the verdicts rewritten (R158). -/
def rewriteInputs (s : State) (st : Nat) (inputs : List Byte) : List Byte :=
  inputs.zipIdx.map fun p =>
    match verdictFor s st p.2 with
    | some v => setVerdict p.1 v
    | none => p.1

/-- An accepted write (`some`) or clear (`none`) of a Detector Map record (R3). -/
def putDetMap (ch : Channel) (rec : Option DetRec) (s : State) : State :=
  announce s (({ s with tables := { s.tables with detMap := vset s.tables.detMap ch rec } }).setChan ch
    DetState.reset)

end Sys2Proof.Machine
end

