-- ==== Sys2Proof/Machine/Window.lean ====
section
/-! DEFINITION. The window close (spec 01, 1.7), conditions, selection and persistence (spec 02), and the
Timekeeper's adoptions (spec 08). -/

namespace Sys2Proof.Machine

/-! ### Conditions (R26 to R29) -/

/-- The listed channels whose published result is VALID (R26). -/
def validListed (s : State) (c : CondRec) : List Channel := c.chans.filter fun ch => (s.det.chans[ch]).lastValid

/-- The measure of a condition with at least one valid channel (R26, R27). -/
def measure (s : State) (c : CondRec) : Nat :=
  let v := validListed s c
  if c.flow then
    (v.map fun ch => (s.det.chans[ch]).lastVol).sum * 36000 * c.chans.length / (s.det.lastElapsed * v.length)
  else (v.map fun ch => (s.det.chans[ch]).lastOcc).sum / v.length

/-- A measure compared with threshold and hysteresis (R29). -/
def compareMeasure (c : CondRec) (m : Nat) (prev : Bool) : Bool :=
  if c.below then
    if m ≤ c.threshold then true else if m ≤ c.threshold + c.hysteresis then prev else false
  else
    if c.threshold ≤ m then true else if c.threshold - c.hysteresis ≤ m then prev else false

/-- A condition's new value at a close (R28, R29). -/
def conditionValue (s : State) (rec : Option CondRec) (prev : Bool) : Bool :=
  match rec with
  | none => false
  | some c =>
    if c.force then c.subst
    else if (validListed s c).isEmpty then c.subst
    else compareMeasure c (measure s c) prev

/-- The new condition vector of a ramp (R25). -/
def newVector (s : State) (r : Ramp) : Vector Bool 16 :=
  vmap (fun c prev => conditionValue s (condRec s.tables r c) prev) s.vectors[r]

/-! ### Match Table and proposal (R32, R33) -/

/-- A set entry matches a vector (R32). -/
def entryMatches (m : MatchRec) (v : Vector Bool 16) : Bool :=
  (List.finRange 16).all fun c => !m.care.getLsbD c.val || m.value.getLsbD c.val == v[c]

/-- The winning entry of a ramp (R32). -/
def winningEntry (t : Tables) (r : Ramp) (v : Vector Bool 16) : Option MatchRec :=
  (List.finRange 12).findSome? fun p =>
    match matchRec t r p with
    | some m => if entryMatches m v then some m else none
    | none => none

/-- The default plan of a ramp (R33). -/
def defaultPlan (t : Tables) (r : Ramp) : Nat :=
  match t.rampCfg[r] with
  | some c => c.defaultPlan
  | none => 0

/-- A close's proposal: the plan (0 is NONE), the persistence, and the PLAN_UNSET judgement (R33). -/
structure Proposal where
  plan : Nat
  persistence : Nat
  unset : Bool
deriving DecidableEq, Repr

/-- A named plan as proposed: NONE with PLAN_UNSET when its record is unset (R33). -/
def proposalOf (t : Tables) (n persistence : Nat) : Proposal :=
  if n = 0 then ⟨0, persistence, false⟩
  else if planSet t n then ⟨n, persistence, false⟩
  else ⟨0, persistence, true⟩

/-- The proposal of a ramp whose new vector is `v` (R33). -/
def propose (t : Tables) (r : Ramp) (v : Vector Bool 16) : Proposal :=
  match winningEntry t r v with
  | some m => proposalOf t m.plan (m.persistence.getD 1)
  | none => proposalOf t (defaultPlan t r) 1

/-! ### Persistence (R36) -/

/-- Steps 2 and 3: the candidate for a proposal that differs from the auto plan (R36). -/
def nextCandidate (c : Option Candidate) (n : Nat) : Candidate :=
  match c with
  | some k => if k.plan = n then { k with count := k.count + 1 } else ⟨n, 1⟩
  | none => ⟨n, 1⟩

/-- The persistence step (R36). -/
def persist (p : Proposal) (c : RampCtx) : RampCtx :=
  if p.plan = c.autoPlan then { c with candidate := none }
  else
    let k := nextCandidate c.candidate p.plan
    if p.persistence ≤ k.count then { c with autoPlan := k.plan, candidate := none }
    else { c with candidate := some k }

/-- Selection of one ramp at a close: vector, proposal, PLAN_UNSET mark, persistence, and the demands where
the auto plan changed (R25, R34, R36, R37). A ramp in OFF is passed over. -/
def selectPlan (r : Ramp) (s : State) : State :=
  if (s.ramps[r]).state = .off then s
  else
    let v := newVector s r
    let p := propose s.tables r v
    let t := attentionIf (decide (p.unset ≠ (s.ramps[r]).planUnset)) r
      ((s.setVector r v).modRamp r fun c => { persist p c with planUnset := p.unset })
    if (t.ramps[r]).autoPlan = (s.ramps[r]).autoPlan then t else actOnDemand r (judge r t)

/-! ### The close (R16 to R19) -/

/-- The chatter judgement of one channel (R17). -/
def judgeChatter (d : Option DetRec) (c : DetState) : DetState :=
  match d with
  | none => c
  | some d =>
    match c.health with
    | .ok => if d.chatterLimit < c.glitches then c.setHealth .chatter else c
    | .chatter => if c.glitches ≤ d.chatterLimit then c.setHealth (recoveredHealth c) else c
    | .unseen => c
    | .silent => c
    | .stuck => c
    | .loopFault => c

/-- The occupancy of a window (R18). -/
def occupancy (onTime elapsed : Nat) : Nat := if elapsed = 0 then 0 else wholeTenths onTime * 1000 / elapsed

/-- A result is VALID (R18). -/
def resultValid (d : Option DetRec) (c : DetState) (elapsed : Nat) : Bool :=
  match d with
  | none => false
  | some d => c.okThroughout && !d.always && elapsed != 0

/-- One channel's result published and its next window begun (R16, R18, R19). -/
def publish (d : Option DetRec) (elapsed : Nat) (c : DetState) : DetState :=
  { c with
    lastOcc := if d.isSome then occupancy c.onTime elapsed else 0
    lastVol := if d.isSome then c.volume else 0
    lastValid := resultValid d c elapsed
    onTime := 0
    volume := 0
    glitches := 0
    okThroughout := d.isSome && decide (c.health = .ok) }

/-- The chatter judgement of every channel, announced (R17). -/
def chatterStep (s : State) : State :=
  announce s { s with det := { s.det with
    chans := vmap (fun ch c => judgeChatter s.tables.detMap[ch] c) s.det.chans } }

/-- The results are formed and published, and the new window begins (R18, R19). -/
def publishStep (s : State) : State :=
  { s with det := {
      chans := vmap (fun ch c => publish s.tables.detMap[ch] (wholeTenths s.det.elapsed) c) s.det.chans
      elapsed := 0
      lastElapsed := wholeTenths s.det.elapsed } }

/-- The slot counts and the lane counts roll over (R75, R100). -/
def rollCounts (s : State) : State :=
  { s with
    ramps := vmap (fun _ c => { c with lastSlotCount := c.slotCount, slotCount := 0 }) s.ramps
    lanes := vmap (fun _ x => rollLane x) s.lanes }

/-- The window closes: chatter, results, counts, then selection and the Rate Unit, which touch separate
state (R19, R25, R44, R75, R100). -/
def windowClose (s : State) : State :=
  forRamps rateClose (forRamps selectPlan (rollCounts (publishStep (chatterStep
    { s with time := { s.time with closeDue := false } }))))

/-! ### Time marks (R141 to R144) -/

/-- The difference between a mark and corridor time, -431999 to 432000 (R142). -/
def markDifference (t m : Nat) : Int :=
  let x := ((m : Int) - (t : Int)) % (Config.dayTenths : Int)
  if x ≤ 432000 then x else x - (Config.dayTenths : Int)

/-- A forward move of corridor time by `d` tenths from `t` passes or reaches a multiple of W (R20). -/
def crossesGrid (w t d : Nat) : Bool := decide (t / w < (t + d) / w)

/-- An adoption: corridor time takes the mark and the next tenth is counted from it; forward across the grid
closes the window once; backward leaves it to the next multiple after the mark, a close of this moment not
yet taken included (R20, R142, R143; log entry 13). -/
def adopt (d : Int) (m : Nat) (s : State) : State :=
  let t := { s with time := { s.time with corridor := m, phase := 0 } }
  if 0 < d then
    if s.time.closeDue || crossesGrid (windowLength s.tables) s.time.corridor d.toNat then windowClose t else t
  else { t with time := { t.time with closeDue := false } }

/-- A counted mark: adoption when it differs by two tenths or more (R142), then LOCKED and the sync timer from
zero (R144). -/
def countedMark (m : Nat) (s : State) : State :=
  let d := markDifference s.time.corridor m
  let t := if -1 ≤ d ∧ d ≤ 1 then s else adopt d m s
  { t with time := { t.time with locked := true, syncTimer := .running 0 } }

/-- A TMK handed to the Timekeeper: it counts when its source is 1 and its payload holds a corridor time in
range (R141). -/
def timeMark (src : Nat) (payload : List Byte) (s : State) : State :=
  match payload with
  | a :: b :: c :: _ =>
    let m := a.toNat * 65536 + b.toNat * 256 + c.toNat
    if src = 1 ∧ m < Config.dayTenths then countedMark m s else s
  | _ => s

/-- The sync timer expires (R144). -/
def syncExpired (s : State) : State := { s with time := { s.time with locked := false, syncTimer := .stopped } }

end Sys2Proof.Machine
end

