-- ==== Sys2Proof/Machine/Ring.lean ====
section
/-! DEFINITION. Ring Interface (spec 09): acceptance of a frame, the forward buffer, the insert queue and the
waiting SIGs, the out port, ring quiet, and the end of an event. -/

namespace Sys2Proof.Machine

/-! ### Acceptance (R154) -/

/-- An accepted frame's header and payload. -/
structure Frame where
  dst : Nat
  src : Nat
  kind : Nat
  payload : List Byte
deriving DecidableEq, Repr

/-- The acceptance tests on the layout of 11.1 (R154, R187): none is a dropped frame. -/
def acceptFrame (bytes : List Byte) : Option Frame :=
  match bytes with
  | d :: s :: k :: n :: rest =>
    if n.toNat ≤ 48 ∧ rest.length = n.toNat + 2
        ∧ rest.drop n.toNat = be16 (crc16 (d :: s :: k :: n :: rest.take n.toNat)).toNat
        ∧ stationOf d ≠ 63 ∧ stationOf s ≠ 0 ∧ stationOf s ≠ 63 then
      some { dst := stationOf d, src := stationOf s, kind := k.toNat, payload := rest.take n.toNat }
    else none
  | _ => none

/-- The bytes a DPR or LMP payload carries after its count, when it is well formed (R157). -/
def countedBytes (payload : List Byte) : Option (List Byte) :=
  match payload with
  | c :: rest =>
    if 1 ≤ c.toNat ∧ c.toNat ≤ 8 ∧ c.toNat ≤ rest.length then some (rest.take c.toNat) else none
  | [] => none

/-! ### The stores (R159, R162, R163) -/

def Insert.isRsp : Insert → Bool
  | .rsp _ _ => true
  | .sig _ _ => false

/-- A queued SIG for a station. -/
def Insert.isSigFor (st : Nat) : Insert → Bool
  | .sig x _ => x == st
  | .rsp _ _ => false

def rspCount (l : List Insert) : Nat := (l.filter Insert.isRsp).length

def sigCount (l : List Insert) : Nat := (l.filter fun i => !i.isRsp).length

/-- A SIG is enqueued: it replaces the station's queued SIG in place, or its waiting SIG, or takes a free SIG
place at the tail, or waits (R163). -/
def enqueueSig (st : Nat) (image : List Aspect) (q : RingUnit) : RingUnit :=
  if q.insert.any (Insert.isSigFor st) then
    { q with insert := q.insert.map fun i => if i.isSigFor st then .sig st image else i }
  else if q.waiting.any fun w => w.station == st then
    { q with waiting := q.waiting.map fun w => if w.station = st then ⟨st, image⟩ else w }
  else if sigCount q.insert < 8 then { q with insert := q.insert ++ [.sig st image] }
  else { q with waiting := q.waiting ++ [⟨st, image⟩] }

/-- A frame to be forwarded enters the buffer, or is dropped and counted (R159). -/
def forwardFrame (bytes : List Byte) (q : RingUnit) : RingUnit :=
  if q.forward.length < 2 then { q with forward := q.forward ++ [bytes] }
  else { q with overflow := satInc q.overflow }

/-- The oldest waiting SIG takes a freed SIG place (R163). -/
def promoteWaiting (q : RingUnit) : RingUnit :=
  match q.waiting with
  | [] => q
  | w :: ws => { q with insert := q.insert ++ [.sig w.station w.image], waiting := ws }

/-- The bytes of a frame the part originates (R131, R152, R155). -/
def insertBytes (own : Nat) : Insert → List Byte
  | .sig st image => frameBytes st own 3 (byte image.length :: image.map aspectCode)
  | .rsp dst payload => frameBytes dst own 6 payload

/-- The port takes the oldest forwarded frame (R161). -/
def takeForward (f : List Byte) (fs : List (List Byte)) (q : RingUnit) : RingUnit :=
  { q with forward := fs, run := min (q.run + 1) 4, inFlight := some ⟨f, 0⟩ }

/-- The port takes the head of the insert queue; a SIG taken frees a SIG place (R161, R163). -/
def takeInsert (own : Nat) (i : Insert) (is : List Insert) (q : RingUnit) : RingUnit :=
  let t := { q with insert := is, run := 0, inFlight := some ⟨insertBytes own i, 0⟩ }
  if i.isRsp then t else promoteWaiting t

/-- A free port takes a frame when one waits, choosing by the forwarded run (R160, R161). -/
def portTake (own : Nat) (q : RingUnit) : RingUnit :=
  match q.inFlight with
  | some _ => q
  | none =>
    match q.forward, q.insert with
    | [], [] => q
    | f :: fs, [] => takeForward f fs q
    | [], i :: is => takeInsert own i is q
    | f :: fs, i :: is => if q.run < 4 then takeForward f fs q else takeInsert own i is q

/-- The out port of the part (R160); the address is the source of its own frames. -/
def pump (s : State) : State := { s with ring := portTake (s.station.getD 0) s.ring }

/-- One station's SIG is enqueued with its image as it stands, and its refresh timer restarts (R131, R163). -/
def sendSig (st : Nat) (s : State) : State :=
  { s with
    ring := enqueueSig st (sigImage s st) s.ring
    out := { s.out with drivers := modDriver st (fun d => { d with refresh := .running 0 }) s.out.drivers } }

/-- The SIGs of an event are enqueued in ascending station order (R163); a PASSIVE part enqueues none (R131). -/
def flushSigs (s : State) : State :=
  let t := if s.station.isSome then forEach s.out.sigDue sendSig s else s
  { t with out := { t.out with sigDue := [] } }

/-- The end of an event: FAILSAFE judged, SIGs enqueued, and the free port's take (log entry 14). -/
def endEvent (s : State) : State := pump (flushSigs (settle s))

/-! ### Ring quiet (R164) -/

/-- A change of ring quiet changes every ramp's fault set (R113). -/
def setQuiet (v : Bool) (s : State) : State :=
  if s.ring.quiet = v then s
  else forRamps setAttention { s with ring := { s.ring with quiet := v } }

/-- The quiet timer expires: it stops, and ring quiet is asserted (R164). -/
def quietExpired (s : State) : State :=
  setQuiet true { s with ring := { s.ring with quietTimer := .stopped } }

/-- The sending ends (R160). -/
def sendingEnded (s : State) : State := { s with ring := { s.ring with inFlight := none } }

end Sys2Proof.Machine
end

