-- ==== Sys2Proof/Machine/Resets.lean ====
section
/-! DEFINITION. The two resets (R166, R185) and the debounced lines (R114, R115). -/

namespace Sys2Proof.Machine

/-- Power-on reset with the strap levels sampled (R137, R139, R152, R166): every block at its power-on
values, all tables unset, the frame in flight cut off. The lines' inputs, which are pins, stay as they are
(R114), and so do the model's own fields. -/
def powerOn (straps : BitVec 6) (s : State) : State :=
  { State.reset with
    pending := s.pending
    stride := s.stride
    freeCount := s.freeCount
    lines := vmap (fun _ x => LineState.reset x.input) s.lines
    ring := RingUnit.reset straps }

/-- The Output Unit after a run reset: channels at reset values, a driver record for each driver station with
its silence timer from zero, and a SIG due for each (R138). -/
def OutUnit.runReset (o : OutUnit) : OutUnit where
  chans := vmap (fun _ _ => OutChan.reset) o.chans
  drivers := o.drivers.map fun d => { d with refresh := .stopped, silence := .running 0 }
  sigDue := o.drivers.map (·.station)

/-- The Ring Interface after a run reset: straps, forward buffer and the frame in flight are kept (R166). -/
def RingUnit.runReset (q : RingUnit) : RingUnit :=
  { q with insert := [], waiting := [], run := 0, quiet := false, quietTimer := .running 0, bad := 0,
           overflow := 0, discard := 0 }

/-- Run reset, steps 1 to 3 of R185; the SIGs made due here are enqueued at the end of the event. Tables,
corridor time, straps, forward buffer and frame in flight are kept. -/
def runResetState (s : State) : State :=
  { s with
    det := DetUnit.reset
    vectors := State.reset.vectors
    rate := State.reset.rate
    ramps := State.reset.ramps
    lanes := State.reset.lanes
    auth := State.reset.auth
    onTimers := State.reset.onTimers
    lines := vmap (fun _ x => LineState.reset x.input) s.lines
    out := s.out.runReset
    time := { s.time with locked := false, syncTimer := .stopped, closeDue := false }
    ring := s.ring.runReset }

/-! ### Lines -/

/-- A line's input takes a level (R114): away from the debounced level its 5 tenths begin; back at it they
are abandoned. A level the input already has is no change. -/
def lineInput (v : Bool) (x : LineState) : LineState :=
  if v = x.input then x
  else { x with input := v, timer := if v = x.active then .stopped else .running 0 }

/-- The line of a PREEMPT or PANEL source that a set Ramp Config names (R54, R115). -/
def lineOfSource (t : Tables) (r : Ramp) (k : Source) : Option Line :=
  (t.rampCfg[r]).bind fun c =>
    if k = 1 then c.preLine.map fun n => ⟨n.val, by omega⟩
    else if k = 4 then c.panelLine.map fun n => ⟨n.val + 4, by omega⟩
    else none

/-- The line's debounced level that a PREEMPT or PANEL source follows (R115). -/
def lineAsserts (s : State) (r : Ramp) (k : Source) : Bool :=
  match lineOfSource s.tables r k with
  | some l => (s.lines[l]).active
  | none => false

/-- A ramp's PREEMPT and PANEL sources are judged against their lines (R115). -/
def judgeLines (r : Ramp) (s : State) : State :=
  let t := setAsserted r 1 (lineAsserts s r 1) s
  setAsserted r 4 (lineAsserts t r 4) t

/-- A line's input has held for 5 tenths: the debounced level follows it and reaches every ramp that names
the line (R114, R115). -/
def debounced (l : Line) (s : State) : State :=
  forRamps judgeLines (s.setLine l { s.lines[l] with active := (s.lines[l]).input, timer := .stopped })

end Sys2Proof.Machine
end

