-- ==== Sys2Proof/Machine/Tables.lean ====
section
/-! DEFINITION. TABLE WRITE and TABLE CLEAR on each table: the tests that consult other records, the INUSE
locks (R175), and the effects of an accepted request. -/

namespace Sys2Proof.Machine

/-- The result of a request (R169). -/
inductive Result where
  | done | badReq | badIndex | badValue | inUse | notConfig
deriving DecidableEq, Repr

/-- A result's code (11.3). -/
def Result.code : Result → Byte
  | .done => 0#8
  | .badReq => 1#8
  | .badIndex => 2#8
  | .badValue => 3#8
  | .inUse => 4#8
  | .notConfig => 5#8

/-! ### Tests that consult other records -/

/-- Another set record at a different index holds the same card station and input (R2). -/
def detDuplicate (t : Tables) (ch : Channel) (d : DetRec) : Bool :=
  (List.finRange 64).any fun i => decide (i ≠ ch) &&
    match t.detMap[i] with
    | some e => e.station == d.station && e.input == d.input
    | none => false

/-- A lane of the list stands in another ramp's set Ramp Config (R55). -/
def laneTaken (t : Tables) (r : Ramp) (c : RampRec) : Bool :=
  (List.finRange 4).any fun q => decide (q ≠ r) && c.lanes.any fun l => (lanesOf t q).contains l

/-- A channel is the head channel of a set Lane Config record other than `except` (R55, R78, R126). -/
def headNamed (t : Tables) (except : Option Lane) (ch : OutCh) : Bool :=
  (List.finRange 12).any fun l => decide (some l ≠ except) && headOf t l == some ch

/-- A channel is the beacon channel of a set Ramp Config other than `except` (R55, R78, R126). -/
def beaconNamed (t : Tables) (except : Option Ramp) (ch : OutCh) : Bool :=
  (List.finRange 4).any fun q => decide (some q ≠ except) && beaconOf t q == some ch

/-- A channel's Output Map record is set with a use: BEACON or HEAD (R55, R78). -/
def outUse (t : Tables) (ch : OutCh) (beacon : Bool) : Bool :=
  match t.outMap[ch] with
  | some o => o.beacon == beacon
  | none => false

/-- The conflicts of a Ramp Config write (R55). -/
def rampConflict (t : Tables) (r : Ramp) (c : RampRec) : Bool :=
  laneTaken t r c ||
    match c.beacon with
    | some ch => beaconNamed t (some r) ch || headNamed t none ch || outUse t ch false
    | none => false

/-- The conflicts of a Lane Config write (R78). -/
def laneConflict (t : Tables) (l : Lane) (c : LaneRec) : Bool :=
  headNamed t (some l) c.head || beaconNamed t none c.head || outUse t c.head true

/-- The stations named by the set Output Map records at other indices (R126). -/
def otherStations (t : Tables) (ch : OutCh) : List Nat :=
  ((List.finRange 16).filterMap fun i => if i = ch then none else (t.outMap[i]).map (·.station)).dedup

/-- The conflicts of an Output Map write (R126). The limit of eight counts the stations of the other set
records. -/
def outConflict (t : Tables) (ch : OutCh) (o : OutRec) : Bool :=
  ((List.finRange 16).any fun i => decide (i ≠ ch) &&
    match t.outMap[i] with
    | some e => e.station == o.station && decide (e.output = o.output)
    | none => false)
  || (decide (o.station ∉ otherStations t ch) && decide (8 ≤ (otherStations t ch).length))
  || (o.beacon && headNamed t none ch)
  || (!o.beacon && beaconNamed t none ch)

/-! ### Locks (R175) -/

/-- A ramp touched by a Detector Map record is in use: one of its ramp set, or the ramp whose set Ramp Config
lists its lane (R1, R175). -/
def detTouchesInUse (s : State) (d : Option DetRec) : Bool :=
  match d with
  | none => false
  | some d =>
    ((List.finRange 4).any fun r => d.ramps.getLsbD r.val && inUse s r) ||
      match d.lane.bind (rampOfLane s.tables) with
      | some r => inUse s r
      | none => false

/-- Any ramp has a plan adopted (R40). -/
def planAdopted (s : State) (n : Nat) : Bool :=
  (List.finRange 4).any fun r => adoptedNumber s.ramps[r] == some n

/-- Any ramp has adopted a plan whose stored record names a curve (R42). -/
def curveAdopted (s : State) (n : Nat) : Bool :=
  (List.finRange 4).any fun r =>
    match (s.ramps[r]).adopted.bind fun a => planRec s.tables a.number with
    | some p => (p.adaptive.map (·.curve)) == some n
    | none => false

/-- A lane is listed in the set Ramp Config of a ramp in use (R79). -/
def laneInUse (s : State) (l : Lane) : Bool :=
  (List.finRange 4).any fun r => (lanesOf s.tables r).contains l && inUse s r

/-- A channel belongs to a ramp in use (R127). -/
def outInUse (s : State) (ch : OutCh) : Bool :=
  (List.finRange 4).any fun r => belongs s.tables r ch && inUse s r

def anyInUse (s : State) : Bool := (List.finRange 4).any fun r => inUse s r

/-! ### Accepted writes (`some`) and clears (`none`) -/

/-- Tables whose writes have no effect beyond the record (R31, R40, R42, R109). For a condition they keep its present
value as the next close's previous value (R24), that of a TRUE condition cleared and written again within one window too:
R24 keeps the present value until the close, and lets a condition newly set on an unset index start from FALSE (DESIGN
CHOICE, log entry 38). -/
def putCond (i : Fin 64) (rec : Option CondRec) (s : State) : State :=
  { s with tables := { s.tables with conds := vset s.tables.conds i rec } }

def putMatch (i : Fin 48) (rec : Option MatchRec) (s : State) : State :=
  { s with tables := { s.tables with matches_ := vset s.tables.matches_ i rec } }

def putPlan (i : Fin 32) (rec : Option PlanRec) (s : State) : State :=
  { s with tables := { s.tables with plans := vset s.tables.plans i rec } }

def putCurve (i : Fin 8) (rec : Option CurveRec) (s : State) : State :=
  { s with tables := { s.tables with curves := vset s.tables.curves i rec } }

def putAction (i : Fin 20) (rec : Option ActionRec) (s : State) : State :=
  { s with tables := { s.tables with actions := vset s.tables.actions i rec } }

/-- A Ramp Config record: belonging is reviewed, the spillback logic restarts, and the lines are judged
afresh (R112, R115, R120, R130). -/
def putRamp (r : Ramp) (rec : Option RampRec) (s : State) : State :=
  judgeLines r (restartSpillback r (reviewChecked s.tables
    { s with tables := { s.tables with rampCfg := vset s.tables.rampCfg r rec } }))

/-- A Lane Config record: belonging is reviewed (R79, R112, R130). -/
def putLaneCfg (l : Lane) (rec : Option LaneRec) (s : State) : State :=
  reviewChecked s.tables { s with tables := { s.tables with laneCfg := vset s.tables.laneCfg l rec } }

/-- The Part Settings record: the new length holds at once; a close of this moment not yet taken stands only
if corridor time is a multiple of the new length (R15, R172; log entry 13). -/
def putSettings (rec : Option Nat) (s : State) : State :=
  let t := { s with tables := { s.tables with settings := rec } }
  { t with time := { t.time with
      closeDue := t.time.closeDue && decide (t.time.corridor % windowLength t.tables = 0) } }

/-! ### The requests by table -/

/-- A record read and tested, then the lock, then the effect (R169, R171). -/
def writeTested {α : Type} (rec : Option α) (conflict : α → Bool) (locked : α → Bool) (put : Option α → State → State)
    (s : State) : Result × State :=
  match rec with
  | none => (.badValue, s)
  | some x =>
    if conflict x then (.badValue, s)
    else if locked x then (.inUse, s)
    else (.done, put (some x) s)

/-- A clear: the lock, then the effect; a record already unset is left as it is (R174). -/
def clearTested {α : Type} (stored : Option α) (locked : Bool) (put : Option α → State → State) (s : State) :
    Result × State :=
  if locked then (.inUse, s)
  else match stored with
    | some _ => (.done, put none s)
    | none => (.done, s)

/-- An index as a place of its table, or BADINDEX (R170). -/
def atIndex {n : Nat} (lo index : Nat) (s : State) (f : Fin n → Result × State) : Result × State :=
  if index < lo then (.badIndex, s)
  else match asFin n (index - lo) with
    | some i => f i
    | none => (.badIndex, s)

/-- A TABLE WRITE whose shape has passed, from the index test on (R171). -/
def writeTable (table index : Nat) (bytes : List Byte) (s : State) : Result × State :=
  match table with
  | 1 => atIndex 0 index s fun ch => writeTested (readDet bytes) (detDuplicate s.tables ch)
      (fun d => detTouchesInUse s s.tables.detMap[ch] || detTouchesInUse s (some d)) (putDetMap ch) s
  | 2 => atIndex 0 index s fun i => writeTested (readCond bytes) (fun _ => false) (fun _ => false) (putCond i) s
  | 3 => atIndex 0 index s fun i => writeTested (readMatch bytes) (fun _ => false) (fun _ => false) (putMatch i) s
  | 4 => atIndex 1 index s fun i => writeTested (readPlan bytes) (fun _ => false) (fun _ => false) (putPlan i) s
  | 5 => atIndex 1 index s fun i => writeTested (readCurve bytes) (fun _ => false) (fun _ => false) (putCurve i) s
  | 6 => atIndex 0 index s fun r => writeTested (readRamp bytes) (rampConflict s.tables r) (fun _ => inUse s r)
      (putRamp r) s
  | 7 => atIndex 1 index s fun l => writeTested (readLane bytes) (laneConflict s.tables l) (fun _ => laneInUse s l)
      (putLaneCfg l) s
  | 8 => atIndex 0 index s fun ch => writeTested (readOut bytes) (outConflict s.tables ch) (fun _ => outInUse s ch)
      (putOutMap ch) s
  | 9 => atIndex 0 index s fun i => writeTested (readAction bytes) (fun _ => false) (fun _ => false) (putAction i) s
  | 10 => if index = 0 then writeTested (readSettings bytes) (fun _ => false) (fun _ => anyInUse s) putSettings s
      else (.badIndex, s)
  | _ => (.badIndex, s)

/-- A TABLE CLEAR, from the index test on (R174). -/
def clearTable (table index : Nat) (s : State) : Result × State :=
  match table with
  | 1 => atIndex 0 index s fun ch => clearTested s.tables.detMap[ch] (detTouchesInUse s s.tables.detMap[ch])
      (putDetMap ch) s
  | 2 => atIndex 0 index s fun i => clearTested s.tables.conds[i] false (putCond i) s
  | 3 => atIndex 0 index s fun i => clearTested s.tables.matches_[i] false (putMatch i) s
  | 4 => atIndex 1 index s fun i => clearTested s.tables.plans[i] (planAdopted s index) (putPlan i) s
  | 5 => atIndex 1 index s fun i => clearTested s.tables.curves[i] (curveAdopted s index) (putCurve i) s
  | 6 => atIndex 0 index s fun r => clearTested s.tables.rampCfg[r] (inUse s r) (putRamp r) s
  | 7 => atIndex 1 index s fun l => clearTested s.tables.laneCfg[l] (laneInUse s l) (putLaneCfg l) s
  | 8 => atIndex 0 index s fun ch => clearTested s.tables.outMap[ch] (outInUse s ch) (putOutMap ch) s
  | 9 => atIndex 0 index s fun i => clearTested s.tables.actions[i] false (putAction i) s
  | 10 => if index = 0 then clearTested s.tables.settings (anyInUse s) putSettings s else (.badIndex, s)
  | _ => (.badIndex, s)

end Sys2Proof.Machine
end

