-- ==== Sys2Proof/Machine/Requests.lean ====
section
/-! DEFINITION. Management Unit (spec 10): the fourteen requests on the bytes of their CMD payload, their
result fields (spec 11, 11.4) and the response. -/

namespace Sys2Proof.Machine

/-- What a judged request leaves: its result, its result fields, and the part's state. -/
structure Reply where
  result : Result
  fields : List Byte
  state : State
deriving DecidableEq, Repr

/-- A request that is not DONE: no result fields, and the state as it was (R168). -/
def refuse (x : Result) (s : State) : Reply := ⟨x, [], s⟩

/-- A request answered DONE. -/
def answer (fields : List Byte) (s : State) : Reply := ⟨.done, fields, s⟩

/-- A table request's outcome as a reply: table id and index on DONE (11.4). -/
def replyOf (table index : Byte) (x : Result × State) : Reply :=
  match x.1 with
  | .done => answer [table, index] x.2
  | e => refuse e x.2

/-- A ramp byte above 3 is BADINDEX (R169). -/
def onRamp (b : Byte) (s : State) (f : Ramp → Reply) : Reply :=
  match asFin 4 b.toNat with
  | some r => f r
  | none => refuse .badIndex s

/-! ### IDENTIFY (R178) -/

/-- The eleven capacities in the order of 11.4. -/
def capacities : List Byte := [4, 12, 64, 16, 8, 32, 8, 16, 12, 16, 8]

/-- The 24 bytes of IDENTIFY for a part at station `own`. -/
def identifyFields (own : Nat) (s : State) : List Byte :=
  be16 Config.vendorCode ++ be16 Config.partCode ++ [byte (Config.revisionLessOne.val + 1), byte own, 1#8]
    ++ capacities ++ be16 s.ring.bad ++ be16 s.ring.overflow ++ be16 s.ring.discard

def identify (own : Nat) (s : State) : Reply := answer (identifyFields own s) s

/-! ### Table requests (R171 to R176) -/

/-- TABLE WRITE: shape, index, value, lock, effect (R169, R171). -/
def tableWrite (table index : Byte) (record : List Byte) (s : State) : Reply :=
  if shapeOk table.toNat record then replyOf table index (writeTable table.toNat index.toNat record s)
  else refuse .badReq s

def tableClear (table index : Byte) (s : State) : Reply :=
  replyOf table index (clearTable table.toNat index.toNat s)

/-- An index lies in the range of its table (R170). -/
def indexOk (table index : Nat) : Bool := decide (index ∈ indicesOf table)

/-- The presence byte and the record read back (11.4). -/
def readFields (t : Tables) (table index : Nat) : List Byte :=
  match storedRecord t table index with
  | some r => 1#8 :: r
  | none => [0#8]

def tableRead (table index : Byte) (s : State) : Reply :=
  if indexOk table.toNat index.toNat then
    answer ([table, index] ++ readFields s.tables table.toNat index.toNat) s
  else refuse .badIndex s

/-- Each set record of a table, ascending, with its index byte in front (R176). -/
def setRecords (t : Tables) (table : Nat) : List (List Byte) :=
  (indicesOf table).filterMap fun i => (storedRecord t table i).map fun r => byte i :: r

def checkFields (t : Tables) (table : Byte) : List Byte :=
  let l := setRecords t table.toNat
  [table, byte l.length] ++ be16 (crc16 l.flatten).toNat

/-- TABLE CHECK (R176). -/
def tableCheck (table : Byte) (s : State) : Reply :=
  if (indexRange table.toNat).isSome then answer (checkFields s.tables table) s else refuse .badIndex s

/-! ### Ramp and authority requests (R177) -/

/-- RAMP MODE AUTO for a ramp (R58). -/
def modeAutoRequest (r : Ramp) (s : State) : Reply :=
  if (s.ramps[r]).state = .off then
    if configComplete s.tables r then answer [] (leaveOff r s) else refuse .notConfig s
  else answer [] (modeAuto r s)

/-- RAMP MODE (R58, R72, R177). -/
def rampMode (ramp mode : Byte) (s : State) : Reply :=
  onRamp ramp s fun r =>
    match asBool mode with
    | some true => modeAutoRequest r s
    | some false => answer [] (modeOff r s)
    | none => refuse .badValue s

/-- A source's armed field is set; an ARM of the present setting changes nothing (R116). -/
def setArmed (r : Ramp) (k : Source) (v : Bool) (s : State) : State :=
  if ((s.auth[r]).sources[k]).armed = v then s
  else sourceChanged r k (s.setAuth r ((s.auth[r]).setSource k { (s.auth[r]).sources[k] with armed := v }))

/-- The source an ARM may name, 2 to 5 (R116). -/
def armable (b : Byte) : Option Source :=
  match asFin 6 b.toNat with
  | some k => if 2 ≤ k.val then some k else none
  | none => none

/-- ARM (R116). -/
def armRequest (ramp source setting : Byte) (s : State) : Reply :=
  onRamp ramp s fun r =>
    match armable source, asBool setting with
    | some k, some v => answer [] (setArmed r k v s)
    | _, _ => refuse .badValue s

/-- The source number of a central source (R121). -/
def centralSource : Central → Source
  | .urgent => 3
  | .plan => 5

/-- The central source a byte names: 3 or 5 (R121). -/
def centralOf (b : Byte) : Option Central :=
  match b.toNat with
  | 3 => some .urgent
  | 5 => some .plan
  | _ => none

/-- A source's lease is written. -/
def setLease (r : Ramp) (k : Source) (v : Option Nat) (s : State) : State :=
  s.setAuth r ((s.auth[r]).setSource k { (s.auth[r]).sources[k] with lease := v })

/-- ASSERT for a central source: the lease runs from the value carried and the source is asserted; where a lease
ran already, the source is asserted already and only the lease changes (R121). -/
def assertCentral (r : Ramp) (k : Source) (lease : Nat) (s : State) : State :=
  setAsserted r k true (setLease r k (some (tenths lease)) s)

/-- The lease ends and the source is deasserted: RELEASE, or a lease that reaches zero (R122). -/
def endLease (r : Ramp) (k : Source) (s : State) : State := setAsserted r k false (setLease r k none s)

/-- ASSERT (R121). -/
def assertRequest (ramp source : Byte) (lease : Nat) (s : State) : Reply :=
  onRamp ramp s fun r =>
    match centralOf source, within 100 6000 lease with
    | some c, some n => answer [] (assertCentral r (centralSource c) n s)
    | _, _ => refuse .badValue s

/-- RELEASE (R122). -/
def releaseRequest (ramp source : Byte) (s : State) : Reply :=
  onRamp ramp s fun r =>
    match centralOf source with
    | some c => answer [] (endLease r (centralSource c) s)
    | none => refuse .badValue s

/-- Every latched fault of a ramp's channels is unlatched and judged at once, ascending (R136). -/
def clearFaults (r : Ramp) (s : State) : State := forEach (faultedChannels s r) clearLatched s

/-- CLEAR FAULT (R136). -/
def clearFaultRequest (ramp : Byte) (s : State) : Reply :=
  onRamp ramp s fun r => answer [] (clearFaults r s)

/-! ### STATUS (R179 to R182) -/

/-- Ramp state codes (11.5). -/
def rampStateCode : RampState → Byte
  | .off => 0#8
  | .standby => 1#8
  | .warn => 2#8
  | .startGreen => 3#8
  | .startClear => 4#8
  | .metering => 5#8
  | .shutClear => 6#8
  | .shutFlush => 7#8
  | .darkFail => 8#8

/-- Lane state codes (11.5). -/
def laneStateCode : LaneState → Byte
  | .dark => 0#8
  | .greenRest => 1#8
  | .restRed => 2#8
  | .delay => 3#8
  | .green => 4#8
  | .yellow => 5#8
  | .minRed => 6#8

def modeCode : Mode → Byte
  | .off => 0#8
  | .auto => 1#8

/-- Clear phase codes (11.4). -/
def phaseCode : Option ClearPhase → Byte
  | none => 0#8
  | some .yellow => 1#8
  | some .red => 2#8

/-- The effective action's code and plan (11.4, 11.5). -/
def effectiveBytes : Effective → List Byte
  | .auto n => [0#8, byte n]
  | .dark => [1#8, 0#8]
  | .flush => [2#8, 0#8]
  | .hold => [3#8, 0#8]
  | .plan n => [4#8, byte n]
  | .failsafe => [5#8, 0#8]

/-- The candidate plan and its count (11.4). -/
def candidateBytes : Option Candidate → List Byte
  | some k => [byte k.plan, byte k.count]
  | none => [255#8, 0#8]

/-- The call of a lane as STATUS reports it (R85, R86); a lane without a Lane Config holds none. -/
def reportedCall (s : State) (l : Lane) : Bool :=
  match s.tables.laneCfg[l] with
  | some c => laneCall c (effectiveOf s c.demand) s.lanes[l]
  | none => (s.lanes[l]).call

/-- A lane's five bytes in the RAMP section. -/
def laneBytes (s : State) (l : Lane) : List Byte :=
  [laneNumber l, laneStateCode (s.lanes[l]).state, boolByte (reportedCall s l)]
    ++ be16 (s.lanes[l]).last.yellowPassages

/-- The RAMP section (R180, 11.4). -/
def rampSection (r : Ramp) (s : State) : List Byte :=
  let c := s.ramps[r]
  [byte r.val, 1#8, modeCode c.mode, rampStateCode c.state, phaseCode c.clearPhase]
    ++ effectiveBytes (standingAction s r)
    ++ [byte c.autoPlan] ++ candidateBytes c.candidate
    ++ [byte ((adoptedNumber c).getD 0), byte (c.slotLength.getD 0), byte c.patternCount,
      byte (flagBits [c.aligned, c.planUnset, c.actionUnset, (s.rate[r]).degraded]), byte (s.rate[r]).relief,
      byte (lanesOf s.tables r).length]
    ++ (lanesOf s.tables r).flatMap (laneBytes s)

/-- The granted action's code and plan, 255 when absent (11.4). -/
def grantedBytes : Option Granted → List Byte
  | none => [255#8, 0#8]
  | some .dark => [1#8, 0#8]
  | some .flush => [2#8, 0#8]
  | some .hold => [3#8, 0#8]
  | some (.plan n) => [4#8, byte n]
  | some .failsafe => [5#8, 0#8]

/-- A hold in tenths, 65535 when UNCAPPED, 0 when there is none (11.4). -/
def holdBytes : Option Hold → List Byte
  | none => be16 0
  | some (.running n) => be16 (remainingTenths n)
  | some (.paused n) => be16 (remainingTenths n)
  | some .uncapped => be16 65535

/-- A remaining lease, 65535 when none runs (11.4). -/
def leaseBytes : Option Nat → List Byte
  | none => be16 65535
  | some n => be16 (remainingTenths n)

/-- The last grant: source, corridor time, kind. With no last grant the layout gives 255 and kind 0 and leaves the
three time bytes open: they are the free value `free` (log entry 10). -/
def lastGrantBytes (free : BitVec 24) : Option LastGrant → List Byte
  | none => [255#8] ++ be24 free.toNat ++ [0#8]
  | some g => [byte g.source.val] ++ be24 g.time ++ [match g.kind with | .fresh => 1#8 | .resumed => 2#8]

/-- A source's flag byte (11.4). -/
def sourceByte (x : SourceRec) : Byte := byte (flagBits [x.asserted, x.armed, x.spent, x.standing])

/-- The holder's number, 255 for none. -/
def sourceCode : Option Source → Byte
  | none => 255#8
  | some k => byte k.val

/-- The AUTHORITY section (R181, 11.4). -/
def authoritySection (r : Ramp) (s : State) : List Byte :=
  let a := s.auth[r]
  let f := faultedChannels s r
  [byte r.val, 2#8, sourceCode a.holder] ++ grantedBytes a.granted
    ++ holdBytes (a.holder.bind fun k => (a.sources[k]).hold)
    ++ [byte a.stack.length] ++ a.stack.flatMap (fun k => byte k.val :: holdBytes (a.sources[k]).hold)
    ++ lastGrantBytes (Config.freeValue s.freeCount) a.lastGrant
    ++ a.sources.toList.map sourceByte
    ++ leaseBytes (a.sources[(3 : Source)]).lease ++ leaseBytes (a.sources[(5 : Source)]).lease
    ++ [byte (f.length + if s.ring.quiet then 128 else 0)] ++ f.map fun ch => byte ch.val

/-- A timer's code (11.4). -/
def timerCode : Timer → Nat
  | .stopped => 0
  | .running _ => 1
  | .expired => 2

/-- The SPILLBACK section (R182, 11.4). -/
def spillbackSection (r : Ramp) (s : State) : List Byte :=
  [byte r.val, 3#8, boolByte ((s.auth[r]).sources[(2 : Source)]).asserted, byte (timerCode (s.auth[r]).clearTimer),
    byte (spillChannels s r).length]
    ++ ((spillChannels s r).take 16).flatMap fun ch =>
      [byte ch.val, byte ((if usable s ch then 1 else 0) + 16 * timerCode s.onTimers[ch])]

/-- A section that draws a free value leaves the count of draws one higher (log entry 10). -/
def drawnBy (r : Ramp) (s : State) : State :=
  match (s.auth[r]).lastGrant with
  | some _ => s
  | none => { s with freeCount := s.freeCount + 1 }

/-- The ramp's attention becomes CLEAR (R76, R179). -/
def clearAttention (r : Ramp) (s : State) : State := s.modRamp r fun c => { c with attention := false }

/-- STATUS (R179). -/
def statusRequest (ramp sect : Byte) (s : State) : Reply :=
  onRamp ramp s fun r =>
    let t := clearAttention r s
    match sect.toNat with
    | 1 => answer (rampSection r t) t
    | 2 => answer (authoritySection r t) (drawnBy r t)
    | 3 => answer (spillbackSection r t) t
    | _ => refuse .badValue s

/-! ### DETECTORS and COUNTS (R183, R184) -/

/-- Health codes (11.5). -/
def healthCode : Health → Nat
  | .unseen => 0
  | .ok => 1
  | .silent => 2
  | .stuck => 3
  | .chatter => 4
  | .loopFault => 5

/-- A channel's five bytes in a DETECTORS response. -/
def detectorBytes (c : DetState) : List Byte :=
  [byte (healthCode c.health + if c.lastValid then 128 else 0)] ++ be16 c.lastOcc ++ be16 c.lastVol

/-- The channels of a range, ascending. -/
def channelRange (first count : Nat) : List Channel :=
  (List.finRange 64).filter fun ch => decide (first ≤ ch.val ∧ ch.val < first + count)

/-- DETECTORS (R183): the range test is made before the count's (R169; log entry 22). -/
def detectorsRequest (first count : Byte) (s : State) : Reply :=
  if 63 < first.toNat ∨ 64 < first.toNat + count.toNat then refuse .badIndex s
  else if count.toNat < 1 ∨ 8 < count.toNat then refuse .badValue s
  else answer ([first, count]
    ++ (channelRange first.toNat count.toNat).flatMap fun ch => detectorBytes s.det.chans[ch]) s

/-- The five counts of a lane that COUNTS returns, in their order (R75). -/
def fiveCounts (c : LaneCounts) : List Nat :=
  [c.releases, c.idleOffers, c.overrunSkips, c.greenPassages, c.violations]

/-- A lane's six bytes: each count held at 255 (R189). -/
def laneCountBytes (s : State) (l : Lane) : List Byte :=
  laneNumber l :: (fiveCounts (s.lanes[l]).last).map fun n => byte (min n 255)

/-- The sum of one count over a ramp's lanes, held at 65535 (R189). -/
def totalBytes (s : State) (r : Ramp) (f : LaneCounts → Nat) : List Byte :=
  be16 (min ((lanesOf s.tables r).map fun l => f (s.lanes[l]).last).sum 65535)

/-- The fields of COUNTS (R184, R189, 11.4). -/
def countsFields (r : Ramp) (s : State) : List Byte :=
  [byte r.val] ++ be16 (s.ramps[r]).lastSlotCount ++ [byte (lanesOf s.tables r).length]
    ++ (lanesOf s.tables r).flatMap (laneCountBytes s)
    ++ totalBytes s r (·.releases) ++ totalBytes s r (·.idleOffers) ++ totalBytes s r (·.overrunSkips)
    ++ totalBytes s r (·.greenPassages) ++ totalBytes s r (·.violations)

/-- COUNTS (R184). -/
def countsRequest (ramp : Byte) (s : State) : Reply := onRamp ramp s fun r => answer (countsFields r s) s

/-! ### A CMD's payload -/

/-- RUN RESET (R185); the state's effects are in Machine/Resets.lean. -/
def runResetRequest (s : State) : Reply := answer [] (runResetState s)

/-- A request with its fields in shape (11.3). -/
inductive Request where
  | identify
  | tableWrite (table index : Byte) (record : List Byte)
  | tableRead (table index : Byte)
  | tableClear (table index : Byte)
  | tableCheck (table : Byte)
  | rampMode (ramp mode : Byte)
  | arm (ramp source setting : Byte)
  | assert (ramp source : Byte) (lease : Nat)
  | release (ramp source : Byte)
  | status (ramp sect : Byte)
  | detectors (first count : Byte)
  | counts (ramp : Byte)
  | clearFault (ramp : Byte)
  | runReset
deriving DecidableEq, Repr

/-- No field. -/
def fields0 (q : Request) : List Byte → Option Request
  | [] => some q
  | _ => none

/-- One field byte. -/
def fields1 (q : Byte → Request) : List Byte → Option Request
  | [a] => some (q a)
  | _ => none

/-- Two field bytes. -/
def fields2 (q : Byte → Byte → Request) : List Byte → Option Request
  | [a, b] => some (q a b)
  | _ => none

/-- Three field bytes. -/
def fields3 (q : Byte → Byte → Byte → Request) : List Byte → Option Request
  | [a, b, c] => some (q a b c)
  | _ => none

/-- Two field bytes and a number of two bytes. -/
def fieldsLease (q : Byte → Byte → Nat → Request) : List Byte → Option Request
  | [a, b, hi, lo] => some (q a b (num16 hi lo))
  | _ => none

/-- Two field bytes and a record. -/
def fieldsRecord (q : Byte → Byte → List Byte → Request) : List Byte → Option Request
  | a :: b :: record => some (q a b record)
  | _ => none

/-- The request a code and its field bytes make (11.3), none where the code is none of the fourteen or the bytes are
not as many as its fields (R169, row 1). -/
def parseRequest (code : Nat) (fields : List Byte) : Option Request :=
  match code with
  | 1 => fields0 .identify fields
  | 2 => fieldsRecord .tableWrite fields
  | 3 => fields2 .tableRead fields
  | 4 => fields2 .tableClear fields
  | 5 => fields1 .tableCheck fields
  | 6 => fields2 .rampMode fields
  | 7 => fields3 .arm fields
  | 8 => fieldsLease .assert fields
  | 9 => fields2 .release fields
  | 10 => fields2 .status fields
  | 11 => fields2 .detectors fields
  | 12 => fields1 .counts fields
  | 13 => fields1 .clearFault fields
  | 14 => fields0 .runReset fields
  | _ => none

/-- A request judged from its index test on and carried out (R169); a TABLE WRITE from its record's shape on. -/
def perform (own : Nat) (q : Request) (s : State) : Reply :=
  match q with
  | .identify => identify own s
  | .tableWrite t i record => tableWrite t i record s
  | .tableRead t i => tableRead t i s
  | .tableClear t i => tableClear t i s
  | .tableCheck t => tableCheck t s
  | .rampMode r m => rampMode r m s
  | .arm r k v => armRequest r k v s
  | .assert r k n => assertRequest r k n s
  | .release r k => releaseRequest r k s
  | .status r x => statusRequest r x s
  | .detectors f n => detectorsRequest f n s
  | .counts r => countsRequest r s
  | .clearFault r => clearFaultRequest r s
  | .runReset => runResetRequest s

/-- A request judged and carried out: its code and the bytes of its fields. -/
def handle (own : Nat) (code : Nat) (fields : List Byte) (s : State) : Reply :=
  match parseRequest code fields with
  | some q => perform own q s
  | none => refuse .badReq s

/-- The request code and the field bytes of a CMD payload; a payload of length 0 holds no code, and its
response carries code 0 (R168, 11.3). -/
def handlePayload (own : Nat) (payload : List Byte) (s : State) : Reply :=
  match payload with
  | [] => refuse .badReq s
  | code :: fields => handle own code.toNat fields s

/-- The payload of a response: code, result, flags, result fields (R168, 11.3). -/
def rspPayload (payload : List Byte) (x : Result) (fields : List Byte) (s : State) : List Byte :=
  [payload.head?.getD 0#8, x.code, rspFlags s] ++ fields

/-- A response is appended at the tail of the insert queue (R162). -/
def appendRsp (dst : Nat) (payload : List Byte) (s : State) : State :=
  { s with ring := { s.ring with insert := s.ring.insert ++ [.rsp dst payload] } }

/-- The discard count rises (R162). -/
def discardCmd (s : State) : State := { s with ring := { s.ring with discard := satInc s.ring.discard } }

/-- The end of an executed request: FAILSAFE is judged, the SIGs of its effects are enqueued, the response is
formed and appended behind them, and the free port takes a frame (R167, R168; log entry 14). -/
def respond (src : Nat) (payload : List Byte) (x : Reply) : State :=
  let t := flushSigs (settle x.state)
  pump (appendRsp src (rspPayload payload x.result x.fields t) t)

/-- A CMD consumed by the part at station `own` (R162, R167): discarded while eight RSP frames stand in the
insert queue, otherwise executed and answered. -/
def executeCmd (own src : Nat) (payload : List Byte) (s : State) : State :=
  if 8 ≤ rspCount s.ring.insert then pump (discardCmd s) else respond src payload (handlePayload own payload s)

end Sys2Proof.Machine
end

