-- ==== Sys2Proof/Machine/Arrival.lean ====
section
/-! DEFINITION. The arrival of a frame at ring-in and its disposal (spec 09, 9.2 and 9.3). -/

namespace Sys2Proof.Machine

/-- Every arrival restarts the quiet timer (R164). -/
def restartQuiet (s : State) : State := { s with ring := { s.ring with quietTimer := .running 0 } }

/-- A dropped frame is counted (R154, R165). -/
def dropFrame (s : State) : State := { s with ring := { s.ring with bad := satInc s.ring.bad } }

/-- A frame enters the forward buffer, and the free port takes a frame (R159, R160). -/
def forwardOn (bytes : List Byte) (s : State) : State :=
  pump { s with ring := forwardFrame bytes s.ring }

/-- A frame addressed to the part at station `own`, by kind (R157). -/
def consume (own : Nat) (f : Frame) (s : State) : State :=
  match f.kind with
  | 2 =>
    match countedBytes f.payload with
    | some outs => endEvent (lampReport f.src outs s)
    | none => endEvent s
  | 5 => executeCmd own f.src f.payload s
  | _ => endEvent s

/-- A DPR payload with the verdicts of its inputs rewritten; bytes past the count go on as they arrived
(R158, R187). -/
def rewritePayload (s : State) (st : Nat) (payload inputs : List Byte) : List Byte :=
  payload.take 1 ++ rewriteInputs s st inputs ++ payload.drop (1 + inputs.length)

/-- The bytes of a broadcast DPR with its verdicts rewritten: the header as it arrived, the check formed afresh
(R158). -/
def rewrittenFrame (s : State) (bytes : List Byte) (f : Frame) (inputs : List Byte) : List Byte :=
  withCheck (bytes.take 4 ++ rewritePayload s f.src f.payload inputs)

/-- A broadcast frame: used by kind, then forwarded, a well-formed DPR with its verdicts rewritten (R156 to
R158). The use is complete, with the SIGs it enqueues and the port's take, before the frame enters the forward
buffer (log entry 19). -/
def broadcast (bytes : List Byte) (f : Frame) (s : State) : State :=
  match f.kind with
  | 1 =>
    match countedBytes f.payload with
    | some inputs =>
      let t := applyDpr f.src inputs s
      forwardOn (rewrittenFrame t bytes f inputs) (endEvent t)
    | none => forwardOn bytes (endEvent s)
  | 4 => forwardOn bytes (endEvent (timeMark f.src f.payload s))
  | _ => forwardOn bytes (endEvent s)

/-- An accepted frame is disposed of (R153, R156): removed, consumed, used and forwarded, or forwarded. A frame
forwarded without use enters the forward buffer behind what its hearing brought: the SIGs of a FAILSAFE released by it
are enqueued and a free port takes one first (the model's order, log entry 19). -/
def dispose (bytes : List Byte) (f : Frame) (s : State) : State :=
  match s.station with
  | none => forwardOn bytes (endEvent s)
  | some own =>
    if f.src = own then endEvent s
    else if f.dst = own then consume own f s
    else if f.dst = 0 then broadcast bytes f s
    else forwardOn bytes (endEvent s)

/-- The part has heard an accepted frame: the quiet timer runs from zero, and ring quiet is CLEAR, which is handed to
the Authority Units (R164), so that FAILSAFE is judged before the frame has any other effect. R164 states the change
at the arrival and no place for it among the arrival's effects: this place is the model's (DESIGN CHOICE, log
entry 34). -/
def heard (s : State) : State := settle (setQuiet false (restartQuiet s))

/-- The arrival of a frame (R154): dropped and counted, the quiet timer restarted all the same; or accepted, which is
heard, and disposed of (R156, R164). The hearing comes first, the frame's use or request second (the model's order,
DESIGN CHOICE, log entry 34): a ramp that FAILSAFE lets go may light a channel of a silent driver before an LMP restarts
that driver's silence timer (R135), a grant records the corridor time before a TMK's adoption (R143), and a CMD is
judged on the released state (R167). -/
def arrival (bytes : List Byte) (s : State) : State :=
  match acceptFrame bytes with
  | none => endEvent (dropFrame (restartQuiet s))
  | some f => dispose bytes f (heard s)

/-- The CMD frame of a request: to the part at `own`, from station `src`, with its code and field bytes (11.3). -/
def cmdFrame (own src : Nat) (code : Byte) (fields : List Byte) : List Byte := frameBytes own src 5 (code :: fields)

/-- A request from a station is the arrival of its CMD frame; a part without a station address takes none (R153,
R167; log entry 5). -/
def request (src : Nat) (code : Byte) (fields : List Byte) (s : State) : State :=
  match s.station with
  | some own => arrival (cmdFrame own src code fields) s
  | none => s

end Sys2Proof.Machine
end

