-- ==== Sys2Proof/Machine/Timers.lean ====
section
/-! DEFINITION. Every timer of the part: the microseconds it has left before its event is due, none while it is
not under way; and the event of an expiry. -/

namespace Sys2Proof.Machine

/-! ### Detector timers -/

/-- The filter timer of a pending change (R7, R9). -/
def filterLeft (ch : Channel) (s : State) : Option Nat :=
  match s.tables.detMap[ch], (s.det.chans[ch]).pending with
  | some d, some p => some (tenths d.filter - p.ran)
  | _, _ => none

/-- The silence timer, towards 30 tenths (R10). -/
def silenceLeft (ch : Channel) (s : State) : Option Nat := (s.det.chans[ch]).silence.left (tenths 30)

/-- The stuck timer, towards the stuck limit (R11). -/
def stuckLeft (ch : Channel) (s : State) : Option Nat :=
  (s.tables.detMap[ch]).bind fun d => (s.det.chans[ch]).stuck.left (tenths d.stuckLimit)

/-! ### Ramp timers -/

/-- The phase timer of a ramp in a state and clear phase, towards a time of its Ramp Config. -/
def phaseLeft (r : Ramp) (st : RampState) (ph : Option ClearPhase) (limit : RampRec → Nat) (s : State) : Option Nat :=
  if (s.ramps[r]).state = st ∧ (s.ramps[r]).clearPhase = ph then
    (s.tables.rampCfg[r]).bind fun c => (s.ramps[r]).phaseTimer.left (tenths (limit c))
  else none

/-- The warn time (R63). -/
def warnLeft (r : Ramp) (s : State) : Option Nat := phaseLeft r .warn none (·.warn) s

/-- The start green time (R64). -/
def startGreenLeft (r : Ramp) (s : State) : Option Nat := phaseLeft r .startGreen none (·.startGreen) s

/-- The start yellow time (R65). -/
def startYellowLeft (r : Ramp) (s : State) : Option Nat := phaseLeft r .startClear (some .yellow) (·.startYellow) s

/-- The start red time (R66). -/
def startRedLeft (r : Ramp) (s : State) : Option Nat := phaseLeft r .startClear (some .red) (·.startRed) s

/-- The shutdown flush (R71). -/
def shutFlushLeft (r : Ramp) (s : State) : Option Nat := phaseLeft r .shutFlush none (·.shutFlush) s

/-- The slot clock, towards the slot length (R67). -/
def slotLeft (r : Ramp) (s : State) : Option Nat :=
  if (s.ramps[r]).state = .metering then
    (s.ramps[r]).slotLength.bind fun n => (s.ramps[r]).slotClock.left (tenths n)
  else none

/-! ### Points of a lane's interval (R89 to R94) -/

/-- The microseconds until a lane in a state reaches a point of its interval. -/
def pointLeft (l : Lane) (st : LaneState) (point : Interval → Option Nat) (s : State) : Option Nat :=
  if (s.lanes[l]).state = st then
    (s.lanes[l]).interval.bind fun v => (point v).map fun p => p - v.counter
  else none

def delayLeft (l : Lane) (s : State) : Option Nat := pointLeft l .delay Interval.delayEnd s

def maxGreenLeft (l : Lane) (s : State) : Option Nat := pointLeft l .green Interval.maxPoint s

/-- The minimum green point ends the green only where the count is complete or the cut is SET (R91). -/
def greenMayEnd (x : LaneCtx) : Bool :=
  match x.interval with
  | some v => v.cut || (match v.release with
    | some p => decide (p.vehicles ≤ x.greenPassageCount.getD 0)
    | none => false)
  | none => false

def minGreenLeft (l : Lane) (s : State) : Option Nat :=
  if greenMayEnd s.lanes[l] then pointLeft l .green Interval.minPoint s else none

def yellowLeft (l : Lane) (s : State) : Option Nat := pointLeft l .yellow Interval.yellowEnd s

def redLeft (l : Lane) (s : State) : Option Nat := pointLeft l .minRed Interval.redEnd s

/-! ### Authority timers -/

/-- The holder's running hold (R110). -/
def holdLeft (r : Ramp) (s : State) : Option Nat :=
  match (s.auth[r]).holder.bind fun k => ((s.auth[r]).sources[k]).hold with
  | some (.running n) => some n
  | some (.paused _) => none
  | some .uncapped => none
  | none => none

/-- A central source's lease (R122). -/
def leaseLeft (r : Ramp) (c : Central) (s : State) : Option Nat := ((s.auth[r]).sources[centralSource c]).lease

/-- A line's 5 tenths (R114). -/
def debounceLeft (l : Line) (s : State) : Option Nat := (s.lines[l]).timer.left (tenths 5)

/-- A spillback channel's on-timer, towards the spill-on time of its ramp (R118). -/
def onTimerLeft (ch : Channel) (s : State) : Option Nat :=
  (spillRamp s.tables ch).bind fun r => (s.tables.rampCfg[r]).bind fun c => (s.onTimers[ch]).left (tenths c.spillOn)

/-- A ramp's clear timer, towards the spill-clear time (R119). -/
def clearTimerLeft (r : Ramp) (s : State) : Option Nat :=
  (s.tables.rampCfg[r]).bind fun c => (s.auth[r]).clearTimer.left (tenths c.spillClear)

/-! ### Output timers -/

/-- A channel's mismatch timer, towards 15 tenths (R134). -/
def mismatchLeft (ch : OutCh) (s : State) : Option Nat := (s.out.chans[ch]).mismatch.left (tenths 15)

/-- A driver station's silence timer, towards 50 tenths (R135). -/
def driverSilenceLeft (st : Nat) (s : State) : Option Nat :=
  (driverOf s.out st).bind fun d => d.silence.left (tenths 50)

/-- A driver station's refresh timer, towards 10 tenths (R131). -/
def refreshLeft (st : Nat) (s : State) : Option Nat := (driverOf s.out st).bind fun d => d.refresh.left (tenths 10)

/-! ### Time and ring -/

/-- The sync timer, towards 100 tenths (R144). -/
def syncLeft (s : State) : Option Nat := s.time.syncTimer.left (tenths 100)

/-- The quiet timer, towards 100 tenths (R164). -/
def quietLeft (s : State) : Option Nat := s.ring.quietTimer.left (tenths 100)

/-- A sending ends no later than a quarter of a millisecond after the take (R160). -/
def sendingLeft (s : State) : Option Nat := s.ring.inFlight.map fun x => Config.longestSending - x.ran

/-- A window close is due when corridor time has reached a multiple of W (R15, R19). -/
def closeLeft (s : State) : Option Nat := if s.time.closeDue then some 0 else none

/-! ### The event of an expiry -/

/-- An event happens when its time is up and at no other moment (log entry 4); its end is that of every event. -/
def whenDue (left : Option Nat) (f : State → State) (s : State) : State :=
  if left = some 0 then endEvent (f s) else s

/-- A point of a lane's interval is reached (R90 to R94). -/
def lanePoint (f : LaneRec → Bool → LaneCtx → LaneCtx) (l : Lane) (s : State) : State := orderLane f l s

/-- A lane's minimum red ends; the last lane of a SHUT_CLEAR ramp to reach GREEN_REST ends that state (R71, R94). -/
def laneRedEnd (l : Lane) (s : State) : State :=
  let t := lanePoint redEnded l s
  match rampOfLane s.tables l with
  | some r => shutClearDone r t
  | none => t

end Sys2Proof.Machine
end

