-- ==== Sys2Proof/Machine/Clock.lean ====
section
/-! DEFINITION. The passing of time on an empty queue: which timers run, which event is due, and what a span of
time adds to every timer (R140; log entries 1, 2 and 3). -/

namespace Sys2Proof.Machine

/-! ### Which events are under way -/

/-- The timers of a detector channel. -/
def channelEvents (s : State) (ch : Channel) : List (Instr × Option Nat) :=
  [(.filterTimerExpiry ch, filterLeft ch s), (.silenceTimerExpiry ch, silenceLeft ch s),
    (.stuckTimerExpiry ch, stuckLeft ch s), (.onTimerExpiry ch, onTimerLeft ch s)]

/-- The points of a lane. -/
def laneEvents (s : State) (l : Lane) : List (Instr × Option Nat) :=
  [(.delayEnd l, delayLeft l s), (.minimumGreenPoint l, minGreenLeft l s), (.maximumGreen l, maxGreenLeft l s),
    (.yellowEnd l, yellowLeft l s), (.redEnd l, redLeft l s)]

/-- The timers of a ramp and its Authority Unit. -/
def rampEvents (s : State) (r : Ramp) : List (Instr × Option Nat) :=
  [(.warnExpiry r, warnLeft r s), (.startGreenExpiry r, startGreenLeft r s),
    (.startYellowExpiry r, startYellowLeft r s), (.startRedExpiry r, startRedLeft r s),
    (.shutdownFlushExpiry r, shutFlushLeft r s), (.slotBoundary r, slotLeft r s), (.holdExpiry r, holdLeft r s),
    (.leaseExpiry r .urgent, leaseLeft r .urgent s), (.leaseExpiry r .plan, leaseLeft r .plan s),
    (.clearTimerExpiry r, clearTimerLeft r s)]

/-- The timers of a driver station. -/
def driverEvents (s : State) (d : DriverRec) : List (Instr × Option Nat) :=
  [(.driverSilenceExpiry d.station, driverSilenceLeft d.station s),
    (.refreshTimerExpiry d.station, refreshLeft d.station s)]

/-- Every timed event with the microseconds it has left, in the order in which an idle step takes those that fall
at one moment (DESIGN CHOICE, log entry 3). -/
def timedEvents (s : State) : List (Instr × Option Nat) :=
  [(.sendingEnd, sendingLeft s)] ++ (List.finRange 8).map (fun l => (.debounceExpiry l, debounceLeft l s))
    ++ (List.finRange 64).flatMap (channelEvents s) ++ (List.finRange 12).flatMap (laneEvents s)
    ++ (List.finRange 4).flatMap (rampEvents s)
    ++ (List.finRange 16).map (fun ch => (.mismatchTimerExpiry ch, mismatchLeft ch s))
    ++ s.out.drivers.flatMap (driverEvents s)
    ++ [(.syncTimerExpiry, syncLeft s), (.quietTimerExpiry, quietLeft s), (.windowClose, closeLeft s)]

/-- The first event that is due. -/
def nextDue (s : State) : Option Instr := ((timedEvents s).find? fun e => decide (e.2 = some 0)).map (·.1)

/-- The microseconds that can pass before a timer is due or the running tenth of corridor time ends. -/
def headroom (s : State) : Nat :=
  ((timedEvents s).filterMap (·.2)).foldl min (Config.tenth - s.time.phase)

/-! ### A span of time -/

/-- A detector channel (R4, R7, R15): its timers run, and its on-time counts while its filtered presence is ON. -/
def DetState.pass (d : Nat) (c : DetState) : DetState :=
  { c with
    pending := c.pending.map fun p => { p with ran := p.ran + d }
    silence := c.silence.advance d
    stuck := c.stuck.advance d
    onTime := if c.filtered then c.onTime + d else c.onTime }

def RampCtx.pass (d : Nat) (c : RampCtx) : RampCtx :=
  { c with phaseTimer := c.phaseTimer.advance d, slotClock := c.slotClock.advance d }

/-- A lane's interval counter (R89). -/
def LaneCtx.pass (d : Nat) (x : LaneCtx) : LaneCtx :=
  { x with interval := x.interval.map fun v => { v with counter := v.counter + d } }

/-- A hold counts down while it is RUNNING (R110). -/
def Hold.pass (d : Nat) : Hold → Hold
  | .running n => .running (n - d)
  | .paused n => .paused n
  | .uncapped => .uncapped

/-- A source's lease and hold (R110, R122). -/
def SourceRec.pass (d : Nat) (x : SourceRec) : SourceRec :=
  { x with lease := x.lease.map (· - d), hold := x.hold.map (Hold.pass d) }

def AuthUnit.pass (d : Nat) (a : AuthUnit) : AuthUnit :=
  { a with sources := vmap (fun _ x => x.pass d) a.sources, clearTimer := a.clearTimer.advance d }

def LineState.pass (d : Nat) (x : LineState) : LineState := { x with timer := x.timer.advance d }

def OutUnit.pass (d : Nat) (o : OutUnit) : OutUnit :=
  { o with
    chans := vmap (fun _ c => { c with mismatch := c.mismatch.advance d }) o.chans
    drivers := o.drivers.map fun x => { x with refresh := x.refresh.advance d, silence := x.silence.advance d } }

/-- Corridor time counts one at the end of each tenth, from 863999 to 0 (R140); reaching a multiple of W makes a
window close due (R15). -/
def TimeUnit.pass (w d : Nat) (t : TimeUnit) : TimeUnit :=
  let u := { t with syncTimer := t.syncTimer.advance d }
  if t.phase + d < Config.tenth then { u with phase := t.phase + d }
  else { u with phase := t.phase + d - Config.tenth, corridor := (t.corridor + 1) % Config.dayTenths,
                closeDue := t.closeDue || decide ((t.corridor + 1) % Config.dayTenths % w = 0) }

def RingUnit.pass (d : Nat) (q : RingUnit) : RingUnit :=
  { q with quietTimer := q.quietTimer.advance d, inFlight := q.inFlight.map fun x => { x with ran := x.ran + d } }

/-- `d` microseconds pass in which no event falls. -/
def passTime (d : Nat) (s : State) : State :=
  { s with
    det := { s.det with chans := vmap (fun _ c => c.pass d) s.det.chans, elapsed := s.det.elapsed + d }
    ramps := vmap (fun _ c => c.pass d) s.ramps
    lanes := vmap (fun _ x => x.pass d) s.lanes
    auth := vmap (fun _ a => a.pass d) s.auth
    onTimers := vmap (fun _ t => t.advance d) s.onTimers
    lines := vmap (fun _ x => x.pass d) s.lines
    out := s.out.pass d
    time := s.time.pass (windowLength s.tables) d
    ring := s.ring.pass d }

/-- What an idle step lets pass: up to the stride, and never past a timer or the end of the tenth. -/
def idleSpan (s : State) : Nat := min s.stride (headroom s)

end Sys2Proof.Machine
end

