-- ==== Sys2Proof/Machine/RingCommands.lean ====
section
/-! DEFINITION. The meanings of the resets, of the ring's events and of the management requests. A request is the
arrival of its CMD frame from its station (`request`, log entry 5). -/

namespace Sys2Proof.Machine

/-- POWER_ON_RESET (R166). -/
def execPowerOnReset (straps : BitVec 6) (s : State) : Host.Outcome State Fault Refusal := .next (powerOn straps s)

/-- RUN_RESET (R185). -/
def execRunReset (src : Nat) (s : State) : Host.Outcome State Fault Refusal := .next (request src 14#8 [] s)

/-- FRAME_ARRIVAL (R154). -/
def execFrameArrival (bytes : List Byte) (s : State) : Host.Outcome State Fault Refusal := .next (arrival bytes s)

/-- IDENTIFY (R178). -/
def execIdentify (src : Nat) (s : State) : Host.Outcome State Fault Refusal := .next (request src 1#8 [] s)

/-- TABLE_WRITE (R171). -/
def execTableWrite (src : Nat) (table index : Byte) (record : List Byte) (s : State) :
    Host.Outcome State Fault Refusal :=
  .next (request src 2#8 (table :: index :: record) s)

/-- TABLE_READ (R173). -/
def execTableRead (src : Nat) (table index : Byte) (s : State) : Host.Outcome State Fault Refusal :=
  .next (request src 3#8 [table, index] s)

/-- TABLE_CLEAR (R174). -/
def execTableClear (src : Nat) (table index : Byte) (s : State) : Host.Outcome State Fault Refusal :=
  .next (request src 4#8 [table, index] s)

/-- TABLE_CHECK (R176). -/
def execTableCheck (src : Nat) (table : Byte) (s : State) : Host.Outcome State Fault Refusal :=
  .next (request src 5#8 [table] s)

/-- RAMP_MODE_AUTO (R58). -/
def execRampModeAuto (src : Nat) (ramp : Byte) (s : State) : Host.Outcome State Fault Refusal :=
  .next (request src 6#8 [ramp, 1#8] s)

/-- RAMP_MODE_OFF (R72). -/
def execRampModeOff (src : Nat) (ramp : Byte) (s : State) : Host.Outcome State Fault Refusal :=
  .next (request src 6#8 [ramp, 0#8] s)

/-- ARM (R116). -/
def execArm (src : Nat) (ramp source setting : Byte) (s : State) : Host.Outcome State Fault Refusal :=
  .next (request src 7#8 [ramp, source, setting] s)

/-- ASSERT (R121). -/
def execAssertSource (src : Nat) (ramp source : Byte) (lease : BitVec 16) (s : State) :
    Host.Outcome State Fault Refusal :=
  .next (request src 8#8 (ramp :: source :: be16 lease.toNat) s)

/-- RELEASE (R122). -/
def execReleaseSource (src : Nat) (ramp source : Byte) (s : State) : Host.Outcome State Fault Refusal :=
  .next (request src 9#8 [ramp, source] s)

/-- STATUS (R179). -/
def execStatus (src : Nat) (ramp sect : Byte) (s : State) : Host.Outcome State Fault Refusal :=
  .next (request src 10#8 [ramp, sect] s)

/-- DETECTORS (R183). -/
def execDetectors (src : Nat) (first count : Byte) (s : State) : Host.Outcome State Fault Refusal :=
  .next (request src 11#8 [first, count] s)

/-- COUNTS (R184). -/
def execCounts (src : Nat) (ramp : Byte) (s : State) : Host.Outcome State Fault Refusal :=
  .next (request src 12#8 [ramp] s)

/-- CLEAR_FAULT (R136). -/
def execClearFault (src : Nat) (ramp : Byte) (s : State) : Host.Outcome State Fault Refusal :=
  .next (request src 13#8 [ramp] s)

/-- QUIET_TIMER_EXPIRY (R164). -/
def execQuietTimerExpiry (s : State) : Host.Outcome State Fault Refusal :=
  .next (whenDue (quietLeft s) quietExpired s)

/-- SENDING_END (R160): at any moment of a sending, since its length is not given (log entry 18). -/
def execSendingEnd (s : State) : Host.Outcome State Fault Refusal :=
  .next (if s.ring.inFlight.isSome then endEvent (sendingEnded s) else s)

end Sys2Proof.Machine
end

