-- ==== Sys2Proof/Machine/TimerCommands.lean ====
section
/-! DEFINITION. The meanings of the timed events of the Detector Unit, the Ramp Controllers, the Lane Sequencers,
the Authority Units, the Output Unit and the Timekeeper, and of the lines. An expiry acts when it is due (`whenDue`,
log entry 4). -/

namespace Sys2Proof.Machine

/-! ### Detector Unit -/

/-- FILTER_TIMER_EXPIRY (R9). -/
def execFilterTimerExpiry (ch : Channel) (s : State) : Host.Outcome State Fault Refusal :=
  .next (whenDue (filterLeft ch s) (changeChannel ch filterExpired) s)

/-- SILENCE_TIMER_EXPIRY (R10). -/
def execSilenceTimerExpiry (ch : Channel) (s : State) : Host.Outcome State Fault Refusal :=
  .next (whenDue (silenceLeft ch s) (changeChannel ch silenceExpired) s)

/-- STUCK_TIMER_EXPIRY (R11). -/
def execStuckTimerExpiry (ch : Channel) (s : State) : Host.Outcome State Fault Refusal :=
  .next (whenDue (stuckLeft ch s) (changeChannel ch stuckExpired) s)

/-- WINDOW_CLOSE (R19). -/
def execWindowClose (s : State) : Host.Outcome State Fault Refusal := .next (whenDue (closeLeft s) windowClose s)

/-! ### Ramp Controllers -/

/-- WARN_EXPIRY (R63). -/
def execWarnExpiry (r : Ramp) (s : State) : Host.Outcome State Fault Refusal :=
  .next (whenDue (warnLeft r s) (warnExpired r) s)

/-- START_GREEN_EXPIRY (R64). -/
def execStartGreenExpiry (r : Ramp) (s : State) : Host.Outcome State Fault Refusal :=
  .next (whenDue (startGreenLeft r s) (startGreenExpired r) s)

/-- START_YELLOW_EXPIRY (R65). -/
def execStartYellowExpiry (r : Ramp) (s : State) : Host.Outcome State Fault Refusal :=
  .next (whenDue (startYellowLeft r s) (startYellowExpired r) s)

/-- START_RED_EXPIRY (R66). -/
def execStartRedExpiry (r : Ramp) (s : State) : Host.Outcome State Fault Refusal :=
  .next (whenDue (startRedLeft r s) (startRedExpired r) s)

/-- SHUTDOWN_FLUSH_EXPIRY (R71). -/
def execShutdownFlushExpiry (r : Ramp) (s : State) : Host.Outcome State Fault Refusal :=
  .next (whenDue (shutFlushLeft r s) (shutFlushExpired r) s)

/-- SLOT_BOUNDARY (R67). -/
def execSlotBoundary (r : Ramp) (s : State) : Host.Outcome State Fault Refusal :=
  .next (whenDue (slotLeft r s) (slotBoundary r) s)

/-! ### Lane Sequencers -/

/-- DELAY_END (R90). -/
def execDelayEnd (l : Lane) (s : State) : Host.Outcome State Fault Refusal :=
  .next (whenDue (delayLeft l s) (lanePoint (fun _ _ x => delayEnded x) l) s)

/-- MAXIMUM_GREEN (R91). -/
def execMaximumGreen (l : Lane) (s : State) : Host.Outcome State Fault Refusal :=
  .next (whenDue (maxGreenLeft l s) (lanePoint (fun _ _ x => greenEnded x) l) s)

/-- MINIMUM_GREEN_POINT (R91). -/
def execMinimumGreenPoint (l : Lane) (s : State) : Host.Outcome State Fault Refusal :=
  .next (whenDue (minGreenLeft l s) (lanePoint (fun _ _ x => greenEnded x) l) s)

/-- YELLOW_END (R94). -/
def execYellowEnd (l : Lane) (s : State) : Host.Outcome State Fault Refusal :=
  .next (whenDue (yellowLeft l s) (lanePoint (fun _ _ x => yellowEnded x) l) s)

/-- RED_END (R94). -/
def execRedEnd (l : Lane) (s : State) : Host.Outcome State Fault Refusal :=
  .next (whenDue (redLeft l s) (laneRedEnd l) s)

/-! ### Authority Units and lines -/

/-- HOLD_EXPIRY (R110). -/
def execHoldExpiry (r : Ramp) (s : State) : Host.Outcome State Fault Refusal :=
  .next (whenDue (holdLeft r s) (holdExpired r) s)

/-- LEASE_EXPIRY (R122). -/
def execLeaseExpiry (r : Ramp) (c : Central) (s : State) : Host.Outcome State Fault Refusal :=
  .next (whenDue (leaseLeft r c s) (endLease r (centralSource c)) s)

/-- LINE_INPUT_CHANGE (R114). -/
def execLineInputChange (line : Line) (level : Bool) (s : State) : Host.Outcome State Fault Refusal :=
  .next (s.setLine line (lineInput level s.lines[line]))

/-- DEBOUNCE_EXPIRY (R114). -/
def execDebounceExpiry (line : Line) (s : State) : Host.Outcome State Fault Refusal :=
  .next (whenDue (debounceLeft line s) (debounced line) s)

/-- ON_TIMER_EXPIRY (R118). -/
def execOnTimerExpiry (ch : Channel) (s : State) : Host.Outcome State Fault Refusal :=
  .next (whenDue (onTimerLeft ch s) (onTimerExpired ch) s)

/-- CLEAR_TIMER_EXPIRY (R119). -/
def execClearTimerExpiry (r : Ramp) (s : State) : Host.Outcome State Fault Refusal :=
  .next (whenDue (clearTimerLeft r s) (clearTimerExpired r) s)

/-! ### Output Unit -/

/-- MISMATCH_TIMER_EXPIRY (R134). -/
def execMismatchTimerExpiry (ch : OutCh) (s : State) : Host.Outcome State Fault Refusal :=
  .next (whenDue (mismatchLeft ch s) (mismatchExpired ch) s)

/-- DRIVER_SILENCE_EXPIRY (R135). -/
def execDriverSilenceExpiry (station : Nat) (s : State) : Host.Outcome State Fault Refusal :=
  .next (whenDue (driverSilenceLeft station s) (driverSilent station) s)

/-- REFRESH_TIMER_EXPIRY (R131): the station's SIG is enqueued, which restarts the timer. -/
def execRefreshTimerExpiry (station : Nat) (s : State) : Host.Outcome State Fault Refusal :=
  .next (whenDue (refreshLeft station s) (dueSig station) s)

/-! ### Timekeeper -/

/-- SYNC_TIMER_EXPIRY (R144). -/
def execSyncTimerExpiry (s : State) : Host.Outcome State Fault Refusal := .next (whenDue (syncLeft s) syncExpired s)

end Sys2Proof.Machine
end

