-- ==== Sys2Proof/Machine/Dispatch.lean ====
section
/-! DEFINITION. The effect of each command, one arm per constructor. -/

namespace Sys2Proof.Machine

def exec (i : Instr) (s : State) : Host.Outcome State Fault Refusal :=
  match i with
  | .powerOnReset straps => Sys2Proof.Machine.execPowerOnReset straps s
  | .runReset src => Sys2Proof.Machine.execRunReset src s
  | .frameArrival bytes => Sys2Proof.Machine.execFrameArrival bytes s
  | .identify src => Sys2Proof.Machine.execIdentify src s
  | .tableWrite src table index record => Sys2Proof.Machine.execTableWrite src table index record s
  | .tableRead src table index => Sys2Proof.Machine.execTableRead src table index s
  | .tableClear src table index => Sys2Proof.Machine.execTableClear src table index s
  | .tableCheck src table => Sys2Proof.Machine.execTableCheck src table s
  | .rampModeAuto src ramp => Sys2Proof.Machine.execRampModeAuto src ramp s
  | .rampModeOff src ramp => Sys2Proof.Machine.execRampModeOff src ramp s
  | .arm src ramp source setting => Sys2Proof.Machine.execArm src ramp source setting s
  | .assertSource src ramp source lease => Sys2Proof.Machine.execAssertSource src ramp source lease s
  | .releaseSource src ramp source => Sys2Proof.Machine.execReleaseSource src ramp source s
  | .status src ramp sect => Sys2Proof.Machine.execStatus src ramp sect s
  | .detectors src first count => Sys2Proof.Machine.execDetectors src first count s
  | .counts src ramp => Sys2Proof.Machine.execCounts src ramp s
  | .clearFault src ramp => Sys2Proof.Machine.execClearFault src ramp s
  | .filterTimerExpiry ch => Sys2Proof.Machine.execFilterTimerExpiry ch s
  | .silenceTimerExpiry ch => Sys2Proof.Machine.execSilenceTimerExpiry ch s
  | .stuckTimerExpiry ch => Sys2Proof.Machine.execStuckTimerExpiry ch s
  | .windowClose => Sys2Proof.Machine.execWindowClose s
  | .warnExpiry r => Sys2Proof.Machine.execWarnExpiry r s
  | .startGreenExpiry r => Sys2Proof.Machine.execStartGreenExpiry r s
  | .startYellowExpiry r => Sys2Proof.Machine.execStartYellowExpiry r s
  | .startRedExpiry r => Sys2Proof.Machine.execStartRedExpiry r s
  | .shutdownFlushExpiry r => Sys2Proof.Machine.execShutdownFlushExpiry r s
  | .slotBoundary r => Sys2Proof.Machine.execSlotBoundary r s
  | .delayEnd l => Sys2Proof.Machine.execDelayEnd l s
  | .maximumGreen l => Sys2Proof.Machine.execMaximumGreen l s
  | .minimumGreenPoint l => Sys2Proof.Machine.execMinimumGreenPoint l s
  | .yellowEnd l => Sys2Proof.Machine.execYellowEnd l s
  | .redEnd l => Sys2Proof.Machine.execRedEnd l s
  | .holdExpiry r => Sys2Proof.Machine.execHoldExpiry r s
  | .leaseExpiry r c => Sys2Proof.Machine.execLeaseExpiry r c s
  | .lineInputChange line level => Sys2Proof.Machine.execLineInputChange line level s
  | .debounceExpiry line => Sys2Proof.Machine.execDebounceExpiry line s
  | .onTimerExpiry ch => Sys2Proof.Machine.execOnTimerExpiry ch s
  | .clearTimerExpiry r => Sys2Proof.Machine.execClearTimerExpiry r s
  | .mismatchTimerExpiry ch => Sys2Proof.Machine.execMismatchTimerExpiry ch s
  | .driverSilenceExpiry station => Sys2Proof.Machine.execDriverSilenceExpiry station s
  | .refreshTimerExpiry station => Sys2Proof.Machine.execRefreshTimerExpiry station s
  | .syncTimerExpiry => Sys2Proof.Machine.execSyncTimerExpiry s
  | .quietTimerExpiry => Sys2Proof.Machine.execQuietTimerExpiry s
  | .sendingEnd => Sys2Proof.Machine.execSendingEnd s

end Sys2Proof.Machine
end

