-- ==== Sys2Proof/Machine/Step.lean ====
section
/-! DEFINITION. One step: the command at the front of the queue; on an empty queue, an event that is due or a span
of time (DESIGN CHOICE, log entry 2). -/

namespace Sys2Proof.Machine

/-- An empty queue: the first due event happens; where none is due, time passes. -/
def idle (s : State) : Host.Outcome State Fault Refusal :=
  match nextDue s with
  | some c => exec c s
  | none => .next (passTime (idleSpan s) s)

/-- The command at the front of the queue, run on the state with the queue's rest. -/
def step (s : State) : Host.Outcome State Fault Refusal :=
  match s.pending with
  | c :: cs => exec c { s with pending := cs }
  | [] => idle s

/-- The command a word spells, put at the front of the queue; no word of this table spells one (log entry 27). -/
def State.withFetchWord (s : State) (nbits w : Nat) : State :=
  match decodeTableWord nbits w with
  | some c => { s with pending := c :: s.pending }
  | none => s

end Sys2Proof.Machine
end

