-- ==== Sys2Proof/WellFormed.lean ====
section
/-! DEFINITION. Which commands can be sent: a request comes from a station of the ring and fits a
frame; a driver timer names a driver station. Every other bound is in the constructors' types. -/

namespace Sys2Proof

/-- A station that can be the source of a frame: 1 to 62 (spec 00_scope 3.2; R154 drops 0 and 63). -/
def stationOk (n : Nat) : Bool := 1 ≤ n && n ≤ 62

/-- A station that can be a driver station: 2 to 62 (R125). -/
def driverOk (n : Nat) : Bool := 2 ≤ n && n ≤ 62

/-- The record bytes of a TABLE WRITE that a CMD payload of at most 48 bytes has room for, after the
request code, the table id and the index (spec 11, 11.1, 11.3). -/
def recordFits (record : List Byte) : Bool := record.length ≤ 45

def Instr.wellFormed : Instr → Bool
  | .powerOnReset _ => true
  | .runReset src => stationOk src
  | .frameArrival _ => true
  | .identify src => stationOk src
  | .tableWrite src _ _ record => stationOk src && recordFits record
  | .tableRead src _ _ => stationOk src
  | .tableClear src _ _ => stationOk src
  | .tableCheck src _ => stationOk src
  | .rampModeAuto src _ => stationOk src
  | .rampModeOff src _ => stationOk src
  | .arm src _ _ _ => stationOk src
  | .assertSource src _ _ _ => stationOk src
  | .releaseSource src _ _ => stationOk src
  | .status src _ _ => stationOk src
  | .detectors src _ _ => stationOk src
  | .counts src _ => stationOk src
  | .clearFault src _ => stationOk src
  | .filterTimerExpiry _ => true
  | .silenceTimerExpiry _ => true
  | .stuckTimerExpiry _ => true
  | .windowClose => true
  | .warnExpiry _ => true
  | .startGreenExpiry _ => true
  | .startYellowExpiry _ => true
  | .startRedExpiry _ => true
  | .shutdownFlushExpiry _ => true
  | .slotBoundary _ => true
  | .delayEnd _ => true
  | .maximumGreen _ => true
  | .minimumGreenPoint _ => true
  | .yellowEnd _ => true
  | .redEnd _ => true
  | .holdExpiry _ => true
  | .leaseExpiry _ _ => true
  | .lineInputChange _ _ => true
  | .debounceExpiry _ => true
  | .onTimerExpiry _ => true
  | .clearTimerExpiry _ => true
  | .mismatchTimerExpiry _ => true
  | .driverSilenceExpiry st => driverOk st
  | .refreshTimerExpiry st => driverOk st
  | .syncTimerExpiry => true
  | .quietTimerExpiry => true
  | .sendingEnd => true

end Sys2Proof
end

