-- ==== Sys2Proof/Safety.lean ====
section
/-! DEFINITION. What every step keeps, block by block, and the conditions under which a request is served or an event
brings no failsafe of its own. The statements over them are in Certificates/Slice0/Obligations.lean. -/

namespace Sys2Proof.Machine

/-! ### Tables -/

/-- No lane is listed twice, no channel is named by two lane heads or ramp beacons (R55, R78), no two channels map one
input of a card, and none one output of a driver (R2, R126). -/
structure Tables.Apart (t : Tables) : Prop where
  once : ∀ r : Ramp, (lanesOf t r).Nodup
  lanes : ∀ r q : Ramp, q ≠ r → ∀ l ∈ lanesOf t r, l ∉ lanesOf t q
  heads : ∀ (k l : Lane) (ch : OutCh), l ≠ k → headOf t k = some ch → headOf t l ≠ some ch
  beacons : ∀ (r q : Ramp) (ch : OutCh), q ≠ r → beaconOf t r = some ch → beaconOf t q ≠ some ch
  beaconHead : ∀ (r : Ramp) (l : Lane) (ch : OutCh), beaconOf t r = some ch → headOf t l ≠ some ch
  inputs : ∀ (c d : Channel) (x y : DetRec), c ≠ d → t.detMap[c] = some x → t.detMap[d] = some y →
    x.station ≠ y.station ∨ x.input ≠ y.input
  outputs : ∀ (c d : OutCh) (x y : OutRec), c ≠ d → t.outMap[c] = some x → t.outMap[d] = some y →
    x.station ≠ y.station ∨ x.output ≠ y.output

/-! ### What a record may hold -/

/-- Detector Map: the ranges of R1, and the ramp set and lane that the role asks for (R2). -/
structure DetRec.Allowed (d : DetRec) : Prop where
  station : 2 ≤ d.station ∧ d.station ≤ 62
  input : d.input ≤ 7
  filter : d.filter ≤ 10
  stuckLimit : 100 ≤ d.stuckLimit ∧ d.stuckLimit ≤ 36000
  chatterLimit : 1 ≤ d.chatterLimit ∧ d.chatterLimit ≤ 255
  mainline : d.role = .mainline → d.ramps ≠ 0#4
  oneRamp : d.role = .queue ∨ d.role = .spillback → ∃ r : Ramp, ∀ q : Ramp, d.ramps.getLsbD q.val = decide (q = r)
  noRamp : d.role = .demand ∨ d.role = .passage → d.ramps = 0#4
  lane : d.lane ≠ none ↔ d.role = .demand ∨ d.role = .passage

/-- Condition Definitions: one to four different channels; threshold and hysteresis within the measure's range, and the
band on the condition's side of the threshold within it too (R22, R23). -/
structure CondRec.Allowed (c : CondRec) : Prop where
  count : 1 ≤ c.chans.length ∧ c.chans.length ≤ 4
  distinct : c.chans.Nodup
  occupancy : c.flow = false → c.threshold ≤ 1000 ∧ c.hysteresis ≤ 1000
  flow : c.flow = true → c.threshold ≤ 9000 ∧ c.hysteresis ≤ 9000
  above : c.below = false → c.hysteresis ≤ c.threshold
  belowOccupancy : c.below = true → c.flow = false → c.threshold + c.hysteresis ≤ 1000
  belowFlow : c.below = true → c.flow = true → c.threshold + c.hysteresis ≤ 9000

/-- Match Table: a plan of 0 to 32, and a persistence of 1 to 10 where one is present (R31). -/
structure MatchRec.Allowed (m : MatchRec) : Prop where
  plan : m.plan ≤ 32
  persistence : ∀ n : Nat, m.persistence = some n → 1 ≤ n ∧ n ≤ 10

/-- Rate Plans: the ranges of R38, an ADAPTIVE record's fallback slot between its shortest and its longest slot, and its
relief hysteresis within its queue threshold (R39). -/
structure PlanRec.Allowed (p : PlanRec) : Prop where
  slot : 20 ≤ p.slot ∧ p.slot ≤ 150
  period : 1 ≤ p.period ∧ p.period ≤ 16
  shortest : ∀ a : Adaptive, p.adaptive = some a → 20 ≤ a.minSlot ∧ a.minSlot ≤ p.slot
  longest : ∀ a : Adaptive, p.adaptive = some a → p.slot ≤ a.maxSlot ∧ a.maxSlot ≤ 150
  curve : ∀ a : Adaptive, p.adaptive = some a → 1 ≤ a.curve ∧ a.curve ≤ 8
  step : ∀ a : Adaptive, p.adaptive = some a → a.reliefStep ≤ 20
  hysteresis : ∀ a : Adaptive, p.adaptive = some a → a.reliefHyst ≤ 200
  threshold : ∀ (a : Adaptive) (t : Nat), p.adaptive = some a → a.queueThreshold = some t →
    t ≤ 1000 ∧ a.reliefHyst ≤ t

/-- Occupancy Curves: 2 to 16 points, breakpoints rising from 0 and slot lengths not falling (R41). -/
structure CurveRec.Allowed (c : CurveRec) : Prop where
  count : 2 ≤ c.points.length ∧ c.points.length ≤ 16
  range : ∀ p ∈ c.points, p.1 ≤ 1000 ∧ 20 ≤ p.2 ∧ p.2 ≤ 150
  first : ∀ p : Nat × Nat, c.points[0]? = some p → p.1 = 0
  rising : ∀ (i : Nat) (p q : Nat × Nat), c.points[i]? = some p → c.points[i + 1]? = some q → p.1 < q.1 ∧ p.2 ≤ q.2

/-- Ramp Config: the ranges of R54, and one to four different lanes (R55). -/
structure RampRec.Allowed (c : RampRec) : Prop where
  count : 1 ≤ c.lanes.length ∧ c.lanes.length ≤ 4
  distinct : c.lanes.Nodup
  defaultPlan : c.defaultPlan ≤ 32
  warn : 50 ≤ c.warn ∧ c.warn ≤ 600
  startGreen : 30 ≤ c.startGreen ∧ c.startGreen ≤ 150
  startYellow : 30 ≤ c.startYellow ∧ c.startYellow ≤ 50
  startRed : 20 ≤ c.startRed ∧ c.startRed ≤ 100
  shutFlush : 50 ≤ c.shutFlush ∧ c.shutFlush ≤ 600
  offset : c.offset ≤ 1499
  spillOn : 50 ≤ c.spillOn ∧ c.spillOn ≤ 600
  spillClear : 20 ≤ c.spillClear ∧ c.spillClear ≤ 600

/-- Lane Config: the ranges of R77, the minimum green up to the maximum, a yellow of 0 or 20 to 50, and a passage channel
that is not the demand channel (R78). -/
structure LaneRec.Allowed (c : LaneRec) : Prop where
  passage : c.passage ≠ some c.demand
  delay : c.delay ≤ 20
  maxGreen : 10 ≤ c.maxGreen ∧ c.maxGreen ≤ 50
  minGreen : 5 ≤ c.minGreen ∧ c.minGreen ≤ c.maxGreen
  yellow : c.yellow = 0 ∨ 20 ≤ c.yellow ∧ c.yellow ≤ 50
  minRed : 10 ≤ c.minRed ∧ c.minRed ≤ 50
  vehicles : 1 ≤ c.vehicles ∧ c.vehicles ≤ 3

/-- Actions: a plan of 1 to 32 for PLAN; a hold cap of 10 to 3000 tenths, present, for HOLD, and of 10 to 36000 where one
is present for the others (R108). -/
structure ActionRec.Allowed (a : ActionRec) : Prop where
  plan : ∀ n : Nat, a.kind = .plan n → 1 ≤ n ∧ n ≤ 32
  hold : a.kind = .hold → ∃ n : Nat, a.cap = some n ∧ 10 ≤ n ∧ n ≤ 3000
  others : ∀ n : Nat, a.kind ≠ .hold → a.cap = some n → 10 ≤ n ∧ n ≤ 36000

/-! ### Detector Unit -/

/-- A channel's record in a window of `elapsed` microseconds: the OK-throughout flag stands only while the health is
OK (R16), STUCK goes with an expired stuck timer and that timer with a filtered ON (R11), counts hold at 65535 (R8,
R9), the on-time does not exceed the window, and a published occupancy does not exceed 1000 (R18). -/
structure DetState.Ok (elapsed : Nat) (c : DetState) : Prop where
  throughout : c.okThroughout = true → c.health = .ok
  stuckHealth : c.health = .stuck → c.stuck = .expired
  stuckTimer : c.stuck ≠ .stopped → c.filtered = true
  volume : c.volume ≤ 65535
  glitches : c.glitches ≤ 65535
  onTime : c.onTime ≤ elapsed
  lastOcc : c.lastOcc ≤ 1000
  lastVol : c.lastVol ≤ 65535

/-- Every channel of the Detector Unit. -/
def DetUnit.Ok (u : DetUnit) : Prop := ∀ ch : Channel, (u.chans[ch]).Ok u.elapsed

/-! ### Ramp Controllers, Rate Units -/

/-- Outside METERING a ramp has no adopted plan, pattern count, slot clock, slot length, nominal length or aligned
flag (R59); a clear phase is present exactly in START_CLEAR (R57); the slot counts hold at 65535 (R67). -/
structure RampCtx.Ok (c : RampCtx) : Prop where
  adopted : c.state ≠ .metering → c.adopted = none
  pattern : c.state ≠ .metering → c.patternCount = 0
  clock : c.state ≠ .metering → c.slotClock = .stopped
  length : c.state ≠ .metering → c.slotLength = none
  nominal : c.state ≠ .metering → c.lastNominal = none
  aligned : c.state ≠ .metering → c.aligned = false
  phase : c.clearPhase.isSome = true ↔ c.state = .startClear
  slots : c.slotCount ≤ 65535
  lastSlots : c.lastSlotCount ≤ 65535

/-- The relief level is at most 8 (R43, R47). -/
def RateRec.Ok (x : RateRec) : Prop := x.relief ≤ 8

/-! ### Lane Sequencers -/

/-- An interval is of the kind its lane's state has (R89, R95, R97): a release in DELAY and GREEN, a fixed green end in
MIN_RED and in a YELLOW that has one, none in the resting states and in DARK. -/
def LaneCtx.intervalOk (x : LaneCtx) : Prop :=
  match x.state with
  | .delay => ∃ v, x.interval = some v ∧ v.release.isSome = true
  | .green => ∃ v, x.interval = some v ∧ v.release.isSome = true
  | .yellow => ∀ v, x.interval = some v → v.greenEnd.isSome = true
  | .minRed => ∃ v, x.interval = some v ∧ v.greenEnd.isSome = true
  | .dark => x.interval = none
  | .greenRest => x.interval = none
  | .restRed => x.interval = none

/-- Counts hold at 65535 (R100). -/
def LaneCounts.Ok (c : LaneCounts) : Prop :=
  c.releases ≤ 65535 ∧ c.idleOffers ≤ 65535 ∧ c.overrunSkips ≤ 65535 ∧ c.greenPassages ≤ 65535
    ∧ c.yellowPassages ≤ 65535 ∧ c.violations ≤ 65535

/-- A lane's record: its interval fits its state, the green passage count is present exactly in GREEN (R80), and its
counts hold. -/
structure LaneCtx.Ok (x : LaneCtx) : Prop where
  interval : x.intervalOk
  passages : x.greenPassageCount.isSome = true ↔ x.state = .green
  counts : x.counts.Ok
  last : x.last.Ok

/-! ### Authority Units -/

/-- The stack is strictly descending in priority and below the holder, and is empty with no holder; a hold runs only
for the holder, is paused only in the stack, and stands uncapped only in one of the two (R102, R106, R110). -/
structure AuthUnit.Ok (a : AuthUnit) : Prop where
  sorted : a.stack.Pairwise (· < ·)
  below : ∀ k ∈ a.stack, ∀ h, a.holder = some h → h < k
  vacant : a.holder = none → a.stack = [] ∧ a.granted = none
  running : ∀ (k : Source) (n : Nat), (a.sources[k]).hold = some (.running n) → a.holder = some k
  paused : ∀ (k : Source) (n : Nat), (a.sources[k]).hold = some (.paused n) → k ∈ a.stack
  uncapped : ∀ k : Source, (a.sources[k]).hold = some .uncapped → a.holder = some k ∨ k ∈ a.stack

/-- A ramp in OFF has no holder (R73, R105). -/
def OffFree (s : State) (r : Ramp) : Prop := (s.ramps[r]).state = .off → (s.auth[r]).holder = none

/-! ### Output Unit -/

/-- A channel with a latched fault runs no mismatch timer (R134). -/
def OutChan.Ok (c : OutChan) : Prop := c.fault = true → c.mismatch = .stopped

/-! ### Timekeeper -/

/-- Corridor time and its running tenth are in range (R139, R140), and a close is due only at a multiple of the
window length (R15). -/
structure TimeUnit.Ok (w : Nat) (t : TimeUnit) : Prop where
  corridor : t.corridor < Config.dayTenths
  phase : t.phase < Config.tenth
  close : t.closeDue = true → t.corridor % w = 0

/-! ### Ring Interface -/

/-- The stations with a SIG in the insert queue. -/
def sigStations (l : List Insert) : List Nat :=
  l.filterMap fun i => match i with
    | .sig st _ => some st
    | .rsp _ _ => none

/-- The forward buffer holds at most two frames (R159); the insert queue at most eight RSPs and eight SIGs, one SIG a
station, waiting SIGs included, and a SIG waits only while the eight places are taken (R162, R163); the forwarded run
is at most 4 (R161) and the counts hold at 65535 (R165). -/
structure RingUnit.Stores (q : RingUnit) : Prop where
  forward : q.forward.length ≤ 2
  rsps : rspCount q.insert ≤ 8
  sigs : sigCount q.insert ≤ 8
  oneSig : (sigStations q.insert ++ q.waiting.map (·.station)).Nodup
  waits : q.waiting ≠ [] → sigCount q.insert = 8
  run : q.run ≤ 4
  bad : q.bad ≤ 65535
  overflow : q.overflow ≤ 65535
  discard : q.discard ≤ 65535

/-- The stores are in order, and the port is busy while a frame waits (R160). -/
structure RingUnit.Ok (q : RingUnit) : Prop where
  stores : q.Stores
  busy : q.inFlight = none → q.forward = [] ∧ q.insert = []

/-! ### Conditions of the statements -/

/-- A request from station `src` finds a part at station `own` that can take it: the sender is another station of the
ring, and fewer than eight responses wait (R152, R156, R162). -/
structure Serves (own src : Nat) (s : State) : Prop where
  active : s.station = some own
  sender : stationOk src = true
  other : src ≠ own
  room : rspCount s.ring.insert < 8

/-- Nothing calls for FAILSAFE and nothing can latch at a lighting: the ring is not quiet, no lamp fault is latched, no
driver is silent, and no FAILSAFE source is asserted (R112, R135). -/
structure Calm (s : State) : Prop where
  heard : s.ring.quiet = false
  sound : ∀ ch : OutCh, (s.out.chans[ch]).fault = false
  present : ∀ d ∈ s.out.drivers, d.silence ≠ .expired
  free : ∀ r : Ramp, ((s.auth[r]).sources[(0 : Source)]).asserted = false

/-- The rows that are management requests, each with its sender, its request code and its field bytes (11.3). -/
def requestRow : Instr → Option (Nat × Byte × List Byte)
  | .runReset src => some (src, 14#8, [])
  | .identify src => some (src, 1#8, [])
  | .tableWrite src t i record => some (src, 2#8, t :: i :: record)
  | .tableRead src t i => some (src, 3#8, [t, i])
  | .tableClear src t i => some (src, 4#8, [t, i])
  | .tableCheck src t => some (src, 5#8, [t])
  | .rampModeAuto src r => some (src, 6#8, [r, 1#8])
  | .rampModeOff src r => some (src, 6#8, [r, 0#8])
  | .arm src r k v => some (src, 7#8, [r, k, v])
  | .assertSource src r k lease => some (src, 8#8, r :: k :: be16 lease.toNat)
  | .releaseSource src r k => some (src, 9#8, [r, k])
  | .status src r x => some (src, 10#8, [r, x])
  | .detectors src f n => some (src, 11#8, [f, n])
  | .counts src r => some (src, 12#8, [r])
  | .clearFault src r => some (src, 13#8, [r])
  | _ => none

/-! ### A ramp in a new state -/

/-- A ramp stands newly in a state other than START_CLEAR: its phase timer, its attention SET and its beacon at the
state's aspect (R59, R76). -/
structure Entered (r : Ramp) (st : RampState) (tm : Timer) (u : State) : Prop where
  state : (u.ramps[r]).state = st
  phase : (u.ramps[r]).clearPhase = none
  timer : (u.ramps[r]).phaseTimer = tm
  attention : (u.ramps[r]).attention = true
  beacon : ∀ ch : OutCh, beaconOf u.tables r = some ch → (u.out.chans[ch]).commanded = beaconAspect st

/-- The head of each listed lane shows the aspect of the lane's state (R81). -/
def HeadsShow (r : Ramp) (u : State) : Prop :=
  ∀ l ∈ lanesOf u.tables r, ∀ ch : OutCh, headOf u.tables l = some ch →
    (u.out.chans[ch]).commanded = laneAspect (u.lanes[l]).state

/-- A ramp has no slot (R59). -/
def NoSlot (r : Ramp) (u : State) : Prop :=
  (u.ramps[r]).adopted = none ∧ (u.ramps[r]).patternCount = 0 ∧ (u.ramps[r]).slotClock = .stopped
    ∧ (u.ramps[r]).slotLength = none ∧ (u.ramps[r]).lastNominal = none ∧ (u.ramps[r]).aligned = false
    ∧ u.rate[r] = ⟨0, none, false⟩

/-! ### One output channel judged -/

/-- A channel with record `c` is in mismatch: it is checked, not latched, and its report disagrees with its command
(R133). -/
def Mismatched (s : State) (ch : OutCh) (c : OutChan) : Prop :=
  isChecked s.tables ch = true ∧ c.fault = false ∧ c.reported ≠ .absent
    ∧ (c.lampOut = true ∨ (∃ a, c.reported = .shows a ∧ a ≠ c.commanded) ∨ c.reported = .notCarried ∧ c.commanded ≠ .dark)

/-- A channel with record `c` is lit on a silent driver: it is checked, not latched, commanded other than DARK, and its
driver's silence timer is expired (R135). -/
def LitOnSilent (s : State) (ch : OutCh) (c : OutChan) : Prop :=
  isChecked s.tables ch = true ∧ c.fault = false ∧ c.commanded ≠ .dark
    ∧ ∃ (o : OutRec) (d : DriverRec), s.tables.outMap[ch] = some o ∧ driverOf s.out o.station = some d ∧ d.silence = .expired

/-- A channel's record `c` becomes `d` as it is judged for mismatch: the timer starts from zero where the channel enters
mismatch, runs on while it stays there and is stopped where it leaves (R133). -/
def MismatchJudged (s : State) (ch : OutCh) (c d : OutChan) : Prop :=
  (Mismatched s ch c → d = { c with mismatch := if c.mismatch = .stopped then .running 0 else c.mismatch })
    ∧ (¬ Mismatched s ch c → d = { c with mismatch := .stopped })

/-- A channel's record `c` becomes `d` as it is judged at once: a lit channel of a silent driver latches, and any other is
judged for mismatch (R130, R135, R136). -/
def JudgedAtOnce (s : State) (ch : OutCh) (c d : OutChan) : Prop :=
  (LitOnSilent s ch c → d = { c with fault := true, mismatch := .stopped })
    ∧ (¬ LitOnSilent s ch c → MismatchJudged s ch c d)

/-- A channel as a write or clear leaves it that moves which channels are checked: one that ceases to be checked is
unlatched with its timer stopped, its former ramp seeing the unlatch; one that becomes checked is judged at once, its
ramp seeing a latch; any other stays (R130, R113). -/
def Reviewed (s u : State) (ch : OutCh) : Prop :=
  (isChecked s.tables ch = true → isChecked u.tables ch = false →
      u.out.chans[ch] = { s.out.chans[ch] with mismatch := .stopped, fault := false }
      ∧ ((s.out.chans[ch]).fault = true → ∀ q : Ramp, ownerOf s.tables ch = some q → (u.ramps[q]).attention = true))
    ∧ (isChecked s.tables ch = false → isChecked u.tables ch = true →
        JudgedAtOnce u ch s.out.chans[ch] u.out.chans[ch]
        ∧ (LitOnSilent u ch s.out.chans[ch] → ∀ q : Ramp, ownerOf u.tables ch = some q → (u.ramps[q]).attention = true))
    ∧ (isChecked s.tables ch = isChecked u.tables ch → u.out.chans[ch] = s.out.chans[ch])

/-! ### What an event leaves alone -/

/-- The tables, the Detector Unit, the lines, the Timekeeper, the ring and the model's own fields are as they were. -/
structure Undisturbed (s u : State) : Prop where
  pending : u.pending = s.pending
  stride : u.stride = s.stride
  freeCount : u.freeCount = s.freeCount
  tables : u.tables = s.tables
  det : u.det = s.det
  lines : u.lines = s.lines
  time : u.time = s.time
  ring : u.ring = s.ring

/-- A ramp's context is as it was, or has only had its attention SET. -/
def SameRamp (s u : State) (q : Ramp) : Prop :=
  u.ramps[q] = s.ramps[q] ∨ u.ramps[q] = { s.ramps[q] with attention := true }

/-- The condition vectors, the Authority Units, the spillback timers and the rate records are as they were. -/
structure UnitsUndisturbed (s u : State) : Prop where
  vectors : u.vectors = s.vectors
  auth : u.auth = s.auth
  onTimers : u.onTimers = s.onTimers
  rate : u.rate = s.rate

/-- Nothing beside ramp `r` has changed: every other ramp with its unit, its conditions and its Rate Unit's record, every
lane that `r` does not list, every channel that does not belong to it, the spillback timers and the drivers are as they
were. Where a name is shared, which no accepted write brings about (`Tables.Apart`), another ramp may see its attention SET. -/
structure OthersStand (r : Ramp) (s u : State) : Prop where
  tables : u.tables = s.tables
  same : ∀ q : Ramp, q ≠ r → SameRamp s u q
  ramps : s.tables.Apart → ∀ q : Ramp, q ≠ r → u.ramps[q] = s.ramps[q]
  auth : ∀ q : Ramp, q ≠ r → u.auth[q] = s.auth[q]
  vectors : ∀ q : Ramp, q ≠ r → u.vectors[q] = s.vectors[q]
  rate : ∀ q : Ramp, q ≠ r → u.rate[q] = s.rate[q]
  onTimers : u.onTimers = s.onTimers
  lanes : ∀ l : Lane, l ∉ lanesOf s.tables r → u.lanes[l] = s.lanes[l]
  chans : ∀ ch : OutCh, belongs s.tables r ch = false → u.out.chans[ch] = s.out.chans[ch]
  drivers : u.out.drivers = s.out.drivers

end Sys2Proof.Machine
end

