-- ==== Sys2Proof/Certificates/Slice0/Obligations.lean ====
section
/-! DEFINITION. The statements for the provers. In each, `respond` is the end of an executed request and `endEvent` the
end of any other event (Machine/Requests.lean, Machine/Ring.lean); `heard s` is the part once it has heard an accepted
frame (Machine/Arrival.lean), which comes ahead of the frame's use, a request's included (DESIGN CHOICE, log entry 34).
`Serves own src s` and `Calm s` are in Safety.lean. -/

open Sys2Proof Sys2Proof.Machine

/-! ### Steps -/

/-- A step runs the command at the front of the queue on the state with the queue's rest. -/
def Obligations.StepRunsTheFrontCommand : Prop :=
  ∀ (c : Instr) (cs : List Instr) (s : State), s.pending = c :: cs → step s = exec c { s with pending := cs }

/-- On an empty queue an event that is due happens; where none is due, time passes, up to the stride, the next timer or
the end of the running tenth, whichever comes first (the model's choice, log entries 1 to 3). Every timer of the part
stands among the timed events with what it has left, and nothing else does. As time passes corridor time rises by one at
the end of each tenth and returns from 863999 to 0 (R140), and a window close falls due there exactly at a multiple of W
(R15). Every running timer, filter timer, interval counter and sending advances, the elapsed count does, and the on-time
of a channel whose filtered presence is ON; leases and running holds count down (R110, R122). Timers stopped or expired,
holds paused or uncapped, and everything else stand. -/
def Obligations.EmptyQueueLetsTimePass : Prop :=
  (∀ s : State, s.pending = [] →
    (∀ c, nextDue s = some c → step s = exec c s)
    ∧ (nextDue s = none → step s = .next (passTime (idleSpan s) s) ∧ idleSpan s ≤ s.stride
        ∧ idleSpan s ≤ Config.tenth - s.time.phase ∧ ∀ e ∈ timedEvents s, ∀ n, e.2 = some n → idleSpan s ≤ n))
  ∧ (∀ s : State,
      (∀ c, nextDue s = some c → (c, some 0) ∈ timedEvents s)
      ∧ (nextDue s = none → ∀ e ∈ timedEvents s, e.2 ≠ some 0)
      ∧ (idleSpan s = s.stride ∨ idleSpan s = 100000 - s.time.phase ∨ ∃ e ∈ timedEvents s, e.2 = some (idleSpan s)))
  ∧ (∀ (s : State) (e : Instr × Option Nat), e ∈ timedEvents s ↔
      e = (.sendingEnd, sendingLeft s) ∨ e = (.syncTimerExpiry, syncLeft s) ∨ e = (.quietTimerExpiry, quietLeft s)
      ∨ e = (.windowClose, if s.time.closeDue = true then some 0 else none)
      ∨ (∃ l : Line, e = (.debounceExpiry l, debounceLeft l s))
      ∨ (∃ ch : Channel, e = (.filterTimerExpiry ch, filterLeft ch s) ∨ e = (.silenceTimerExpiry ch, silenceLeft ch s)
          ∨ e = (.stuckTimerExpiry ch, stuckLeft ch s) ∨ e = (.onTimerExpiry ch, onTimerLeft ch s))
      ∨ (∃ l : Lane, e = (.delayEnd l, delayLeft l s) ∨ e = (.minimumGreenPoint l, minGreenLeft l s)
          ∨ e = (.maximumGreen l, maxGreenLeft l s) ∨ e = (.yellowEnd l, yellowLeft l s) ∨ e = (.redEnd l, redLeft l s))
      ∨ (∃ r : Ramp, e = (.warnExpiry r, warnLeft r s) ∨ e = (.startGreenExpiry r, startGreenLeft r s)
          ∨ e = (.startYellowExpiry r, startYellowLeft r s) ∨ e = (.startRedExpiry r, startRedLeft r s)
          ∨ e = (.shutdownFlushExpiry r, shutFlushLeft r s) ∨ e = (.slotBoundary r, slotLeft r s)
          ∨ e = (.holdExpiry r, holdLeft r s) ∨ e = (.leaseExpiry r .urgent, leaseLeft r .urgent s)
          ∨ e = (.leaseExpiry r .plan, leaseLeft r .plan s) ∨ e = (.clearTimerExpiry r, clearTimerLeft r s))
      ∨ (∃ ch : OutCh, e = (.mismatchTimerExpiry ch, mismatchLeft ch s))
      ∨ ∃ d ∈ s.out.drivers, e = (.driverSilenceExpiry d.station, driverSilenceLeft d.station s)
          ∨ e = (.refreshTimerExpiry d.station, refreshLeft d.station s))
  ∧ (∀ (s t : State) (d : Nat) (adv : Timer → Timer), s.time.Ok (windowLength s.tables) → nextDue s = none →
      d = idleSpan s → t = passTime d s →
      (∀ n : Nat, adv (.running n) = .running (n + d)) → adv .stopped = .stopped → adv .expired = .expired →
      t = { s with
        det := t.det, ramps := t.ramps, lanes := t.lanes, auth := t.auth, onTimers := t.onTimers, lines := t.lines
        out := t.out, time := t.time, ring := t.ring }
      ∧ t.time.locked = s.time.locked ∧ t.time.syncTimer = adv s.time.syncTimer
      ∧ (s.time.phase + d < 100000 → t.time.phase = s.time.phase + d ∧ t.time.corridor = s.time.corridor
          ∧ t.time.closeDue = false)
      ∧ (s.time.phase + d = 100000 → t.time.phase = 0
          ∧ t.time.corridor = (if s.time.corridor = 863999 then 0 else s.time.corridor + 1)
          ∧ (t.time.closeDue = true ↔ t.time.corridor % (s.tables.settings.getD 200) = 0))
      ∧ t.det.elapsed = s.det.elapsed + d ∧ t.det.lastElapsed = s.det.lastElapsed
      ∧ (∀ (ch : Channel) (x : DetState), x = s.det.chans[ch] → t.det.chans[ch] = { x with
          pending := x.pending.map fun p => { p with ran := p.ran + d }
          silence := adv x.silence, stuck := adv x.stuck
          onTime := if x.filtered = true then x.onTime + d else x.onTime })
      ∧ (∀ (r : Ramp) (x : RampCtx), x = s.ramps[r] →
          t.ramps[r] = { x with phaseTimer := adv x.phaseTimer, slotClock := adv x.slotClock })
      ∧ (∀ (l : Lane) (x : LaneCtx), x = s.lanes[l] →
          t.lanes[l] = { x with interval := x.interval.map fun v => { v with counter := v.counter + d } })
      ∧ (∀ (r : Ramp) (a : AuthUnit), a = s.auth[r] →
          t.auth[r] = { a with sources := (t.auth[r]).sources, clearTimer := adv a.clearTimer }
          ∧ ∀ (k : Source) (x : SourceRec), x = a.sources[k] → (t.auth[r]).sources[k] = { x with
            lease := x.lease.map fun n => n - d
            hold := match x.hold with
              | some (.running n) => some (.running (n - d))
              | some (.paused n) => some (.paused n)
              | some .uncapped => some .uncapped
              | none => none })
      ∧ (∀ ch : Channel, t.onTimers[ch] = adv s.onTimers[ch])
      ∧ (∀ l : Line, t.lines[l] = { s.lines[l] with timer := adv (s.lines[l]).timer })
      ∧ (∀ ch : OutCh, t.out.chans[ch] = { s.out.chans[ch] with mismatch := adv (s.out.chans[ch]).mismatch })
      ∧ t.out.drivers = s.out.drivers.map (fun x => { x with refresh := adv x.refresh, silence := adv x.silence })
      ∧ t.out.sigDue = s.out.sigDue
      ∧ t.ring = { s.ring with
          quietTimer := adv s.ring.quietTimer
          inFlight := s.ring.inFlight.map fun x => { x with ran := x.ran + d } })

/-- Every command has an effect: no step faults or is refused, and a command leaves the queue alone. That nothing stops
the part is read from the spec, which names no such event (DEDUCED, log entry 32). An expiry commanded before its timer
is due leaves the state as it is (DEDUCED, log entry 4), and so does the end of a sending while none is under way. -/
def Obligations.EveryCommandAnswersANextState : Prop :=
  (∀ (c : Instr) (s : State), ∃ t, exec c s = .next t ∧ t.pending = s.pending)
    ∧ (∀ s : State, ∃ t, step s = .next t)
    ∧ (∀ (ch : Channel) (s : State),
        (filterLeft ch s ≠ some 0 → exec (.filterTimerExpiry ch) s = .next s)
        ∧ (silenceLeft ch s ≠ some 0 → exec (.silenceTimerExpiry ch) s = .next s)
        ∧ (stuckLeft ch s ≠ some 0 → exec (.stuckTimerExpiry ch) s = .next s)
        ∧ (onTimerLeft ch s ≠ some 0 → exec (.onTimerExpiry ch) s = .next s))
    ∧ (∀ (r : Ramp) (c : Central) (s : State),
        (warnLeft r s ≠ some 0 → exec (.warnExpiry r) s = .next s)
        ∧ (startGreenLeft r s ≠ some 0 → exec (.startGreenExpiry r) s = .next s)
        ∧ (startYellowLeft r s ≠ some 0 → exec (.startYellowExpiry r) s = .next s)
        ∧ (startRedLeft r s ≠ some 0 → exec (.startRedExpiry r) s = .next s)
        ∧ (shutFlushLeft r s ≠ some 0 → exec (.shutdownFlushExpiry r) s = .next s)
        ∧ (slotLeft r s ≠ some 0 → exec (.slotBoundary r) s = .next s)
        ∧ (holdLeft r s ≠ some 0 → exec (.holdExpiry r) s = .next s)
        ∧ (leaseLeft r c s ≠ some 0 → exec (.leaseExpiry r c) s = .next s)
        ∧ (clearTimerLeft r s ≠ some 0 → exec (.clearTimerExpiry r) s = .next s))
    ∧ (∀ (l : Lane) (s : State),
        (delayLeft l s ≠ some 0 → exec (.delayEnd l) s = .next s)
        ∧ (minGreenLeft l s ≠ some 0 → exec (.minimumGreenPoint l) s = .next s)
        ∧ (maxGreenLeft l s ≠ some 0 → exec (.maximumGreen l) s = .next s)
        ∧ (yellowLeft l s ≠ some 0 → exec (.yellowEnd l) s = .next s)
        ∧ (redLeft l s ≠ some 0 → exec (.redEnd l) s = .next s))
    ∧ (∀ (ch : OutCh) (st : Nat) (l : Line) (s : State),
        (mismatchLeft ch s ≠ some 0 → exec (.mismatchTimerExpiry ch) s = .next s)
        ∧ (driverSilenceLeft st s ≠ some 0 → exec (.driverSilenceExpiry st) s = .next s)
        ∧ (refreshLeft st s ≠ some 0 → exec (.refreshTimerExpiry st) s = .next s)
        ∧ (debounceLeft l s ≠ some 0 → exec (.debounceExpiry l) s = .next s)
        ∧ (syncLeft s ≠ some 0 → exec .syncTimerExpiry s = .next s)
        ∧ (quietLeft s ≠ some 0 → exec .quietTimerExpiry s = .next s)
        ∧ (closeLeft s ≠ some 0 → exec .windowClose s = .next s)
        ∧ (s.ring.inFlight = none → exec .sendingEnd s = .next s))

/-! ### Invariants -/

/-- The state after reset is in order in every block, calm, with corridor time 0, FREE, the window length 200 and every
ramp OFF. -/
def Obligations.ResetIsInOrder : Prop :=
  State.reset.det.Ok ∧ (∀ r : Ramp, (State.reset.ramps[r]).Ok) ∧ (∀ r : Ramp, (State.reset.rate[r]).Ok)
    ∧ (∀ l : Lane, (State.reset.lanes[l]).Ok) ∧ (∀ r : Ramp, (State.reset.auth[r]).Ok ∧ OffFree State.reset r)
    ∧ (∀ ch : OutCh, (State.reset.out.chans[ch]).Ok) ∧ State.reset.time.Ok (windowLength State.reset.tables)
    ∧ State.reset.ring.Ok ∧ State.reset.tables.Apart ∧ Calm State.reset ∧ State.reset.pending = []
    ∧ State.reset.time.corridor = 0 ∧ State.reset.time.locked = false ∧ windowLength State.reset.tables = 200
    ∧ ∀ r : Ramp, (State.reset.ramps[r]).state = .off ∧ (State.reset.ramps[r]).mode = .off

/-- The ring's stores stay within their places, one SIG a station, and no frame waits at a free port. -/
def Obligations.StepKeepsTheRingStores : Prop :=
  ∀ s t : State, s.ring.Ok → step s = .next t → t.ring.Ok

/-- The authority stack stays in strictly descending priority below the holder, and holds run and pause where R106 and
R110 put them. A ramp in OFF has no holder (R73). -/
def Obligations.StepKeepsAuthorityInOrder : Prop :=
  (∀ s t : State, (∀ r : Ramp, (s.auth[r]).Ok) → step s = .next t → ∀ r : Ramp, (t.auth[r]).Ok)
  ∧ (∀ s t : State, (∀ r : Ramp, OffFree s r) → step s = .next t → ∀ r : Ramp, OffFree t r)

/-- A lane's interval and passage count always fit its state, and its counts hold at 65535. -/
def Obligations.StepKeepsLanesInOrder : Prop :=
  ∀ s t : State, (∀ l : Lane, (s.lanes[l]).Ok) → step s = .next t → ∀ l : Lane, (t.lanes[l]).Ok

/-- Outside METERING a ramp holds no slot, and a clear phase is present exactly in START_CLEAR. -/
def Obligations.StepKeepsRampsInOrder : Prop :=
  ∀ s t : State, (∀ r : Ramp, (s.ramps[r]).Ok) → step s = .next t → ∀ r : Ramp, (t.ramps[r]).Ok

/-- The detector channels stay in order: the OK-throughout flag, STUCK, the on-time and the published occupancy. -/
def Obligations.StepKeepsDetectorsInOrder : Prop :=
  ∀ s t : State, s.det.Ok → step s = .next t → t.det.Ok

/-- Corridor time stays in range, and a window close not yet taken stands only at a multiple of the window length (the
model's field, log entry 13). -/
def Obligations.StepKeepsCorridorTime : Prop :=
  ∀ s t : State, s.time.Ok (windowLength s.tables) → step s = .next t → t.time.Ok (windowLength t.tables)

/-- A latched lamp fault never stands beside a running mismatch timer. Relief levels stay at most 8. No lane is ever
listed twice, no channel named by two lane heads or ramp beacons, and no input of a card or output of a driver mapped
twice. -/
def Obligations.StepKeepsLatchesAndRelief : Prop :=
  (∀ s t : State, (∀ ch : OutCh, (s.out.chans[ch]).Ok) → step s = .next t → ∀ ch : OutCh, (t.out.chans[ch]).Ok)
  ∧ (∀ s t : State, (∀ r : Ramp, (s.rate[r]).Ok) → step s = .next t → ∀ r : Ramp, (t.rate[r]).Ok)
  ∧ (∀ s t : State, s.tables.Apart → step s = .next t → t.tables.Apart)

/-! ### The end of an event -/

/-- The end of an event (the model's order inside an event, log entry 14). It leaves tables, detectors, lines, time,
the queue, the ring's counts and its quiet timer alone, and in a calm part every ramp, lane and unit too. It asserts
source 0 of a ramp with a cause of FAILSAFE, a latched fault of one of its channels or ring quiet, and deasserts it of
a ramp with none (R112). Where FAILSAFE then takes the ramp, one in OFF or STANDBY stays, and any other stands in
DARK_FAIL with its lanes, heads and beacon DARK and no slot (R74). Where it lets go, the highest other ELIGIBLE source
holds the ramp, and a ramp in DARK_FAIL goes to OFF when its mode is OFF and otherwise to STANDBY, which goes to WARN
on a start demand (R62). -/
def Obligations.EventEndFrame : Prop :=
  (∀ s : State,
    (endEvent s).tables = s.tables ∧ (endEvent s).det = s.det ∧ (endEvent s).lines = s.lines
    ∧ (endEvent s).time = s.time ∧ (endEvent s).pending = s.pending ∧ (endEvent s).stride = s.stride
    ∧ (endEvent s).freeCount = s.freeCount
    ∧ (endEvent s).ring.straps = s.ring.straps ∧ (endEvent s).ring.quiet = s.ring.quiet
    ∧ (endEvent s).ring.quietTimer = s.ring.quietTimer ∧ (endEvent s).ring.bad = s.ring.bad
    ∧ (endEvent s).ring.overflow = s.ring.overflow ∧ (endEvent s).ring.discard = s.ring.discard
    ∧ (Calm s → (endEvent s).ramps = s.ramps ∧ (endEvent s).lanes = s.lanes ∧ (endEvent s).auth = s.auth
        ∧ (endEvent s).vectors = s.vectors ∧ (endEvent s).rate = s.rate ∧ (endEvent s).onTimers = s.onTimers
        ∧ (endEvent s).out.chans = s.out.chans))
  ∧ (∀ (s : State) (r : Ramp) (ch : OutCh),
      (belongs s.tables r ch = true ↔ beaconOf s.tables r = some ch ∨ ∃ l ∈ lanesOf s.tables r, headOf s.tables l = some ch)
      ∧ (failsafeCause s r = true
        ↔ s.ring.quiet = true ∨ ∃ c : OutCh, belongs s.tables r c = true ∧ (s.out.chans[c]).fault = true))
  ∧ (∀ (s u : State) (r : Ramp), u = endEvent s →
      (failsafeCause s r = true → ((u.auth[r]).sources[(0 : Source)]).asserted = true)
      ∧ (failsafeCause u r = false → ((u.auth[r]).sources[(0 : Source)]).asserted = false)
      ∧ (s.tables.Apart → ((u.auth[r]).sources[(0 : Source)]).asserted = failsafeCause u r)
      ∧ ((∀ d ∈ s.out.drivers, d.silence ≠ .expired) → failsafeCause u r = failsafeCause s r))
  ∧ (∀ (s u : State) (r : Ramp) (x : SourceRec), u = endEvent s → s.tables.Apart →
      x = (s.auth[r]).sources[(0 : Source)] → failsafeCause s r = true → x.asserted = false → x.armed = true →
      x.spent = false → x.standing = false → (s.auth[r]).holder ≠ some 0 →
      ((s.ramps[r]).state = .off → (u.ramps[r]).state = .off ∧ (u.auth[r]).holder = (s.auth[r]).holder)
      ∧ ((s.ramps[r]).state ≠ .off → (u.auth[r]).holder = some 0 ∧ (u.auth[r]).granted = some .failsafe
          ∧ (u.ramps[r]).attention = true)
      ∧ ((s.ramps[r]).state = .standby → (u.ramps[r]).state = .standby)
      ∧ ((s.ramps[r]).state = .darkFail → (u.ramps[r]).state = .darkFail)
      ∧ ((s.ramps[r]).state ≠ .off → (s.ramps[r]).state ≠ .standby → (s.ramps[r]).state ≠ .darkFail →
          Entered r .darkFail .stopped u ∧ HeadsShow r u ∧ ((s.ramps[r]).state = .metering → NoSlot r u)
          ∧ ∀ l ∈ lanesOf s.tables r, s.tables.laneCfg[l] ≠ none → u.lanes[l] = { s.lanes[l] with
              state := .dark, regime := .meter, call := false, interval := none, greenPassageCount := none }))
  ∧ (∀ (s u : State) (r : Ramp) (x : SourceRec), u = endEvent s → s.tables.Apart →
      (∀ d ∈ s.out.drivers, d.silence ≠ .expired) → x = (s.auth[r]).sources[(0 : Source)] →
      failsafeCause s r = false → x.asserted = true → x.standing = true → (s.auth[r]).holder = some 0 →
      ((s.ramps[r]).state = .darkFail ∨ (s.ramps[r]).state = .standby) →
      ((s.ramps[r]).state = .darkFail → (s.ramps[r]).mode = .off →
          Entered r .off .stopped u ∧ (u.auth[r]).holder = none ∧ (u.auth[r]).stack = [])
      ∧ ((s.ramps[r]).mode = .auto ∨ (s.ramps[r]).state = .standby →
          (startDemand u r = true → Entered r .warn (.running 0) u)
          ∧ (startDemand u r = false → (u.ramps[r]).state = .standby)
          ∧ ((s.ramps[r]).state = .darkFail → startDemand u r = false → Entered r .standby .stopped u)
          ∧ ((∀ k : Source, k ≠ 0 → ((s.auth[r]).sources[k]).standing = false) →
              (u.auth[r]).holder = none ∧ (u.auth[r]).granted = none)
          ∧ ∀ w : Source, w ≠ 0 → ((s.auth[r]).sources[w]).standing = true →
              (∀ k : Source, k ≠ 0 → k < w → ((s.auth[r]).sources[k]).standing = false) →
              (u.auth[r]).holder = some w
              ∧ (u.auth[r]).granted = some (grantedAction w (actionRec s.tables r w))))

/-! ### Requests -/

/-- The response of an executed request: its code, the result, the four attention flags and the sync state as the
request left them, then the result fields; it enters at the tail of the insert queue, behind the SIGs of the request's
effects, and a free port then takes a frame (this order is the model's, log entry 14). -/
def Obligations.ResponseStandsBehindItsSigs : Prop :=
  ∀ (src : Nat) (code : Byte) (rest : List Byte) (x : Reply),
    respond src (code :: rest) x =
      pump { flushSigs (settle x.state) with ring := { (flushSigs (settle x.state)).ring with
        insert := (flushSigs (settle x.state)).ring.insert ++ [.rsp src ([code, x.result.code,
          byte (flagBits [((flushSigs (settle x.state)).ramps[(0 : Ramp)]).attention,
            ((flushSigs (settle x.state)).ramps[(1 : Ramp)]).attention,
            ((flushSigs (settle x.state)).ramps[(2 : Ramp)]).attention,
            ((flushSigs (settle x.state)).ramps[(3 : Ramp)]).attention,
            (flushSigs (settle x.state)).time.locked])] ++ x.fields)] } }

/-- A request answered with any result other than DONE leaves the part as it was and carries no field. -/
def Obligations.RefusedRequestChangesNothing : Prop :=
  ∀ (own : Nat) (payload : List Byte) (s : State),
    (handlePayload own payload s).result ≠ .done →
      (handlePayload own payload s).state = s ∧ (handlePayload own payload s).fields = []

/-- A request that finds eight responses in the insert queue is discarded and counted, and has no other effect than
that its frame was heard. The hearing of the request's frame comes ahead of it (DESIGN CHOICE, log entry 34). -/
def Obligations.FullQueueDiscardsTheRequest : Prop :=
  ∀ (c : Instr) (own src : Nat) (code : Byte) (fields : List Byte) (s : State),
    c.wellFormed = true → requestRow c = some (src, code, fields) → s.station = some own → src ≠ own →
      8 ≤ rspCount s.ring.insert →
        exec c s = .next (pump { heard s with ring := { (heard s).ring with
          discard := if (heard s).ring.discard < 65535 then (heard s).ring.discard + 1 else 65535 } })

/-- A PASSIVE part takes no request (a request row is the arrival of its CMD frame at the part's address, the model's
choice, log entry 5), and forwards every accepted frame unchanged, behind the hearing of the frame (DESIGN CHOICE, log
entry 34) and what the hearing brings (DEDUCED, log entry 19, which names the PASSIVE part). -/
def Obligations.PassivePartOnlyForwards : Prop :=
  ∀ s : State, s.station = none →
    (∀ c x, requestRow c = some x → exec c s = .next s)
    ∧ ∀ (bytes : List Byte) (f : Frame), acceptFrame bytes = some f →
        exec (.frameArrival bytes) s = .next (forwardOn bytes (endEvent (heard s)))

/-- A ramp byte above 3 is answered BADINDEX, whatever else the request carries. The hearing of the request's frame
comes ahead of it (DESIGN CHOICE, log entry 34). -/
def Obligations.RampAboveThreeIsBadIndex : Prop :=
  ∀ (own src : Nat) (s : State) (ramp a b : Byte) (lease : BitVec 16), Serves own src s → 4 ≤ ramp.toNat →
    exec (.rampModeAuto src ramp) s = .next (respond src [6, ramp, 1] (refuse .badIndex (heard s)))
    ∧ exec (.rampModeOff src ramp) s = .next (respond src [6, ramp, 0] (refuse .badIndex (heard s)))
    ∧ exec (.arm src ramp a b) s = .next (respond src [7, ramp, a, b] (refuse .badIndex (heard s)))
    ∧ exec (.assertSource src ramp a lease) s
        = .next (respond src ([8, ramp, a] ++ be16 lease.toNat) (refuse .badIndex (heard s)))
    ∧ exec (.releaseSource src ramp a) s = .next (respond src [9, ramp, a] (refuse .badIndex (heard s)))
    ∧ exec (.status src ramp a) s = .next (respond src [10, ramp, a] (refuse .badIndex (heard s)))
    ∧ exec (.counts src ramp) s = .next (respond src [12, ramp] (refuse .badIndex (heard s)))
    ∧ exec (.clearFault src ramp) s = .next (respond src [13, ramp] (refuse .badIndex (heard s)))

/-- IDENTIFY returns identity, mode, capacities and ring counts, and changes nothing (the revision is any number from 1
to 255, log entry 9). The hearing of the request's frame comes ahead of it (DESIGN CHOICE, log entry 34). -/
def Obligations.IdentifyReturnsIdentity : Prop :=
  ∀ (own src : Nat) (s : State), Serves own src s →
    exec (.identify src) s = .next (respond src [1] (answer
      (be16 23115 ++ be16 2410 ++ [byte (Config.revisionLessOne.val + 1), byte own, 1]
        ++ [4, 12, 64, 16, 8, 32, 8, 16, 12, 16, 8]
        ++ be16 s.ring.bad ++ be16 s.ring.overflow ++ be16 s.ring.discard) (heard s)))

/-- TABLE READ returns the table id, the index and the stored record or UNSET; outside the ten tables' ranges it is
BADINDEX. The hearing of the request's frame comes ahead of it (DESIGN CHOICE, log entry 34). -/
def Obligations.TableReadReturnsTheStoredRecord : Prop :=
  ∀ (own src : Nat) (s : State) (t i : Byte), Serves own src s →
    ((∃ lo hi : Nat, (t.toNat, lo, hi) ∈ [(1, 0, 63), (2, 0, 63), (3, 0, 47), (4, 1, 32), (5, 1, 8), (6, 0, 3),
        (7, 1, 12), (8, 0, 15), (9, 0, 19), (10, 0, 0)] ∧ lo ≤ i.toNat ∧ i.toNat ≤ hi) →
      exec (.tableRead src t i) s = .next (respond src [3, t, i] (answer ([t, i] ++
        (match storedRecord s.tables t.toNat i.toNat with
          | some r => (1 : Byte) :: r
          | none => [0])) (heard s))))
    ∧ ((¬ ∃ lo hi : Nat, (t.toNat, lo, hi) ∈ [(1, 0, 63), (2, 0, 63), (3, 0, 47), (4, 1, 32), (5, 1, 8), (6, 0, 3),
        (7, 1, 12), (8, 0, 15), (9, 0, 19), (10, 0, 0)] ∧ lo ≤ i.toNat ∧ i.toNat ≤ hi) →
      exec (.tableRead src t i) s = .next (respond src [3, t, i] (refuse .badIndex (heard s))))

/-- TABLE CHECK returns the number of set records and the CRC-16 over them in ascending index order, each behind its
index; all ones for a table with none. The hearing of the request's frame comes ahead of it (DESIGN CHOICE, log entry
34). -/
def Obligations.TableCheckCountsAndChecks : Prop :=
  ∀ (own src : Nat) (s : State) (t : Byte), Serves own src s →
    (1 ≤ t.toNat ∧ t.toNat ≤ 10 → exec (.tableCheck src t) s = .next (respond src [5, t] (answer
      ([t, byte (((indicesOf t.toNat).filter fun i => (storedRecord s.tables t.toNat i).isSome).length)]
        ++ be16 (crc16 ((indicesOf t.toNat).flatMap fun i => match storedRecord s.tables t.toNat i with
          | some r => byte i :: r
          | none => [])).toNat) (heard s))))
    ∧ (t.toNat = 0 ∨ 10 < t.toNat → exec (.tableCheck src t) s = .next (respond src [5, t] (refuse .badIndex (heard s))))
    ∧ crc16 [] = 0xFFFF#16

/-- An accepted TABLE WRITE stores the record whole: it reads back in the form it was written in, and no other index of
any table changes. The frame of such a request is heard ahead of it (DESIGN CHOICE, log entry 34). -/
def Obligations.WrittenRecordReadsBack : Prop :=
  ∀ (table index : Nat) (record : List Byte) (s u : State), shapeOk table record = true →
    writeTable table index record s = (.done, u) →
      storedRecord u.tables table index = some record
      ∧ ∀ t i : Nat, (t, i) ≠ (table, index) → t ≠ 10 ∨ i = 0 → (t ≠ 10 ∨ table ≠ 10) →
          storedRecord u.tables t i = storedRecord s.tables t i

/-- A TABLE WRITE whose record has its shape, passes its table's tests and meets no lock is DONE, with the effect of its
table's rule. A Detector Map write or clear returns the channel to its reset values and announces it (R3). An Output Map
write or clear returns the channel to its reset values but for its commanded aspect, which unlatches a fault and sets
the owner's attention; it brings a SIG for the station that the old record names and the one that the new record names
(R127), the same record written again too (R171; that one which differs in its use alone brings it as well is DEDUCED,
log entry 36), and a driver record is formed for a station that enters the map and discarded for one that leaves it
(R127). A Part Settings write or clear gives the window its length at once and moves nothing else (R15, R172; a close of
this moment not yet taken stands only where it still fits, DEDUCED, log entry 13). A Lane Config or Ramp Config write or
clear moves which channels are checked: one that ceases to be is unlatched, its timer stopped and, for a latched one,
its former ramp's attention SET; one that becomes checked is judged at once (R130). A Ramp Config's further effects, on
its ramp's sources and the on-timers, are those of O58. The other tables change nothing but the record, whose place is
its ramp's (R22, R31, R108); a condition's present value stays for the next close (R24; that it does where a TRUE
condition is cleared and written again within one window is DESIGN CHOICE, log entry 38). The hearing of the request's
frame comes ahead of it (DESIGN CHOICE, log entry 34). -/
def Obligations.TableWriteCompletes : Prop :=
  (∀ (own src : Nat) (s : State) (record : List Byte), Serves own src s → record.length ≤ 45 →
    (∀ (ch : Channel) (d : DetRec), shapeOk 1 record = true → readDet record = some d →
      detDuplicate s.tables ch d = false → detTouchesInUse (heard s) s.tables.detMap[ch] = false →
      detTouchesInUse (heard s) (some d) = false →
        exec (.tableWrite src 1 (byte ch.val) record) s
          = .next (respond src (2 :: 1 :: byte ch.val :: record) (answer [1, byte ch.val] (putDetMap ch (some d) (heard s)))))
    ∧ (∀ (i : Fin 64) (d : CondRec), shapeOk 2 record = true → readCond record = some d →
        exec (.tableWrite src 2 (byte i.val) record) s
          = .next (respond src (2 :: 2 :: byte i.val :: record) (answer [2, byte i.val] (putCond i (some d) (heard s)))))
    ∧ (∀ (i : Fin 48) (d : MatchRec), shapeOk 3 record = true → readMatch record = some d →
        exec (.tableWrite src 3 (byte i.val) record) s
          = .next (respond src (2 :: 3 :: byte i.val :: record) (answer [3, byte i.val] (putMatch i (some d) (heard s)))))
    ∧ (∀ (i : Fin 32) (d : PlanRec), shapeOk 4 record = true → readPlan record = some d →
        exec (.tableWrite src 4 (byte (i.val + 1)) record) s = .next (respond src (2 :: 4 :: byte (i.val + 1) :: record)
          (answer [4, byte (i.val + 1)] (putPlan i (some d) (heard s)))))
    ∧ (∀ (i : Fin 8) (d : CurveRec), shapeOk 5 record = true → readCurve record = some d →
        exec (.tableWrite src 5 (byte (i.val + 1)) record) s = .next (respond src (2 :: 5 :: byte (i.val + 1) :: record)
          (answer [5, byte (i.val + 1)] (putCurve i (some d) (heard s)))))
    ∧ (∀ (r : Ramp) (d : RampRec), shapeOk 6 record = true → readRamp record = some d →
        rampConflict s.tables r d = false → ((heard s).ramps[r]).state = .off →
          exec (.tableWrite src 6 (byte r.val) record) s
            = .next (respond src (2 :: 6 :: byte r.val :: record) (answer [6, byte r.val] (putRamp r (some d) (heard s)))))
    ∧ (∀ (l : Lane) (d : LaneRec), shapeOk 7 record = true → readLane record = some d →
        laneConflict s.tables l d = false → laneInUse (heard s) l = false →
          exec (.tableWrite src 7 (byte (l.val + 1)) record) s = .next (respond src (2 :: 7 :: byte (l.val + 1) :: record)
            (answer [7, byte (l.val + 1)] (putLaneCfg l (some d) (heard s)))))
    ∧ (∀ (ch : OutCh) (d : OutRec), shapeOk 8 record = true → readOut record = some d →
        outConflict s.tables ch d = false → outInUse (heard s) ch = false →
          exec (.tableWrite src 8 (byte ch.val) record) s
            = .next (respond src (2 :: 8 :: byte ch.val :: record) (answer [8, byte ch.val] (putOutMap ch (some d) (heard s)))))
    ∧ (∀ (i : Fin 20) (d : ActionRec), shapeOk 9 record = true → readAction record = some d →
        exec (.tableWrite src 9 (byte i.val) record) s
          = .next (respond src (2 :: 9 :: byte i.val :: record) (answer [9, byte i.val] (putAction i (some d) (heard s)))))
    ∧ (∀ w : Nat, shapeOk 10 record = true → readSettings record = some w → anyInUse (heard s) = false →
        exec (.tableWrite src 10 0 record) s
          = .next (respond src (2 :: 10 :: 0 :: record) (answer [10, 0] (putSettings (some w) (heard s))))))
  ∧ (∀ (ch : Channel) (rec : Option DetRec) (s u : State), u = putDetMap ch rec s →
      u.tables = { s.tables with detMap := vset s.tables.detMap ch rec }
      ∧ u.det.chans[ch] = ⟨false, false, false, none, .unseen, .stopped, .stopped, 0, 0, 0, false, 0, 0, false⟩
      ∧ (∀ c : Channel, c ≠ ch → u.det.chans[c] = s.det.chans[c])
      ∧ u.det.elapsed = s.det.elapsed ∧ u.det.lastElapsed = s.det.lastElapsed ∧ u.time = s.time ∧ u.lines = s.lines
      ∧ ∃ t : State, t = { s with
          tables := { s.tables with detMap := vset s.tables.detMap ch rec }
          det := u.det } ∧ u = announce s t)
  ∧ (∀ (ch : OutCh) (rec : Option OutRec) (s u : State) (touched : Nat → Prop), u = putOutMap ch rec s →
      (∀ st : Nat, touched st ↔ (∃ o, s.tables.outMap[ch] = some o ∧ o.station = st) ∨ ∃ o, rec = some o ∧ o.station = st) →
      u.tables = { s.tables with outMap := vset s.tables.outMap ch rec }
      ∧ (u.out.chans[ch]).commanded = (s.out.chans[ch]).commanded ∧ (u.out.chans[ch]).reported = .absent
      ∧ (u.out.chans[ch]).lampOut = false ∧ (u.out.chans[ch]).mismatch = .stopped
      ∧ ((s.out.chans[ch]).commanded = .dark ∨ (∀ d ∈ s.out.drivers, d.silence ≠ .expired) →
          (u.out.chans[ch]).fault = false)
      ∧ (∀ c : OutCh, c ≠ ch → u.out.chans[c] = s.out.chans[c])
      ∧ (∀ r : Ramp, ownerOf s.tables ch = some r → (s.out.chans[ch]).fault = true → (u.ramps[r]).attention = true)
      ∧ (∀ st : Nat, st ∈ u.out.sigDue ↔ st ∈ s.out.sigDue ∨ touched st)
      ∧ (∀ st : Nat, ¬ touched st → driverOf u.out st = driverOf s.out st)
      ∧ (∀ st : Nat, touched st → (∀ (c : OutCh) (o : OutRec), u.tables.outMap[c] = some o → o.station ≠ st) →
          driverOf u.out st = none)
      ∧ (∀ (st : Nat) (c : OutCh) (o : OutRec), touched st → u.tables.outMap[c] = some o → o.station = st →
          driverOf u.out st = some ((driverOf s.out st).getD ⟨st, .stopped, .running 0⟩))
      ∧ (∀ q : Ramp, SameRamp s u q) ∧ u.lanes = s.lanes ∧ UnitsUndisturbed s u ∧ u.det = s.det ∧ u.time = s.time)
  ∧ (∀ (rec : Option Nat) (s u : State), u = putSettings rec s →
      windowLength u.tables = rec.getD 200 ∧ u.tables = { s.tables with settings := rec }
      ∧ u = { s with
          tables := u.tables
          time := { s.time with closeDue := s.time.closeDue && decide (s.time.corridor % rec.getD 200 = 0) } })
  ∧ (∀ (l : Lane) (rec : Option LaneRec) (s u : State), u = putLaneCfg l rec s →
      u = { s with
        tables := { s.tables with laneCfg := vset s.tables.laneCfg l rec }
        ramps := u.ramps
        out := { s.out with chans := u.out.chans } }
      ∧ (∀ q : Ramp, SameRamp s u q) ∧ ∀ ch : OutCh, Reviewed s u ch)
  ∧ (∀ (r : Ramp) (rec : Option RampRec) (s u : State), (s.ramps[r]).state = .off → OffFree s r →
      u = putRamp r rec s →
      u = { s with
        tables := { s.tables with rampCfg := vset s.tables.rampCfg r rec }
        ramps := u.ramps
        auth := u.auth
        onTimers := u.onTimers
        out := { s.out with chans := u.out.chans } }
      ∧ (∀ q : Ramp, q ≠ r → u.auth[q] = s.auth[q]) ∧ (u.auth[r]).holder = none
      ∧ (∀ q : Ramp, SameRamp s u q) ∧ ∀ ch : OutCh, Reviewed s u ch)
  ∧ (∀ s : State,
      (∀ (i : Fin 64) (x : Option CondRec), putCond i x s
        = { s with tables := { s.tables with conds := vset s.tables.conds i x } })
      ∧ (∀ (i : Fin 48) (x : Option MatchRec), putMatch i x s
        = { s with tables := { s.tables with matches_ := vset s.tables.matches_ i x } })
      ∧ (∀ (i : Fin 32) (x : Option PlanRec), putPlan i x s
        = { s with tables := { s.tables with plans := vset s.tables.plans i x } })
      ∧ (∀ (i : Fin 8) (x : Option CurveRec), putCurve i x s
        = { s with tables := { s.tables with curves := vset s.tables.curves i x } })
      ∧ (∀ (i : Fin 20) (x : Option ActionRec), putAction i x s
        = { s with tables := { s.tables with actions := vset s.tables.actions i x } }))
  ∧ (∀ (t : Tables) (r : Ramp),
      (∀ (c : Fin 16) (i : Fin 64), i.val = r.val * 16 + c.val → condRec t r c = t.conds[i])
      ∧ (∀ (p : Fin 12) (i : Fin 48), i.val = r.val * 12 + p.val → matchRec t r p = t.matches_[i])
      ∧ (∀ (k : Source) (i : Fin 20), 1 ≤ k.val → i.val + 1 = r.val * 5 + k.val → actionRec t r k = t.actions[i])
      ∧ actionRec t r 0 = none ∧ planRec t 0 = none ∧ curveRec t 0 = none
      ∧ (∀ i : Fin 32, planRec t (i.val + 1) = t.plans[i]) ∧ ∀ i : Fin 8, curveRec t (i.val + 1) = t.curves[i])

/-- A TABLE WRITE is judged in the order shape, index, value, lock, effect: the result each failing test gives. A value
that the record's own tests refuse is BADVALUE in every table (one with a bit set that its layout gives no meaning
among them, DEDUCED, log entry 20), and so is a conflict with the other records: an input of a card that another
channel maps (R2); a lane of another ramp's list, or a beacon that is another's beacon, a head or a channel with use
HEAD (R55); a head that is another's head, a beacon or a channel with use BEACON (R78); an output of a driver that
another channel maps, a ninth station, or a use that a name contradicts (R126). INUSE is a ramp in use that the record
touches: one of the old or new record's ramp set or the one that lists its lane (R175), the ramp itself, the ramp that
lists the lane, the one the channel belongs to, or any for the Part Settings. The other tables have no conflict and no
lock (O22). A record has the table's shape by its length alone, from its counts and presence bits (R188); its own tests
take it exactly when it is the layout of values that are `Allowed`: a Detector Map record (R1, R2), a condition (R22, R23),
a match entry (R31), a plan (R38, R39), a curve (R41; the bits of the points past its count are free, log entry 20), a
Ramp Config (R54, R55), a Lane Config (R77, R78), an Output Map record (R125), an action (R108) and the window length
(R172). The frame of such a request is heard ahead of it (DESIGN CHOICE, log entry 34). -/
def Obligations.TableWriteIsJudgedInOrder : Prop :=
  (∀ (own src : Nat) (table index : Byte) (record : List Byte) (s : State), Serves own src s → record.length ≤ 45 →
    exec (.tableWrite src table index record) s
      = .next (respond src (2 :: table :: index :: record) (tableWrite table index record (heard s))))
  ∧ (∀ (table index : Byte) (record : List Byte) (s : State),
    (shapeOk table.toNat record = false → tableWrite table index record s = refuse .badReq s)
    ∧ (shapeOk table.toNat record = true →
        (¬ (index.toNat ∈ indicesOf table.toNat) → tableWrite table index record s = refuse .badIndex s)
        ∧ (index.toNat ∈ indicesOf table.toNat →
            (table = 1 → readDet record = none) → (table = 2 → readCond record = none) →
            (table = 3 → readMatch record = none) → (table = 4 → readPlan record = none) →
            (table = 5 → readCurve record = none) → (table = 6 → readRamp record = none) →
            (table = 7 → readLane record = none) → (table = 8 → readOut record = none) →
            (table = 9 → readAction record = none) → (table = 10 → readSettings record = none) →
            tableWrite table index record s = refuse .badValue s)
        ∧ (∀ (ch : Channel) (d : DetRec) (conflict locked : Prop) (touches : DetRec → Ramp → Prop),
            table = 1 → index.toNat = ch.val → readDet record = some d → s.tables.Apart →
            (conflict ↔ ∃ (c : Channel) (e : DetRec), c ≠ ch ∧ s.tables.detMap[c] = some e
              ∧ e.station = d.station ∧ e.input = d.input) →
            (∀ e r, touches e r ↔ e.ramps.getLsbD r.val = true ∨ ∃ l : Lane, e.lane = some l ∧ l ∈ lanesOf s.tables r) →
            (locked ↔ ∃ r : Ramp, (s.ramps[r]).state ≠ .off
              ∧ (touches d r ∨ ∃ e, s.tables.detMap[ch] = some e ∧ touches e r)) →
            (conflict → tableWrite table index record s = refuse .badValue s)
            ∧ (¬ conflict → locked → tableWrite table index record s = refuse .inUse s)
            ∧ (¬ conflict → ¬ locked → tableWrite table index record s = answer [table, index] (putDetMap ch (some d) s)))
        ∧ (∀ (r : Ramp) (d : RampRec) (conflict : Prop), table = 6 → index.toNat = r.val → readRamp record = some d →
            (conflict ↔ (∃ (q : Ramp) (l : Lane), q ≠ r ∧ l ∈ d.lanes ∧ l ∈ lanesOf s.tables q)
              ∨ ∃ ch : OutCh, d.beacon = some ch ∧ ((∃ q : Ramp, q ≠ r ∧ beaconOf s.tables q = some ch)
                ∨ (∃ l : Lane, headOf s.tables l = some ch) ∨ ∃ o, s.tables.outMap[ch] = some o ∧ o.beacon = false)) →
            (conflict → tableWrite table index record s = refuse .badValue s)
            ∧ (¬ conflict → (s.ramps[r]).state ≠ .off → tableWrite table index record s = refuse .inUse s)
            ∧ (¬ conflict → (s.ramps[r]).state = .off →
                tableWrite table index record s = answer [table, index] (putRamp r (some d) s)))
        ∧ (∀ (l : Lane) (d : LaneRec) (conflict locked : Prop), table = 7 → index.toNat = l.val + 1 →
            readLane record = some d →
            (conflict ↔ (∃ k : Lane, k ≠ l ∧ headOf s.tables k = some d.head)
              ∨ (∃ q : Ramp, beaconOf s.tables q = some d.head) ∨ ∃ o, s.tables.outMap[d.head] = some o ∧ o.beacon = true) →
            (locked ↔ ∃ r : Ramp, l ∈ lanesOf s.tables r ∧ (s.ramps[r]).state ≠ .off) →
            (conflict → tableWrite table index record s = refuse .badValue s)
            ∧ (¬ conflict → locked → tableWrite table index record s = refuse .inUse s)
            ∧ (¬ conflict → ¬ locked → tableWrite table index record s = answer [table, index] (putLaneCfg l (some d) s)))
        ∧ (∀ (ch : OutCh) (d : OutRec) (others : List Nat) (conflict locked : Prop), table = 8 → index.toNat = ch.val →
            readOut record = some d → others.Nodup →
            (∀ st : Nat, st ∈ others ↔ ∃ (c : OutCh) (o : OutRec), c ≠ ch ∧ s.tables.outMap[c] = some o ∧ o.station = st) →
            (conflict ↔ (∃ (c : OutCh) (o : OutRec), c ≠ ch ∧ s.tables.outMap[c] = some o
                ∧ o.station = d.station ∧ o.output = d.output)
              ∨ (d.station ∉ others ∧ 8 ≤ others.length) ∨ (d.beacon = true ∧ ∃ l : Lane, headOf s.tables l = some ch)
              ∨ (d.beacon = false ∧ ∃ q : Ramp, beaconOf s.tables q = some ch)) →
            (locked ↔ ∃ r : Ramp, belongs s.tables r ch = true ∧ (s.ramps[r]).state ≠ .off) →
            (conflict → tableWrite table index record s = refuse .badValue s)
            ∧ (¬ conflict → locked → tableWrite table index record s = refuse .inUse s)
            ∧ (¬ conflict → ¬ locked → tableWrite table index record s = answer [table, index] (putOutMap ch (some d) s)))
        ∧ (∀ w : Nat, table = 10 → index = 0 → readSettings record = some w →
            ((∃ r : Ramp, (s.ramps[r]).state ≠ .off) → tableWrite table index record s = refuse .inUse s)
            ∧ ((∀ r : Ramp, (s.ramps[r]).state = .off) →
                tableWrite table index record s = answer [table, index] (putSettings (some w) s)))))
  ∧ (∀ (l : List Byte) (d : DetRec), readDet l = some d ↔ d.Allowed
      ∧ l = [byte d.station, byte d.input,
          byte ([Role.mainline, .demand, .passage, .queue, .spillback, .other].idxOf d.role), byte d.ramps.toNat,
          byte (match d.lane with | some k => k.val + 1 | none => 0), byte d.filter]
        ++ be16 d.stuckLimit ++ [byte d.chatterLimit, byte d.subst.toNat, byte d.always.toNat])
  ∧ (∀ (l : List Byte) (c : CondRec), readCond l = some c ↔ c.Allowed
      ∧ l = byte c.chans.length :: c.chans.map (fun ch => byte ch.val) ++ [byte c.flow.toNat, byte c.below.toNat]
        ++ be16 c.threshold ++ be16 c.hysteresis ++ [byte c.subst.toNat, byte c.force.toNat])
  ∧ (∀ (l : List Byte) (m : MatchRec), readMatch l = some m ↔ m.Allowed
      ∧ l = be16 m.value.toNat ++ be16 m.care.toNat ++ [byte m.plan, byte (m.persistence.getD 0)])
  ∧ (∀ (l : List Byte) (p : PlanRec), readPlan l = some p ↔ p.Allowed
      ∧ l = (match p.adaptive with
          | none => [0, 0, byte p.slot]
          | some a => (match a.queueThreshold with
            | none => [1, 0x37, byte p.slot, byte a.minSlot, byte a.maxSlot, byte a.curve]
            | some t => [1, 0x3F, byte p.slot, byte a.minSlot, byte a.maxSlot, byte a.curve] ++ be16 t)
            ++ [byte a.reliefStep, byte a.reliefHyst])
        ++ [byte p.period, 4] ++ p.masks.toList.flatMap (fun m => be16 m.toNat) ++ [byte p.coordinated.toNat])
  ∧ (∀ (l : List Byte) (c : CurveRec), shapeOk 5 l = true → (readCurve l = some c ↔ c.Allowed
      ∧ l = byte c.points.length :: c.points.map (fun p => byte (p.1 % 256))
        ++ (List.range ((c.points.length + 3) / 4)).map (fun j =>
          byte (((List.range 4).map fun q => ((c.points[4 * j + q]?).map (·.1)).getD 0 / 256 * 4 ^ q).sum))
        ++ c.points.map (fun p => byte p.2)))
  ∧ (∀ (l : List Byte) (c : RampRec), readRamp l = some c ↔ c.Allowed
      ∧ l = byte c.lanes.length :: c.lanes.map (fun k => byte (k.val + 1))
        ++ [byte (match c.beacon with | some ch => ch.val | none => 255), byte c.defaultPlan] ++ be16 c.warn
        ++ [byte c.startGreen, byte c.startYellow, byte c.startRed] ++ be16 c.shutFlush ++ be16 c.offset
        ++ [byte (match c.preLine with | some n => n.val | none => 255),
          byte (match c.panelLine with | some n => n.val | none => 255)] ++ be16 c.spillOn ++ be16 c.spillClear)
  ∧ (∀ (l : List Byte) (c : LaneRec), readLane l = some c ↔ c.Allowed
      ∧ l = [byte c.head.val, byte c.demand.val, byte (match c.passage with | some ch => ch.val | none => 255),
          byte (!c.lock).toNat, byte c.delay, byte c.maxGreen, byte c.minGreen, byte c.yellow, byte c.minRed,
          byte c.vehicles])
  ∧ (∀ (l : List Byte) (o : OutRec), readOut l = some o ↔ (2 ≤ o.station ∧ o.station ≤ 62)
      ∧ l = [byte o.station, byte o.output.val, byte o.beacon.toNat, byte o.lampCheck.toNat])
  ∧ (∀ (l : List Byte) (a : ActionRec), readAction l = some a ↔ a.Allowed
      ∧ l = (match a.kind with
          | .dark => [1, 0]
          | .flush => [2, 0]
          | .hold => [3, 0]
          | .plan n => [4, byte n]) ++ be16 (a.cap.getD 0))
  ∧ (∀ (l : List Byte) (w : Nat), readSettings l = some w ↔
      w ∈ [100, 120, 150, 200, 240, 300, 400, 600] ∧ l = be16 w)
  ∧ (∀ l : List Byte,
      (shapeOk 1 l = true ↔ l.length = 11) ∧ (∀ k : Byte, shapeOk 2 (k :: l) = true ↔ l.length = 8 + k.toNat)
      ∧ (shapeOk 3 l = true ↔ l.length = 6)
      ∧ (∀ mode p slot : Byte, shapeOk 4 (mode :: p :: slot :: l) = true ↔ ∃ (a b : List Byte) (period m : Byte),
          l = a ++ period :: m :: b
          ∧ a.length = (p.getLsbD 0).toNat + (p.getLsbD 1).toNat + (p.getLsbD 2).toNat + 2 * (p.getLsbD 3).toNat
            + (p.getLsbD 4).toNat + (p.getLsbD 5).toNat
          ∧ b.length = 2 * m.toNat + 1)
      ∧ (∀ n : Byte, shapeOk 5 (n :: l) = true ↔ l.length = 2 * n.toNat + (n.toNat + 3) / 4)
      ∧ (∀ k : Byte, shapeOk 6 (k :: l) = true ↔ l.length = 17 + k.toNat)
      ∧ (shapeOk 7 l = true ↔ l.length = 10) ∧ (shapeOk 8 l = true ↔ l.length = 4) ∧ (shapeOk 9 l = true ↔ l.length = 4)
      ∧ (shapeOk 10 l = true ↔ l.length = 2)
      ∧ shapeOk 2 [] = false ∧ shapeOk 4 [] = false ∧ shapeOk 5 [] = false ∧ shapeOk 6 [] = false
      ∧ (∀ x : Byte, shapeOk 4 [x] = false) ∧ (∀ x y : Byte, shapeOk 4 [x, y] = false)
      ∧ ∀ t : Nat, t = 0 ∨ 10 < t → shapeOk t l = true)

/-- A TABLE CLEAR that meets no lock is DONE, with the effect of its table's rule, and leaves the index unset; a record
already unset is left as it is (R174). One that meets a lock is refused with INUSE: the record touches a ramp that is
not OFF (R175, R56, R79, R127, R172), a ramp has adopted the Rate Plan (R40), or one whose stored record names the
Curve (R42). Conditions, Match Table entries and Action records have no lock. An index outside its table's range is
BADINDEX. The hearing of the request's frame comes ahead of it (DESIGN CHOICE, log entry 34). -/
def Obligations.TableClearCompletes : Prop :=
  ∀ (own src : Nat) (s : State), Serves own src s →
    (∀ (ch : Channel) (locked : Prop), s.tables.Apart →
        (locked ↔ ∃ (d : DetRec) (r : Ramp), s.tables.detMap[ch] = some d ∧ ((heard s).ramps[r]).state ≠ .off
          ∧ (d.ramps.getLsbD r.val = true ∨ ∃ l : Lane, d.lane = some l ∧ l ∈ lanesOf s.tables r)) →
        (locked → exec (.tableClear src 1 (byte ch.val)) s
          = .next (respond src [4, 1, byte ch.val] (refuse .inUse (heard s))))
        ∧ (¬ locked → exec (.tableClear src 1 (byte ch.val)) s
          = .next (respond src [4, 1, byte ch.val] (answer [1, byte ch.val]
            (if (s.tables.detMap[ch]).isSome then putDetMap ch none (heard s) else heard s)))))
    ∧ (∀ i : Fin 64, exec (.tableClear src 2 (byte i.val)) s
          = .next (respond src [4, 2, byte i.val] (answer [2, byte i.val]
            (if (s.tables.conds[i]).isSome then putCond i none (heard s) else heard s))))
    ∧ (∀ i : Fin 48, exec (.tableClear src 3 (byte i.val)) s
          = .next (respond src [4, 3, byte i.val] (answer [3, byte i.val]
            (if (s.tables.matches_[i]).isSome then putMatch i none (heard s) else heard s))))
    ∧ (∀ (i : Fin 32) (locked : Prop),
        (locked ↔ ∃ (r : Ramp) (a : Adopted), ((heard s).ramps[r]).adopted = some a ∧ a.number = i.val + 1) →
        (locked → exec (.tableClear src 4 (byte (i.val + 1))) s
          = .next (respond src [4, 4, byte (i.val + 1)] (refuse .inUse (heard s))))
        ∧ (¬ locked → exec (.tableClear src 4 (byte (i.val + 1))) s
          = .next (respond src [4, 4, byte (i.val + 1)] (answer [4, byte (i.val + 1)]
            (if (s.tables.plans[i]).isSome then putPlan i none (heard s) else heard s)))))
    ∧ (∀ (i : Fin 8) (locked : Prop),
        (locked ↔ ∃ (r : Ramp) (a : Adopted) (p : PlanRec) (x : Adaptive), ((heard s).ramps[r]).adopted = some a
          ∧ planRec s.tables a.number = some p ∧ p.adaptive = some x ∧ x.curve = i.val + 1) →
        (locked → exec (.tableClear src 5 (byte (i.val + 1))) s
          = .next (respond src [4, 5, byte (i.val + 1)] (refuse .inUse (heard s))))
        ∧ (¬ locked → exec (.tableClear src 5 (byte (i.val + 1))) s
          = .next (respond src [4, 5, byte (i.val + 1)] (answer [5, byte (i.val + 1)]
            (if (s.tables.curves[i]).isSome then putCurve i none (heard s) else heard s)))))
    ∧ (∀ (r : Ramp) (locked : Prop),
        (locked ↔ ((heard s).ramps[r]).state ≠ .off) →
        (locked → exec (.tableClear src 6 (byte r.val)) s
          = .next (respond src [4, 6, byte r.val] (refuse .inUse (heard s))))
        ∧ (¬ locked → exec (.tableClear src 6 (byte r.val)) s
          = .next (respond src [4, 6, byte r.val] (answer [6, byte r.val]
            (if (s.tables.rampCfg[r]).isSome then putRamp r none (heard s) else heard s)))))
    ∧ (∀ (l : Lane) (locked : Prop),
        (locked ↔ ∃ r : Ramp, l ∈ lanesOf s.tables r ∧ ((heard s).ramps[r]).state ≠ .off) →
        (locked → exec (.tableClear src 7 (byte (l.val + 1))) s
          = .next (respond src [4, 7, byte (l.val + 1)] (refuse .inUse (heard s))))
        ∧ (¬ locked → exec (.tableClear src 7 (byte (l.val + 1))) s
          = .next (respond src [4, 7, byte (l.val + 1)] (answer [7, byte (l.val + 1)]
            (if (s.tables.laneCfg[l]).isSome then putLaneCfg l none (heard s) else heard s)))))
    ∧ (∀ (ch : OutCh) (locked : Prop),
        (locked ↔ ∃ r : Ramp, belongs s.tables r ch = true ∧ ((heard s).ramps[r]).state ≠ .off) →
        (locked → exec (.tableClear src 8 (byte ch.val)) s
          = .next (respond src [4, 8, byte ch.val] (refuse .inUse (heard s))))
        ∧ (¬ locked → exec (.tableClear src 8 (byte ch.val)) s
          = .next (respond src [4, 8, byte ch.val] (answer [8, byte ch.val]
            (if (s.tables.outMap[ch]).isSome then putOutMap ch none (heard s) else heard s)))))
    ∧ (∀ i : Fin 20, exec (.tableClear src 9 (byte i.val)) s
          = .next (respond src [4, 9, byte i.val] (answer [9, byte i.val]
            (if (s.tables.actions[i]).isSome then putAction i none (heard s) else heard s))))
    ∧ (∀ locked : Prop, (locked ↔ ∃ r : Ramp, ((heard s).ramps[r]).state ≠ .off) →
        (locked → exec (.tableClear src 10 0) s
          = .next (respond src [4, 10, 0] (refuse .inUse (heard s))))
        ∧ (¬ locked → exec (.tableClear src 10 0) s
          = .next (respond src [4, 10, 0] (answer [10, 0]
            (if s.tables.settings.isSome then putSettings none (heard s) else heard s)))))
    ∧ (∀ t i : Byte, ¬ (i.toNat ∈ indicesOf t.toNat) → exec (.tableClear src t i) s
          = .next (respond src [4, t, i] (refuse .badIndex (heard s))))

/-- A cleared index of any table reads UNSET, and nothing else of the tables changes. The frame of such a request is
heard ahead of it (DESIGN CHOICE, log entry 34). -/
def Obligations.ClearedRecordReadsUnset : Prop :=
  ∀ (table index : Nat) (s u : State), clearTable table index s = (.done, u) →
    storedRecord u.tables table index = none
    ∧ ∀ t i : Nat, (t, i) ≠ (table, index) → (t ≠ 10 ∨ table ≠ 10) →
        storedRecord u.tables t i = storedRecord s.tables t i

/-- RAMP MODE AUTO: from OFF it asks for a complete configuration, then the ramp is AUTO in STANDBY, its sources
refreshed and arbitrated, and in WARN, with its beacon FLASH and the warn timer from zero, exactly when a start demand
stands (R58, R62); in any other state the mode alone is set and the demands are judged, as they then stand (R61):
STANDBY goes to WARN on a start demand, and a stop demand takes WARN to STANDBY and START_GREEN to SHUT_FLUSH. The
hearing of its frame comes ahead of the request (DESIGN CHOICE, log entry 34). Complete is: the Ramp Config, the Lane
Config of each listed lane, and the Output Map records of their heads and of the beacon are set (R58). The refresh gives
every source the standing that its asserted, armed and spent fields give (R103). -/
def Obligations.RampModeAutoStartsTheRamp : Prop :=
  (∀ (own src : Nat) (r : Ramp) (s : State), Serves own src s →
    (((heard s).ramps[r]).state = .off → configComplete s.tables r = false →
      exec (.rampModeAuto src (byte r.val)) s
        = .next (respond src [6, byte r.val, 1] (refuse .notConfig (heard s))))
    ∧ (((heard s).ramps[r]).state = .off → configComplete s.tables r = true → ∃ u,
      exec (.rampModeAuto src (byte r.val)) s = .next (respond src [6, byte r.val, 1] (answer [] u))
      ∧ Undisturbed (heard s) u ∧ (u.ramps[r]).mode = .auto ∧ (u.ramps[r]).attention = true
      ∧ u.auth[r] = (((heard s).auth[r]).refreshAll.arbitrate (actionRec s.tables r) s.time.corridor).1
      ∧ u.lanes = (orderDark r (heard s)).lanes ∧ (u.ramps[r]).stopStands = stopDemand u r
      ∧ (startDemand u r = true → Entered r .warn (.running 0) u)
      ∧ (startDemand u r = false → Entered r .standby .stopped u))
    ∧ (((heard s).ramps[r]).state ≠ .off → ∃ u,
      exec (.rampModeAuto src (byte r.val)) s = .next (respond src [6, byte r.val, 1] (answer [] u))
      ∧ u = actOnDemand r (judge r ((heard s).modRamp r fun c => { c with mode := .auto })) ∧ Undisturbed (heard s) u
      ∧ (u.ramps[r]).mode = .auto ∧ (u.ramps[r]).stopStands = stopDemand u r
      ∧ (((heard s).ramps[r]).state = .standby →
          (startDemand u r = true → Entered r .warn (.running 0) u)
          ∧ (startDemand u r = false → (u.ramps[r]).state = .standby))
      ∧ (((heard s).ramps[r]).state = .warn →
          (stopDemand u r = true → Entered r .standby .stopped u)
          ∧ (stopDemand u r = false → (u.ramps[r]).state = .warn))
      ∧ (((heard s).ramps[r]).state = .startGreen →
          (stopDemand u r = true → Entered r .shutFlush (.running 0) u)
          ∧ (stopDemand u r = false → (u.ramps[r]).state = .startGreen))
      ∧ (((heard s).ramps[r]).state ≠ .standby → ((heard s).ramps[r]).state ≠ .warn →
          ((heard s).ramps[r]).state ≠ .startGreen → (u.ramps[r]).state = ((heard s).ramps[r]).state ∧ u.lanes = (heard s).lanes)))
  ∧ (∀ (t : Tables) (r : Ramp), configComplete t r = true ↔ ∃ c : RampRec, t.rampCfg[r] = some c
      ∧ (∀ l ∈ c.lanes, ∃ k : LaneRec, t.laneCfg[l] = some k ∧ t.outMap[k.head] ≠ none)
      ∧ ∀ ch : OutCh, c.beacon = some ch → t.outMap[ch] ≠ none)
  ∧ (∀ a : AuthUnit, a.refreshAll = { a with sources := a.refreshAll.sources }
      ∧ ∀ k : Source, a.refreshAll.sources[k] = { a.sources[k] with
        standing := (a.sources[k]).asserted && (a.sources[k]).armed && !(a.sources[k]).spent })

/-- RAMP MODE OFF by the state of the ramp (R72). The mode becomes OFF and every other ramp is left alone
(`OthersStand`). OFF takes nothing else. STANDBY, WARN and DARK_FAIL enter OFF with all that R73 gives: every listed
lane DARK, out of its order and with no call, the beacon DARK, the phase timer stopped, the condition vector all FALSE,
the auto plan NONE, no candidate and both marks CLEAR; the unit has no holder and an empty stack and every source's
standing and hold are gone, while its asserted, armed and spent states, its lease, the last grant and the clear timer
are kept. START_GREEN enters SHUT_FLUSH with the phase timer from zero and its lanes as they are. START_CLEAR, METERING,
SHUT_CLEAR and SHUT_FLUSH keep state, lanes, timers and slot. In every state but OFF the ramp judges its ACTION_UNSET
mark at the request (R60) and its demand, which is a stop demand (R61). The hearing of the request's frame comes ahead
of it (DESIGN CHOICE, log entry 34). -/
def Obligations.RampModeOffByState : Prop :=
  (∀ (own src : Nat) (r : Ramp) (s h : State) (x : RampCtx), Serves own src s → h = heard s → x = h.ramps[r] → ∃ u,
    exec (.rampModeOff src (byte r.val)) s = .next (respond src [6, byte r.val, 0] (answer [] u))
    ∧ Undisturbed h u ∧ OthersStand r h u ∧ u.rate[r] = h.rate[r] ∧ (u.ramps[r]).mode = .off
    ∧ (u.ramps[r]).state = (match x.state with
        | .off => .off
        | .standby => .off
        | .warn => .off
        | .darkFail => .off
        | .startGreen => .shutFlush
        | .startClear => .startClear
        | .metering => .metering
        | .shutClear => .shutClear
        | .shutFlush => .shutFlush)
    ∧ (x.state = .off → u.ramps[r] = { x with mode := .off } ∧ u.lanes = h.lanes ∧ u.out = h.out
        ∧ u.auth[r] = h.auth[r] ∧ u.vectors[r] = h.vectors[r])
    ∧ ([RampState.standby, .warn, .darkFail].contains x.state = true →
        u.ramps[r] = { x with
          mode := .off, state := .off, clearPhase := none, phaseTimer := .stopped, autoPlan := 0, candidate := none
          planUnset := false, actionUnset := false, stopStands := true, attention := true }
        ∧ u.auth[r] = { h.auth[r] with
          holder := none, granted := none, stack := [], sources := (u.auth[r]).sources }
        ∧ (∀ k : Source, (u.auth[r]).sources[k] = { (h.auth[r]).sources[k] with standing := false, hold := none })
        ∧ (∀ c : Fin 16, (u.vectors[r])[c] = false)
        ∧ (∀ ch : OutCh, beaconOf s.tables r = some ch → (u.out.chans[ch]).commanded = .dark)
        ∧ (s.tables.Apart → HeadsShow r u ∧ ∀ l ∈ lanesOf s.tables r, s.tables.laneCfg[l] ≠ none →
          u.lanes[l] = { h.lanes[l] with
            state := .dark, regime := .meter, call := false, interval := none, greenPassageCount := none }))
    ∧ ∀ j : Bool, (j = true ↔ ∃ n, (h.auth[r]).granted = some (.plan n) ∧ planRec s.tables n = none) →
        (x.state = .startGreen →
          u.ramps[r] = { x with
            mode := .off, state := .shutFlush, clearPhase := none, phaseTimer := .running 0, actionUnset := j
            stopStands := true, attention := true }
          ∧ u.lanes = h.lanes ∧ u.auth[r] = h.auth[r] ∧ u.vectors[r] = h.vectors[r]
          ∧ ∀ ch : OutCh, beaconOf s.tables r = some ch → (u.out.chans[ch]).commanded = .flash)
        ∧ ([RampState.startClear, .metering, .shutClear, .shutFlush].contains x.state = true →
          u.ramps[r] = { x with
            mode := .off, actionUnset := j, stopStands := true
            attention := x.attention || decide (j ≠ x.actionUnset) }
          ∧ u.lanes = h.lanes ∧ u.out = h.out ∧ u.auth[r] = h.auth[r] ∧ u.vectors[r] = h.vectors[r]))
  ∧ ∀ a : AuthUnit, a.enterOff = { a with
      holder := none, granted := none, stack := [], sources := a.enterOff.sources }
    ∧ ∀ k : Source, a.enterOff.sources[k] = { a.sources[k] with standing := false, hold := none }

/-- ARM: sources 2 to 5 take the setting, whatever the ramp's state; the present setting again changes nothing; any
other source or setting is BADVALUE. The hearing of the request's frame comes ahead of it (DESIGN CHOICE, log entry
34). -/
def Obligations.ArmSetsTheSource : Prop :=
  ∀ (own src : Nat) (r : Ramp) (s : State), Serves own src s →
    (∀ (k : Source) (v : Bool), 2 ≤ k.val →
      exec (.arm src (byte r.val) (byte k.val) (boolByte v)) s
        = .next (respond src [7, byte r.val, byte k.val, boolByte v] (answer [] (setArmed r k v (heard s)))))
    ∧ (∀ (k : Source) (v : Bool), (((heard s).auth[r]).sources[k]).armed = v → setArmed r k v (heard s) = heard s)
    ∧ (∀ (k : Source) (v : Bool), (((heard s).auth[r]).sources[k]).armed ≠ v →
        setArmed r k v (heard s) = sourceChanged r k ((heard s).setAuth r (((heard s).auth[r]).setSource k
          { ((heard s).auth[r]).sources[k] with armed := v })))
    ∧ (∀ a b : Byte, a.toNat < 2 ∨ 5 < a.toNat ∨ 1 < b.toNat →
        exec (.arm src (byte r.val) a b) s
          = .next (respond src [7, byte r.val, a, b] (refuse .badValue (heard s))))

/-- ASSERT: the lease of source 3 or 5 runs from the value carried and the source is asserted; where it is asserted
already, only its lease changes. Another source, or a lease outside 100 to 6000, is BADVALUE. The hearing of the
request's frame comes ahead of it (DESIGN CHOICE, log entry 34). -/
def Obligations.AssertRunsTheLease : Prop :=
  ∀ (own src : Nat) (r : Ramp) (s : State), Serves own src s →
    (∀ (c : Central) (lease : BitVec 16), 100 ≤ lease.toNat → lease.toNat ≤ 6000 → ∃ u,
      exec (.assertSource src (byte r.val) (byte (centralSource c).val) lease) s
        = .next (respond src ([8, byte r.val, byte (centralSource c).val] ++ be16 lease.toNat) (answer [] u))
      ∧ Undisturbed (heard s) u
      ∧ ((((heard s).auth[r]).sources[centralSource c]).asserted = true →
          u = (heard s).setAuth r (((heard s).auth[r]).setSource (centralSource c)
            { ((heard s).auth[r]).sources[centralSource c] with lease := some (tenths lease.toNat) }))
      ∧ ((((heard s).auth[r]).sources[centralSource c]).asserted = false →
          u = sourceChanged r (centralSource c) ((heard s).setAuth r (((heard s).auth[r]).setSource (centralSource c)
            { ((heard s).auth[r]).sources[centralSource c] with
              lease := some (tenths lease.toNat), asserted := true }))))
    ∧ (∀ (a : Byte) (lease : BitVec 16), (a ≠ 3 ∧ a ≠ 5) ∨ lease.toNat < 100 ∨ 6000 < lease.toNat →
        exec (.assertSource src (byte r.val) a lease) s
          = .next (respond src ([8, byte r.val, a] ++ be16 lease.toNat) (refuse .badValue (heard s))))

/-- RELEASE: the lease of source 3 or 5 becomes absent and the source deasserted, its spent mark cleared, and the
change is presented; at the moment its own hold expires the source is off the ramp besides (R111; the model takes the
expiry first, DEDUCED, log entry 16). Of a source that is deasserted with no lease it changes nothing. Another source
is BADVALUE. The hearing of the request's frame comes ahead of it (DESIGN CHOICE, log entry 34). -/
def Obligations.ReleaseEndsTheLease : Prop :=
  ∀ (own src : Nat) (r : Ramp) (s : State), Serves own src s →
    (∀ (c : Central) (k : Source) (a : AuthUnit), k = centralSource c → a = (heard s).auth[r] → ∃ u,
      exec (.releaseSource src (byte r.val) (byte k.val)) s
        = .next (respond src [9, byte r.val, byte k.val] (answer [] u))
      ∧ Undisturbed (heard s) u ∧ (∀ q : Ramp, q ≠ r → u.auth[q] = (heard s).auth[q])
      ∧ ((u.auth[r]).sources[k]).lease = none ∧ ((u.auth[r]).sources[k]).asserted = false
      ∧ ((a.sources[k]).asserted = true → ((u.auth[r]).sources[k]).spent = false)
      ∧ ((a.sources[k]).asserted = true → ¬ (a.holder = some k ∧ (a.sources[k]).hold = some (.running 0)) →
          u = sourceChanged r k ((heard s).setAuth r (a.setSource k
            { a.sources[k] with lease := none, asserted := false, spent := false })))
      ∧ ((a.sources[k]).asserted = true → a.holder = some k → (a.sources[k]).hold = some (.running 0) →
          (u.auth[r]).holder ≠ some k)
      ∧ ((a.sources[k]).asserted = false →
          u = (heard s).setAuth r (a.setSource k { a.sources[k] with lease := none }))
      ∧ ((a.sources[k]).asserted = false → (a.sources[k]).lease = none → u = heard s))
    ∧ (∀ a : Byte, a ≠ 3 ∧ a ≠ 5 →
        exec (.releaseSource src (byte r.val) a) s
          = .next (respond src [9, byte r.val, a] (refuse .badValue (heard s))))

/-- STATUS clears the ramp's attention and nothing else; the sections report the state so left, byte by byte (R180 to
R182, 11.4; the remaining times are rounded up to a tenth, DEDUCED, log entry 12). An AUTHORITY section of a ramp with
a last grant draws no free value; without one its three time bytes are a fresh one, whatever its value (log entry 10).
A section other than 1 to 3 is BADVALUE. The hearing of the request's frame comes ahead of it (DESIGN CHOICE, log entry
34). -/
def Obligations.StatusClearsAttentionAndReports : Prop :=
  (∀ (own src : Nat) (r : Ramp) (s u : State), Serves own src s →
    u = (heard s).modRamp r (fun c => { c with attention := false }) →
      exec (.status src (byte r.val) 1) s
        = .next (respond src [10, byte r.val, 1] (answer (rampSection r u) u))
      ∧ exec (.status src (byte r.val) 3) s
        = .next (respond src [10, byte r.val, 3] (answer (spillbackSection r u) u))
      ∧ (((heard s).auth[r]).lastGrant ≠ none → exec (.status src (byte r.val) 2) s
        = .next (respond src [10, byte r.val, 2] (answer (authoritySection r u) u)))
      ∧ (((heard s).auth[r]).lastGrant = none → exec (.status src (byte r.val) 2) s
        = .next (respond src [10, byte r.val, 2]
            (answer (authoritySection r u) { u with freeCount := u.freeCount + 1 })))
      ∧ ∀ x : Byte, x = 0 ∨ 3 < x.toNat → exec (.status src (byte r.val) x) s
        = .next (respond src [10, byte r.val, x] (refuse .badValue (heard s))))
  ∧ (∀ (r : Ramp) (u : State) (c : RampCtx) (bit : Bool → Nat), c = u.ramps[r] →
      (∀ b : Bool, bit b = if b = true then 1 else 0) →
      rampSection r u = [byte r.val, 1, byte ([Mode.off, .auto].idxOf c.mode),
          byte ([RampState.off, .standby, .warn, .startGreen, .startClear, .metering, .shutClear, .shutFlush,
            .darkFail].idxOf c.state),
          (match c.clearPhase with
            | none => 0
            | some .yellow => 1
            | some .red => 2)]
        ++ (match (u.auth[r]).granted with
            | none => [0, byte c.autoPlan]
            | some .dark => [1, 0]
            | some .flush => [2, 0]
            | some .hold => [3, 0]
            | some (.plan n) => if c.actionUnset = true then [0, byte c.autoPlan] else [4, byte n]
            | some .failsafe => [5, 0])
        ++ [byte c.autoPlan]
        ++ (match c.candidate with
            | none => [255, 0]
            | some k => [byte k.plan, byte k.count])
        ++ [(match c.adopted with
              | none => 0
              | some a => byte a.number),
            (match c.slotLength with
              | none => 0
              | some n => byte n),
            byte c.patternCount,
            byte (bit c.aligned + 2 * bit c.planUnset + 4 * bit c.actionUnset + 8 * bit (u.rate[r]).degraded),
            byte (u.rate[r]).relief, byte (lanesOf u.tables r).length]
        ++ (lanesOf u.tables r).flatMap fun l => [byte (l.val + 1),
            byte ([LaneState.dark, .greenRest, .restRed, .delay, .green, .yellow, .minRed].idxOf (u.lanes[l]).state),
            byte (bit (match u.tables.laneCfg[l] with
              | some k => if k.lock = true then (u.lanes[l]).call else effectiveOf u k.demand
              | none => (u.lanes[l]).call))]
          ++ be16 (u.lanes[l]).last.yellowPassages)
  ∧ (∀ (r : Ramp) (u : State) (a : AuthUnit) (bit : Bool → Nat) (hold : Option Hold → List Byte)
      (lease : Option Nat → List Byte) (faulted : List OutCh), a = u.auth[r] →
      (∀ b : Bool, bit b = if b = true then 1 else 0) →
      (∀ n : Nat, hold none = [0, 0] ∧ hold (some .uncapped) = [255, 255]
        ∧ hold (some (.running n)) = be16 ((n + 99999) / 100000) ∧ hold (some (.paused n)) = be16 ((n + 99999) / 100000)
        ∧ lease none = [255, 255] ∧ lease (some n) = be16 ((n + 99999) / 100000)) →
      faulted = ((List.finRange 16).filter fun ch => belongs u.tables r ch && (u.out.chans[ch]).fault) →
      ∃ x y z : Byte, authoritySection r u = [byte r.val, 2]
        ++ (match a.holder with
            | none => [255]
            | some k => [byte k.val])
        ++ (match a.granted with
            | none => [255, 0]
            | some .dark => [1, 0]
            | some .flush => [2, 0]
            | some .hold => [3, 0]
            | some (.plan n) => [4, byte n]
            | some .failsafe => [5, 0])
        ++ (match a.holder with
            | none => [0, 0]
            | some k => hold (a.sources[k]).hold)
        ++ [byte a.stack.length] ++ (a.stack.flatMap fun k => byte k.val :: hold (a.sources[k]).hold)
        ++ (match a.lastGrant with
            | none => [255, x, y, z, 0]
            | some g => [byte g.source.val] ++ be24 g.time ++ [if g.kind = .fresh then 1 else 2])
        ++ (([0, 1, 2, 3, 4, 5] : List Source).map fun k => byte (bit (a.sources[k]).asserted
            + 2 * bit (a.sources[k]).armed + 4 * bit (a.sources[k]).spent + 8 * bit (a.sources[k]).standing))
        ++ lease (a.sources[(3 : Source)]).lease ++ lease (a.sources[(5 : Source)]).lease
        ++ [byte (faulted.length + 128 * bit u.ring.quiet)] ++ faulted.map fun ch => byte ch.val)
  ∧ (∀ (r : Ramp) (u : State) (bit : Bool → Nat) (timer : Timer → Nat) (spills : List Channel),
      (∀ b : Bool, bit b = if b = true then 1 else 0) →
      (∀ n : Nat, timer .stopped = 0 ∧ timer (.running n) = 1 ∧ timer .expired = 2) →
      spills = ((List.finRange 64).filter fun ch => decide (spillRamp u.tables ch = some r)) →
      spillbackSection r u = [byte r.val, 3, byte (bit ((u.auth[r]).sources[(2 : Source)]).asserted),
          byte (timer (u.auth[r]).clearTimer), byte spills.length]
        ++ (spills.take 16).flatMap fun ch =>
          [byte ch.val, byte (bit (usable u ch) + 16 * timer u.onTimers[ch])])

/-- DETECTORS returns, for each channel of the range in ascending order, its present health with the last validity, the
last occupancy and the last volume; a range beyond channel 63 is BADINDEX, a count outside 1 to 8 BADVALUE, in this
order (DEDUCED, log entry 22). The hearing of the request's frame comes ahead of it (DESIGN CHOICE, log entry 34). -/
def Obligations.DetectorsReportsTheRange : Prop :=
  ∀ (own src : Nat) (s : State) (first count : Byte), Serves own src s →
    (1 ≤ count.toNat → count.toNat ≤ 8 → first.toNat + count.toNat ≤ 64 →
      exec (.detectors src first count) s = .next (respond src [11, first, count] (answer ([first, count]
        ++ ((List.finRange 64).filter fun ch => decide (first.toNat ≤ ch.val ∧ ch.val < first.toNat + count.toNat)).flatMap
          fun ch => byte (healthCode (s.det.chans[ch]).health + (if (s.det.chans[ch]).lastValid then 128 else 0))
            :: (be16 (s.det.chans[ch]).lastOcc ++ be16 (s.det.chans[ch]).lastVol)) (heard s))))
    ∧ (63 < first.toNat ∨ 64 < first.toNat + count.toNat →
        exec (.detectors src first count) s = .next (respond src [11, first, count] (refuse .badIndex (heard s))))
    ∧ (first.toNat ≤ 63 → first.toNat + count.toNat ≤ 64 → count.toNat = 0 ∨ 8 < count.toNat →
        exec (.detectors src first count) s = .next (respond src [11, first, count] (refuse .badValue (heard s))))

/-- COUNTS gives the last slot count whole, each listed lane's five last-window counts held at 255, and each total of
the lanes' full counts held at 65535; the counts themselves are not changed. The hearing of the request's frame comes
ahead of it (DESIGN CHOICE, log entry 34). -/
def Obligations.CountsReportsTheLastWindow : Prop :=
  ∀ (own src : Nat) (r : Ramp) (s : State), Serves own src s →
    exec (.counts src (byte r.val)) s = .next (respond src [12, byte r.val] (answer
      ([byte r.val] ++ be16 ((heard s).ramps[r]).lastSlotCount ++ [byte (lanesOf s.tables r).length]
        ++ ((lanesOf s.tables r).flatMap fun l => [byte (l.val + 1),
            byte (min ((heard s).lanes[l]).last.releases 255), byte (min ((heard s).lanes[l]).last.idleOffers 255),
            byte (min ((heard s).lanes[l]).last.overrunSkips 255), byte (min ((heard s).lanes[l]).last.greenPassages 255),
            byte (min ((heard s).lanes[l]).last.violations 255)])
        ++ be16 (min ((lanesOf s.tables r).map fun l => ((heard s).lanes[l]).last.releases).sum 65535)
        ++ be16 (min ((lanesOf s.tables r).map fun l => ((heard s).lanes[l]).last.idleOffers).sum 65535)
        ++ be16 (min ((lanesOf s.tables r).map fun l => ((heard s).lanes[l]).last.overrunSkips).sum 65535)
        ++ be16 (min ((lanesOf s.tables r).map fun l => ((heard s).lanes[l]).last.greenPassages).sum 65535)
        ++ be16 (min ((lanesOf s.tables r).map fun l => ((heard s).lanes[l]).last.violations).sum 65535)) (heard s)))

/-- CLEAR FAULT unlatches every latched fault of the ramp's channels and judges each at once: a lit channel of a silent
driver latches again, and one still in mismatch starts its timer, which a latch leaves stopped (O11), from zero (R136).
Where no driver is silent, none of them is latched after it. The ramp's attention is SET where a fault was unlatched
(R113). Channels of other ramps, and channels that were not latched, stay, running mismatch timers among them, and no
record outside the Output Unit changes but attention. The hearing of the request's frame comes ahead of it (DESIGN
CHOICE, log entry 34). -/
def Obligations.ClearFaultUnlatches : Prop :=
  ∀ (own src : Nat) (r : Ramp) (s : State), Serves own src s → ∃ u,
    exec (.clearFault src (byte r.val)) s = .next (respond src [13, byte r.val] (answer [] u))
    ∧ Undisturbed (heard s) u ∧ UnitsUndisturbed (heard s) u ∧ (∀ q : Ramp, SameRamp (heard s) u q)
    ∧ u.lanes = (heard s).lanes
    ∧ ((∀ d ∈ s.out.drivers, d.silence ≠ .expired) →
        ∀ ch : OutCh, belongs s.tables r ch = true → (u.out.chans[ch]).fault = false)
    ∧ u.out.drivers = (heard s).out.drivers ∧ u.out.sigDue = (heard s).out.sigDue
    ∧ (∀ ch : OutCh, belongs s.tables r ch = true → ((heard s).out.chans[ch]).fault = true →
        JudgedAtOnce (heard s) ch { (heard s).out.chans[ch] with fault := false } u.out.chans[ch])
    ∧ (∀ ch : OutCh, belongs s.tables r ch = false ∨ ((heard s).out.chans[ch]).fault = false →
        u.out.chans[ch] = (heard s).out.chans[ch])
    ∧ ((∀ ch : OutCh, belongs s.tables r ch = true → ((heard s).out.chans[ch]).fault = false) → u = heard s)
    ∧ (s.tables.Apart → (∀ q : Ramp, q ≠ r → u.ramps[q] = (heard s).ramps[q])
        ∧ ((∃ ch : OutCh, belongs s.tables r ch = true ∧ ((heard s).out.chans[ch]).fault = true) →
          (u.ramps[r]).attention = true))

/-- RUN RESET: every block takes its run reset values, the insert queue is emptied, every driver station gets a SIG and
the response stands behind them with no attention and FREE; tables, straps, corridor time, the forward buffer and the
frame in flight are kept. A line that is active at the reset begins its 5 tenths (R114). The hearing of the request's
frame comes ahead of it (DESIGN CHOICE, log entry 34). -/
def Obligations.RunResetResetsTheRunningState : Prop :=
  ∀ (own src : Nat) (s : State), Serves own src s → ∃ u,
    exec (.runReset src) s = .next (pump (appendRsp src [14, 0, 0] (flushSigs u)))
    ∧ u.det = State.reset.det ∧ u.vectors = State.reset.vectors ∧ u.rate = State.reset.rate
    ∧ u.ramps = State.reset.ramps ∧ u.lanes = State.reset.lanes ∧ u.auth = State.reset.auth
    ∧ u.onTimers = State.reset.onTimers ∧ (∀ ch : OutCh, u.out.chans[ch] = OutChan.reset)
    ∧ (∀ l : Line, (u.lines[l]).active = false ∧ (u.lines[l]).input = (s.lines[l]).input
      ∧ (u.lines[l]).timer = (if (s.lines[l]).input = true then .running 0 else .stopped))
    ∧ u.out.sigDue = s.out.drivers.map (·.station)
    ∧ u.out.drivers = s.out.drivers.map (fun d => ⟨d.station, .stopped, .running 0⟩)
    ∧ u.ring = { s.ring with
        insert := [], waiting := [], run := 0, quiet := false, quietTimer := .running 0, bad := 0, overflow := 0,
        discard := 0 }
    ∧ u.time.corridor = s.time.corridor ∧ u.time.locked = false ∧ u.time.syncTimer = .stopped
    ∧ u.tables = s.tables ∧ u.pending = s.pending

/-! ### Resets and frames -/

/-- POWER ON RESET: every block at its power-on values, the tables unset, the frame in flight cut off, the straps read,
at the levels the command carries (log entry 29); the lines' inputs, which are pins (log entry 8), and the model's own
fields stay. -/
def Obligations.PowerOnResetTakesThePowerOnValues : Prop :=
  ∀ (straps : BitVec 6) (s : State), ∃ t, exec (.powerOnReset straps) s = .next t
    ∧ t.tables = Tables.unset ∧ t.det = State.reset.det ∧ t.vectors = State.reset.vectors
    ∧ t.rate = State.reset.rate ∧ t.ramps = State.reset.ramps ∧ t.lanes = State.reset.lanes
    ∧ t.auth = State.reset.auth ∧ t.onTimers = State.reset.onTimers ∧ t.out = State.reset.out
    ∧ t.time = State.reset.time ∧ t.ring = { State.reset.ring with straps := straps }
    ∧ (∀ l : Line, t.lines[l] = LineState.reset (s.lines[l]).input)
    ∧ t.station = (if 2 ≤ straps.toNat ∧ straps.toNat ≤ 62 then some straps.toNat else none)
    ∧ t.pending = s.pending ∧ t.stride = s.stride ∧ t.freeCount = s.freeCount

/-- A frame built by the layout with its own check is accepted and reads back; a frame that is too short, too long, of
another length than its header says, of a wrong check or of a station out of range is dropped: the bad-frame count
rises, the quiet timer restarts, and ring quiet stands. The check takes the bits of each byte from the highest, over
the polynomial 1021H from all ones (R155). -/
def Obligations.FramesAreAcceptedOrDropped : Prop :=
  (∀ (dst src kind : Nat) (payload : List Byte), dst < 63 → 1 ≤ src → src < 63 → kind < 256 → payload.length ≤ 48 →
    acceptFrame (frameBytes dst src kind payload) = some ⟨dst, src, kind, payload⟩)
  ∧ (∀ bytes : List Byte, bytes.length < 6 → acceptFrame bytes = none)
  ∧ (∀ (d s k n : Byte) (rest : List Byte),
      48 < n.toNat ∨ rest.length ≠ n.toNat + 2
        ∨ rest.drop n.toNat ≠ be16 (crc16 (d :: s :: k :: n :: rest.take n.toNat)).toNat
        ∨ d.toNat % 64 = 63 ∨ s.toNat % 64 = 0 ∨ s.toNat % 64 = 63 → acceptFrame (d :: s :: k :: n :: rest) = none)
  ∧ (crc16 [] = 0xFFFF#16 ∧ ∀ (b : List Byte) (x : Byte), crc16 (b ++ [x])
      = ([7, 6, 5, 4, 3, 2, 1, 0] : List Nat).foldl (fun (c : BitVec 16) i =>
        if c.msb = x.getLsbD i then c <<< 1 else (c <<< 1) ^^^ 0x1021#16) (crc16 b))
  ∧ ∀ (bytes : List Byte) (s : State), acceptFrame bytes = none →
      exec (.frameArrival bytes) s = .next (endEvent { s with ring := { s.ring with
        quietTimer := .running 0, bad := if s.ring.bad < 65535 then s.ring.bad + 1 else 65535 } })

/-- An accepted frame is heard, then disposed of by the first row that fits: its own is removed; one addressed to the
part is consumed, a lamp report with a malformed payload without effect (R157; O44 has the others); a broadcast is used
and forwarded; any other is forwarded unchanged. The hearing ahead of the disposal (log entry 34), the end of the event
(log entry 14) and the frame's entry into the forward buffer behind them (log entry 19) are in the model's order. -/
def Obligations.AcceptedFrameIsDisposedOf : Prop :=
  ∀ (own : Nat) (bytes : List Byte) (f : Frame) (s : State), s.station = some own → acceptFrame bytes = some f →
    (f.src = own → exec (.frameArrival bytes) s = .next (endEvent (heard s)))
    ∧ (f.src ≠ own → f.dst = own → f.kind = 5 →
        exec (.frameArrival bytes) s = .next (executeCmd own f.src f.payload (heard s)))
    ∧ (f.src ≠ own → f.dst = own → f.kind = 2 → (f.payload = [] ∨ ∃ (n : Byte) (rest : List Byte), f.payload = n :: rest
        ∧ (n.toNat = 0 ∨ 8 < n.toNat ∨ rest.length < n.toNat)) →
        exec (.frameArrival bytes) s = .next (endEvent (heard s)))
    ∧ (f.src ≠ own → f.dst = own → f.kind ≠ 2 → f.kind ≠ 5 →
        exec (.frameArrival bytes) s = .next (endEvent (heard s)))
    ∧ (f.src ≠ own → f.dst = 0 → f.kind ≠ 1 → f.kind ≠ 4 →
        exec (.frameArrival bytes) s = .next (forwardOn bytes (endEvent (heard s))))
    ∧ (f.src ≠ own → f.dst ≠ own → f.dst ≠ 0 →
        exec (.frameArrival bytes) s = .next (forwardOn bytes (endEvent (heard s))))

/-- Hearing a frame restarts the quiet timer and clears ring quiet; tables, detectors, lines, time and the rest of the
ring stay, and in a calm part everything else stays too. (That it comes ahead of the frame's use is the model's choice,
log entry 34, and no part of this statement.) -/
def Obligations.HearingAFrameClearsRingQuiet : Prop :=
  ∀ s : State, (heard s).ring = { s.ring with quietTimer := .running 0, quiet := false }
    ∧ (heard s).tables = s.tables ∧ (heard s).det = s.det ∧ (heard s).lines = s.lines ∧ (heard s).time = s.time
    ∧ (heard s).pending = s.pending
    ∧ (Calm s → heard s = { s with ring := { s.ring with quietTimer := .running 0 } })

/-- A well-formed broadcast DPR is applied to each channel that maps a carried input and to no other, and goes on with
the part's verdicts and a fresh check; a malformed one is not applied and goes on as it arrived (R157); both behind the
frame's hearing and the effects of its use (the model's order, log entries 34 and 19). The channels so changed are
announced once, all together (DEDUCED, log entry 15), whence the lanes hear their rises and passages as O53 says and
the spillback timers are reviewed as O58 says (R14, R85, R92, R118). A report takes the carried values, restarts the
silence timer, comes into service unfiltered from UNSEEN or SILENT (R6) and otherwise meets the filter, whose steps O41
says, and is then judged for its loop fault (R12), in this order (R5). A change of filtered presence that it makes at
once counts a volume and starts the stuck timer, or clears it and brings STUCK back to OK. The verdict of a mapped
input is FORCED under ALWAYS and otherwise by the health after the frame, and every other bit of the input stays (R158;
for a channel UNSEEN or SILENT after the frame, which no run reaches, the arrived verdict stays, DEDUCED, log entry
33). The effective presence is OFF for an inactive channel, the filtered one of an OK channel under ON_FAIL, and the
substitute otherwise (R13). -/
def Obligations.BroadcastReportIsAppliedAndRewritten : Prop :=
  (∀ (own : Nat) (bytes : List Byte) (f : Frame) (inputs : List Byte) (s : State), s.station = some own →
    acceptFrame bytes = some f → f.src ≠ own → f.dst = 0 → f.dst ≠ own → f.kind = 1 →
    countedBytes f.payload = some inputs → ∃ u,
      exec (.frameArrival bytes) s = .next (forwardOn (withCheck (bytes.take 4 ++ (f.payload.take 1
        ++ rewriteInputs u f.src inputs ++ f.payload.drop (1 + inputs.length)))) (endEvent u))
      ∧ u = announce (heard s) { heard s with det := { s.det with chans := u.det.chans } }
      ∧ u.tables = s.tables ∧ u.time = s.time ∧ u.det.elapsed = s.det.elapsed
      ∧ u.det.lastElapsed = s.det.lastElapsed
      ∧ ∀ ch : Channel, u.det.chans[ch] = (match s.tables.detMap[ch] with
          | some d => if d.station = f.src then
              match inputs[d.input]? with
              | some b => applyReport d (b.getLsbD 0) (b.getLsbD 1) s.det.chans[ch]
              | none => s.det.chans[ch]
            else s.det.chans[ch]
          | none => s.det.chans[ch]))
  ∧ (∀ (own : Nat) (bytes : List Byte) (f : Frame) (s : State), s.station = some own → acceptFrame bytes = some f →
      f.src ≠ own → f.dst = 0 → f.dst ≠ own → f.kind = 1 →
      (f.payload = [] ∨ ∃ (n : Byte) (rest : List Byte), f.payload = n :: rest
        ∧ (n.toNat = 0 ∨ 8 < n.toNat ∨ rest.length < n.toNat)) →
        exec (.frameArrival bytes) s = .next (forwardOn bytes (endEvent (heard s))))
  ∧ (∀ (n : Byte) (rest : List Byte), 1 ≤ n.toNat → n.toNat ≤ 8 → n.toNat ≤ rest.length →
      countedBytes (n :: rest) = some (rest.take n.toNat))
  ∧ (∀ (d : DetRec) (v fault : Bool) (c x : DetState),
      x = { c with reported := v, loopReported := fault, silence := .running 0 } →
      (c.health = .unseen ∨ c.health = .silent → ∀ (h : Health) (ok : Bool),
        h = (if fault = true then .loopFault else .ok) → ok = (c.okThroughout && !fault) →
        (v = c.filtered → applyReport d v fault c = { x with health := h, okThroughout := ok })
        ∧ (v = true → c.filtered = false → applyReport d v fault c = { x with
            health := h, okThroughout := ok, filtered := true, stuck := .running 0
            volume := if c.volume < 65535 then c.volume + 1 else 65535 })
        ∧ (v = false → c.filtered = true → applyReport d v fault c = { x with
            health := h, okThroughout := ok, filtered := false, stuck := .stopped }))
      ∧ (c.health ≠ .unseen → c.health ≠ .silent → ∀ y : DetState, y = applyFilter d v x →
        (fault = true → y.health ≠ .loopFault →
            applyReport d v fault c = { y with health := .loopFault, okThroughout := false })
        ∧ (fault = true → y.health = .loopFault → applyReport d v fault c = y)
        ∧ (fault = false → y.health ≠ .loopFault → applyReport d v fault c = y)
        ∧ (fault = false → y.health = .loopFault → y.stuck = .expired →
            applyReport d v fault c = { y with health := .stuck, okThroughout := false })
        ∧ (fault = false → y.health = .loopFault → y.stuck ≠ .expired → applyReport d v fault c = { y with health := .ok }))
      ∧ (c.pending = none → d.filter = 0 →
        (v = true → c.filtered = false → applyFilter d v c = { c with
            filtered := true, stuck := .running 0, volume := if c.volume < 65535 then c.volume + 1 else 65535 })
        ∧ (v = false → c.filtered = true → c.health ≠ .stuck →
            applyFilter d v c = { c with filtered := false, stuck := .stopped })
        ∧ (v = false → c.filtered = true → c.health = .stuck →
            applyFilter d v c = { c with filtered := false, stuck := .stopped, health := .ok })))
  ∧ (∀ (u : State) (src : Nat) (inputs : List Byte) (i : Nat) (b : Byte), inputs[i]? = some b →
      ((∀ (ch : Channel) (d : DetRec), u.tables.detMap[ch] = some d → d.station ≠ src ∨ d.input ≠ i) →
          (rewriteInputs u src inputs)[i]? = some b)
      ∧ ∀ (ch : Channel) (d : DetRec), u.tables.detMap[ch] = some d → d.station = src → d.input = i →
        (∀ (c : Channel) (e : DetRec), c ≠ ch → u.tables.detMap[c] = some e → e.station ≠ src ∨ e.input ≠ i) →
        ∃ o : Byte, (rewriteInputs u src inputs)[i]? = some o
          ∧ (∀ k : Nat, k < 4 ∨ k = 7 → o.getLsbD k = b.getLsbD k)
          ∧ o.toNat / 16 % 8 = (if d.always = true then 5 else match (u.det.chans[ch]).health with
              | .ok => 1
              | .stuck => 2
              | .chatter => 3
              | .loopFault => 4
              | .unseen => b.toNat / 16 % 8
              | .silent => b.toNat / 16 % 8))
  ∧ (∀ (s : State) (ch : Channel), effectiveOf s ch = (match s.tables.detMap[ch] with
      | none => false
      | some d => if d.always = false ∧ (s.det.chans[ch]).health = .ok then (s.det.chans[ch]).filtered else d.subst))

/-- The filter (R7, R8): with no pending change a report equal to the filtered presence changes nothing, and another
one takes effect at once under a filter time of 0, making no pending change and counting no glitch, or makes a pending
change, whose timer runs for the filter time; with one, a report equal to its target lets it run on, and any other
reverts it and counts a glitch. -/
def Obligations.FilterMakesConfirmsAndRevertsChanges : Prop :=
  ∀ (d : DetRec) (v : Bool) (c : DetState),
    (c.pending = none → v = c.filtered → applyFilter d v c = c)
    ∧ (c.pending = none → v ≠ c.filtered → d.filter = 0 → (applyFilter d v c).filtered = v
        ∧ (applyFilter d v c).pending = none ∧ (applyFilter d v c).glitches = c.glitches)
    ∧ (c.pending = none → v ≠ c.filtered → d.filter ≠ 0 → applyFilter d v c = { c with pending := some ⟨v, 0⟩ })
    ∧ (∀ p, c.pending = some p → v = p.target → applyFilter d v c = c)
    ∧ (∀ p, c.pending = some p → v ≠ p.target → applyFilter d v c = { c with
        pending := none, glitches := if c.glitches < 65535 then c.glitches + 1 else 65535 })
    ∧ (∀ (ch : Channel) (s : State) (p : PendingChange), s.tables.detMap[ch] = some d →
        (s.det.chans[ch]).pending = some p → filterLeft ch s = some (d.filter * 100000 - p.ran))

/-- A time mark of station 1 in range is counted: corridor time is left alone within one tenth and taken otherwise, the
difference being reckoned across midnight; the sync state is LOCKED and its timer runs from zero. An adoption counts
the next tenth from the mark's arrival. A forward one that passes or reaches a multiple of W closes the window once, as
WINDOW_CLOSE does, measured over its elapsed count (R20, R143); one within the window, and a backward one, leave all
but the time as it is (a close of this moment not yet taken is taken by a forward adoption and left by a backward one,
DEDUCED, log entry 13). Any other mark changes nothing of the Timekeeper. The frame goes on as it arrived, behind its
hearing and the effects of its use (the model's order, log entries 34 and 19). -/
def Obligations.TimeMarksSetCorridorTime : Prop :=
  ∀ (own : Nat) (bytes : List Byte) (f : Frame) (s : State), s.station = some own →
    acceptFrame bytes = some f → f.src ≠ own → f.dst = 0 → f.kind = 4 → ∃ u,
      exec (.frameArrival bytes) s = .next (forwardOn bytes (endEvent u))
      ∧ (∀ (a b c : Byte) (rest : List Byte), f.payload = a :: b :: c :: rest → f.src = 1 →
          a.toNat * 65536 + b.toNat * 256 + c.toNat < 864000 →
          u.time.locked = true ∧ u.time.syncTimer = .running 0
          ∧ u.time.corridor = (if -1 ≤ markDifference s.time.corridor (a.toNat * 65536 + b.toNat * 256 + c.toNat)
              ∧ markDifference s.time.corridor (a.toNat * 65536 + b.toNat * 256 + c.toNat) ≤ 1 then s.time.corridor
            else a.toNat * 65536 + b.toNat * 256 + c.toNat)
          ∧ ∀ (m : Nat) (d : Int) (crosses : Prop), m = a.toNat * 65536 + b.toNat * 256 + c.toNat →
            d = markDifference s.time.corridor m →
            (crosses ↔ ∃ k : Nat, s.time.corridor < k * windowLength s.tables
              ∧ ((k * windowLength s.tables : Nat) : Int) ≤ s.time.corridor + d) →
            (-1 ≤ d → d ≤ 1 → u = { heard s with time := { s.time with locked := true, syncTimer := .running 0 } })
            ∧ (d ≤ -2 → u = { heard s with time := ⟨m, 0, true, .running 0, false⟩ })
            ∧ (2 ≤ d → ¬ crosses → s.time.closeDue = false →
                u = { heard s with time := ⟨m, 0, true, .running 0, false⟩ })
            ∧ (2 ≤ d → crosses ∨ s.time.closeDue = true →
                u.det.elapsed = 0 ∧ u.det.lastElapsed = s.det.elapsed / 100000 ∧ u.time = ⟨m, 0, true, .running 0, false⟩
                ∧ ∃ w : State, exec .windowClose { heard s with time := { s.time with
                    corridor := m, phase := 0, closeDue := true } } = .next (endEvent w)
                  ∧ u = { w with time := ⟨m, 0, true, .running 0, false⟩ }))
      ∧ (f.src ≠ 1 ∨ f.payload.length < 3 → u = heard s)
      ∧ (∀ (a b c : Byte) (rest : List Byte), f.payload = a :: b :: c :: rest →
          864000 ≤ a.toNat * 65536 + b.toNat * 256 + c.toNat → u = heard s)

/-- The difference of a mark lies in -431999 to 432000 and is the mark less corridor time modulo the day. The
correction of alignment: at most 5 tenths towards the grid, nothing on it, and a result of 20 to 150. -/
def Obligations.ClockDifferencesAreTheNearest : Prop :=
  (∀ t m : Nat, -431999 ≤ markDifference t m ∧ markDifference t m ≤ 432000
      ∧ (864000 : Int) ∣ markDifference t m - ((m : Int) - (t : Int)))
  ∧ (∀ (t offset len : Nat), 0 < len →
      gridError t offset len < len ∧ (len : Int) ∣ (t : Int) - (offset : Int) - (gridError t offset len : Int)
      ∧ (gridError t offset len = 0 → correctedSlot len (gridError t offset len) = len)
      ∧ (2 * gridError t offset len ≤ len →
          correctedSlot len (gridError t offset len) = len - min (gridError t offset len) 5)
      ∧ (len < 2 * gridError t offset len →
          correctedSlot len (gridError t offset len) = len + min (len - gridError t offset len) 5)
      ∧ ∀ n : Nat, 20 ≤ clampSlot n ∧ clampSlot n ≤ 150 ∧ (20 ≤ n → n ≤ 150 → clampSlot n = n))

/-- A lamp report consumed by the part restarts its driver's silence timer and stores each of that driver's channels'
aspect and lamp-out as carried, NOT_CARRIED where it carries none, and judges a checked channel for mismatch: the timer
starts where the channel enters mismatch, runs on while it stays there and is stopped otherwise (R133). A latched fault
stays, and the other channels stay as they were; a report from another station changes nothing. The frame is heard
first (the model's order, log entry 34). -/
def Obligations.LampReportIsStored : Prop :=
  ∀ (own : Nat) (bytes : List Byte) (f : Frame) (outs : List Byte) (s : State), s.station = some own →
    acceptFrame bytes = some f → f.src ≠ own → f.dst = own → f.kind = 2 → countedBytes f.payload = some outs → ∃ u,
      exec (.frameArrival bytes) s = .next (endEvent u)
      ∧ Undisturbed (heard s) u
      ∧ (driverOf (heard s).out f.src = none → u = heard s)
      ∧ (driverOf (heard s).out f.src ≠ none →
          (∀ d, driverOf u.out f.src = some d → d.silence = .running 0)
          ∧ ∀ (ch : OutCh) (o : OutRec), s.tables.outMap[ch] = some o → o.station = f.src →
              (u.out.chans[ch]).reported = (match outs[o.output.val]? with
                | none => .notCarried
                | some b => match b.toNat % 8 with
                  | 0 => .shows .dark
                  | 1 => .shows .red
                  | 2 => .shows .yellow
                  | 3 => .shows .green
                  | 4 => .shows .flash
                  | _ => .notCarried)
              ∧ (u.out.chans[ch]).lampOut = (match outs[o.output.val]? with
                | none => false
                | some b => b.getLsbD 3)
              ∧ (u.out.chans[ch]).commanded = ((heard s).out.chans[ch]).commanded
              ∧ (u.out.chans[ch]).fault = ((heard s).out.chans[ch]).fault
              ∧ ∀ disagrees : Prop, (disagrees ↔ (u.out.chans[ch]).lampOut = true
                  ∨ (∃ a, (u.out.chans[ch]).reported = .shows a ∧ a ≠ (u.out.chans[ch]).commanded)
                  ∨ (u.out.chans[ch]).reported = .notCarried ∧ (u.out.chans[ch]).commanded ≠ .dark) →
                (isChecked s.tables ch = true → (u.out.chans[ch]).fault = false → disagrees →
                  (u.out.chans[ch]).mismatch = (if ((heard s).out.chans[ch]).mismatch = .stopped then .running 0
                    else ((heard s).out.chans[ch]).mismatch))
                ∧ (isChecked s.tables ch = false ∨ (u.out.chans[ch]).fault = true ∨ ¬ disagrees →
                  (u.out.chans[ch]).mismatch = .stopped)
                ∧ (isChecked s.tables ch = true ↔ o.lampCheck = true ∧ ∃ r : Ramp, belongs s.tables r ch = true))
      ∧ (∀ ch : OutCh, (∀ o : OutRec, s.tables.outMap[ch] = some o → o.station ≠ f.src) →
          u.out.chans[ch] = (heard s).out.chans[ch])

/-! ### The ring's stores -/

/-- The out port (R160, R161): a free port takes the oldest forwarded frame while the forwarded run is below 4 or
nothing is to be inserted, and the head of the insert queue otherwise; a busy one takes nothing. What reaches the
stores leaves the frame in flight alone; an event's end, behind its judgement of FAILSAFE and its SIGs (the model's
order, log entry 14), and a frame forwarded let a free port choose. SENDING_END frees the port at any moment of the
sending, whose length the spec does not give, and on an empty queue falls due 250 microseconds after the take (the
model's choice, log entry 18). The forward buffer takes a frame while it holds fewer than two, and drops and counts it
otherwise (R159). A SIG replaces its station's queued or waiting one in place, takes a free SIG place at the tail, or
waits, and is refused in no case; the SIGs of an event are enqueued at its end (one a station, the model's choice, log
entry 17), in ascending station order, each restarting its station's refresh timer; the queue holds at most 16 frames,
eight responses and one SIG a station among them (R163). After either reset the run is 0; the power-on reset empties
the forward buffer and cuts a frame in flight off, and the run reset keeps both. O46 says what the images and the bytes
of the part's own frames are. -/
def Obligations.RingStoresTakeAndGiveInOrder : Prop :=
  ((∀ (own : Nat) (q : RingUnit), q.inFlight ≠ none → portTake own q = q)
    ∧ (∀ (own : Nat) (q : RingUnit), q.forward = [] → q.insert = [] → portTake own q = q)
    ∧ (∀ (own : Nat) (q : RingUnit) (f : List Byte) (fs : List (List Byte)), q.inFlight = none → q.forward = f :: fs →
        q.insert = [] ∨ q.run < 4 → portTake own q
          = { q with forward := fs, run := (if q.run < 4 then q.run + 1 else 4), inFlight := some ⟨f, 0⟩ })
    ∧ (∀ (own : Nat) (q : RingUnit) (i : Insert) (is : List Insert), q.inFlight = none → q.insert = i :: is →
        q.forward = [] ∨ 4 ≤ q.run → (portTake own q).inFlight = some ⟨insertBytes own i, 0⟩
          ∧ (portTake own q).run = 0 ∧ (portTake own q).forward = q.forward
          ∧ (portTake own q).insert = is ++ (if i.isRsp then [] else (q.waiting.take 1).map fun w => .sig w.station w.image)
          ∧ (portTake own q).waiting = (if i.isRsp then q.waiting else q.waiting.drop 1))
    ∧ (∀ (s : State) (f : InFlight), s.ring.inFlight = some f →
        exec .sendingEnd s = .next (endEvent { s with ring := { s.ring with inFlight := none } })
        ∧ sendingLeft s = some (250 - f.ran))
    ∧ (∀ s : State, endEvent s = pump (flushSigs (settle s)))
    ∧ (∀ (b : List Byte) (s : State), forwardOn b s = pump { s with ring := forwardFrame b s.ring })
    ∧ (∀ s : State, pump s = { s with ring := portTake (s.station.getD 0) s.ring })
    ∧ (∀ (b : List Byte) (st : Nat) (im : List Aspect) (q : RingUnit), (forwardFrame b q).inFlight = q.inFlight
        ∧ (enqueueSig st im q).inFlight = q.inFlight)
    ∧ ∀ (dst : Nat) (p : List Byte) (s : State), (appendRsp dst p s).ring.inFlight = s.ring.inFlight)
  ∧ ((∀ (b : List Byte) (q : RingUnit), q.forward.length < 2 → forwardFrame b q = { q with forward := q.forward ++ [b] })
    ∧ (∀ (b : List Byte) (q : RingUnit), 2 ≤ q.forward.length → forwardFrame b q
        = { q with overflow := if q.overflow < 65535 then q.overflow + 1 else 65535 })
    ∧ (∀ (st : Nat) (im : List Aspect) (q : RingUnit), st ∈ sigStations q.insert → enqueueSig st im q
        = { q with insert := q.insert.map fun i => if i.isSigFor st then .sig st im else i })
    ∧ (∀ (st : Nat) (im : List Aspect) (q : RingUnit), st ∉ sigStations q.insert → st ∈ q.waiting.map (·.station) →
        enqueueSig st im q = { q with waiting := q.waiting.map fun w => if w.station = st then ⟨st, im⟩ else w })
    ∧ (∀ (st : Nat) (im : List Aspect) (q : RingUnit), st ∉ sigStations q.insert → st ∉ q.waiting.map (·.station) →
        sigCount q.insert < 8 → enqueueSig st im q = { q with insert := q.insert ++ [.sig st im] })
    ∧ (∀ (st : Nat) (im : List Aspect) (q : RingUnit), st ∉ sigStations q.insert → st ∉ q.waiting.map (·.station) →
        8 ≤ sigCount q.insert → enqueueSig st im q = { q with waiting := q.waiting ++ [⟨st, im⟩] })
    ∧ (∀ (st : Nat) (im : List Aspect) (q : RingUnit), st ∈ sigStations (enqueueSig st im q).insert
        ∨ st ∈ (enqueueSig st im q).waiting.map (·.station))
    ∧ (∀ (st : Nat) (l : List Nat), l.Pairwise (· < ·) → (insertStation st l).Pairwise (· < ·)
        ∧ ∀ x, x ∈ insertStation st l ↔ x = st ∨ x ∈ l)
    ∧ (∀ (st : Nat) (s : State), (dueSig st s).out.sigDue = insertStation st s.out.sigDue)
    ∧ (∀ s : State, (flushSigs s).out.sigDue = []
        ∧ (s.station ≠ none → (flushSigs s).ring = (s.out.sigDue.foldl (fun t st => sendSig st t) s).ring))
    ∧ (∀ (st : Nat) (s : State), (sendSig st s).ring = enqueueSig st (sigImage s st) s.ring
        ∧ (sendSig st s).out.drivers
          = s.out.drivers.map fun d => if d.station = st then { d with refresh := .running 0 } else d)
    ∧ (∀ q : RingUnit, q.Stores → q.insert.length ≤ 16 ∧ rspCount q.insert ≤ 8 ∧ (sigStations q.insert).Nodup))
  ∧ (∀ (straps : BitVec 6) (s : State), (powerOn straps s).ring.run = 0 ∧ (powerOn straps s).ring.forward = []
      ∧ (powerOn straps s).ring.inFlight = none ∧ (runResetState s).ring.run = 0
      ∧ (runResetState s).ring.forward = s.ring.forward ∧ (runResetState s).ring.inFlight = s.ring.inFlight)

/-- The refresh timer's expiry enqueues the station's SIG with its image as it stands and restarts the timer: in every
part whose FAILSAFE sources agree with their causes, a latched fault of a channel of the ramp or ring quiet, as the end
of an event leaves them; in a calm part they do. The image shows at each output the commanded aspect of the channel
whose record names it, DARK where none does, one output more than the highest named; that of a station that has left
the map is eight DARK outputs (R127, R131). A SIG is a frame of kind 3 from the part to its station that carries the
count and the aspect codes, an RSP one of kind 6 to its sender (11.1, 11.2, 11.5). The timer runs for 10 tenths (R131). -/
def Obligations.RefreshEnqueuesTheImage : Prop :=
  (∀ (own st : Nat) (s : State), s.station = some own → s.out.sigDue = [] → refreshLeft st s = some 0 →
    (∀ r : Ramp, ((s.auth[r]).sources[(0 : Source)]).asserted = true
      ↔ s.ring.quiet = true ∨ ∃ ch : OutCh, belongs s.tables r ch = true ∧ (s.out.chans[ch]).fault = true) →
    exec (.refreshTimerExpiry st) s = .next (pump { s with
      ring := enqueueSig st (sigImage s st) s.ring
      out := { s.out with drivers := s.out.drivers.map fun d =>
        if d.station = st then { d with refresh := .running 0 } else d } }))
  ∧ (∀ s : State, Calm s → ∀ r : Ramp, ((s.auth[r]).sources[(0 : Source)]).asserted = true
      ↔ s.ring.quiet = true ∨ ∃ ch : OutCh, belongs s.tables r ch = true ∧ (s.out.chans[ch]).fault = true)
  ∧ (∀ (s : State) (st : Nat),
      (∀ (ch : OutCh) (o : OutRec), s.tables.outMap[ch] = some o → o.station ≠ st) →
        sigImage s st = [.dark, .dark, .dark, .dark, .dark, .dark, .dark, .dark])
  ∧ (∀ (s : State) (st n : Nat), s.tables.Apart →
      (∃ (ch : OutCh) (o : OutRec), s.tables.outMap[ch] = some o ∧ o.station = st ∧ o.output.val + 1 = n) →
      (∀ (ch : OutCh) (o : OutRec), s.tables.outMap[ch] = some o → o.station = st → o.output.val + 1 ≤ n) →
        (sigImage s st).length = n
        ∧ (∀ (ch : OutCh) (o : OutRec), s.tables.outMap[ch] = some o → o.station = st →
            (sigImage s st)[o.output.val]? = some (s.out.chans[ch]).commanded)
        ∧ ∀ k : Nat, k < n → (∀ (ch : OutCh) (o : OutRec), s.tables.outMap[ch] = some o → o.station = st → o.output.val ≠ k) →
            (sigImage s st)[k]? = some .dark)
  ∧ (∀ (own st : Nat) (image : List Aspect) (b : List Byte),
      b = [byte st, byte own, 3, byte (image.length + 1), byte image.length]
        ++ image.map (fun a => byte ([Aspect.dark, .red, .yellow, .green, .flash].idxOf a)) →
        insertBytes own (.sig st image) = b ++ be16 (crc16 b).toNat)
  ∧ (∀ (own dst : Nat) (payload b : List Byte), b = [byte dst, byte own, 6, byte payload.length] ++ payload →
      insertBytes own (.rsp dst payload) = b ++ be16 (crc16 b).toNat)
  ∧ (∀ (st : Nat) (s : State),
      (∀ (d : DriverRec) (n : Nat), driverOf s.out st = some d → d.refresh = .running n →
        refreshLeft st s = some (1000000 - n))
      ∧ (∀ d : DriverRec, driverOf s.out st = some d → (∀ n : Nat, d.refresh ≠ .running n) → refreshLeft st s = none)
      ∧ (driverOf s.out st = none → refreshLeft st s = none))

/-! ### Detector timers and the window close -/

/-- The filter timer's expiry: the filtered presence takes the pending target, a rise counting a volume and starting
the stuck timer, a fall clearing it and bringing STUCK back to OK; no other channel and nothing of the window changes.
The silence timer's expiry makes the channel SILENT, and the stuck timer's an OK channel STUCK; nothing of another
channel changes. The silence timer runs for 30 tenths (R10) and the stuck timer for the stuck limit of the channel's map
record (R11). -/
def Obligations.DetectorTimersMoveTheChannel : Prop :=
  (∀ (ch : Channel) (p : PendingChange) (s : State), filterLeft ch s = some 0 → (s.det.chans[ch]).pending = some p →
      p.target ≠ (s.det.chans[ch]).filtered → ∃ u,
        exec (.filterTimerExpiry ch) s = .next (endEvent u)
        ∧ u.tables = s.tables ∧ u.time = s.time ∧ u.lines = s.lines ∧ u.ring = s.ring
        ∧ u.det.elapsed = s.det.elapsed ∧ u.det.lastElapsed = s.det.lastElapsed
        ∧ (∀ c : Channel, c ≠ ch → u.det.chans[c] = s.det.chans[c])
        ∧ (p.target = true → u.det.chans[ch] = { s.det.chans[ch] with
            pending := none, filtered := true, stuck := .running 0,
            volume := if (s.det.chans[ch]).volume < 65535 then (s.det.chans[ch]).volume + 1 else 65535 })
        ∧ (p.target = false → (s.det.chans[ch]).health ≠ .stuck →
            u.det.chans[ch] = { s.det.chans[ch] with pending := none, filtered := false, stuck := .stopped })
        ∧ (p.target = false → (s.det.chans[ch]).health = .stuck →
            (u.det.chans[ch]).health = .ok ∧ (u.det.chans[ch]).filtered = false ∧ (u.det.chans[ch]).stuck = .stopped))
  ∧ (∀ (ch : Channel) (s : State),
      (silenceLeft ch s = some 0 → ∃ u, exec (.silenceTimerExpiry ch) s = .next (endEvent u)
        ∧ u.tables = s.tables ∧ u.time = s.time ∧ u.ring = s.ring ∧ u.lines = s.lines
        ∧ (∀ c : Channel, c ≠ ch → u.det.chans[c] = s.det.chans[c])
        ∧ u.det.chans[ch] = { s.det.chans[ch] with
            pending := none, stuck := .stopped, silence := .stopped, loopReported := false, okThroughout := false,
            health := .silent })
      ∧ (stuckLeft ch s = some 0 → ∃ u, exec (.stuckTimerExpiry ch) s = .next (endEvent u)
        ∧ u.tables = s.tables ∧ u.time = s.time ∧ u.ring = s.ring ∧ u.lines = s.lines
        ∧ (∀ c : Channel, c ≠ ch → u.det.chans[c] = s.det.chans[c])
        ∧ ((s.det.chans[ch]).health = .ok → u.det.chans[ch] = { s.det.chans[ch] with
            stuck := .expired, health := .stuck, okThroughout := false })
        ∧ ((s.det.chans[ch]).health ≠ .ok → u.det.chans[ch] = { s.det.chans[ch] with stuck := .expired })))
  ∧ (∀ (ch : Channel) (s : State),
      (∀ n : Nat, (s.det.chans[ch]).silence = .running n → silenceLeft ch s = some (3000000 - n))
      ∧ ((∀ n : Nat, (s.det.chans[ch]).silence ≠ .running n) → silenceLeft ch s = none)
      ∧ (∀ (d : DetRec) (n : Nat), s.tables.detMap[ch] = some d → (s.det.chans[ch]).stuck = .running n →
        stuckLeft ch s = some (d.stuckLimit * 100000 - n))
      ∧ ((∀ n : Nat, (s.det.chans[ch]).stuck ≠ .running n) → stuckLeft ch s = none))

/-- A window close judges chatter, publishes each channel's occupancy, volume and validity over the elapsed count and
begins a new window; rolls the slot counts and the lane counts over; values the conditions of each ramp that is not OFF,
each from its present value as the previous one (where it was TRUE, cleared and written again within this window: DESIGN
CHOICE, log entry 38), and takes its proposal, the winning entry's or the default plan's, through the persistence step;
and steps the relief and forms the slot length of each ramp that meters by a plan whose stored record is ADAPTIVE. A
change of health is announced ahead of this (`v`, O58), which leaves a ramp whose SPILLBACK source is not asserted as it
was. A changed auto plan is a decision for its ramp (R36, R37, R61): the mark and the demand are judged, in STANDBY a
start demand enters WARN, a stop demand takes WARN to STANDBY, its lanes DARK, and START_GREEN to SHUT_FLUSH, and every
other state stands (R62 to R64); where the auto plan does not change nothing of this moves. -/
def Obligations.WindowClosePublishesResults : Prop :=
  ∀ s : State, s.time.closeDue = true → ∃ u,
    exec .windowClose s = .next (endEvent u)
    ∧ u.tables = s.tables ∧ u.ring = s.ring ∧ u.lines = s.lines ∧ u.time = { s.time with closeDue := false }
    ∧ u.det.elapsed = 0 ∧ u.det.lastElapsed = s.det.elapsed / 100000
    ∧ (∀ (ch : Channel) (x : DetState), x = s.det.chans[ch] → s.tables.detMap[ch] = none →
        u.det.chans[ch] = { x with
          lastOcc := 0, lastVol := 0, lastValid := false, onTime := 0, volume := 0, glitches := 0, okThroughout := false })
    ∧ (∀ (ch : Channel) (d : DetRec) (x : DetState) (h : Health) (valid : Bool), s.tables.detMap[ch] = some d →
        x = s.det.chans[ch] →
        h = (if x.health = .ok ∧ d.chatterLimit < x.glitches then .chatter
          else if x.health = .chatter ∧ x.glitches ≤ d.chatterLimit then (if x.stuck = .expired then .stuck else .ok)
          else x.health) →
        (valid = true ↔ x.okThroughout = true ∧ (h = x.health ∨ h = .ok) ∧ d.always = false
          ∧ s.det.elapsed / 100000 ≠ 0) →
        u.det.chans[ch] = { x with
          health := h, lastVol := x.volume, lastValid := valid
          lastOcc := (if s.det.elapsed / 100000 = 0 then 0
            else x.onTime / 100000 * 1000 / (s.det.elapsed / 100000))
          onTime := 0, volume := 0, glitches := 0, okThroughout := decide (h = .ok) })
    ∧ (∀ l : Lane, (u.lanes[l]).last = (s.lanes[l]).counts ∧ (u.lanes[l]).counts = ⟨0, 0, 0, 0, 0, 0⟩)
    ∧ (∀ r : Ramp, (u.ramps[r]).lastSlotCount = (s.ramps[r]).slotCount ∧ (u.ramps[r]).slotCount = 0)
    ∧ (∀ r : Ramp, (s.ramps[r]).state = .off → (u.ramps[r]).state = .off ∧ u.vectors[r] = s.vectors[r]
        ∧ (u.ramps[r]).autoPlan = (s.ramps[r]).autoPlan ∧ (u.ramps[r]).candidate = (s.ramps[r]).candidate
        ∧ (u.ramps[r]).planUnset = (s.ramps[r]).planUnset)
    ∧ (∀ r : Ramp, (u.ramps[r]).state ≠ .off →
        (∀ c : Fin 16, (u.vectors[r])[c] = conditionValue u (condRec s.tables r c) (s.vectors[r])[c])
        ∧ ∀ (named pers n : Nat) (fits : MatchRec → Prop) (k : Candidate),
          (∀ m, fits m ↔ ∀ c : Fin 16, m.care.getLsbD c.val = true → m.value.getLsbD c.val = (u.vectors[r])[c]) →
          ((∃ (i : Fin 12) (m : MatchRec), matchRec s.tables r i = some m ∧ fits m
              ∧ (∀ (j : Fin 12) (o : MatchRec), j < i → matchRec s.tables r j = some o → ¬ fits o)
              ∧ named = m.plan ∧ pers = m.persistence.getD 1)
            ∨ ((∀ (j : Fin 12) (o : MatchRec), matchRec s.tables r j = some o → ¬ fits o)
              ∧ named = defaultPlan s.tables r ∧ pers = 1)) →
          (named = 0 ∨ planSet s.tables named = false → n = 0) → (planSet s.tables named = true → n = named) →
          k = ⟨n, match (s.ramps[r]).candidate with
            | some o => if o.plan = n then o.count + 1 else 1
            | none => 1⟩ →
          (u.ramps[r]).planUnset = (decide (named ≠ 0) && !planSet s.tables named)
          ∧ ((u.ramps[r]).planUnset ≠ (s.ramps[r]).planUnset → (u.ramps[r]).attention = true)
          ∧ (n = (s.ramps[r]).autoPlan →
              (u.ramps[r]).autoPlan = (s.ramps[r]).autoPlan ∧ (u.ramps[r]).candidate = none)
          ∧ (n ≠ (s.ramps[r]).autoPlan → pers ≤ k.count →
              (u.ramps[r]).autoPlan = n ∧ (u.ramps[r]).candidate = none)
          ∧ (n ≠ (s.ramps[r]).autoPlan → k.count < pers →
              (u.ramps[r]).autoPlan = (s.ramps[r]).autoPlan ∧ (u.ramps[r]).candidate = some k))
    ∧ (∀ (r : Ramp) (w t v : State) (x : RampCtx), w = { s with time := { s.time with closeDue := false } } →
        t = { w with det := { w.det with chans := t.det.chans } } →
        (∀ ch : Channel, t.det.chans[ch] = judgeChatter s.tables.detMap[ch] s.det.chans[ch]) →
        v = announce w t → x = v.ramps[r] →
        (((s.auth[r]).sources[(2 : Source)]).asserted = false →
          SameRamp s v r ∧ v.auth[r] = { s.auth[r] with clearTimer := .stopped })
        ∧ (x.state = .warn → x.mode = .off → (u.ramps[r]).state = .warn ∨ (u.ramps[r]).state = .off)
        ∧ (s.tables.Apart → (x.state = .warn → x.mode = .auto) → u.auth[r] = v.auth[r] ∧ (u.ramps[r]).mode = x.mode
          ∧ ∀ stays : Prop,
            (stays ↔ (u.ramps[r]).state = x.state ∧ (u.ramps[r]).clearPhase = x.clearPhase
              ∧ (u.ramps[r]).phaseTimer = x.phaseTimer
              ∧ ∀ l ∈ lanesOf s.tables r, u.lanes[l] = { v.lanes[l] with
                  last := (s.lanes[l]).counts, counts := ⟨0, 0, 0, 0, 0, 0⟩ }) →
            ((u.ramps[r]).autoPlan = x.autoPlan → stays ∧ (u.ramps[r]).actionUnset = x.actionUnset
              ∧ (u.ramps[r]).stopStands = x.stopStands)
            ∧ ((u.ramps[r]).autoPlan ≠ x.autoPlan →
              (x.state = .standby → (startDemand u r = true → Entered r .warn (.running 0) u)
                ∧ (startDemand u r = false → stays))
              ∧ (x.state = .warn → (stopDemand u r = true → Entered r .standby .stopped u ∧ HeadsShow r u
                  ∧ ∀ l ∈ lanesOf s.tables r, s.tables.laneCfg[l] ≠ none → (u.lanes[l]).state = .dark)
                ∧ (stopDemand u r = false → stays))
              ∧ (x.state = .startGreen → (stopDemand u r = true → Entered r .shutFlush (.running 0) u)
                ∧ (stopDemand u r = false → stays))
              ∧ ([RampState.standby, .warn, .startGreen].contains x.state = false → stays)
              ∧ (u.ramps[r]).stopStands = stopDemand u r
              ∧ ((u.ramps[r]).actionUnset = true
                ↔ ∃ n, (v.auth[r]).granted = some (.plan n) ∧ planRec s.tables n = none))))
    ∧ (∀ r : Ramp, (u.ramps[r]).state = .metering → (s.ramps[r]).state = .metering
        ∧ (u.ramps[r]).adopted = (s.ramps[r]).adopted
        ∧ ((∀ (d : Adopted) (p : PlanRec), (s.ramps[r]).adopted = some d → planRec s.tables d.number = some p →
            p.adaptive = none) → u.rate[r] = s.rate[r])
        ∧ ∀ (d : Adopted) (p : PlanRec) (a : Adaptive) (level : Nat), (s.ramps[r]).adopted = some d →
          planRec s.tables d.number = some p → p.adaptive = some a →
          (a.queueThreshold = none → level = 0) →
          (∀ t, a.queueThreshold = some t →
            (queueOccupancy u r = none → level = (s.rate[r]).relief - 1)
            ∧ ∀ q, queueOccupancy u r = some q → level = (if t ≤ q then min ((s.rate[r]).relief + 1) 8
              else if q < t - a.reliefHyst then (s.rate[r]).relief - 1 else (s.rate[r]).relief)) →
          (mainlineOccupancy u r = none ∨ curveRec s.tables a.curve = none → u.rate[r] = ⟨level, some p.slot, true⟩)
          ∧ ∀ (m : Nat) (c : CurveRec) (i b v : Nat), mainlineOccupancy u r = some m →
            curveRec s.tables a.curve = some c → c.points[i]? = some (b, v) → b ≤ m →
            (∀ (j b' v' : Nat), i < j → c.points[j]? = some (b', v') → m < b') →
            u.rate[r] = ⟨level, some (min (max (v - level * a.reliefStep) a.minSlot) a.maxSlot), false⟩)
    ∧ (∀ (r : Ramp) (of : Role → List Channel),
        (∀ (role : Role) (ch : Channel), (of role).Nodup ∧ (ch ∈ of role ↔ ∃ d, s.tables.detMap[ch] = some d
          ∧ d.role = role ∧ d.ramps.getLsbD r.val = true ∧ (u.det.chans[ch]).lastValid = true)) →
        mainlineOccupancy u r = (if of .mainline = [] then none
          else some (((of .mainline).map fun ch => (u.det.chans[ch]).lastOcc).sum / (of .mainline).length))
        ∧ queueOccupancy u r = (if of .queue = [] then none
          else some (((of .queue).map fun ch => (u.det.chans[ch]).lastOcc).sum / (of .queue).length)))
    ∧ (∀ r : Ramp, (s.ramps[r]).state ≠ .metering → u.rate[r] = s.rate[r])
    ∧ (∀ r : Ramp, (s.ramps[r]).state = .metering → (u.ramps[r]).state ≠ .metering → u.rate[r] = ⟨0, none, false⟩)

/-- A condition's new value at a close: FALSE when its record is unset, its substitute under FORCE and when no listed
channel is valid, and otherwise TRUE, FALSE or its previous value by its measure, threshold and hysteresis. The measure
is the mean of the valid published occupancies, or the flow of the valid published volumes over the last-window elapsed
length. -/
def Obligations.ConditionComparesItsMeasure : Prop :=
  ∀ (s : State) (c : CondRec) (prev : Bool) (v : List Channel),
    v = c.chans.filter (fun ch => (s.det.chans[ch]).lastValid) →
    conditionValue s none prev = false
    ∧ (c.force = true → conditionValue s (some c) prev = c.subst)
    ∧ (c.force = false → v = [] → conditionValue s (some c) prev = c.subst)
    ∧ (c.flow = false → measure s c = (v.map fun ch => (s.det.chans[ch]).lastOcc).sum / v.length)
    ∧ (c.flow = true → measure s c = (v.map fun ch => (s.det.chans[ch]).lastVol).sum * 36000 * c.chans.length
        / (s.det.lastElapsed * v.length))
    ∧ (c.force = false → v ≠ [] →
      (c.below = false → c.threshold ≤ measure s c → conditionValue s (some c) prev = true)
      ∧ (c.below = false → measure s c < c.threshold → c.threshold - c.hysteresis ≤ measure s c →
          conditionValue s (some c) prev = prev)
      ∧ (c.below = false → measure s c < c.threshold - c.hysteresis → conditionValue s (some c) prev = false)
      ∧ (c.below = true → measure s c ≤ c.threshold → conditionValue s (some c) prev = true)
      ∧ (c.below = true → c.threshold < measure s c → measure s c ≤ c.threshold + c.hysteresis →
          conditionValue s (some c) prev = prev)
      ∧ (c.below = true → c.threshold + c.hysteresis < measure s c → conditionValue s (some c) prev = false))

/-! ### Ramps -/

/-- Start-up: WARN, START_GREEN and the yellow phase of START_CLEAR end at their expiries, each bringing the next state
with its phase timer from zero and its order to the listed lanes: DARK ones to GREEN_REST with regime METER and the
call CLEAR, those to YELLOW with no interval, and those to MIN_RED with a clearing interval of yellow 0, green end 0
and the minimum red copied (R95; a listed lane in another state, which no run reaches, stays, DEDUCED, log entry 31).
The heads show their lanes' aspects, and the beacon is FLASH from START_GREEN on (R81, R59). No lane that is not listed
and no other ramp's controller changes. Their timers run for the warn, start green and start yellow times of the Ramp
Config, each in its state and phase alone (R63 to R65). -/
def Obligations.StartUpRunsThroughItsStates : Prop :=
  (∀ (r : Ramp) (s : State), (lanesOf s.tables r).Nodup →
    (warnLeft r s = some 0 → ∃ u, exec (.warnExpiry r) s = .next (endEvent u)
      ∧ Undisturbed s u ∧ UnitsUndisturbed s u ∧ (∀ q : Ramp, q ≠ r → SameRamp s u q)
      ∧ (u.ramps[r]).state = .startGreen ∧ (u.ramps[r]).clearPhase = none ∧ (u.ramps[r]).phaseTimer = .running 0
      ∧ (u.ramps[r]).attention = true
      ∧ (∀ l : Lane, l ∉ lanesOf s.tables r → u.lanes[l] = s.lanes[l])
      ∧ (∀ l ∈ lanesOf s.tables r, s.tables.laneCfg[l] ≠ none →
          ((s.lanes[l]).state = .dark → u.lanes[l] = { s.lanes[l] with
            state := .greenRest, regime := .meter, call := false, interval := none, greenPassageCount := none })
          ∧ ((s.lanes[l]).state ≠ .dark → u.lanes[l] = s.lanes[l]))
      ∧ (s.tables.Apart → HeadsShow r u
          ∧ ∀ ch : OutCh, beaconOf s.tables r = some ch → (u.out.chans[ch]).commanded = .flash))
    ∧ (startGreenLeft r s = some 0 → ∃ u, exec (.startGreenExpiry r) s = .next (endEvent u)
      ∧ Undisturbed s u ∧ UnitsUndisturbed s u ∧ (∀ q : Ramp, q ≠ r → SameRamp s u q)
      ∧ (u.ramps[r]).state = .startClear ∧ (u.ramps[r]).clearPhase = some .yellow
      ∧ (u.ramps[r]).phaseTimer = .running 0 ∧ (u.ramps[r]).attention = true
      ∧ (∀ l : Lane, l ∉ lanesOf s.tables r → u.lanes[l] = s.lanes[l])
      ∧ (∀ l ∈ lanesOf s.tables r, s.tables.laneCfg[l] ≠ none →
          ((s.lanes[l]).state = .greenRest → u.lanes[l] = { s.lanes[l] with state := .yellow, interval := none })
          ∧ ((s.lanes[l]).state ≠ .greenRest → u.lanes[l] = s.lanes[l]))
      ∧ (s.tables.Apart → HeadsShow r u
          ∧ ∀ ch : OutCh, beaconOf s.tables r = some ch → (u.out.chans[ch]).commanded = .flash))
    ∧ (startYellowLeft r s = some 0 → ∃ u, exec (.startYellowExpiry r) s = .next (endEvent u)
      ∧ Undisturbed s u ∧ UnitsUndisturbed s u ∧ (∀ q : Ramp, q ≠ r → SameRamp s u q)
      ∧ (u.ramps[r]).state = .startClear ∧ (u.ramps[r]).clearPhase = some .red
      ∧ (u.ramps[r]).phaseTimer = .running 0
      ∧ (∀ l : Lane, l ∉ lanesOf s.tables r → u.lanes[l] = s.lanes[l])
      ∧ (∀ (l : Lane) (c : LaneRec), l ∈ lanesOf s.tables r → s.tables.laneCfg[l] = some c →
          ((s.lanes[l]).state = .yellow → u.lanes[l] = { s.lanes[l] with
            state := .minRed, interval := some ⟨0, none, 0, c.minRed, some 0, false⟩ })
          ∧ ((s.lanes[l]).state ≠ .yellow → u.lanes[l] = s.lanes[l]))
      ∧ (s.tables.Apart → HeadsShow r u ∧ ∀ ch : OutCh, beaconOf s.tables r = some ch →
          (u.out.chans[ch]).commanded = (s.out.chans[ch]).commanded)))
  ∧ (∀ (r : Ramp) (c : RampRec) (s : State), s.tables.rampCfg[r] = some c →
      (∀ n : Nat, (s.ramps[r]).phaseTimer = .running n →
        ((s.ramps[r]).state = .warn → (s.ramps[r]).clearPhase = none → warnLeft r s = some (c.warn * 100000 - n))
        ∧ ((s.ramps[r]).state = .startGreen → (s.ramps[r]).clearPhase = none →
            startGreenLeft r s = some (c.startGreen * 100000 - n))
        ∧ ((s.ramps[r]).state = .startClear → (s.ramps[r]).clearPhase = some .yellow →
            startYellowLeft r s = some (c.startYellow * 100000 - n)))
      ∧ ((∀ n : Nat, (s.ramps[r]).phaseTimer ≠ .running n) →
          warnLeft r s = none ∧ startGreenLeft r s = none ∧ startYellowLeft r s = none)
      ∧ ((s.ramps[r]).state ≠ .warn → warnLeft r s = none)
      ∧ ((s.ramps[r]).state ≠ .startGreen → startGreenLeft r s = none)
      ∧ ((s.ramps[r]).state ≠ .startClear ∨ (s.ramps[r]).clearPhase ≠ some .yellow → startYellowLeft r s = none))

/-- The red phase of START_CLEAR takes the demand as it stands at its expiry (R65), which is as the ramp last judged it,
whatever a Rate Plan's record has become since (R61; the field that holds it is the model's, DEDUCED, log entry 24); the
ACTION_UNSET mark is not judged there. The red phase ends in METERING, whose entry is the first slot boundary, which
judges (R66, R67), with no plan adopted before it; or, under a stop demand, in the shutdown, its lanes ordered to
GREEN_REST, in SHUT_FLUSH where they all rest there and in SHUT_CLEAR otherwise. The shutdown flush ends with the lanes
and the beacon DARK in OFF when the mode is OFF, with all that RampModeOffByState gives, and in STANDBY otherwise,
whence the ramp goes to WARN by the same event, with the beacon FLASH and the warn timer from zero, exactly when a start
demand stands. Up to the slot boundary, and in the shutdown, every other ramp stands (`OthersStand`), the conditions,
the units and the rate records stand but where OFF is entered, METERING is entered with the lanes and all channels but
the beacon as they were, and the ramp's own record moves only as said. The beacon is FLASH in every state but OFF,
STANDBY and DARK_FAIL. The red phase runs for the start red time of the Ramp Config (R65) and the flush for its shutdown
flush time (R71). -/
def Obligations.StartRedAndShutdownEnd : Prop :=
  (∀ (r : Ramp) (s : State) (x : RampCtx), x = s.ramps[r] →
    (startRedLeft r s = some 0 → x.stopStands = false → ∃ u,
      exec (.startRedExpiry r) s = .next (endEvent (slotBoundary r u)) ∧ Undisturbed s (slotBoundary r u)
      ∧ OthersStand r s u ∧ UnitsUndisturbed s u ∧ u.lanes = s.lanes
      ∧ u.ramps[r] = { x with
        state := .metering, clearPhase := none, phaseTimer := .stopped, adopted := none, patternCount := 0
        attention := true }
      ∧ ∀ ch : OutCh, (beaconOf s.tables r = some ch → (u.out.chans[ch]).commanded = .flash)
        ∧ (beaconOf s.tables r ≠ some ch → u.out.chans[ch] = s.out.chans[ch]))
    ∧ (startRedLeft r s = some 0 → x.stopStands = true → ∃ u,
      exec (.startRedExpiry r) s = .next (endEvent u) ∧ Undisturbed s u
      ∧ OthersStand r s u ∧ UnitsUndisturbed s u ∧ u.lanes = (orderFlush r s).lanes
      ∧ u.ramps[r] = { x with
        state := (u.ramps[r]).state, clearPhase := none, phaseTimer := (u.ramps[r]).phaseTimer, attention := true }
      ∧ ((∀ l ∈ lanesOf s.tables r, (u.lanes[l]).state = .greenRest) →
          (u.ramps[r]).state = .shutFlush ∧ (u.ramps[r]).phaseTimer = .running 0)
      ∧ ((∃ l ∈ lanesOf s.tables r, (u.lanes[l]).state ≠ .greenRest) →
          (u.ramps[r]).state = .shutClear ∧ (u.ramps[r]).phaseTimer = .stopped)
      ∧ (s.tables.Apart → HeadsShow r u
          ∧ ∀ ch : OutCh, beaconOf s.tables r = some ch → (u.out.chans[ch]).commanded = .flash))
    ∧ (shutFlushLeft r s = some 0 → ∃ u, exec (.shutdownFlushExpiry r) s = .next (endEvent u) ∧ Undisturbed s u
      ∧ OthersStand r s u ∧ u.lanes = (orderDark r s).lanes ∧ u.rate = s.rate
      ∧ (s.tables.Apart → HeadsShow r u)
      ∧ (x.mode = .off → Entered r .off .stopped u
          ∧ u.ramps[r] = { x with
            state := .off, clearPhase := none, phaseTimer := .stopped, autoPlan := 0, candidate := none
            planUnset := false, actionUnset := false, attention := true }
          ∧ u.auth[r] = (s.auth[r]).enterOff ∧ ∀ c : Fin 16, (u.vectors[r])[c] = false)
      ∧ (x.mode = .auto → UnitsUndisturbed s u
          ∧ u.ramps[r] = { x with
            state := (u.ramps[r]).state, clearPhase := none, phaseTimer := (u.ramps[r]).phaseTimer
            actionUnset := (u.ramps[r]).actionUnset, stopStands := stopDemand s r, attention := true }
          ∧ ((u.ramps[r]).actionUnset = true ↔ ∃ n, (s.auth[r]).granted = some (.plan n) ∧ planRec s.tables n = none)
          ∧ (startDemand u r = true → Entered r .warn (.running 0) u)
          ∧ (startDemand u r = false → Entered r .standby .stopped u))))
  ∧ (∀ (r : Ramp) (c : RampRec) (s : State), s.tables.rampCfg[r] = some c →
      (∀ n : Nat, (s.ramps[r]).phaseTimer = .running n →
        ((s.ramps[r]).state = .startClear → (s.ramps[r]).clearPhase = some .red →
            startRedLeft r s = some (c.startRed * 100000 - n))
        ∧ ((s.ramps[r]).state = .shutFlush → (s.ramps[r]).clearPhase = none →
            shutFlushLeft r s = some (c.shutFlush * 100000 - n)))
      ∧ ((∀ n : Nat, (s.ramps[r]).phaseTimer ≠ .running n) → startRedLeft r s = none ∧ shutFlushLeft r s = none)
      ∧ ((s.ramps[r]).state ≠ .startClear ∨ (s.ramps[r]).clearPhase ≠ some .red → startRedLeft r s = none)
      ∧ ((s.ramps[r]).state ≠ .shutFlush → shutFlushLeft r s = none))
  ∧ [RampState.off, .standby, .darkFail, .warn, .startGreen, .startClear, .metering, .shutClear, .shutFlush].map beaconAspect
      = [.dark, .dark, .dark, .flash, .flash, .flash, .flash, .flash, .flash]

/-- A slot boundary counts a slot, refreshes the standings of sources 2 to 5, arbitrates and judges (`v`). Under a plan
it then adopts or re-reads it, with the Rate Unit's record, takes the nominal length (the plan's slot, or under an
ADAPTIVE plan the adaptive result or the fallback), counts the pattern on, starts the slot, aligned where the plan is
coordinated and the part LOCKED, and offers: each listed lane, first returned to metering, releases, counts an idle
offer or counts an overrun skip where its mask holds the new count, and is left alone where it does not. Under HOLD or
FLUSH it gives that order and runs a holding slot of the last nominal length, or 50, aligned where the plan kept is
coordinated and the part LOCKED. Under a stop demand it leaves METERING for the shutdown, under FAILSAFE for DARK_FAIL,
and the slot and the Rate Unit's record empty (that the arbitration made there moves nothing further is DEDUCED, log
entry 30). No other ramp's controller moves. The slot clock runs for the slot length, in METERING alone (R67). -/
def Obligations.SlotBoundaryStartsTheNextSlot : Prop :=
  (∀ (r : Ramp) (s u v : State), (s.ramps[r]).state = .metering → u = slotBoundary r s →
    v = judge r (boundaryArbitration r (s.modRamp r fun c => { c with
      slotCount := if c.slotCount < 65535 then c.slotCount + 1 else 65535 })) →
      (slotLeft r s = some 0 → exec (.slotBoundary r) s = .next (endEvent u)) ∧ Undisturbed s u
      ∧ (∀ q : Ramp, q ≠ r → SameRamp s u q ∧ u.auth[q] = s.auth[q] ∧ u.rate[q] = s.rate[q])
      ∧ u.vectors = s.vectors ∧ u.onTimers = s.onTimers
      ∧ (u.ramps[r]).slotCount = (if (s.ramps[r]).slotCount < 65535 then (s.ramps[r]).slotCount + 1 else 65535)
      ∧ v.auth[r] = ((s.auth[r]).refreshLower.arbitrate (actionRec s.tables r) s.time.corridor).1
      ∧ (∀ a : AuthUnit, a.refreshLower = { a with sources := a.refreshLower.sources }
        ∧ ∀ k : Source, a.refreshLower.sources[k] = (if 2 ≤ k.val then { a.sources[k] with
            standing := (a.sources[k]).asserted && (a.sources[k]).armed && !(a.sources[k]).spent } else a.sources[k]))
      ∧ (∀ (n : Nat) (p : PlanRec) (L : Nat), planRec s.tables n = some p → stopDemand v r = false →
          (effectiveAction v r = .plan n ∨ effectiveAction v r = .auto n) →
          (p.adaptive = none → L = p.slot) →
          (p.adaptive ≠ none → adoptedNumber s.ramps[r] ≠ some n → L = p.slot) →
          (p.adaptive ≠ none → adoptedNumber s.ramps[r] = some n → L = ((s.rate[r]).adaptive).getD p.slot) →
          (u.ramps[r]).state = .metering ∧ u.auth[r] = v.auth[r]
          ∧ (u.ramps[r]).adopted = some ⟨n, p.adaptive.isSome, p.slot, p.period, p.masks, p.coordinated⟩
          ∧ (adoptedNumber s.ramps[r] ≠ some n → (u.ramps[r]).patternCount = 0 ∧ (u.ramps[r]).attention = true)
          ∧ (∀ a : Adopted, (s.ramps[r]).adopted = some a → a.number = n →
              (u.ramps[r]).patternCount = (if a.period = p.period then
                (if (s.ramps[r]).patternCount + 1 = p.period then 0 else (s.ramps[r]).patternCount + 1) else 0))
          ∧ (u.ramps[r]).slotClock = .running 0 ∧ (u.ramps[r]).lastNominal = some L
          ∧ (p.adaptive = none → u.rate[r] = ⟨0, none, false⟩)
          ∧ (p.adaptive ≠ none → adoptedNumber s.ramps[r] ≠ some n → u.rate[r] = ⟨0, some L, false⟩)
          ∧ (p.adaptive ≠ none → adoptedNumber s.ramps[r] = some n →
              u.rate[r] = { s.rate[r] with adaptive := some L })
          ∧ (p.coordinated = false ∨ s.time.locked = false →
              (u.ramps[r]).slotLength = some L ∧ (u.ramps[r]).aligned = false)
          ∧ (p.coordinated = true → s.time.locked = true →
              (u.ramps[r]).slotLength
                = some (clampSlot (correctedSlot L (gridError s.time.corridor (offsetOf s.tables r) L)))
              ∧ (u.ramps[r]).aligned = decide (gridError s.time.corridor (offsetOf s.tables r) L = 0))
          ∧ ((lanesOf s.tables r).Nodup →
              (∀ l : Lane, l ∉ lanesOf s.tables r → u.lanes[l] = s.lanes[l])
              ∧ ∀ (i : Nat) (l : Lane) (c : LaneRec) (y : LaneCtx) (offered : Prop),
                  (lanesOf s.tables r)[i]? = some l → s.tables.laneCfg[l] = some c → y = (orderReturn r s).lanes[l] →
                  (offered ↔ ∃ m, p.masks[i]? = some m ∧ m.getLsbD (u.ramps[r]).patternCount = true) →
                  (¬ offered → u.lanes[l] = y)
                  ∧ (offered → y.state = .restRed →
                      (if c.lock = true then y.call else effectiveOf s c.demand) = true → u.lanes[l] = { y with
                        state := (if c.delay = 0 then .green else .delay)
                        call := (if c.delay = 0 then false else y.call)
                        greenPassageCount := (if c.delay = 0 then some 0 else y.greenPassageCount)
                        interval := some ⟨0, some ⟨c.delay, c.minGreen, c.maxGreen, c.vehicles⟩, c.yellow, c.minRed,
                          none, false⟩
                        counts := { y.counts with
                          releases := if y.counts.releases < 65535 then y.counts.releases + 1 else 65535 } })
                  ∧ (offered → y.state = .restRed →
                      (if c.lock = true then y.call else effectiveOf s c.demand) = false →
                      u.lanes[l] = { y with counts := { y.counts with
                        idleOffers := if y.counts.idleOffers < 65535 then y.counts.idleOffers + 1 else 65535 } })
                  ∧ (offered → y.state ≠ .restRed → u.lanes[l] = { y with counts := { y.counts with
                        overrunSkips := if y.counts.overrunSkips < 65535 then y.counts.overrunSkips + 1 else 65535 } })
                  ∧ ((∀ k ∈ lanesOf s.tables r, k ≠ l → headOf s.tables k ≠ some c.head) →
                      (u.out.chans[c.head]).commanded = laneAspect (u.lanes[l]).state)))
      ∧ (∀ L : Nat, stopDemand v r = false → (effectiveAction v r = .hold ∨ effectiveAction v r = .flush) →
          L = ((s.ramps[r]).lastNominal).getD 50 →
          (u.ramps[r]).state = .metering ∧ (u.ramps[r]).adopted = (s.ramps[r]).adopted
          ∧ (u.ramps[r]).patternCount = (s.ramps[r]).patternCount ∧ (u.ramps[r]).slotClock = .running 0
          ∧ (u.ramps[r]).lastNominal = (s.ramps[r]).lastNominal ∧ u.rate[r] = s.rate[r] ∧ u.auth[r] = v.auth[r]
          ∧ (s.time.locked = false ∨ (∀ a, (s.ramps[r]).adopted = some a → a.coordinated = false) →
              (u.ramps[r]).slotLength = some L ∧ (u.ramps[r]).aligned = false)
          ∧ (s.time.locked = true → (∃ a, (s.ramps[r]).adopted = some a ∧ a.coordinated = true) →
              (u.ramps[r]).slotLength
                = some (clampSlot (correctedSlot L (gridError s.time.corridor (offsetOf s.tables r) L)))
              ∧ (u.ramps[r]).aligned = decide (gridError s.time.corridor (offsetOf s.tables r) L = 0))
          ∧ (effectiveAction v r = .hold → u.lanes = (orderHold r s).lanes)
          ∧ (effectiveAction v r = .flush → u.lanes = (orderFlush r s).lanes))
      ∧ (stopDemand v r = true ∨ effectiveAction v r = .failsafe →
          (u.ramps[r]).adopted = none ∧ (u.ramps[r]).patternCount = 0 ∧ (u.ramps[r]).slotClock = .stopped
          ∧ (u.ramps[r]).slotLength = none ∧ (u.ramps[r]).lastNominal = none ∧ (u.ramps[r]).aligned = false
          ∧ u.rate[r] = ⟨0, none, false⟩ ∧ (u.ramps[r]).attention = true)
      ∧ (stopDemand v r = true → effectiveAction v r ≠ .failsafe →
          u.lanes = (orderFlush r s).lanes
          ∧ ((∀ l ∈ lanesOf s.tables r, (u.lanes[l]).state = .greenRest) →
              (u.ramps[r]).state = .shutFlush ∧ (u.ramps[r]).phaseTimer = .running 0)
          ∧ ((∃ l ∈ lanesOf s.tables r, (u.lanes[l]).state ≠ .greenRest) →
              (u.ramps[r]).state = .shutClear ∧ (u.ramps[r]).phaseTimer = .stopped))
      ∧ (effectiveAction v r = .failsafe → u.lanes = (orderDark r s).lanes ∧ (u.ramps[r]).state = .darkFail))
  ∧ (∀ (r : Ramp) (s : State),
      (∀ L n : Nat, (s.ramps[r]).state = .metering → (s.ramps[r]).slotLength = some L →
        (s.ramps[r]).slotClock = .running n → slotLeft r s = some (L * 100000 - n))
      ∧ ((s.ramps[r]).state ≠ .metering ∨ (∀ n : Nat, (s.ramps[r]).slotClock ≠ .running n) → slotLeft r s = none))

/-! ### Lanes -/

/-- Lanes. The points of the interval (R90, R91, R94): the delay end brings GREEN with the call CLEAR and a passage
count of 0; the maximum green, and the minimum green with a complete count or a cut, bring YELLOW, or MIN_RED where the
copied yellow is 0, the green end being the counter as it stands, not rounded to a tenth (DEDUCED, log entry 11); the
yellow end brings MIN_RED; the red end brings GREEN_REST under FLUSH and REST_RED otherwise, a LOCK call latching while
presence is ON, and the last lane of a SHUT_CLEAR ramp to reach GREEN_REST begins SHUT_FLUSH. Announcements (R85, R91,
R92), of all the channels changed at once, the lanes in ascending order and the spillback logic behind them (DEDUCED,
log entry 15): a rise of presence latches a LOCK call outside DARK; a passage is counted by the lane's state and ends a
GREEN whose count it completes at or past the minimum green point. Orders (R96 to R99): FLUSH, HOLD, the return to
metering and DARK move each listed lane by its state, and no other. The head shows the state's aspect throughout. The points stand at
the copied times on the interval's counter: the delay, the delay and the maximum or minimum green, the green end and the
yellow, and those and the minimum red; each in its state alone. -/
def Obligations.LanePointsMoveTheLane : Prop :=
  (∀ (l : Lane) (c : LaneRec) (s : State), s.tables.laneCfg[l] = some c →
    (delayLeft l s = some 0 → ∃ u, exec (.delayEnd l) s = .next (endEvent u)
      ∧ Undisturbed s u ∧ UnitsUndisturbed s u ∧ (∀ q : Ramp, SameRamp s u q)
      ∧ (∀ k : Lane, k ≠ l → u.lanes[k] = s.lanes[k]) ∧ (u.out.chans[c.head]).commanded = .green
      ∧ u.lanes[l] = { s.lanes[l] with state := .green, call := false, greenPassageCount := some 0 })
    ∧ (∀ v : Interval, maxGreenLeft l s = some 0 → (s.lanes[l]).interval = some v → ∃ u,
      exec (.maximumGreen l) s = .next (endEvent u)
      ∧ Undisturbed s u ∧ UnitsUndisturbed s u ∧ (∀ q : Ramp, SameRamp s u q)
      ∧ (∀ k : Lane, k ≠ l → u.lanes[k] = s.lanes[k])
      ∧ (u.out.chans[c.head]).commanded = (if v.yellow = 0 then .red else .yellow)
      ∧ u.lanes[l] = { s.lanes[l] with
          state := (if v.yellow = 0 then .minRed else .yellow), greenPassageCount := none,
          interval := some { v with greenEnd := some v.counter } })
    ∧ (∀ v : Interval, minGreenLeft l s = some 0 → (s.lanes[l]).interval = some v → ∃ u,
      exec (.minimumGreenPoint l) s = .next (endEvent u)
      ∧ Undisturbed s u ∧ UnitsUndisturbed s u ∧ (∀ q : Ramp, SameRamp s u q)
      ∧ (∀ k : Lane, k ≠ l → u.lanes[k] = s.lanes[k])
      ∧ (u.out.chans[c.head]).commanded = (if v.yellow = 0 then .red else .yellow)
      ∧ u.lanes[l] = { s.lanes[l] with
          state := (if v.yellow = 0 then .minRed else .yellow), greenPassageCount := none,
          interval := some { v with greenEnd := some v.counter } })
    ∧ (yellowLeft l s = some 0 → ∃ u, exec (.yellowEnd l) s = .next (endEvent u)
      ∧ Undisturbed s u ∧ UnitsUndisturbed s u ∧ (∀ q : Ramp, SameRamp s u q)
      ∧ (∀ k : Lane, k ≠ l → u.lanes[k] = s.lanes[k]) ∧ (u.out.chans[c.head]).commanded = .red
      ∧ u.lanes[l] = { s.lanes[l] with state := .minRed })
    ∧ (redLeft l s = some 0 → ∃ u, exec (.redEnd l) s = .next (endEvent u)
      ∧ Undisturbed s u ∧ UnitsUndisturbed s u ∧ (∀ k : Lane, k ≠ l → u.lanes[k] = s.lanes[k])
      ∧ ((s.lanes[l]).regime = .flush → u.lanes[l] = { s.lanes[l] with
          state := .greenRest, call := false, interval := none, greenPassageCount := none })
      ∧ ((s.lanes[l]).regime ≠ .flush → u.lanes[l] = { s.lanes[l] with
          state := .restRed, call := (s.lanes[l]).call || (c.lock && effectiveOf s c.demand), interval := none,
          greenPassageCount := none })
      ∧ ((∀ r : Ramp, beaconOf s.tables r ≠ some c.head) →
          (u.out.chans[c.head]).commanded = (if (s.lanes[l]).regime = .flush then .green else .red))
      ∧ (∀ r : Ramp, rampOfLane s.tables l = some r → (s.ramps[r]).state = .shutClear →
          (∀ k ∈ lanesOf s.tables r, (u.lanes[k]).state = .greenRest) →
          u.ramps[r] = { s.ramps[r] with
            state := .shutFlush, clearPhase := none, phaseTimer := .running 0, attention := true })
      ∧ (∀ r : Ramp, (rampOfLane s.tables l ≠ some r ∨ (s.ramps[r]).state ≠ .shutClear
          ∨ ∃ k ∈ lanesOf s.tables r, (u.lanes[k]).state ≠ .greenRest) → SameRamp s u r)))
  ∧ (∀ before s t : State, t = forEach (List.finRange 12) (laneHears before) s →
      announce before s = reviewSpillback t ∧ ∀ l : Lane, t.lanes[l] = (laneHears before l s).lanes[l])
  ∧ (∀ (l : Lane) (c : LaneRec) (before s u : State) (rises passes : Prop) (y : LaneCtx),
      s.tables.laneCfg[l] = some c → u = laneHears before l s →
      (rises ↔ effectiveOf before c.demand = false ∧ effectiveOf s c.demand = true) →
      (passes ↔ ∃ p : Channel, c.passage = some p ∧ (before.det.chans[p]).filtered = false
        ∧ (s.det.chans[p]).filtered = true ∧ (s.det.chans[p]).health = .ok) →
      (rises ∧ c.lock = true ∧ (s.lanes[l]).state ≠ .dark → y = { s.lanes[l] with call := true }) →
      (¬ (rises ∧ c.lock = true ∧ (s.lanes[l]).state ≠ .dark) → y = s.lanes[l]) →
        Undisturbed s u ∧ UnitsUndisturbed s u ∧ (∀ q : Ramp, SameRamp s u q)
        ∧ (∀ k : Lane, k ≠ l → u.lanes[k] = s.lanes[k])
        ∧ (u.out.chans[c.head]).commanded = laneAspect (u.lanes[l]).state
        ∧ (¬ passes → u.lanes[l] = y)
        ∧ (passes → y.state = .greenRest ∨ y.state = .dark → u.lanes[l] = y)
        ∧ (passes → y.state = .yellow → u.lanes[l] = { y with counts := { y.counts with
            yellowPassages := if y.counts.yellowPassages < 65535 then y.counts.yellowPassages + 1 else 65535 } })
        ∧ (passes → y.state = .delay ∨ y.state = .minRed ∨ y.state = .restRed →
            u.lanes[l] = { y with counts := { y.counts with
              violations := if y.counts.violations < 65535 then y.counts.violations + 1 else 65535 } })
        ∧ ∀ (v : Interval) (p : ReleaseCopy) (n : Nat) (k : LaneCounts), passes → y.state = .green →
            y.interval = some v → v.release = some p → y.greenPassageCount = some n →
            k = { y.counts with
              greenPassages := if y.counts.greenPassages < 65535 then y.counts.greenPassages + 1 else 65535 } →
              (p.vehicles ≤ n → u.lanes[l] = { y with counts := k })
              ∧ (n + 1 < p.vehicles → u.lanes[l] = { y with counts := k, greenPassageCount := some (n + 1) })
              ∧ (n + 1 = p.vehicles → v.counter < (p.delay + p.minGreen) * 100000 →
                  u.lanes[l] = { y with counts := k, greenPassageCount := some (n + 1) })
              ∧ (n + 1 = p.vehicles → (p.delay + p.minGreen) * 100000 ≤ v.counter →
                  u.lanes[l] = { y with
                    counts := k, greenPassageCount := none, state := (if v.yellow = 0 then .minRed else .yellow),
                    interval := some { v with greenEnd := some v.counter } }))
  ∧ (∀ (r : Ramp) (s : State), (lanesOf s.tables r).Nodup →
      (∀ u ∈ [orderFlush r s, orderHold r s, orderReturn r s, orderDark r s],
        Undisturbed s u ∧ UnitsUndisturbed s u ∧ (∀ q : Ramp, SameRamp s u q)
        ∧ (∀ l : Lane, l ∉ lanesOf s.tables r → u.lanes[l] = s.lanes[l])
        ∧ ∀ (l : Lane) (c : LaneRec), l ∈ lanesOf s.tables r → s.tables.laneCfg[l] = some c →
            (∀ k ∈ lanesOf s.tables r, k ≠ l → headOf s.tables k ≠ some c.head) →
            (u.out.chans[c.head]).commanded = laneAspect (u.lanes[l]).state)
      ∧ ∀ (l : Lane) (c : LaneRec) (x : LaneCtx), l ∈ lanesOf s.tables r → s.tables.laneCfg[l] = some c →
          x = s.lanes[l] →
          (x.state = .restRed ∨ x.state = .delay ∨ x.state = .green → (orderFlush r s).lanes[l] = { x with
            state := .greenRest, regime := .flush, call := false, interval := none, greenPassageCount := none })
          ∧ (x.state = .yellow ∨ x.state = .minRed ∨ x.state = .greenRest ∨ x.state = .dark →
            (orderFlush r s).lanes[l] = { x with regime := .flush })
          ∧ (x.state = .restRed ∨ x.state = .yellow ∨ x.state = .minRed ∨ x.state = .dark →
            (orderHold r s).lanes[l] = { x with regime := .hold })
          ∧ (x.state = .delay → (orderHold r s).lanes[l] = { x with
            state := .restRed, regime := .hold, call := x.call || (c.lock && effectiveOf s c.demand),
            interval := none, greenPassageCount := none })
          ∧ (∀ (v : Interval) (p : ReleaseCopy), x.state = .green → x.interval = some v → v.release = some p →
            (v.counter < (p.delay + p.minGreen) * 100000 → (orderHold r s).lanes[l] = { x with
              regime := .hold, interval := some { v with cut := true } })
            ∧ ((p.delay + p.minGreen) * 100000 ≤ v.counter → (orderHold r s).lanes[l] = { x with
              state := (if v.yellow = 0 then .minRed else .yellow), regime := .hold, greenPassageCount := none,
              interval := some { v with cut := true, greenEnd := some v.counter } }))
          ∧ (x.state = .greenRest → (orderHold r s).lanes[l] = { x with
            state := (if c.yellow = 0 then .minRed else .yellow), regime := .hold, greenPassageCount := none,
            interval := some ⟨0, none, c.yellow, c.minRed, some 0, false⟩ })
          ∧ (x.regime = .flush → x.state = .greenRest → (orderReturn r s).lanes[l] = { x with
            state := (if c.yellow = 0 then .minRed else .yellow), regime := .meter, greenPassageCount := none,
            interval := some ⟨0, none, c.yellow, c.minRed, some 0, false⟩ })
          ∧ (x.regime ≠ .flush ∨ x.state ≠ .greenRest → (orderReturn r s).lanes[l] = { x with regime := .meter })
          ∧ (orderDark r s).lanes[l] = { x with
            state := .dark, regime := .meter, call := false, interval := none, greenPassageCount := none })
  ∧ [LaneState.dark, .greenRest, .green, .yellow, .delay, .minRed, .restRed].map laneAspect
      = [.dark, .green, .green, .yellow, .red, .red, .red]
  ∧ (∀ (l : Lane) (x : LaneCtx) (v : Interval) (s : State), x = s.lanes[l] → x.interval = some v →
      (∀ p : ReleaseCopy, v.release = some p →
        (x.state = .delay → delayLeft l s = some (p.delay * 100000 - v.counter))
        ∧ (x.state = .green → maxGreenLeft l s = some ((p.delay + p.maxGreen) * 100000 - v.counter)
          ∧ (v.cut = true ∨ p.vehicles ≤ x.greenPassageCount.getD 0 →
              minGreenLeft l s = some ((p.delay + p.minGreen) * 100000 - v.counter))
          ∧ (v.cut = false → x.greenPassageCount.getD 0 < p.vehicles → minGreenLeft l s = none)))
      ∧ ∀ g : Nat, v.greenEnd = some g →
        (x.state = .yellow → yellowLeft l s = some (g + v.yellow * 100000 - v.counter))
        ∧ (x.state = .minRed → redLeft l s = some (g + (v.yellow + v.minRed) * 100000 - v.counter)))
  ∧ (∀ (l : Lane) (s : State),
      ((s.lanes[l]).state ≠ .delay → delayLeft l s = none)
      ∧ ((s.lanes[l]).state ≠ .green → maxGreenLeft l s = none ∧ minGreenLeft l s = none)
      ∧ ((s.lanes[l]).state ≠ .yellow → yellowLeft l s = none) ∧ ((s.lanes[l]).state ≠ .minRed → redLeft l s = none))

/-! ### Authority -/

/-- Arbitration (R105, R106). Stack entries whose standing is NOT are removed, their holds discarded, and the rest keep
their order. The holder afterwards is the highest source whose standing is ELIGIBLE, or none, with an empty stack and
no hold left. Where the winner is the holder nothing else changes. Otherwise an ELIGIBLE holder is suspended: pushed at
the head of the stack with its hold PAUSED, an UNCAPPED one as it is, or, with no time left, spent in place of the push
(R111); a holder that is not ELIGIBLE gives way, its hold discarded. A winner on the stack is taken off it and granted
RESUMED, its hold running again, and any other FRESH with a new one; either takes the action of its record as it stands
(R109), and the last-grant record takes the grant. No other source changes. -/
def Obligations.ArbitrationGrantsTheHighest : Prop :=
  (∀ (a b : AuthUnit) (rec : Source → Option ActionRec) (now : Nat) (kept : List Source), b = (a.arbitrate rec now).1 →
      kept = a.stack.filter (fun k => (a.sources[k]).standing) →
    (∀ k ∈ a.stack, (a.sources[k]).standing = false → (b.sources[k]).hold = none)
    ∧ (∀ k : Source, a.holder ≠ some k → k ∉ a.stack → b.holder ≠ some k → b.sources[k] = a.sources[k])
    ∧ ((∀ k : Source, (a.sources[k]).standing = false) → b.holder = none ∧ b.granted = none ∧ b.stack = []
        ∧ b.lastGrant = a.lastGrant ∧ ∀ k : Source, a.holder = some k ∨ k ∈ a.stack → (b.sources[k]).hold = none)
    ∧ (∀ w : Source, (a.sources[w]).standing = true → (∀ k : Source, k < w → (a.sources[k]).standing = false) →
        b.holder = some w
        ∧ (∀ k ∈ kept, k ≠ w → a.holder ≠ some k → b.sources[k] = a.sources[k])
        ∧ (a.holder = some w → b.granted = a.granted ∧ b.lastGrant = a.lastGrant ∧ b.stack = kept
            ∧ b.sources[w] = a.sources[w])
        ∧ (a.holder ≠ some w → b.granted = some (grantedAction w (rec w))
          ∧ (w ∉ a.stack → b.lastGrant = some ⟨w, now, .fresh⟩
              ∧ b.sources[w] = { a.sources[w] with hold := some (freshHold w (rec w)) })
          ∧ (w ∈ a.stack → b.lastGrant = some ⟨w, now, .resumed⟩
              ∧ b.sources[w] = { a.sources[w] with hold := (a.sources[w]).hold.map Hold.resume })
          ∧ (a.holder = none → b.stack = kept.filter (fun k => k ≠ w))
          ∧ ∀ h : Source, a.holder = some h →
            ((a.sources[h]).standing = false → b.stack = kept.filter (fun k => k ≠ w)
              ∧ b.sources[h] = { a.sources[h] with hold := none })
            ∧ ((a.sources[h]).standing = true → (a.sources[h]).hold = some (.running 0) →
              b.stack = kept.filter (fun k => k ≠ w)
              ∧ b.sources[h] = { a.sources[h] with spent := true, standing := false, hold := none })
            ∧ ((a.sources[h]).standing = true → (a.sources[h]).hold ≠ some (.running 0) →
              b.stack = h :: kept.filter (fun k => k ≠ w)
              ∧ (∀ n : Nat, (a.sources[h]).hold = some (.running n) →
                  b.sources[h] = { a.sources[h] with hold := some (.paused n) })
              ∧ ((∀ n : Nat, (a.sources[h]).hold ≠ some (.running n)) → b.sources[h] = a.sources[h])))))
  ∧ (∀ (k : Source) (r : Option ActionRec), (k = 0 → grantedAction k r = .failsafe ∧ freshHold k r = .uncapped)
      ∧ (k ≠ 0 → r = none → grantedAction k r = (if k = 1 then .flush else .dark) ∧ freshHold k r = .uncapped)
      ∧ ∀ x : ActionRec, k ≠ 0 → r = some x →
        grantedAction k r = (match x.kind with
          | .dark => .dark
          | .flush => .flush
          | .hold => .hold
          | .plan n => .plan n)
        ∧ freshHold k r = (match x.cap with
          | none => .uncapped
          | some n => .running (n * 100000)))
  ∧ (∀ n : Nat, Hold.resume (.paused n) = .running n ∧ Hold.resume (.running n) = .running n
      ∧ Hold.resume .uncapped = .uncapped)

/-- The expiry of a hold marks its source spent, discards the hold and takes the standing away, and the ramp is
arbitrated (O56 says what a decision point does to the ramp), which leaves the source spent, NOT and off the ramp. The
expiry of a lease makes it absent and the source deasserted, its spent mark cleared, and the change is presented; at
the moment its own hold expires the source is off the ramp besides (R111; the model takes the hold's expiry first,
DEDUCED, log entry 16). A hold runs out when the holder's running hold has nothing left, a paused or uncapped one never;
a lease when its central source's lease has (R110, R122). -/
def Obligations.AuthorityTimersExpire : Prop :=
  (∀ (r : Ramp) (k : Source) (s : State), holdLeft r s = some 0 → (s.auth[r]).holder = some k → ∃ u,
      exec (.holdExpiry r) s = .next (endEvent u) ∧ Undisturbed s u ∧ (∀ q : Ramp, q ≠ r → u.auth[q] = s.auth[q])
      ∧ u = decisionPoint r (s.setAuth r ((s.auth[r]).setSource k
          { (s.auth[r]).sources[k] with spent := true, standing := false, hold := none }))
      ∧ ((u.auth[r]).sources[k]).spent = true ∧ ((u.auth[r]).sources[k]).standing = false
      ∧ (u.auth[r]).holder ≠ some k)
  ∧ (∀ (r : Ramp) (c : Central) (k : Source) (s : State), k = centralSource c → leaseLeft r c s = some 0 → ∃ u,
      exec (.leaseExpiry r c) s = .next (endEvent u) ∧ Undisturbed s u
      ∧ (∀ q : Ramp, q ≠ r → u.auth[q] = s.auth[q])
      ∧ ((u.auth[r]).sources[k]).lease = none ∧ ((u.auth[r]).sources[k]).asserted = false
      ∧ (((s.auth[r]).sources[k]).asserted = true → ((u.auth[r]).sources[k]).spent = false)
      ∧ (((s.auth[r]).sources[k]).asserted = true →
          ¬ ((s.auth[r]).holder = some k ∧ ((s.auth[r]).sources[k]).hold = some (.running 0)) →
          u = sourceChanged r k (s.setAuth r ((s.auth[r]).setSource k
            { (s.auth[r]).sources[k] with lease := none, asserted := false, spent := false })))
      ∧ (((s.auth[r]).sources[k]).asserted = true → (s.auth[r]).holder = some k →
          ((s.auth[r]).sources[k]).hold = some (.running 0) → (u.auth[r]).holder ≠ some k))
  ∧ (∀ (r : Ramp) (s : State),
      (∀ (k : Source) (n : Nat), (s.auth[r]).holder = some k → ((s.auth[r]).sources[k]).hold = some (.running n) →
        holdLeft r s = some n)
      ∧ (∀ k : Source, (s.auth[r]).holder = some k → (∀ n : Nat, ((s.auth[r]).sources[k]).hold ≠ some (.running n)) →
        holdLeft r s = none)
      ∧ ((s.auth[r]).holder = none → holdLeft r s = none)
      ∧ leaseLeft r .urgent s = ((s.auth[r]).sources[(3 : Source)]).lease
      ∧ leaseLeft r .plan s = ((s.auth[r]).sources[(5 : Source)]).lease)

/-- What a source's change brings. When a source's fields change (R103, R104): nothing follows in OFF, for sources 2 to
5 in METERING, or where its standing already agrees; otherwise its standing is refreshed and the ramp is arbitrated. The
effective action, the demands and the ACTION_UNSET mark are judged from the holder, its action, the mode and the auto
plan (R60, R61), and the stop demand stands as judged (in a field of the model's, DEDUCED, log entry 24). A decision
point other than a slot boundary arbitrates the ramp, and a result that is handed over is taken by the state of the
ramp: STANDBY goes to WARN on a start demand (R62); a stop demand takes WARN to OFF or STANDBY and START_GREEN to
SHUT_FLUSH (R63, R64); START_CLEAR and the shutdown states go on (R65, R71); FAILSAFE takes every state but OFF and
STANDBY to DARK_FAIL, and its end takes DARK_FAIL to OFF or STANDBY (R74); and METERING takes DARK, and AUTO with NONE
where the effective action was another before, as SHUT_CLEAR, FLUSH, HOLD and the return from them as orders to its
lanes, its slot running on (R70; that a stop which stood before waits is DEDUCED, log entry 25, and that an auto plan
taken as NONE for its unset record still stands by its number is DEDUCED, log entry 37). Where METERING is left the slot
empties, and where a standing of sources 2 to 5 is then refreshed to another value the ramp is arbitrated once more
(R103; that this moves nothing further is DEDUCED, log entry 30). -/
def Obligations.SourceChangesReachArbitration : Prop :=
  (∀ (r : Ramp) (k : Source) (s : State),
    ((s.ramps[r]).state = .off → sourceChanged r k s = s)
    ∧ ((s.ramps[r]).state = .metering → 2 ≤ k.val → sourceChanged r k s = s)
    ∧ (((s.auth[r]).sources[k]).standing = (((s.auth[r]).sources[k]).asserted && ((s.auth[r]).sources[k]).armed
        && !((s.auth[r]).sources[k]).spent) → sourceChanged r k s = s)
    ∧ ((s.ramps[r]).state ≠ .off → ((s.ramps[r]).state = .metering → k.val < 2) →
        ((s.auth[r]).sources[k]).standing ≠ (((s.auth[r]).sources[k]).asserted && ((s.auth[r]).sources[k]).armed
          && !((s.auth[r]).sources[k]).spent) →
        sourceChanged r k s = decisionPoint r (s.setAuth r ((s.auth[r]).setSource k { (s.auth[r]).sources[k] with
          standing := (((s.auth[r]).sources[k]).asserted && ((s.auth[r]).sources[k]).armed
            && !((s.auth[r]).sources[k]).spent) }))))
  ∧ (∀ (r : Ramp) (s : State) (n : Nat), n = (if (planRec s.tables (s.ramps[r]).autoPlan).isSome
        then (s.ramps[r]).autoPlan else 0) →
      effectiveAction s r = (match (s.auth[r]).granted with
        | none => .auto n
        | some .failsafe => .failsafe
        | some .dark => .dark
        | some .flush => .flush
        | some .hold => .hold
        | some (.plan m) => if (planRec s.tables m).isSome then .plan m else .auto n)
      ∧ standingAction s r = (match (s.auth[r]).granted with
        | none => .auto (s.ramps[r]).autoPlan
        | some .failsafe => .failsafe
        | some .dark => .dark
        | some .flush => .flush
        | some .hold => .hold
        | some (.plan m) => if (s.ramps[r]).actionUnset = true then .auto (s.ramps[r]).autoPlan else .plan m)
      ∧ (stopDemand s r = true ↔ (s.ramps[r]).mode = .off ∨ effectiveAction s r = .dark ∨ effectiveAction s r = .auto 0)
      ∧ (startDemand s r = true ↔ (s.ramps[r]).mode = .auto ∧ (effectiveAction s r = .hold
          ∨ (∃ m, effectiveAction s r = .plan m) ∨ ∃ m, m ≠ 0 ∧ effectiveAction s r = .auto m))
      ∧ (((judge r s).ramps[r]).actionUnset = true
          ↔ ∃ m, (s.auth[r]).granted = some (.plan m) ∧ planRec s.tables m = none)
      ∧ (((judge r s).ramps[r]).actionUnset ≠ (s.ramps[r]).actionUnset → ((judge r s).ramps[r]).attention = true)
      ∧ (judge r s).ramps[r] = { s.ramps[r] with
          actionUnset := ((judge r s).ramps[r]).actionUnset, stopStands := stopDemand s r
          attention := ((judge r s).ramps[r]).attention })
  ∧ (∀ (r : Ramp) (s u v : State) (a : AuthUnit), s.tables.Apart → u = decisionPoint r s →
      a = ((s.auth[r]).arbitrate (actionRec s.tables r) s.time.corridor).1 → v = judge r (arbitrateRamp r s).1 →
      Undisturbed s u ∧ u.onTimers = s.onTimers
      ∧ (∀ q : Ramp, q ≠ r → SameRamp s u q ∧ u.auth[q] = s.auth[q] ∧ u.rate[q] = s.rate[q] ∧ u.vectors[q] = s.vectors[q])
      ∧ (∀ l : Lane, l ∉ lanesOf s.tables r → u.lanes[l] = s.lanes[l])
      ∧ (a.holder ≠ none → a.holder = (s.auth[r]).holder → u = s.setAuth r a)
      ∧ (a.holder = none ∨ a.holder ≠ (s.auth[r]).holder →
        (a.holder ≠ (s.auth[r]).holder → (v.ramps[r]).attention = true ∧ (u.ramps[r]).attention = true)
        ∧ v.auth[r] = a ∧ v.lanes = s.lanes ∧ v.out = s.out ∧ v.rate = s.rate
        ∧ v.ramps[r] = { s.ramps[r] with
            actionUnset := (v.ramps[r]).actionUnset, stopStands := stopDemand v r, attention := (v.ramps[r]).attention }
        ∧ ((s.ramps[r]).state = .off → u = v)
        ∧ ((s.ramps[r]).state = .standby →
          (startDemand v r = false → u = v)
          ∧ (startDemand v r = true → Entered r .warn (.running 0) u ∧ u.auth[r] = a ∧ u.lanes = s.lanes))
        ∧ (effectiveAction v r = .failsafe →
          ((s.ramps[r]).state = .darkFail → u = v)
          ∧ ((s.ramps[r]).state ≠ .off → (s.ramps[r]).state ≠ .standby → (s.ramps[r]).state ≠ .darkFail →
              Entered r .darkFail .stopped u ∧ u.lanes = (orderDark r s).lanes ∧ HeadsShow r u))
        ∧ (effectiveAction v r ≠ .failsafe →
          ((s.ramps[r]).state = .startClear ∨ (s.ramps[r]).state = .shutClear ∨ (s.ramps[r]).state = .shutFlush → u = v)
          ∧ ((s.ramps[r]).state = .warn ∨ (s.ramps[r]).state = .startGreen → stopDemand v r = false → u = v)
          ∧ ((s.ramps[r]).state = .startGreen → stopDemand v r = true →
              Entered r .shutFlush (.running 0) u ∧ u.auth[r] = a ∧ u.lanes = s.lanes)
          ∧ ((s.ramps[r]).state = .darkFail ∨ (s.ramps[r]).state = .warn ∧ stopDemand v r = true →
              u.lanes = (orderDark r s).lanes
              ∧ ((s.ramps[r]).mode = .off → Entered r .off .stopped u ∧ u.auth[r] = a.enterOff
                ∧ (∀ c : Fin 16, (u.vectors[r])[c] = false) ∧ (u.ramps[r]).autoPlan = 0 ∧ (u.ramps[r]).candidate = none
                ∧ (u.ramps[r]).planUnset = false ∧ (u.ramps[r]).actionUnset = false)
              ∧ ((s.ramps[r]).mode = .auto → u.auth[r] = a
                ∧ (startDemand v r = true → Entered r .warn (.running 0) u)
                ∧ (startDemand v r = false → Entered r .standby .stopped u)))
          ∧ ((s.ramps[r]).state = .metering →
            (effectiveAction v r = .dark ∨ effectiveAction v r = .auto 0 ∧ standingAction s r ≠ .auto 0 →
              u.lanes = (orderFlush r s).lanes ∧ HeadsShow r u
              ∧ ((∀ l ∈ lanesOf s.tables r, (u.lanes[l]).state = .greenRest) → Entered r .shutFlush (.running 0) u)
              ∧ ((∃ l ∈ lanesOf s.tables r, (u.lanes[l]).state ≠ .greenRest) → Entered r .shutClear .stopped u))
            ∧ (effectiveAction v r = .auto 0 → standingAction s r = .auto 0 → u = v)
            ∧ (effectiveAction v r = .flush → u = orderFlush r v)
            ∧ (effectiveAction v r = .hold → u = orderHold r v)
            ∧ (∀ n : Nat, effectiveAction v r = .plan n ∨ n ≠ 0 ∧ effectiveAction v r = .auto n → u = orderReturn r v)))
        ∧ ((s.ramps[r]).state = .metering → (u.ramps[r]).state ≠ .metering → NoSlot r u
          ∧ ((∀ k : Source, 2 ≤ k.val → (a.sources[k]).standing
                = ((a.sources[k]).asserted && (a.sources[k]).armed && !(a.sources[k]).spent)) → u.auth[r] = a)
          ∧ ((∃ k : Source, 2 ≤ k.val ∧ (a.sources[k]).standing
                ≠ ((a.sources[k]).asserted && (a.sources[k]).armed && !(a.sources[k]).spent)) →
              u.auth[r] = (a.refreshLower.arbitrate (actionRec s.tables r) s.time.corridor).1))
        ∧ ((u.ramps[r]).state = (s.ramps[r]).state →
            (u.ramps[r]).adopted = (s.ramps[r]).adopted ∧ (u.ramps[r]).patternCount = (s.ramps[r]).patternCount
            ∧ (u.ramps[r]).slotClock = (s.ramps[r]).slotClock ∧ (u.ramps[r]).slotLength = (s.ramps[r]).slotLength
            ∧ u.rate[r] = s.rate[r] ∧ u.auth[r] = a)))

/-- A line's input change begins 5 tenths away from the debounced level and abandons them back at it; when they have
run, the debounced level follows the input, and the PREEMPT and PANEL sources of every ramp are asserted exactly while
the line its set Ramp Config names for them, preempt lines 0 to 3 or panel lines 4 to 7, has an ACTIVE debounced level
(R115). -/
def Obligations.LinesAreDebounced : Prop :=
  ∀ (l : Line) (s : State),
    (∀ v : Bool, exec (.lineInputChange l v) s = .next (s.setLine l
      (if v = (s.lines[l]).input then s.lines[l]
       else if v = (s.lines[l]).active then { s.lines[l] with input := v, timer := .stopped }
       else { s.lines[l] with input := v, timer := .running 0 })))
    ∧ (∀ n : Nat, (s.lines[l]).timer = .running n → debounceLeft l s = some (500000 - n))
    ∧ (debounceLeft l s = some 0 → ∃ u, exec (.debounceExpiry l) s = .next (endEvent u)
      ∧ u = forRamps judgeLines (s.setLine l ⟨(s.lines[l]).input, (s.lines[l]).input, .stopped⟩)
      ∧ u.tables = s.tables ∧ u.det = s.det ∧ u.time = s.time ∧ u.ring = s.ring
      ∧ (u.lines[l]).active = (s.lines[l]).input ∧ (u.lines[l]).timer = .stopped
      ∧ (∀ k : Line, k ≠ l → u.lines[k] = s.lines[k])
      ∧ ∀ q : Ramp,
        (((u.auth[q]).sources[(1 : Source)]).asserted = true ↔ ∃ (c : RampRec) (n : Fin 4) (k : Line),
          s.tables.rampCfg[q] = some c ∧ c.preLine = some n ∧ k.val = n.val ∧ (u.lines[k]).active = true)
        ∧ (((u.auth[q]).sources[(4 : Source)]).asserted = true ↔ ∃ (c : RampRec) (n : Fin 4) (k : Line),
          s.tables.rampCfg[q] = some c ∧ c.panelLine = some n ∧ k.val = n.val + 4 ∧ (u.lines[k]).active = true))

/-- The spillback logic (R117 to R120). An on-timer has the spill-on time to run and the clear timer the spill-clear
time. An on-timer's expiry leaves it expired and, its channel being usable with presence ON, SPILLBACK asserted; the
clear timer's leaves SPILLBACK deasserted, its spent mark cleared and the timer stopped. At an announcement of the
Detector Unit, of all the channels changed at once (DEDUCED, log entry 15), each on-timer starts, runs on or is
stopped, and each ramp's clear timer starts, runs on or is stopped, SPILLBACK being deasserted where the last usable
channel is lost. A write or clear of a Ramp Config stops every timer of the ramp, deasserts SPILLBACK and starts the
on-timers of its usable channels that are ON; its PREEMPT and PANEL sources are then asserted exactly while the lines
of the new record are ACTIVE (R115). -/
def Obligations.SpillbackTimersAssertAndClear : Prop :=
  (∀ (ch : Channel) (r : Ramp) (c : RampRec) (s : State), spillRamp s.tables ch = some r →
      s.tables.rampCfg[r] = some c →
      (∀ n : Nat, s.onTimers[ch] = .running n → onTimerLeft ch s = some (c.spillOn * 100000 - n))
      ∧ (onTimerLeft ch s = some 0 → ∃ u, exec (.onTimerExpiry ch) s = .next (endEvent u) ∧ Undisturbed s u
        ∧ u.onTimers[ch] = .expired ∧ (∀ x : Channel, x ≠ ch → u.onTimers[x] = s.onTimers[x])
        ∧ (∀ q : Ramp, q ≠ r → u.auth[q] = s.auth[q])
        ∧ (usable s ch = true → (s.det.chans[ch]).filtered = true →
            ((u.auth[r]).sources[(2 : Source)]).asserted = true ∧ (u.auth[r]).clearTimer = .stopped)))
  ∧ (∀ (r : Ramp) (c : RampRec) (s : State), s.tables.rampCfg[r] = some c →
      (∀ n : Nat, (s.auth[r]).clearTimer = .running n → clearTimerLeft r s = some (c.spillClear * 100000 - n))
      ∧ (clearTimerLeft r s = some 0 → ∃ u, exec (.clearTimerExpiry r) s = .next (endEvent u) ∧ Undisturbed s u
        ∧ u.onTimers = s.onTimers ∧ (∀ q : Ramp, q ≠ r → u.auth[q] = s.auth[q])
        ∧ ((u.auth[r]).sources[(2 : Source)]).asserted = false ∧ (u.auth[r]).clearTimer = .stopped
        ∧ (((s.auth[r]).sources[(2 : Source)]).asserted = true → ((u.auth[r]).sources[(2 : Source)]).spent = false)))
  ∧ (∀ (ch : Channel) (s : State),
      (silenceLeft ch s = some 0 → exec (.silenceTimerExpiry ch) s
        = .next (endEvent (announce s (s.setChan ch (silenceExpired s.det.chans[ch])))))
      ∧ (stuckLeft ch s = some 0 → exec (.stuckTimerExpiry ch) s
        = .next (endEvent (announce s (s.setChan ch (stuckExpired s.det.chans[ch])))))
      ∧ (filterLeft ch s = some 0 → exec (.filterTimerExpiry ch) s
        = .next (endEvent (announce s (s.setChan ch (filterExpired s.det.chans[ch])))))
      ∧ (∀ d : DetRec, s.tables.detMap[ch] = some d →
          (usable s ch = true ↔ (s.det.chans[ch]).health = .ok ∧ d.always = false)
          ∧ (d.role ≠ .spillback → spillRamp s.tables ch = none)
          ∧ ∀ r : Ramp, d.role = .spillback → (∀ q : Ramp, d.ramps.getLsbD q.val = decide (q = r)) →
              spillRamp s.tables ch = some r)
      ∧ (s.tables.detMap[ch] = none → spillRamp s.tables ch = none))
  ∧ (∀ before s u : State, u = announce before s →
      (∀ ch : Channel,
        ((∀ r : Ramp, spillRamp s.tables ch = some r → s.tables.rampCfg[r] = none) ∨ usable s ch = false
            ∨ (s.det.chans[ch]).filtered = false → u.onTimers[ch] = .stopped)
        ∧ (∀ r : Ramp, spillRamp s.tables ch = some r → s.tables.rampCfg[r] ≠ none → usable s ch = true →
            (s.det.chans[ch]).filtered = true →
            u.onTimers[ch] = (if s.onTimers[ch] = .stopped then .running 0 else s.onTimers[ch])))
      ∧ (∀ r : Ramp, s.tables.rampCfg[r] = none →
          ((u.auth[r]).sources[(2 : Source)]).asserted = false ∧ (u.auth[r]).clearTimer = .stopped)
      ∧ (∀ r : Ramp, ((s.auth[r]).sources[(2 : Source)]).asserted = false →
          ((u.auth[r]).sources[(2 : Source)]).asserted = false ∧ (u.auth[r]).clearTimer = .stopped)
      ∧ (∀ r : Ramp, ((s.auth[r]).sources[(2 : Source)]).asserted = true → s.tables.rampCfg[r] ≠ none →
          ((∀ ch : Channel, spillRamp s.tables ch = some r → usable s ch = false) →
            ((u.auth[r]).sources[(2 : Source)]).asserted = false
            ∧ ((u.auth[r]).sources[(2 : Source)]).spent = false ∧ (u.auth[r]).clearTimer = .stopped)
          ∧ (∀ ch : Channel, spillRamp s.tables ch = some r → usable s ch = true → (s.det.chans[ch]).filtered = true →
            ((u.auth[r]).sources[(2 : Source)]).asserted = true ∧ (u.auth[r]).clearTimer = .stopped)
          ∧ ((∃ ch : Channel, spillRamp s.tables ch = some r ∧ usable s ch = true) →
            (∀ ch : Channel, spillRamp s.tables ch = some r → usable s ch = true →
              (s.det.chans[ch]).filtered = false) →
            ((u.auth[r]).sources[(2 : Source)]).asserted = true
            ∧ (u.auth[r]).clearTimer
              = (if (s.auth[r]).clearTimer = .stopped then .running 0 else (s.auth[r]).clearTimer))))
  ∧ (∀ (r : Ramp) (rec : Option RampRec) (s u : State), u = putRamp r rec s →
      ((u.auth[r]).sources[(2 : Source)]).asserted = false ∧ (u.auth[r]).clearTimer = .stopped
      ∧ ∀ ch : Channel, spillRamp s.tables ch = some r →
          u.onTimers[ch] = (if rec.isSome = true ∧ usable s ch = true ∧ (s.det.chans[ch]).filtered = true
            then .running 0 else .stopped))
  ∧ (∀ (r : Ramp) (rec : Option RampRec) (s u : State), u = putRamp r rec s →
      (((u.auth[r]).sources[(1 : Source)]).asserted = true ↔ ∃ (c : RampRec) (n : Fin 4) (k : Line),
        rec = some c ∧ c.preLine = some n ∧ k.val = n.val ∧ (s.lines[k]).active = true)
      ∧ (((u.auth[r]).sources[(4 : Source)]).asserted = true ↔ ∃ (c : RampRec) (n : Fin 4) (k : Line),
        rec = some c ∧ c.panelLine = some n ∧ k.val = n.val + 4 ∧ (s.lines[k]).active = true))

/-! ### Outputs, time and quiet -/

/-- A mismatch timer's expiry latches the channel's lamp fault and sets the attention of the ramp the channel belongs
to; no other channel changes. A driver's silence latches every checked, unlatched channel of it that is commanded other
than DARK, and no other. A change of a channel's commanded aspect makes its station's SIG due (R131); a change from
DARK latches a checked channel of a silent driver (R135), and any other is judged for mismatch, the timer starting from
zero on entering it, running on within it and stopped on leaving it (R133; that each change of one event is judged, a
passing DARK too, is the model's choice, log entry 35). The aspect it has already changes nothing. The mismatch timer
runs for 15 tenths (R134) and the driver silence timer for 50 (R135). -/
def Obligations.LampTimersLatchFaults : Prop :=
  (∀ (ch : OutCh) (s : State), mismatchLeft ch s = some 0 → ∃ u,
      exec (.mismatchTimerExpiry ch) s = .next (endEvent u)
      ∧ Undisturbed s u ∧ UnitsUndisturbed s u ∧ u.lanes = s.lanes ∧ (∀ q : Ramp, SameRamp s u q)
      ∧ (∀ r : Ramp, ownerOf s.tables ch = some r → (u.ramps[r]).attention = true)
      ∧ u.out.chans[ch] = { s.out.chans[ch] with fault := true, mismatch := .stopped }
      ∧ ∀ c : OutCh, c ≠ ch → u.out.chans[c] = s.out.chans[c])
  ∧ (∀ (st : Nat) (s : State), driverSilenceLeft st s = some 0 → ∃ u,
      exec (.driverSilenceExpiry st) s = .next (endEvent u)
      ∧ Undisturbed s u ∧ UnitsUndisturbed s u ∧ u.lanes = s.lanes ∧ (∀ q : Ramp, SameRamp s u q)
      ∧ u.out.drivers = s.out.drivers.map (fun d => if d.station = st then { d with silence := .expired } else d)
      ∧ ∀ ch : OutCh, (u.out.chans[ch]).fault = ((s.out.chans[ch]).fault
          || (isChecked s.tables ch && decide ((s.out.chans[ch]).commanded ≠ .dark)
            && (match s.tables.outMap[ch] with | some o => o.station == st | none => false))))
  ∧ (∀ (ch : OutCh) (a : Aspect) (c : OutChan) (s u : State), u = setAspect ch a s →
      c = { s.out.chans[ch] with commanded := a } →
      ((s.out.chans[ch]).commanded = a → u = s)
      ∧ ((s.out.chans[ch]).commanded ≠ a →
        Undisturbed s u ∧ UnitsUndisturbed s u ∧ u.lanes = s.lanes ∧ (∀ q : Ramp, SameRamp s u q)
        ∧ u.out.drivers = s.out.drivers ∧ (∀ x : OutCh, x ≠ ch → u.out.chans[x] = s.out.chans[x])
        ∧ (∀ st : Nat, st ∈ u.out.sigDue
            ↔ st ∈ s.out.sigDue ∨ ∃ o : OutRec, s.tables.outMap[ch] = some o ∧ o.station = st)
        ∧ ((s.out.chans[ch]).commanded = .dark → JudgedAtOnce s ch c u.out.chans[ch]
          ∧ (LitOnSilent s ch c → ∀ r : Ramp, ownerOf s.tables ch = some r → (u.ramps[r]).attention = true))
        ∧ ((s.out.chans[ch]).commanded ≠ .dark → MismatchJudged s ch c u.out.chans[ch])))
  ∧ (∀ (t : Tables) (ch : OutCh) (r : Ramp), t.Apart → (ownerOf t ch = some r ↔ belongs t r ch = true))
  ∧ (∀ (ch : OutCh) (s : State),
      (∀ n : Nat, (s.out.chans[ch]).mismatch = .running n → mismatchLeft ch s = some (1500000 - n))
      ∧ ((∀ n : Nat, (s.out.chans[ch]).mismatch ≠ .running n) → mismatchLeft ch s = none))
  ∧ (∀ (st : Nat) (s : State),
      (∀ (d : DriverRec) (n : Nat), driverOf s.out st = some d → d.silence = .running n →
        driverSilenceLeft st s = some (5000000 - n))
      ∧ (∀ d : DriverRec, driverOf s.out st = some d → (∀ n : Nat, d.silence ≠ .running n) → driverSilenceLeft st s = none)
      ∧ (driverOf s.out st = none → driverSilenceLeft st s = none))

/-- The sync timer's expiry makes the sync state FREE and stops the timer, and touches nothing else. The quiet timer's
expiry stops it and asserts ring quiet, which sets every ramp's attention where it was CLEAR. Each runs for 100 tenths
(R144, R164). -/
def Obligations.SyncAndQuietTimersExpire : Prop :=
  (∀ s : State, syncLeft s = some 0 →
      exec .syncTimerExpiry s
        = .next (endEvent { s with time := { s.time with locked := false, syncTimer := .stopped } }))
  ∧ (∀ s : State, quietLeft s = some 0 → ∃ u, exec .quietTimerExpiry s = .next (endEvent u)
      ∧ u.ring = { s.ring with quiet := true, quietTimer := .stopped }
      ∧ u.tables = s.tables ∧ u.det = s.det ∧ u.time = s.time ∧ u.lines = s.lines ∧ u.lanes = s.lanes ∧ u.out = s.out
      ∧ UnitsUndisturbed s u ∧ (∀ q : Ramp, SameRamp s u q)
      ∧ (s.ring.quiet = false → ∀ q : Ramp, (u.ramps[q]).attention = true))
  ∧ (∀ s : State,
      (∀ n : Nat, s.time.syncTimer = .running n → syncLeft s = some (10000000 - n))
      ∧ ((∀ n : Nat, s.time.syncTimer ≠ .running n) → syncLeft s = none)
      ∧ (∀ n : Nat, s.ring.quietTimer = .running n → quietLeft s = some (10000000 - n))
      ∧ ((∀ n : Nat, s.ring.quietTimer ≠ .running n) → quietLeft s = none))
end

