-- ==== Sys2Proof/Laws/State.lean ====
section
/-! SUPPORT. What each update of one unit's record leaves in each field of the state: one lemma a field, true by
definition; and the reading of a vector after `vset` and `vmap`. -/

namespace Sys2Proof.Machine

/-! ### Vectors -/

@[simp] theorem vset_same {α : Type} {n : Nat} (v : Vector α n) (i : Fin n) (x : α) : (vset v i x)[i] = x := by
  simp [vset]

theorem vset_get {α : Type} {n : Nat} (v : Vector α n) (i j : Fin n) (x : α) :
    (vset v i x)[j] = if i = j then x else v[j] := by
  rcases i with ⟨i, hi⟩
  rcases j with ⟨j, hj⟩
  simp only [vset, Fin.getElem_fin, Vector.getElem_set, Fin.mk.injEq]

theorem vset_other {α : Type} {n : Nat} (v : Vector α n) (i j : Fin n) (x : α) (h : i ≠ j) :
    (vset v i x)[j] = v[j] := by
  rw [vset_get, if_neg h]

@[simp] theorem vmap_get {α β : Type} {n : Nat} (f : Fin n → α → β) (v : Vector α n) (i : Fin n) :
    (vmap f v)[i] = f i v[i] := by
  simp [vmap]

@[simp] theorem vmap_getNat {α β : Type} {n : Nat} (f : Fin n → α → β) (v : Vector α n) (j : Nat) (h : j < n) :
    (vmap f v)[j] = f ⟨j, h⟩ v[j] := by
  simp [vmap]

theorem vset_getNat {α : Type} {n : Nat} (v : Vector α n) (i : Fin n) (x : α) (j : Nat) (h : j < n) :
    (vset v i x)[j] = if i.val = j then x else v[j] := by
  simp only [vset, Vector.getElem_set]

/-- Writing back what a place holds changes nothing. -/
@[simp] theorem vset_self {α : Type} {n : Nat} (v : Vector α n) (i : Fin n) : vset v i v[i] = v := by
  apply Vector.ext
  intro j hj
  simp only [vset, Fin.getElem_fin, Vector.getElem_set]
  split
  · next e => subst e; rfl
  · rfl

theorem vset_vset {α : Type} {n : Nat} (v : Vector α n) (i : Fin n) (x y : α) :
    vset (vset v i x) i y = vset v i y := by
  simp [vset]

namespace State

variable (s : State)

/-! ### setRamp -/

@[simp] theorem setRamp_pending (r : Ramp) (x : RampCtx) : (s.setRamp r x).pending = s.pending := rfl
@[simp] theorem setRamp_stride (r : Ramp) (x : RampCtx) : (s.setRamp r x).stride = s.stride := rfl
@[simp] theorem setRamp_freeCount (r : Ramp) (x : RampCtx) : (s.setRamp r x).freeCount = s.freeCount := rfl
@[simp] theorem setRamp_tables (r : Ramp) (x : RampCtx) : (s.setRamp r x).tables = s.tables := rfl
@[simp] theorem setRamp_det (r : Ramp) (x : RampCtx) : (s.setRamp r x).det = s.det := rfl
@[simp] theorem setRamp_vectors (r : Ramp) (x : RampCtx) : (s.setRamp r x).vectors = s.vectors := rfl
@[simp] theorem setRamp_rate (r : Ramp) (x : RampCtx) : (s.setRamp r x).rate = s.rate := rfl
@[simp] theorem setRamp_ramps (r : Ramp) (x : RampCtx) : (s.setRamp r x).ramps = vset s.ramps r x := rfl
@[simp] theorem setRamp_lanes (r : Ramp) (x : RampCtx) : (s.setRamp r x).lanes = s.lanes := rfl
@[simp] theorem setRamp_auth (r : Ramp) (x : RampCtx) : (s.setRamp r x).auth = s.auth := rfl
@[simp] theorem setRamp_onTimers (r : Ramp) (x : RampCtx) : (s.setRamp r x).onTimers = s.onTimers := rfl
@[simp] theorem setRamp_lines (r : Ramp) (x : RampCtx) : (s.setRamp r x).lines = s.lines := rfl
@[simp] theorem setRamp_out (r : Ramp) (x : RampCtx) : (s.setRamp r x).out = s.out := rfl
@[simp] theorem setRamp_time (r : Ramp) (x : RampCtx) : (s.setRamp r x).time = s.time := rfl
@[simp] theorem setRamp_ring (r : Ramp) (x : RampCtx) : (s.setRamp r x).ring = s.ring := rfl

/-! ### modRamp -/

@[simp] theorem modRamp_pending (r : Ramp) (f : RampCtx → RampCtx) : (s.modRamp r f).pending = s.pending := rfl
@[simp] theorem modRamp_stride (r : Ramp) (f : RampCtx → RampCtx) : (s.modRamp r f).stride = s.stride := rfl
@[simp] theorem modRamp_freeCount (r : Ramp) (f : RampCtx → RampCtx) : (s.modRamp r f).freeCount = s.freeCount := rfl
@[simp] theorem modRamp_tables (r : Ramp) (f : RampCtx → RampCtx) : (s.modRamp r f).tables = s.tables := rfl
@[simp] theorem modRamp_det (r : Ramp) (f : RampCtx → RampCtx) : (s.modRamp r f).det = s.det := rfl
@[simp] theorem modRamp_vectors (r : Ramp) (f : RampCtx → RampCtx) : (s.modRamp r f).vectors = s.vectors := rfl
@[simp] theorem modRamp_rate (r : Ramp) (f : RampCtx → RampCtx) : (s.modRamp r f).rate = s.rate := rfl
@[simp] theorem modRamp_ramps (r : Ramp) (f : RampCtx → RampCtx) : (s.modRamp r f).ramps = vset s.ramps r (f s.ramps[r]) := rfl
@[simp] theorem modRamp_lanes (r : Ramp) (f : RampCtx → RampCtx) : (s.modRamp r f).lanes = s.lanes := rfl
@[simp] theorem modRamp_auth (r : Ramp) (f : RampCtx → RampCtx) : (s.modRamp r f).auth = s.auth := rfl
@[simp] theorem modRamp_onTimers (r : Ramp) (f : RampCtx → RampCtx) : (s.modRamp r f).onTimers = s.onTimers := rfl
@[simp] theorem modRamp_lines (r : Ramp) (f : RampCtx → RampCtx) : (s.modRamp r f).lines = s.lines := rfl
@[simp] theorem modRamp_out (r : Ramp) (f : RampCtx → RampCtx) : (s.modRamp r f).out = s.out := rfl
@[simp] theorem modRamp_time (r : Ramp) (f : RampCtx → RampCtx) : (s.modRamp r f).time = s.time := rfl
@[simp] theorem modRamp_ring (r : Ramp) (f : RampCtx → RampCtx) : (s.modRamp r f).ring = s.ring := rfl

/-! ### setLane -/

@[simp] theorem setLane_pending (l : Lane) (x : LaneCtx) : (s.setLane l x).pending = s.pending := rfl
@[simp] theorem setLane_stride (l : Lane) (x : LaneCtx) : (s.setLane l x).stride = s.stride := rfl
@[simp] theorem setLane_freeCount (l : Lane) (x : LaneCtx) : (s.setLane l x).freeCount = s.freeCount := rfl
@[simp] theorem setLane_tables (l : Lane) (x : LaneCtx) : (s.setLane l x).tables = s.tables := rfl
@[simp] theorem setLane_det (l : Lane) (x : LaneCtx) : (s.setLane l x).det = s.det := rfl
@[simp] theorem setLane_vectors (l : Lane) (x : LaneCtx) : (s.setLane l x).vectors = s.vectors := rfl
@[simp] theorem setLane_rate (l : Lane) (x : LaneCtx) : (s.setLane l x).rate = s.rate := rfl
@[simp] theorem setLane_ramps (l : Lane) (x : LaneCtx) : (s.setLane l x).ramps = s.ramps := rfl
@[simp] theorem setLane_lanes (l : Lane) (x : LaneCtx) : (s.setLane l x).lanes = vset s.lanes l x := rfl
@[simp] theorem setLane_auth (l : Lane) (x : LaneCtx) : (s.setLane l x).auth = s.auth := rfl
@[simp] theorem setLane_onTimers (l : Lane) (x : LaneCtx) : (s.setLane l x).onTimers = s.onTimers := rfl
@[simp] theorem setLane_lines (l : Lane) (x : LaneCtx) : (s.setLane l x).lines = s.lines := rfl
@[simp] theorem setLane_out (l : Lane) (x : LaneCtx) : (s.setLane l x).out = s.out := rfl
@[simp] theorem setLane_time (l : Lane) (x : LaneCtx) : (s.setLane l x).time = s.time := rfl
@[simp] theorem setLane_ring (l : Lane) (x : LaneCtx) : (s.setLane l x).ring = s.ring := rfl

/-! ### setAuth -/

@[simp] theorem setAuth_pending (r : Ramp) (x : AuthUnit) : (s.setAuth r x).pending = s.pending := rfl
@[simp] theorem setAuth_stride (r : Ramp) (x : AuthUnit) : (s.setAuth r x).stride = s.stride := rfl
@[simp] theorem setAuth_freeCount (r : Ramp) (x : AuthUnit) : (s.setAuth r x).freeCount = s.freeCount := rfl
@[simp] theorem setAuth_tables (r : Ramp) (x : AuthUnit) : (s.setAuth r x).tables = s.tables := rfl
@[simp] theorem setAuth_det (r : Ramp) (x : AuthUnit) : (s.setAuth r x).det = s.det := rfl
@[simp] theorem setAuth_vectors (r : Ramp) (x : AuthUnit) : (s.setAuth r x).vectors = s.vectors := rfl
@[simp] theorem setAuth_rate (r : Ramp) (x : AuthUnit) : (s.setAuth r x).rate = s.rate := rfl
@[simp] theorem setAuth_ramps (r : Ramp) (x : AuthUnit) : (s.setAuth r x).ramps = s.ramps := rfl
@[simp] theorem setAuth_lanes (r : Ramp) (x : AuthUnit) : (s.setAuth r x).lanes = s.lanes := rfl
@[simp] theorem setAuth_auth (r : Ramp) (x : AuthUnit) : (s.setAuth r x).auth = vset s.auth r x := rfl
@[simp] theorem setAuth_onTimers (r : Ramp) (x : AuthUnit) : (s.setAuth r x).onTimers = s.onTimers := rfl
@[simp] theorem setAuth_lines (r : Ramp) (x : AuthUnit) : (s.setAuth r x).lines = s.lines := rfl
@[simp] theorem setAuth_out (r : Ramp) (x : AuthUnit) : (s.setAuth r x).out = s.out := rfl
@[simp] theorem setAuth_time (r : Ramp) (x : AuthUnit) : (s.setAuth r x).time = s.time := rfl
@[simp] theorem setAuth_ring (r : Ramp) (x : AuthUnit) : (s.setAuth r x).ring = s.ring := rfl

/-! ### setRate -/

@[simp] theorem setRate_pending (r : Ramp) (x : RateRec) : (s.setRate r x).pending = s.pending := rfl
@[simp] theorem setRate_stride (r : Ramp) (x : RateRec) : (s.setRate r x).stride = s.stride := rfl
@[simp] theorem setRate_freeCount (r : Ramp) (x : RateRec) : (s.setRate r x).freeCount = s.freeCount := rfl
@[simp] theorem setRate_tables (r : Ramp) (x : RateRec) : (s.setRate r x).tables = s.tables := rfl
@[simp] theorem setRate_det (r : Ramp) (x : RateRec) : (s.setRate r x).det = s.det := rfl
@[simp] theorem setRate_vectors (r : Ramp) (x : RateRec) : (s.setRate r x).vectors = s.vectors := rfl
@[simp] theorem setRate_rate (r : Ramp) (x : RateRec) : (s.setRate r x).rate = vset s.rate r x := rfl
@[simp] theorem setRate_ramps (r : Ramp) (x : RateRec) : (s.setRate r x).ramps = s.ramps := rfl
@[simp] theorem setRate_lanes (r : Ramp) (x : RateRec) : (s.setRate r x).lanes = s.lanes := rfl
@[simp] theorem setRate_auth (r : Ramp) (x : RateRec) : (s.setRate r x).auth = s.auth := rfl
@[simp] theorem setRate_onTimers (r : Ramp) (x : RateRec) : (s.setRate r x).onTimers = s.onTimers := rfl
@[simp] theorem setRate_lines (r : Ramp) (x : RateRec) : (s.setRate r x).lines = s.lines := rfl
@[simp] theorem setRate_out (r : Ramp) (x : RateRec) : (s.setRate r x).out = s.out := rfl
@[simp] theorem setRate_time (r : Ramp) (x : RateRec) : (s.setRate r x).time = s.time := rfl
@[simp] theorem setRate_ring (r : Ramp) (x : RateRec) : (s.setRate r x).ring = s.ring := rfl

/-! ### setVector -/

@[simp] theorem setVector_pending (r : Ramp) (x : Vector Bool 16) : (s.setVector r x).pending = s.pending := rfl
@[simp] theorem setVector_stride (r : Ramp) (x : Vector Bool 16) : (s.setVector r x).stride = s.stride := rfl
@[simp] theorem setVector_freeCount (r : Ramp) (x : Vector Bool 16) : (s.setVector r x).freeCount = s.freeCount := rfl
@[simp] theorem setVector_tables (r : Ramp) (x : Vector Bool 16) : (s.setVector r x).tables = s.tables := rfl
@[simp] theorem setVector_det (r : Ramp) (x : Vector Bool 16) : (s.setVector r x).det = s.det := rfl
@[simp] theorem setVector_vectors (r : Ramp) (x : Vector Bool 16) : (s.setVector r x).vectors = vset s.vectors r x := rfl
@[simp] theorem setVector_rate (r : Ramp) (x : Vector Bool 16) : (s.setVector r x).rate = s.rate := rfl
@[simp] theorem setVector_ramps (r : Ramp) (x : Vector Bool 16) : (s.setVector r x).ramps = s.ramps := rfl
@[simp] theorem setVector_lanes (r : Ramp) (x : Vector Bool 16) : (s.setVector r x).lanes = s.lanes := rfl
@[simp] theorem setVector_auth (r : Ramp) (x : Vector Bool 16) : (s.setVector r x).auth = s.auth := rfl
@[simp] theorem setVector_onTimers (r : Ramp) (x : Vector Bool 16) : (s.setVector r x).onTimers = s.onTimers := rfl
@[simp] theorem setVector_lines (r : Ramp) (x : Vector Bool 16) : (s.setVector r x).lines = s.lines := rfl
@[simp] theorem setVector_out (r : Ramp) (x : Vector Bool 16) : (s.setVector r x).out = s.out := rfl
@[simp] theorem setVector_time (r : Ramp) (x : Vector Bool 16) : (s.setVector r x).time = s.time := rfl
@[simp] theorem setVector_ring (r : Ramp) (x : Vector Bool 16) : (s.setVector r x).ring = s.ring := rfl

/-! ### setChan -/

@[simp] theorem setChan_pending (ch : Channel) (x : DetState) : (s.setChan ch x).pending = s.pending := rfl
@[simp] theorem setChan_stride (ch : Channel) (x : DetState) : (s.setChan ch x).stride = s.stride := rfl
@[simp] theorem setChan_freeCount (ch : Channel) (x : DetState) : (s.setChan ch x).freeCount = s.freeCount := rfl
@[simp] theorem setChan_tables (ch : Channel) (x : DetState) : (s.setChan ch x).tables = s.tables := rfl
@[simp] theorem setChan_det (ch : Channel) (x : DetState) : (s.setChan ch x).det = { s.det with chans := vset s.det.chans ch x } := rfl
@[simp] theorem setChan_vectors (ch : Channel) (x : DetState) : (s.setChan ch x).vectors = s.vectors := rfl
@[simp] theorem setChan_rate (ch : Channel) (x : DetState) : (s.setChan ch x).rate = s.rate := rfl
@[simp] theorem setChan_ramps (ch : Channel) (x : DetState) : (s.setChan ch x).ramps = s.ramps := rfl
@[simp] theorem setChan_lanes (ch : Channel) (x : DetState) : (s.setChan ch x).lanes = s.lanes := rfl
@[simp] theorem setChan_auth (ch : Channel) (x : DetState) : (s.setChan ch x).auth = s.auth := rfl
@[simp] theorem setChan_onTimers (ch : Channel) (x : DetState) : (s.setChan ch x).onTimers = s.onTimers := rfl
@[simp] theorem setChan_lines (ch : Channel) (x : DetState) : (s.setChan ch x).lines = s.lines := rfl
@[simp] theorem setChan_out (ch : Channel) (x : DetState) : (s.setChan ch x).out = s.out := rfl
@[simp] theorem setChan_time (ch : Channel) (x : DetState) : (s.setChan ch x).time = s.time := rfl
@[simp] theorem setChan_ring (ch : Channel) (x : DetState) : (s.setChan ch x).ring = s.ring := rfl

/-! ### setOut -/

@[simp] theorem setOut_pending (ch : OutCh) (x : OutChan) : (s.setOut ch x).pending = s.pending := rfl
@[simp] theorem setOut_stride (ch : OutCh) (x : OutChan) : (s.setOut ch x).stride = s.stride := rfl
@[simp] theorem setOut_freeCount (ch : OutCh) (x : OutChan) : (s.setOut ch x).freeCount = s.freeCount := rfl
@[simp] theorem setOut_tables (ch : OutCh) (x : OutChan) : (s.setOut ch x).tables = s.tables := rfl
@[simp] theorem setOut_det (ch : OutCh) (x : OutChan) : (s.setOut ch x).det = s.det := rfl
@[simp] theorem setOut_vectors (ch : OutCh) (x : OutChan) : (s.setOut ch x).vectors = s.vectors := rfl
@[simp] theorem setOut_rate (ch : OutCh) (x : OutChan) : (s.setOut ch x).rate = s.rate := rfl
@[simp] theorem setOut_ramps (ch : OutCh) (x : OutChan) : (s.setOut ch x).ramps = s.ramps := rfl
@[simp] theorem setOut_lanes (ch : OutCh) (x : OutChan) : (s.setOut ch x).lanes = s.lanes := rfl
@[simp] theorem setOut_auth (ch : OutCh) (x : OutChan) : (s.setOut ch x).auth = s.auth := rfl
@[simp] theorem setOut_onTimers (ch : OutCh) (x : OutChan) : (s.setOut ch x).onTimers = s.onTimers := rfl
@[simp] theorem setOut_lines (ch : OutCh) (x : OutChan) : (s.setOut ch x).lines = s.lines := rfl
@[simp] theorem setOut_out (ch : OutCh) (x : OutChan) : (s.setOut ch x).out = { s.out with chans := vset s.out.chans ch x } := rfl
@[simp] theorem setOut_time (ch : OutCh) (x : OutChan) : (s.setOut ch x).time = s.time := rfl
@[simp] theorem setOut_ring (ch : OutCh) (x : OutChan) : (s.setOut ch x).ring = s.ring := rfl

/-! ### setLine -/

@[simp] theorem setLine_pending (l : Line) (x : LineState) : (s.setLine l x).pending = s.pending := rfl
@[simp] theorem setLine_stride (l : Line) (x : LineState) : (s.setLine l x).stride = s.stride := rfl
@[simp] theorem setLine_freeCount (l : Line) (x : LineState) : (s.setLine l x).freeCount = s.freeCount := rfl
@[simp] theorem setLine_tables (l : Line) (x : LineState) : (s.setLine l x).tables = s.tables := rfl
@[simp] theorem setLine_det (l : Line) (x : LineState) : (s.setLine l x).det = s.det := rfl
@[simp] theorem setLine_vectors (l : Line) (x : LineState) : (s.setLine l x).vectors = s.vectors := rfl
@[simp] theorem setLine_rate (l : Line) (x : LineState) : (s.setLine l x).rate = s.rate := rfl
@[simp] theorem setLine_ramps (l : Line) (x : LineState) : (s.setLine l x).ramps = s.ramps := rfl
@[simp] theorem setLine_lanes (l : Line) (x : LineState) : (s.setLine l x).lanes = s.lanes := rfl
@[simp] theorem setLine_auth (l : Line) (x : LineState) : (s.setLine l x).auth = s.auth := rfl
@[simp] theorem setLine_onTimers (l : Line) (x : LineState) : (s.setLine l x).onTimers = s.onTimers := rfl
@[simp] theorem setLine_lines (l : Line) (x : LineState) : (s.setLine l x).lines = vset s.lines l x := rfl
@[simp] theorem setLine_out (l : Line) (x : LineState) : (s.setLine l x).out = s.out := rfl
@[simp] theorem setLine_time (l : Line) (x : LineState) : (s.setLine l x).time = s.time := rfl
@[simp] theorem setLine_ring (l : Line) (x : LineState) : (s.setLine l x).ring = s.ring := rfl

/-! ### setOnTimer -/

@[simp] theorem setOnTimer_pending (ch : Channel) (x : Timer) : (s.setOnTimer ch x).pending = s.pending := rfl
@[simp] theorem setOnTimer_stride (ch : Channel) (x : Timer) : (s.setOnTimer ch x).stride = s.stride := rfl
@[simp] theorem setOnTimer_freeCount (ch : Channel) (x : Timer) : (s.setOnTimer ch x).freeCount = s.freeCount := rfl
@[simp] theorem setOnTimer_tables (ch : Channel) (x : Timer) : (s.setOnTimer ch x).tables = s.tables := rfl
@[simp] theorem setOnTimer_det (ch : Channel) (x : Timer) : (s.setOnTimer ch x).det = s.det := rfl
@[simp] theorem setOnTimer_vectors (ch : Channel) (x : Timer) : (s.setOnTimer ch x).vectors = s.vectors := rfl
@[simp] theorem setOnTimer_rate (ch : Channel) (x : Timer) : (s.setOnTimer ch x).rate = s.rate := rfl
@[simp] theorem setOnTimer_ramps (ch : Channel) (x : Timer) : (s.setOnTimer ch x).ramps = s.ramps := rfl
@[simp] theorem setOnTimer_lanes (ch : Channel) (x : Timer) : (s.setOnTimer ch x).lanes = s.lanes := rfl
@[simp] theorem setOnTimer_auth (ch : Channel) (x : Timer) : (s.setOnTimer ch x).auth = s.auth := rfl
@[simp] theorem setOnTimer_onTimers (ch : Channel) (x : Timer) : (s.setOnTimer ch x).onTimers = vset s.onTimers ch x := rfl
@[simp] theorem setOnTimer_lines (ch : Channel) (x : Timer) : (s.setOnTimer ch x).lines = s.lines := rfl
@[simp] theorem setOnTimer_out (ch : Channel) (x : Timer) : (s.setOnTimer ch x).out = s.out := rfl
@[simp] theorem setOnTimer_time (ch : Channel) (x : Timer) : (s.setOnTimer ch x).time = s.time := rfl
@[simp] theorem setOnTimer_ring (ch : Channel) (x : Timer) : (s.setOnTimer ch x).ring = s.ring := rfl

end State

end Sys2Proof.Machine
end

