-- ==== Sys2Proof/Laws/Authority.lean ====
section
/-! SUPPORT. What each operation of an Authority Unit does to its stack and holds: it keeps `AuthUnit.Ok`, and leaves
the assertion of FAILSAFE alone where it does not set it. -/

namespace Sys2Proof.Machine

namespace AuthUnit

theorem setSource_get (a : AuthUnit) (k j : Source) (x : SourceRec) :
    (a.setSource k x).sources[j] = if k = j then x else a.sources[j] := by
  simp only [setSource, vset_get]

@[simp] theorem setSource_holder (a : AuthUnit) (k : Source) (x : SourceRec) :
    (a.setSource k x).holder = a.holder := rfl
@[simp] theorem setSource_granted (a : AuthUnit) (k : Source) (x : SourceRec) :
    (a.setSource k x).granted = a.granted := rfl
@[simp] theorem setSource_stack (a : AuthUnit) (k : Source) (x : SourceRec) :
    (a.setSource k x).stack = a.stack := rfl

/-- A source's record written without changing its hold. -/
theorem setSource_ok {a : AuthUnit} (h : a.Ok) (k : Source) (x : SourceRec) (e : x.hold = (a.sources[k]).hold) :
    (a.setSource k x).Ok := by
  have g : ∀ j : Source, ((a.setSource k x).sources[j]).hold = (a.sources[j]).hold := by
    intro j; rw [setSource_get]; split
    · next e' => subst e'; exact e
    · rfl
  refine ⟨h.sorted, h.below, h.vacant, ?_, ?_, ?_⟩
  · intro j n hj; rw [g] at hj; exact h.running j n hj
  · intro j n hj; rw [g] at hj; exact h.paused j n hj
  · intro j hj; rw [g] at hj; exact h.uncapped j hj

theorem refresh_ok {a : AuthUnit} (h : a.Ok) (k : Source) : (a.refresh k).Ok := setSource_ok h k _ rfl

theorem refreshLower_ok {a : AuthUnit} (h : a.Ok) : a.refreshLower.Ok :=
  refresh_ok (refresh_ok (refresh_ok (refresh_ok h 2) 3) 4) 5

theorem refreshAll_ok {a : AuthUnit} (h : a.Ok) : a.refreshAll.Ok := refreshLower_ok (refresh_ok (refresh_ok h 0) 1)

theorem setAsserted_ok {a : AuthUnit} (h : a.Ok) (k : Source) (v : Bool) : (a.setAsserted k v).Ok :=
  setSource_ok h k _ rfl

theorem clearTimer_ok {a : AuthUnit} (h : a.Ok) (t : Timer) : ({ a with clearTimer := t } : AuthUnit).Ok :=
  ⟨h.sorted, h.below, h.vacant, h.running, h.paused, h.uncapped⟩

theorem enterOff_hold (a : AuthUnit) (k : Source) : (a.enterOff.sources[k]).hold = none := by
  simp only [enterOff, vmap_get]

theorem enterOff_ok (a : AuthUnit) : a.enterOff.Ok := by
  refine ⟨List.Pairwise.nil, ?_, fun _ => ⟨rfl, rfl⟩, ?_, ?_, ?_⟩
  · intro k hk; cases hk
  · intro k n hk; rw [enterOff_hold] at hk; cases hk
  · intro k n hk; rw [enterOff_hold] at hk; cases hk
  · intro k hk; rw [enterOff_hold] at hk; cases hk

/-! ### Holds dropped -/

theorem dropHold_get (a : AuthUnit) (k j : Source) :
    ((a.dropHold k).sources[j]).hold = if k = j then none else (a.sources[j]).hold := by
  rw [dropHold, setSource_get]; split <;> simp_all

theorem dropHold_flags (a : AuthUnit) (k j : Source) :
    ((a.dropHold k).sources[j]).standing = (a.sources[j]).standing
      ∧ ((a.dropHold k).sources[j]).asserted = (a.sources[j]).asserted := by
  rw [dropHold, setSource_get]; split
  · next e => subst e; exact ⟨rfl, rfl⟩
  · exact ⟨rfl, rfl⟩

theorem dropHolds_get (l : List Source) (a : AuthUnit) (j : Source) :
    ((a.dropHolds l).sources[j]).hold = if j ∈ l then none else (a.sources[j]).hold := by
  induction l generalizing a with
  | nil => simp [dropHolds]
  | cons k l ih =>
    have e : a.dropHolds (k :: l) = (a.dropHold k).dropHolds l := rfl
    rw [e, ih, dropHold_get]
    by_cases h1 : j ∈ l
    · rw [if_pos h1, if_pos (List.mem_cons_of_mem k h1)]
    · by_cases h2 : k = j
      · subst h2; rw [if_neg h1, if_pos rfl, if_pos List.mem_cons_self]
      · rw [if_neg h1, if_neg h2, if_neg]
        rw [List.mem_cons, not_or]; exact ⟨fun e => h2 e.symm, h1⟩

theorem dropHolds_flags (l : List Source) (a : AuthUnit) (j : Source) :
    ((a.dropHolds l).sources[j]).standing = (a.sources[j]).standing
      ∧ ((a.dropHolds l).sources[j]).asserted = (a.sources[j]).asserted := by
  induction l generalizing a with
  | nil => exact ⟨rfl, rfl⟩
  | cons k l ih =>
    have e : a.dropHolds (k :: l) = (a.dropHold k).dropHolds l := rfl
    rw [e, (ih _).1, (ih _).2]; exact dropHold_flags a k j

theorem dropHolds_rest (l : List Source) (a : AuthUnit) :
    (a.dropHolds l).stack = a.stack ∧ (a.dropHolds l).holder = a.holder ∧ (a.dropHolds l).granted = a.granted := by
  induction l generalizing a with
  | nil => exact ⟨rfl, rfl, rfl⟩
  | cons k l ih => exact ih (a.dropHold k)

/-! ### Arbitration (R105) -/

theorem prune_ok {a : AuthUnit} (h : a.Ok) : a.prune.Ok := by
  have hs : a.prune.stack = a.stack.filter fun k => (a.sources[k]).standing := rfl
  have hh : a.prune.holder = a.holder := (dropHolds_rest _ a).2.1
  have hg : a.prune.granted = a.granted := (dropHolds_rest _ a).2.2
  have hk : ∀ j : Source, (a.prune.sources[j]).hold
      = if j ∈ a.stack.filter (fun k => !(a.sources[k]).standing) then none else (a.sources[j]).hold :=
    fun j => dropHolds_get _ a j
  refine ⟨?_, ?_, ?_, ?_, ?_, ?_⟩
  · rw [hs]; exact h.sorted.filter _
  · intro k hk' x hx; rw [hs] at hk'; rw [hh] at hx; exact h.below k (List.mem_of_mem_filter hk') x hx
  · intro e; rw [hh] at e; rw [hs, hg, (h.vacant e).1]; exact ⟨rfl, (h.vacant e).2⟩
  · intro k n e; rw [hk] at e; split at e
    · cases e
    · rw [hh]; exact h.running k n e
  · intro k n e; rw [hk] at e; split at e
    · cases e
    · next hn =>
      have := h.paused k n e
      rw [hs, List.mem_filter]; refine ⟨this, ?_⟩
      simpa [List.mem_filter, this] using hn
  · intro k e; rw [hk] at e; split at e
    · cases e
    · next hn =>
      rw [hh, hs]
      rcases h.uncapped k e with e1 | e1
      · exact Or.inl e1
      · right; rw [List.mem_filter]; refine ⟨e1, ?_⟩; simpa [List.mem_filter, e1] using hn

theorem prune_standing (a : AuthUnit) (j : Source) : (a.prune.sources[j]).standing = (a.sources[j]).standing :=
  (dropHolds_flags _ a j).1

/-- What stands in the pruned stack is ELIGIBLE. -/
theorem prune_stack_standing (a : AuthUnit) (k : Source) (hk : k ∈ a.prune.stack) :
    (a.prune.sources[k]).standing = true := by
  rw [prune_standing]
  have hs : a.prune.stack = a.stack.filter fun k => (a.sources[k]).standing := rfl
  rw [hs, List.mem_filter] at hk; exact hk.2

theorem vacate_ok {a : AuthUnit} (h : a.Ok) : a.vacate.Ok := by
  have hk : ∀ j : Source, (a.vacate.sources[j]).hold
      = if j ∈ a.holder.toList ++ a.stack then none else (a.sources[j]).hold := fun j => dropHolds_get _ a j
  have none_left : ∀ j : Source, (a.vacate.sources[j]).hold = none := by
    intro j; rw [hk]; split
    · rfl
    · next hn =>
      simp only [List.mem_append, Option.mem_toList, not_or] at hn
      match e : (a.sources[j]).hold with
      | none => rfl
      | some (.running n) => exact absurd (h.running j n e) (by simpa [eq_comm] using hn.1)
      | some (.paused n) => exact absurd (h.paused j n e) hn.2
      | some .uncapped =>
        rcases h.uncapped j e with e1 | e1
        · exact absurd e1 (by simpa [eq_comm] using hn.1)
        · exact absurd e1 hn.2
  refine ⟨List.Pairwise.nil, ?_, fun _ => ⟨rfl, rfl⟩, ?_, ?_, ?_⟩
  · intro k hk; cases hk
  · intro k n e; rw [none_left] at e; cases e
  · intro k n e; rw [none_left] at e; cases e
  · intro k e; rw [none_left] at e; cases e

/-- The winner is ELIGIBLE, and no ELIGIBLE source has a lower number (R105, step 2). -/
theorem winner_spec {a : AuthUnit} {w : Source} (h : a.winner = some w) :
    (a.sources[w]).standing = true ∧ ∀ k : Source, (a.sources[k]).standing = true → w ≤ k := by
  have h' : (List.finRange 6).find? (fun k : Source => (a.sources[k]).standing) = some w := h
  refine ⟨by simpa using List.find?_some h', fun k hk => ?_⟩
  by_contra hlt
  rw [not_le] at hlt
  rw [List.find?_eq_some_iff_append] at h'
  obtain ⟨_, as, bs, he, hno⟩ := h'
  have hsort : (as ++ w :: bs).Pairwise (· < ·) := by
    rw [← he]; exact List.pairwise_lt_finRange 6
  have hm : k ∈ as ++ w :: bs := by rw [← he]; exact List.mem_finRange k
  rcases List.mem_append.1 hm with hm | hm
  · have := hno k hm; rw [hk] at this; cases this
  · rcases List.mem_cons.1 hm with rfl | hm
    · exact lt_irrefl _ hlt
    · rw [List.pairwise_append] at hsort
      exact absurd (List.rel_of_pairwise_cons hsort.2.1 hm) (not_lt.2 hlt.le)

/-- Step 4 of R105 leaves a stack of ELIGIBLE sources and holds in the stack alone. -/
structure Suspended (w : Source) (a : AuthUnit) : Prop where
  sorted : a.stack.Pairwise (· < ·)
  above : ∀ k ∈ a.stack, w ≤ k
  holds : ∀ (k : Source), (a.sources[k]).hold ≠ none → k ∈ a.stack
  stopped : ∀ (k : Source) (n : Nat), (a.sources[k]).hold ≠ some (.running n)

theorem suspend_spec {a : AuthUnit} (h : a.Ok) {w : Source} (hw : a.winner = some w)
    (hst : ∀ k ∈ a.stack, (a.sources[k]).standing = true) : Suspended w a.suspend := by
  have top := (winner_spec hw).2
  have inStack : ∀ (k : Source), (a.sources[k]).hold ≠ none → a.holder ≠ some k → k ∈ a.stack := by
    intro k e hk
    match e' : (a.sources[k]).hold with
    | none => exact absurd e' e
    | some (.running n) => exact absurd (h.running k n e') hk
    | some (.paused n) => exact h.paused k n e'
    | some .uncapped => exact (h.uncapped k e').resolve_left hk
  unfold suspend
  split
  · next e =>
    refine ⟨h.sorted, fun k hk => top k (hst k hk), fun k hk => inStack k hk (by simp [e]), ?_⟩
    intro k n hk; simp [h.running k n hk] at e
  · next x e =>
    have others : ∀ (k : Source), k ≠ x → (a.sources[k]).hold ≠ none → k ∈ a.stack :=
      fun k hk hh => inStack k hh (by rw [e]; simpa [eq_comm] using hk)
    have stays : ∀ (k : Source) (n : Nat), k ≠ x → (a.sources[k]).hold ≠ some (.running n) := by
      intro k n hk hh
      have := h.running k n hh
      rw [e] at this
      exact hk (Option.some.inj this).symm
    split
    · next hs =>
      split
      · refine ⟨h.sorted, fun k hk => top k (hst k hk), ?_, ?_⟩
        · intro k hk
          simp only [expireHold, setSource_get] at hk
          split at hk
          · simp at hk
          · next hx => exact others k (by simpa [eq_comm] using hx) hk
        · intro k n hk
          simp only [expireHold, setSource_get] at hk
          split at hk
          · cases hk
          · next hx => exact stays k n (by simpa [eq_comm] using hx) hk
      · refine ⟨?_, ?_, ?_, ?_⟩
        · exact List.Pairwise.cons (fun k hk => h.below k hk x e) h.sorted
        · intro k hk
          rcases List.mem_cons.1 hk with rfl | hk
          · exact top _ hs
          · exact top k (hst k hk)
        · intro k hk
          show k ∈ x :: a.stack
          by_cases hx : x = k
          · subst hx; exact List.mem_cons_self
          · have hk' : ((a.push x).sources[k]).hold = (a.sources[k]).hold := by
              show ((a.setSource x _).sources[k]).hold = _
              rw [setSource_get, if_neg hx]
            rw [hk'] at hk
            exact List.mem_cons_of_mem _ (others k (by simpa [eq_comm] using hx) hk)
        · intro k n hk
          by_cases hx : x = k
          · subst hx
            have hk' : ((a.push x).sources[x]).hold = (match (a.sources[x]).hold with
                | some (.running n) => some (.paused n)
                | o => o) := by
              show ((a.setSource x _).sources[x]).hold = _
              rw [setSource_get, if_pos rfl]; all_goals rfl
            rw [hk'] at hk
            match e' : (a.sources[x]).hold with
            | none => rw [e'] at hk; cases hk
            | some (.running m) => rw [e'] at hk; cases hk
            | some (.paused m) => rw [e'] at hk; cases hk
            | some .uncapped => rw [e'] at hk; cases hk
          · have hk' : ((a.push x).sources[k]).hold = (a.sources[k]).hold := by
              show ((a.setSource x _).sources[k]).hold = _
              rw [setSource_get, if_neg hx]
            rw [hk'] at hk
            exact stays k n (by simpa [eq_comm] using hx) hk
    · refine ⟨h.sorted, fun k hk => top k (hst k hk), ?_, ?_⟩
      · intro k hk
        rw [dropHold_get] at hk
        split at hk
        · exact absurd rfl hk
        · next hx => exact others k (by simpa [eq_comm] using hx) hk
      · intro k n hk
        rw [dropHold_get] at hk
        split at hk
        · cases hk
        · next hx => exact stays k n (by simpa [eq_comm] using hx) hk

/-- A grant of the winner keeps the unit in order (R105, step 5). -/
theorem grant_ok {a : AuthUnit} {w : Source} (h : Suspended w a) (rec : Option ActionRec) (now : Nat) :
    (a.grant w rec now).Ok := by
  have strict : ∀ k ∈ a.stack, k ≠ w → w < k := fun k hk hn => lt_of_le_of_ne (h.above k hk) hn.symm
  unfold grant
  split
  · next hm =>
    have get : ∀ k : Source, k ≠ w →
        ((a.setSource w { a.sources[w] with hold := (a.sources[w]).hold.map Hold.resume }).sources[k]).hold
          = (a.sources[k]).hold := by
      intro k hk; rw [setSource_get, if_neg hk.symm]
    refine ⟨h.sorted.filter _, ?_, by simp, ?_, ?_, ?_⟩
    · intro k hk x hx
      rw [List.mem_filter] at hk
      cases hx
      exact strict k hk.1 (by simpa using hk.2)
    · intro k n hk
      by_cases hw : k = w
      · subst hw; rfl
      · exact absurd ((get k hw).symm.trans hk) (h.stopped k n)
    · intro k n hk
      by_cases hw : k = w
      · subst hw
        have : ((a.setSource k { a.sources[k] with hold := (a.sources[k]).hold.map Hold.resume }).sources[k]).hold
            = some (.paused n) := hk
        rw [setSource_get, if_pos rfl] at this
        change (a.sources[k]).hold.map Hold.resume = some (.paused n) at this
        match e : (a.sources[k]).hold with
        | none => rw [e] at this; cases this
        | some (.running m) => rw [e] at this; cases this
        | some (.paused m) => rw [e] at this; cases this
        | some .uncapped => rw [e] at this; cases this
      · have e := (get k hw).symm.trans hk
        rw [List.mem_filter]
        exact ⟨h.holds k (by rw [e]; simp), by simpa using hw⟩
    · intro k hk
      by_cases hw : k = w
      · subst hw; exact Or.inl rfl
      · have e := (get k hw).symm.trans hk
        right
        rw [List.mem_filter]
        exact ⟨h.holds k (by rw [e]; simp), by simpa using hw⟩
  · next hm =>
    have get : ∀ k : Source, k ≠ w →
        ((a.setSource w { a.sources[w] with hold := some (freshHold w rec) }).sources[k]).hold
          = (a.sources[k]).hold := by
      intro k hk; rw [setSource_get, if_neg hk.symm]
    refine ⟨h.sorted, ?_, by simp, ?_, ?_, ?_⟩
    · intro k hk x hx
      cases hx
      exact strict k hk (by rintro rfl; exact hm hk)
    · intro k n hk
      by_cases hw : k = w
      · subst hw; rfl
      · exact absurd ((get k hw).symm.trans hk) (h.stopped k n)
    · intro k n hk
      by_cases hw : k = w
      · subst hw
        have : ((a.setSource k { a.sources[k] with hold := some (freshHold k rec) }).sources[k]).hold
            = some (.paused n) := hk
        rw [setSource_get, if_pos rfl] at this
        change some (freshHold k rec) = some (.paused n) at this
        unfold freshHold at this
        split at this
        · simp at this
        · split at this <;> simp at this
      · have e := (get k hw).symm.trans hk
        exact h.holds k (by rw [e]; simp)
    · intro k hk
      by_cases hw : k = w
      · subst hw; exact Or.inl rfl
      · have e := (get k hw).symm.trans hk
        exact Or.inr (h.holds k (by rw [e]; simp))

/-- Arbitration keeps the unit in order (R105, R106). -/
theorem arbitrate_ok {a : AuthUnit} (h : a.Ok) (rec : Source → Option ActionRec) (now : Nat) :
    (a.arbitrate rec now).1.Ok := by
  unfold arbitrate
  dsimp only
  split
  · exact vacate_ok (prune_ok h)
  · next w hw =>
    split
    · exact prune_ok h
    · exact grant_ok (suspend_spec (prune_ok h) hw (prune_stack_standing a)) _ _

/-- Arbitration of a unit whose holder's hold has just expired (R110): the holder has no hold then. -/
theorem expireHold_ok {a : AuthUnit} (h : a.Ok) (k : Source) : (a.expireHold k).Ok := by
  have g : ∀ j : Source, ((a.expireHold k).sources[j]).hold = if k = j then none else (a.sources[j]).hold := by
    intro j; rw [expireHold, setSource_get]; split <;> simp_all
  refine ⟨h.sorted, h.below, h.vacant, ?_, ?_, ?_⟩
  · intro j n hj; rw [g] at hj; split at hj
    · cases hj
    · exact h.running j n hj
  · intro j n hj; rw [g] at hj; split at hj
    · cases hj
    · exact h.paused j n hj
  · intro j hj; rw [g] at hj; split at hj
    · cases hj
    · exact h.uncapped j hj

/-- Time passing keeps the unit in order. -/
theorem pass_ok {a : AuthUnit} (h : a.Ok) (d : Nat) : (a.pass d).Ok := by
  have g : ∀ j : Source, ((a.pass d).sources[j]).hold = (a.sources[j]).hold.map (Hold.pass d) := by
    intro j; simp only [pass, vmap_get, SourceRec.pass]
  refine ⟨h.sorted, h.below, h.vacant, ?_, ?_, ?_⟩
  · intro j n hj; rw [g] at hj
    match e : (a.sources[j]).hold with
    | none => rw [e] at hj; cases hj
    | some (.running m) => exact h.running j m e
    | some (.paused m) => rw [e] at hj; cases hj
    | some .uncapped => rw [e] at hj; cases hj
  · intro j n hj; rw [g] at hj
    match e : (a.sources[j]).hold with
    | none => rw [e] at hj; cases hj
    | some (.running m) => rw [e] at hj; cases hj
    | some (.paused m) => exact h.paused j m e
    | some .uncapped => rw [e] at hj; cases hj
  · intro j hj; rw [g] at hj
    match e : (a.sources[j]).hold with
    | none => rw [e] at hj; cases hj
    | some (.running m) => rw [e] at hj; cases hj
    | some (.paused m) => rw [e] at hj; cases hj
    | some .uncapped => exact h.uncapped j e

/-! ### The assertion of a source -/

/-- No operation of arbitration touches what is asserted. -/
theorem setSource_asserted (a : AuthUnit) (k j : Source) (x : SourceRec) (e : x.asserted = (a.sources[k]).asserted) :
    ((a.setSource k x).sources[j]).asserted = (a.sources[j]).asserted := by
  rw [setSource_get]; split
  · next e' => subst e'; exact e
  · rfl

theorem refresh_get (a : AuthUnit) (k j : Source) : (a.refresh k).sources[j]
    = if k = j then { a.sources[k] with standing := (a.sources[k]).eligible } else a.sources[j] := by
  unfold refresh; rw [setSource_get]

/-- A slot boundary refreshes sources 2 to 5 (R103). -/
theorem refreshLower_get (a : AuthUnit) (k : Source) : a.refreshLower.sources[k]
    = if 2 ≤ k.val then { a.sources[k] with standing := (a.sources[k]).eligible } else a.sources[k] := by
  unfold refreshLower
  simp only [refresh_get]
  match k with
  | 0 => rfl
  | 1 => rfl
  | 2 => rfl
  | 3 => rfl
  | 4 => rfl
  | 5 => rfl

/-- RAMP MODE AUTO from OFF refreshes all six (R103). -/
theorem refreshAll_get (a : AuthUnit) (k : Source) :
    a.refreshAll.sources[k] = { a.sources[k] with standing := (a.sources[k]).eligible } := by
  unfold refreshAll
  simp only [refreshLower_get, refresh_get]
  match k with
  | 0 => rfl
  | 1 => rfl
  | 2 => rfl
  | 3 => rfl
  | 4 => rfl
  | 5 => rfl

theorem refresh_asserted (a : AuthUnit) (k j : Source) :
    ((a.refresh k).sources[j]).asserted = (a.sources[j]).asserted := setSource_asserted a k j _ rfl

theorem refreshLower_asserted (a : AuthUnit) (j : Source) :
    (a.refreshLower.sources[j]).asserted = (a.sources[j]).asserted := by
  simp only [refreshLower, refresh_asserted]

theorem refreshAll_asserted (a : AuthUnit) (j : Source) :
    (a.refreshAll.sources[j]).asserted = (a.sources[j]).asserted := by
  simp only [refreshAll, refreshLower_asserted, refresh_asserted]

theorem expireHold_asserted (a : AuthUnit) (k j : Source) :
    ((a.expireHold k).sources[j]).asserted = (a.sources[j]).asserted := setSource_asserted a k j _ rfl

theorem enterOff_asserted (a : AuthUnit) (j : Source) :
    (a.enterOff.sources[j]).asserted = (a.sources[j]).asserted := by simp only [enterOff, vmap_get]

theorem suspend_asserted (a : AuthUnit) (j : Source) :
    (a.suspend.sources[j]).asserted = (a.sources[j]).asserted := by
  unfold suspend
  split
  · rfl
  · split
    · split
      · exact expireHold_asserted a _ j
      · exact setSource_asserted a _ j _ rfl
    · exact (dropHold_flags a _ j).2

theorem grant_asserted (a : AuthUnit) (w j : Source) (rec : Option ActionRec) (now : Nat) :
    ((a.grant w rec now).sources[j]).asserted = (a.sources[j]).asserted := by
  unfold grant
  split <;> exact setSource_asserted a w j _ rfl

theorem arbitrate_asserted (a : AuthUnit) (rec : Source → Option ActionRec) (now : Nat) (j : Source) :
    ((a.arbitrate rec now).1.sources[j]).asserted = (a.sources[j]).asserted := by
  have p : (a.prune.sources[j]).asserted = (a.sources[j]).asserted := (dropHolds_flags _ a j).2
  unfold arbitrate
  dsimp only
  split
  · exact (dropHolds_flags _ a.prune j).2.trans p
  · split
    · exact p
    · rw [grant_asserted, suspend_asserted]; exact p

theorem setAsserted_asserted (a : AuthUnit) (k j : Source) (v : Bool) :
    ((a.setAsserted k v).sources[j]).asserted = if k = j then v else (a.sources[j]).asserted := by
  rw [setAsserted, setSource_get]; split <;> rfl

end AuthUnit

end Sys2Proof.Machine
end

