-- ==== Sys2Proof/Laws/Lanes.lean ====
section
/-! SUPPORT. Every move of a lane keeps `LaneCtx.Ok`: the interval fits the state, the green passage count stands
exactly in GREEN, the counts hold. -/

namespace Sys2Proof.Machine

theorem satInc_le (n : Nat) : satInc n ≤ 65535 := by
  unfold satInc; split <;> omega

theorem satInc_of_lt {n : Nat} (h : n < 65535) : satInc n = n + 1 := if_pos h

theorem LaneCounts.zero_ok : LaneCounts.zero.Ok := by unfold LaneCounts.Ok; decide

namespace LaneCtx

/-- A record with a new state, interval, passage count and counts, the last counts kept. -/
theorem Ok.of {x y : LaneCtx} (h : x.Ok) (hi : y.intervalOk) (hp : y.greenPassageCount.isSome = true ↔ y.state = .green)
    (hc : y.counts.Ok) (hl : y.last = x.last) : y.Ok :=
  ⟨hi, hp, hc, by rw [hl]; exact h.last⟩

end LaneCtx

/-- A rest, or DARK: no interval, no passage count. -/
theorem rest_ok {x y : LaneCtx} (h : x.Ok) (hs : y.state = .dark ∨ y.state = .greenRest ∨ y.state = .restRed)
    (hi : y.interval = none) (hp : y.greenPassageCount = none) (hc : y.counts = x.counts) (hl : y.last = x.last) :
    y.Ok := by
  refine h.of ?_ ?_ (by rw [hc]; exact h.counts) hl
  · unfold LaneCtx.intervalOk
    rcases hs with e | e | e <;> rw [e] <;> exact hi
  · rw [hp]; rcases hs with e | e | e <;> rw [e] <;> simp

/-- YELLOW or MIN_RED with a fixed green end. -/
theorem clearing_ok {x y : LaneCtx} (h : x.Ok) (hs : y.state = .yellow ∨ y.state = .minRed)
    (hi : ∃ v, y.interval = some v ∧ v.greenEnd.isSome = true) (hp : y.greenPassageCount = none)
    (hc : y.counts.Ok) (hl : y.last = x.last) : y.Ok := by
  refine h.of ?_ ?_ hc hl
  · obtain ⟨v, e, hv⟩ := hi
    unfold LaneCtx.intervalOk
    rcases hs with e' | e' <;> rw [e']
    · intro w hw; rw [e] at hw; cases hw; exact hv
    · exact ⟨v, e, hv⟩
  · rw [hp]; rcases hs with e | e <;> rw [e] <;> simp

theorem laneDark_ok {x : LaneCtx} (h : x.Ok) : (laneDark x).Ok := rest_ok h (Or.inl rfl) rfl rfl rfl rfl

theorem laneGreenRest_ok {x : LaneCtx} (h : x.Ok) : (laneGreenRest x).Ok :=
  rest_ok h (Or.inr (Or.inl rfl)) rfl rfl rfl rfl

theorem laneRestRed_ok {x : LaneCtx} (h : x.Ok) (c : LaneRec) (b : Bool) : (laneRestRed c b x).Ok :=
  rest_ok h (Or.inr (Or.inr rfl)) rfl rfl rfl rfl

/-- A change of regime alone. -/
theorem regime_ok {x : LaneCtx} (h : x.Ok) (g : Regime) : ({ x with regime := g } : LaneCtx).Ok :=
  ⟨h.interval, h.passages, h.counts, h.last⟩

/-- A change of the call alone. -/
theorem call_ok {x : LaneCtx} (h : x.Ok) (b : Bool) : ({ x with call := b } : LaneCtx).Ok :=
  ⟨h.interval, h.passages, h.counts, h.last⟩

/-- A change of the counts alone. -/
theorem counts_ok {x : LaneCtx} (h : x.Ok) {c : LaneCounts} (hc : c.Ok) : ({ x with counts := c } : LaneCtx).Ok :=
  ⟨h.interval, h.passages, hc, h.last⟩

theorem laneGreen_ok {x : LaneCtx} (h : x.Ok) (hi : ∃ v, x.interval = some v ∧ v.release.isSome = true) :
    (laneGreen x).Ok :=
  h.of hi (by simp [laneGreen]) h.counts rfl

theorem laneGreenEnds_ok {x : LaneCtx} (h : x.Ok) (v : Interval) : (laneGreenEnds v x).Ok := by
  refine clearing_ok h ?_ ⟨_, rfl, rfl⟩ rfl h.counts rfl
  unfold laneGreenEnds; dsimp only; split
  · exact Or.inr rfl
  · exact Or.inl rfl

theorem laneClearing_ok {x : LaneCtx} (h : x.Ok) (c : LaneRec) : (laneClearing c x).Ok := by
  refine clearing_ok h ?_ ⟨_, rfl, rfl⟩ rfl h.counts rfl
  unfold laneClearing; dsimp only; split
  · exact Or.inr rfl
  · exact Or.inl rfl

theorem laneDemand_ok {x : LaneCtx} (h : x.Ok) (c : LaneRec) : (laneDemand c x).Ok := by
  unfold laneDemand; split
  · exact call_ok h true
  · exact h

/-! ### Counts that rise -/

theorem LaneCounts.Ok.releases {c : LaneCounts} (h : c.Ok) : ({ c with releases := satInc c.releases } : LaneCounts).Ok :=
  ⟨satInc_le _, h.2⟩

theorem LaneCounts.Ok.idleOffers {c : LaneCounts} (h : c.Ok) :
    ({ c with idleOffers := satInc c.idleOffers } : LaneCounts).Ok := ⟨h.1, satInc_le _, h.2.2⟩

theorem LaneCounts.Ok.overrunSkips {c : LaneCounts} (h : c.Ok) :
    ({ c with overrunSkips := satInc c.overrunSkips } : LaneCounts).Ok := ⟨h.1, h.2.1, satInc_le _, h.2.2.2⟩

theorem LaneCounts.Ok.greenPassages {c : LaneCounts} (h : c.Ok) :
    ({ c with greenPassages := satInc c.greenPassages } : LaneCounts).Ok :=
  ⟨h.1, h.2.1, h.2.2.1, satInc_le _, h.2.2.2.2⟩

theorem LaneCounts.Ok.yellowPassages {c : LaneCounts} (h : c.Ok) :
    ({ c with yellowPassages := satInc c.yellowPassages } : LaneCounts).Ok :=
  ⟨h.1, h.2.1, h.2.2.1, h.2.2.2.1, satInc_le _, h.2.2.2.2.2⟩

theorem LaneCounts.Ok.violations {c : LaneCounts} (h : c.Ok) :
    ({ c with violations := satInc c.violations } : LaneCounts).Ok :=
  ⟨h.1, h.2.1, h.2.2.1, h.2.2.2.1, h.2.2.2.2.1, satInc_le _⟩

/-! ### Passages and offers -/

theorem laneGreenPassage_ok {x : LaneCtx} (h : x.Ok) (hg : x.state = .green) : (laneGreenPassage x).Ok := by
  have hy := counts_ok h h.counts.greenPassages
  unfold laneGreenPassage
  dsimp only
  split
  · split
    · split
      · split
        · exact laneGreenEnds_ok hy _
        · exact ⟨hy.interval, by simp [hg], hy.counts, hy.last⟩
      · exact hy
    · exact hy
  · exact hy

theorem lanePassage_ok {x : LaneCtx} (h : x.Ok) : (lanePassage x).Ok := by
  unfold lanePassage
  split
  · next e => exact laneGreenPassage_ok h e
  · exact counts_ok h h.counts.yellowPassages
  · exact counts_ok h h.counts.violations
  · exact counts_ok h h.counts.violations
  · exact counts_ok h h.counts.violations
  · exact h
  · exact h

theorem laneRelease_ok {x : LaneCtx} (h : x.Ok) (c : LaneRec) (hp : x.greenPassageCount = none) :
    (laneRelease c x).Ok := by
  unfold laneRelease
  dsimp only
  split
  · exact ⟨⟨_, rfl, rfl⟩, by simp [laneGreen], h.counts.releases, h.last⟩
  · exact ⟨⟨_, rfl, rfl⟩, by simp [hp], h.counts.releases, h.last⟩

theorem laneOffer_ok {x : LaneCtx} (h : x.Ok) (c : LaneRec) (b : Bool) : (laneOffer c b x).Ok := by
  unfold laneOffer
  split
  · next e =>
    split
    · refine laneRelease_ok h c ?_
      have := h.passages
      rw [e] at this
      cases hx : x.greenPassageCount with
      | none => rfl
      | some n => rw [hx] at this; simp at this
    · exact counts_ok h h.counts.idleOffers
  all_goals exact counts_ok h h.counts.overrunSkips

/-! ### Orders -/

theorem laneStartGreen_ok {x : LaneCtx} (h : x.Ok) : (laneStartGreen x).Ok := by
  unfold laneStartGreen; split
  · exact regime_ok (laneGreenRest_ok h) _
  · exact h

/-- No passage count outside GREEN. -/
theorem passages_none {x : LaneCtx} (h : x.Ok) (hs : x.state ≠ .green) : x.greenPassageCount = none := by
  cases hx : x.greenPassageCount with
  | none => rfl
  | some n => exact absurd (h.passages.1 (by rw [hx]; rfl)) hs

theorem laneStartYellow_ok {x : LaneCtx} (h : x.Ok) : (laneStartYellow x).Ok := by
  unfold laneStartYellow; split
  · next e =>
    refine ⟨?_, ?_, h.counts, h.last⟩
    · intro v hv; cases hv
    · simp [passages_none h (by rw [e]; decide)]
  · exact h

theorem laneStartRed_ok {x : LaneCtx} (h : x.Ok) (c : LaneRec) : (laneStartRed c x).Ok := by
  unfold laneStartRed; split
  · next e =>
    have hp : x.greenPassageCount = none := passages_none h (by rw [e]; decide)
    exact clearing_ok h (Or.inr rfl) ⟨_, rfl, rfl⟩ hp h.counts rfl
  · exact h

theorem laneFlush_ok {x : LaneCtx} (h : x.Ok) : (laneFlush x).Ok := by
  have hy := regime_ok h .flush
  unfold laneFlush
  dsimp only
  split
  · exact laneGreenRest_ok hy
  · exact laneGreenRest_ok hy
  · exact laneGreenRest_ok hy
  all_goals exact hy

theorem laneCut_ok {x : LaneCtx} (h : x.Ok) (hg : x.state = .green) : (laneCut x).Ok := by
  unfold laneCut
  split
  · next v e =>
    split
    · exact laneGreenEnds_ok h _
    · refine ⟨?_, h.passages, h.counts, h.last⟩
      have := h.interval
      unfold LaneCtx.intervalOk at this ⊢
      rw [hg] at this
      rw [show ({ x with interval := some { v with cut := true } } : LaneCtx).state = x.state from rfl, hg]
      obtain ⟨w, hw, hr⟩ := this
      rw [e] at hw; cases hw
      exact ⟨_, rfl, hr⟩
  · exact h

theorem laneHold_ok {x : LaneCtx} (h : x.Ok) (c : LaneRec) (b : Bool) : (laneHold c b x).Ok := by
  have hy := regime_ok h .hold
  unfold laneHold
  dsimp only
  split
  · exact hy
  · exact laneRestRed_ok hy c b
  · next e => exact laneCut_ok hy e
  · exact hy
  · exact hy
  · exact laneClearing_ok hy c
  · exact hy

theorem laneReturn_ok {x : LaneCtx} (h : x.Ok) (c : LaneRec) : (laneReturn c x).Ok := by
  have hy := regime_ok h .meter
  unfold laneReturn
  split
  · exact h
  · exact hy
  · split
    · exact laneClearing_ok hy c
    · exact hy

/-! ### Points of the interval -/

theorem greenEnded_ok {x : LaneCtx} (h : x.Ok) : (greenEnded x).Ok := by
  unfold greenEnded; split
  · exact laneGreenEnds_ok h _
  · exact h

theorem yellowEnded_ok {x : LaneCtx} (h : x.Ok) (hs : x.state = .yellow) (hi : x.interval ≠ none) :
    (yellowEnded x).Ok := by
  have hv := h.interval
  unfold LaneCtx.intervalOk at hv
  rw [hs] at hv
  obtain ⟨v, e⟩ := Option.ne_none_iff_exists'.1 hi
  have hp : x.greenPassageCount = none := passages_none h (by rw [hs]; decide)
  exact clearing_ok h (Or.inr rfl) ⟨v, e, hv v e⟩ hp h.counts rfl

theorem redEnded_ok {x : LaneCtx} (h : x.Ok) (c : LaneRec) (b : Bool) : (redEnded c b x).Ok := by
  unfold redEnded; split
  · exact laneGreenRest_ok h
  · exact laneRestRed_ok h c b
  · exact laneRestRed_ok h c b

theorem rollLane_ok {x : LaneCtx} (h : x.Ok) : (rollLane x).Ok :=
  ⟨h.interval, h.passages, LaneCounts.zero_ok, h.counts⟩

theorem lanePass_ok {x : LaneCtx} (h : x.Ok) (d : Nat) : (x.pass d).Ok := by
  refine ⟨?_, h.passages, h.counts, h.last⟩
  have hi := h.interval
  unfold LaneCtx.intervalOk at hi ⊢
  have e1 : (x.pass d).state = x.state := rfl
  have e2 : (x.pass d).interval = x.interval.map fun v => { v with counter := v.counter + d } := rfl
  rw [e1, e2]
  revert hi
  cases x.state <;> intro hi
  · rw [hi]; rfl
  · rw [hi]; rfl
  · rw [hi]; rfl
  · obtain ⟨v, e, hv⟩ := hi; rw [e]; exact ⟨_, rfl, hv⟩
  · obtain ⟨v, e, hv⟩ := hi; rw [e]; exact ⟨_, rfl, hv⟩
  · intro w hw
    cases e : x.interval with
    | none => rw [e] at hw; cases hw
    | some v => rw [e] at hw; cases hw; exact hi v e
  · obtain ⟨v, e, hv⟩ := hi; rw [e]; exact ⟨_, rfl, hv⟩

theorem laneReset_ok : LaneCtx.reset.Ok :=
  ⟨rfl, by decide, LaneCounts.zero_ok, LaneCounts.zero_ok⟩

end Sys2Proof.Machine
end

