-- ==== Sys2Proof/Laws/LaneSide.lean ====
section
/-! SUPPORT. What commanding aspects and moving lanes can do to the part, said once (`LaneSide`), and one lemma for
each operation of the Output Unit and the Lane Sequencers. -/

namespace Sys2Proof.Machine

/-- Only lanes, output channels, due SIGs and attention change: attention is only ever SET, every lane and channel record
stays in order, and no fault latches where no driver is silent. -/
structure LaneSide (s t : State) : Prop where
  pending : t.pending = s.pending
  stride : t.stride = s.stride
  freeCount : t.freeCount = s.freeCount
  tables : t.tables = s.tables
  det : t.det = s.det
  vectors : t.vectors = s.vectors
  rate : t.rate = s.rate
  auth : t.auth = s.auth
  onTimers : t.onTimers = s.onTimers
  lines : t.lines = s.lines
  time : t.time = s.time
  ring : t.ring = s.ring
  drivers : t.out.drivers = s.out.drivers
  ramps : ∀ r : Ramp, t.ramps[r] = s.ramps[r] ∨ t.ramps[r] = { s.ramps[r] with attention := true }
  lanes : ∀ l : Lane, (s.lanes[l]).Ok → (t.lanes[l]).Ok
  outs : ∀ ch : OutCh, (s.out.chans[ch]).Ok → (t.out.chans[ch]).Ok
  sound : (∀ d ∈ s.out.drivers, d.silence ≠ .expired) →
    ∀ ch : OutCh, (s.out.chans[ch]).fault = false → (t.out.chans[ch]).fault = false

namespace LaneSide

theorem refl (s : State) : LaneSide s s :=
  ⟨rfl, rfl, rfl, rfl, rfl, rfl, rfl, rfl, rfl, rfl, rfl, rfl, rfl, fun _ => Or.inl rfl, fun _ h => h, fun _ h => h,
    fun _ _ h => h⟩

theorem trans {s t u : State} (a : LaneSide s t) (b : LaneSide t u) : LaneSide s u where
  pending := b.pending.trans a.pending
  stride := b.stride.trans a.stride
  freeCount := b.freeCount.trans a.freeCount
  tables := b.tables.trans a.tables
  det := b.det.trans a.det
  vectors := b.vectors.trans a.vectors
  rate := b.rate.trans a.rate
  auth := b.auth.trans a.auth
  onTimers := b.onTimers.trans a.onTimers
  lines := b.lines.trans a.lines
  time := b.time.trans a.time
  ring := b.ring.trans a.ring
  drivers := b.drivers.trans a.drivers
  ramps r := by
    rcases a.ramps r with e | e <;> rcases b.ramps r with e' | e' <;> rw [e', e]
    · exact Or.inl rfl
    · exact Or.inr rfl
    · exact Or.inr rfl
    · exact Or.inr rfl
  lanes l h := b.lanes l (a.lanes l h)
  outs ch h := b.outs ch (a.outs ch h)
  sound hd ch h := b.sound (by rw [a.drivers]; exact hd) ch (a.sound hd ch h)

/-- A list of operations, each of this kind. -/
theorem forEach {α : Type} (l : List α) (f : α → State → State) (h : ∀ a t, LaneSide t (f a t)) (s : State) :
    LaneSide s (forEach l f s) := by
  induction l generalizing s with
  | nil => exact refl s
  | cons a l ih => exact (h a s).trans (ih (f a s))

end LaneSide

/-! ### Attention -/

theorem setAttention_side (r : Ramp) (s : State) : LaneSide s (setAttention r s) := by
  refine ⟨rfl, rfl, rfl, rfl, rfl, rfl, rfl, rfl, rfl, rfl, rfl, rfl, rfl, ?_, fun _ h => h, fun _ h => h,
    fun _ _ h => h⟩
  intro q
  show (vset s.ramps r _)[q] = _ ∨ (vset s.ramps r _)[q] = _
  rw [vset_get]; split
  · next e => subst e; exact Or.inr rfl
  · exact Or.inl rfl

theorem attentionIf_side (b : Bool) (r : Ramp) (s : State) : LaneSide s (attentionIf b r s) := by
  unfold attentionIf; split
  · exact setAttention_side r s
  · exact .refl s

theorem attentionOwner_side (ch : OutCh) (s : State) : LaneSide s (attentionOwner ch s) := by
  unfold attentionOwner; split
  · exact setAttention_side _ s
  · exact .refl s

/-! ### One channel, one lane -/

/-- A channel's record written: it stays in order, and a fault stands in it only if one stood before or a driver is
silent. -/
theorem setOut_side (ch : OutCh) (x : OutChan) (s : State) (ho : (s.out.chans[ch]).Ok → x.Ok)
    (hf : (∀ d ∈ s.out.drivers, d.silence ≠ .expired) → (s.out.chans[ch]).fault = false → x.fault = false) :
    LaneSide s (s.setOut ch x) := by
  refine ⟨rfl, rfl, rfl, rfl, rfl, rfl, rfl, rfl, rfl, rfl, rfl, rfl, rfl, fun _ => Or.inl rfl, fun _ h => h, ?_, ?_⟩
  · intro c h
    show ((vset s.out.chans ch x)[c]).Ok
    rw [vset_get]; split
    · next e => subst e; exact ho h
    · exact h
  · intro hd c h
    show ((vset s.out.chans ch x)[c]).fault = false
    rw [vset_get]; split
    · next e => subst e; exact hf hd h
    · exact h

/-- A lane's record written. -/
theorem setLane_side (l : Lane) (x : LaneCtx) (s : State) (h : (s.lanes[l]).Ok → x.Ok) :
    LaneSide s (s.setLane l x) := by
  refine ⟨rfl, rfl, rfl, rfl, rfl, rfl, rfl, rfl, rfl, rfl, rfl, rfl, rfl, fun _ => Or.inl rfl, ?_, fun _ h => h,
    fun _ _ h => h⟩
  intro k hk
  show ((vset s.lanes l x)[k]).Ok
  rw [vset_get]; split
  · next e => subst e; exact h hk
  · exact hk

/-! ### Output Unit -/

theorem dueSig_side (st : Nat) (s : State) : LaneSide s (dueSig st s) :=
  ⟨rfl, rfl, rfl, rfl, rfl, rfl, rfl, rfl, rfl, rfl, rfl, rfl, rfl, fun _ => Or.inl rfl, fun _ h => h, fun _ h => h,
    fun _ _ h => h⟩

theorem dueSigOf_side (ch : OutCh) (s : State) : LaneSide s (dueSigOf ch s) := by
  unfold dueSigOf; split
  · exact dueSig_side _ s
  · exact .refl s

theorem judgeMismatch_side (ch : OutCh) (s : State) : LaneSide s (judgeMismatch ch s) := by
  refine setOut_side ch _ s ?_ (fun _ h => h)
  intro _ hf
  show (if inMismatch s.tables ch s.out.chans[ch] then _ else Timer.stopped) = .stopped
  rw [if_neg]
  unfold inMismatch
  have hf' : (s.out.chans[ch]).fault = true := hf
  rw [hf']; simp

/-- A latch made where a driver is silent, or where the channel was latched already. -/
theorem latchFault_side (ch : OutCh) (s : State)
    (h : (∀ d ∈ s.out.drivers, d.silence ≠ .expired) → (s.out.chans[ch]).fault = false → False) :
    LaneSide s (latchFault ch s) :=
  (setOut_side ch _ s (fun _ _ => rfl) (fun hd hf => (h hd hf).elim)).trans (attentionOwner_side ch _)

/-- A silent station has a driver record whose timer has expired. -/
theorem silentStation_spec {o : OutUnit} {st : Nat} (h : silentStation o st = true) :
    ∃ d ∈ o.drivers, d.silence = .expired := by
  unfold silentStation at h
  split at h
  · next d e => exact ⟨d, List.mem_of_find?_eq_some e, of_decide_eq_true h⟩
  · cases h

theorem judgeSilence_side (ch : OutCh) (s : State) : LaneSide s (judgeSilence ch s) := by
  unfold judgeSilence; split
  · split
    · next h =>
      refine latchFault_side ch s fun hd _ => ?_
      simp only [Bool.and_eq_true] at h
      obtain ⟨d, hm, he⟩ := silentStation_spec h.2
      exact hd d hm he
    · exact .refl s
  · exact .refl s

theorem judgeChannel_side (ch : OutCh) (s : State) : LaneSide s (judgeChannel ch s) :=
  (judgeMismatch_side ch s).trans (judgeSilence_side ch _)

theorem judgeLit_side (a : Aspect) (ch : OutCh) (s : State) : LaneSide s (judgeLit a ch s) := by
  unfold judgeLit; split
  · exact judgeSilence_side ch s
  · exact .refl s

theorem setAspect_side (ch : OutCh) (a : Aspect) (s : State) : LaneSide s (setAspect ch a s) := by
  unfold setAspect; split
  · exact .refl s
  · exact (((setOut_side ch { s.out.chans[ch] with commanded := a } s (fun h => h) (fun _ h => h)).trans
      (dueSigOf_side ch _)).trans (judgeMismatch_side ch _)).trans (judgeLit_side _ ch _)

theorem unlatch_side (ch : OutCh) (s : State) : LaneSide s (unlatch ch s) :=
  (setOut_side ch _ s (fun _ h => by cases h) (fun _ _ => rfl)).trans (attentionOwner_side ch _)

theorem clearLatched_side (ch : OutCh) (s : State) : LaneSide s (clearLatched ch s) := by
  unfold clearLatched; split
  · exact (unlatch_side ch s).trans (judgeChannel_side ch _)
  · exact .refl s

theorem clearFaults_side (r : Ramp) (s : State) : LaneSide s (clearFaults r s) :=
  .forEach _ _ clearLatched_side s

theorem lampReportChannel_side (st : Nat) (outs : List Byte) (ch : OutCh) (s : State) :
    LaneSide s (lampReportChannel st outs ch s) := by
  unfold lampReportChannel; split
  · split
    · refine (setOut_side ch _ s ?_ ?_).trans (judgeMismatch_side ch _)
      · unfold reportFrom; split <;> exact fun h => h
      · unfold reportFrom; split <;> exact fun _ h => h
    · exact .refl s
  · exact .refl s

theorem silenceLatch_side (st : Nat) (ch : OutCh) (s : State) : LaneSide s (silenceLatch st ch s) := by
  unfold silenceLatch; split
  · split
    · exact judgeSilence_side ch s
    · exact .refl s
  · exact .refl s

theorem reviewCheckedChannel_side (before : Tables) (ch : OutCh) (s : State) :
    LaneSide s (reviewCheckedChannel before ch s) := by
  have h := setOut_side ch { s.out.chans[ch] with mismatch := .stopped, fault := false } s
    (fun _ h => by cases h) (fun _ _ => rfl)
  unfold reviewCheckedChannel
  split
  · dsimp only; split
    · exact h.trans (attentionIf_side _ _ _)
    · exact h
  · split
    · exact judgeChannel_side ch s
    · exact .refl s

theorem reviewChecked_side (before : Tables) (s : State) : LaneSide s (reviewChecked before s) :=
  .forEach _ _ (reviewCheckedChannel_side before) s

/-! ### Lanes -/

theorem putLane_side (l : Lane) (x : LaneCtx) (s : State) (h : (s.lanes[l]).Ok → x.Ok) :
    LaneSide s (putLane l x s) := by
  unfold putLane; split
  · exact (setLane_side l x s h).trans (setAspect_side _ _ _)
  · exact setLane_side l x s h

theorem orderLane_side (f : LaneRec → Bool → LaneCtx → LaneCtx) (l : Lane) (s : State)
    (h : ∀ c b, (s.lanes[l]).Ok → (f c b s.lanes[l]).Ok) : LaneSide s (orderLane f l s) := by
  unfold orderLane; split
  · exact putLane_side l _ s (h _ _)
  · exact .refl s

theorem orderLanes_side (f : LaneRec → Bool → LaneCtx → LaneCtx) (h : ∀ c b (x : LaneCtx), x.Ok → (f c b x).Ok)
    (r : Ramp) (s : State) : LaneSide s (orderLanes f r s) :=
  .forEach _ _ (fun l t => orderLane_side f l t fun c b => h c b _) s

theorem orderDark_side (r : Ramp) (s : State) : LaneSide s (orderDark r s) :=
  orderLanes_side _ (fun _ _ _ h => laneDark_ok h) r s

theorem orderStartGreen_side (r : Ramp) (s : State) : LaneSide s (orderStartGreen r s) :=
  orderLanes_side _ (fun _ _ _ h => laneStartGreen_ok h) r s

theorem orderStartYellow_side (r : Ramp) (s : State) : LaneSide s (orderStartYellow r s) :=
  orderLanes_side _ (fun _ _ _ h => laneStartYellow_ok h) r s

theorem orderStartRed_side (r : Ramp) (s : State) : LaneSide s (orderStartRed r s) :=
  orderLanes_side _ (fun c _ _ h => laneStartRed_ok h c) r s

theorem orderFlush_side (r : Ramp) (s : State) : LaneSide s (orderFlush r s) :=
  orderLanes_side _ (fun _ _ _ h => laneFlush_ok h) r s

theorem orderHold_side (r : Ramp) (s : State) : LaneSide s (orderHold r s) :=
  orderLanes_side _ (fun c b _ h => laneHold_ok h c b) r s

theorem orderReturn_side (r : Ramp) (s : State) : LaneSide s (orderReturn r s) :=
  orderLanes_side _ (fun c _ _ h => laneReturn_ok h c) r s

theorem offerLane_side (l : Lane) (s : State) : LaneSide s (offerLane l s) :=
  orderLane_side _ l s fun c b h => laneOffer_ok h c b

theorem laneHears_side (before : State) (l : Lane) (s : State) : LaneSide s (laneHears before l s) := by
  unfold laneHears; split
  · exact .refl s
  · next c _ =>
    refine putLane_side l _ s fun h => ?_
    have h1 : (if !effectiveOf before c.demand && effectiveOf s c.demand then laneDemand c s.lanes[l]
        else s.lanes[l]).Ok := by
      split
      · exact laneDemand_ok h _
      · exact h
    split
    · split
      · exact lanePassage_ok h1
      · exact h1
    · exact h1

theorem commandBeacon_side (r : Ramp) (a : Aspect) (s : State) : LaneSide s (commandBeacon r a s) := by
  unfold commandBeacon; split
  · exact setAspect_side _ a s
  · exact .refl s

theorem makeOffers_side (r : Ramp) (s : State) : LaneSide s (makeOffers r s) :=
  LaneSide.forEach _ (fun p : Lane × Nat => offerLane p.1) (fun p t => offerLane_side p.1 t) s

end Sys2Proof.Machine
end

