-- ==== Sys2Proof/Laws/RampSide.lean ====
section
/-! SUPPORT. What the Ramp Controllers, Rate Units and Authority Units can do to the part in an event, said once
(`RampSide`), and one lemma for each of their operations. -/

namespace Sys2Proof.Machine

/-- Only ramps, condition vectors, rate records, lanes, authority records, on-timers and output channels change: every
record stays in order, attention is only ever SET, and a calm part stays calm. -/
structure RampCore (s t : State) : Prop where
  pending : t.pending = s.pending
  stride : t.stride = s.stride
  freeCount : t.freeCount = s.freeCount
  tables : t.tables = s.tables
  det : t.det = s.det
  lines : t.lines = s.lines
  time : t.time = s.time
  ring : t.ring = s.ring
  drivers : t.out.drivers = s.out.drivers
  ramps : ∀ r : Ramp, (s.ramps[r]).Ok → (t.ramps[r]).Ok
  rate : ∀ r : Ramp, (s.rate[r]).Ok → (t.rate[r]).Ok
  lanes : ∀ l : Lane, (s.lanes[l]).Ok → (t.lanes[l]).Ok
  auth : ∀ r : Ramp, (s.auth[r]).Ok → (t.auth[r]).Ok
  outs : ∀ ch : OutCh, (s.out.chans[ch]).Ok → (t.out.chans[ch]).Ok
  attention : ∀ r : Ramp, (s.ramps[r]).attention = true → (t.ramps[r]).attention = true
  calm : Calm s → Calm t

/-- The same where a ramp in OFF has no holder, before and after. -/
structure RampSide (s t : State) : Prop extends RampCore s t where
  free : (∀ r : Ramp, OffFree s r) → ∀ r : Ramp, OffFree t r

namespace RampCore

theorem refl (s : State) : RampCore s s :=
  ⟨rfl, rfl, rfl, rfl, rfl, rfl, rfl, rfl, rfl, fun _ h => h, fun _ h => h, fun _ h => h, fun _ h => h,
    fun _ h => h, fun _ h => h, fun h => h⟩

theorem trans {s t u : State} (a : RampCore s t) (b : RampCore t u) : RampCore s u where
  pending := b.pending.trans a.pending
  stride := b.stride.trans a.stride
  freeCount := b.freeCount.trans a.freeCount
  tables := b.tables.trans a.tables
  det := b.det.trans a.det
  lines := b.lines.trans a.lines
  time := b.time.trans a.time
  ring := b.ring.trans a.ring
  drivers := b.drivers.trans a.drivers
  ramps r h := b.ramps r (a.ramps r h)
  rate r h := b.rate r (a.rate r h)
  lanes l h := b.lanes l (a.lanes l h)
  auth r h := b.auth r (a.auth r h)
  outs ch h := b.outs ch (a.outs ch h)
  attention r h := b.attention r (a.attention r h)
  calm h := b.calm (a.calm h)

end RampCore

namespace RampSide

theorem refl (s : State) : RampSide s s := ⟨.refl s, fun h => h⟩

theorem trans {s t u : State} (a : RampSide s t) (b : RampSide t u) : RampSide s u :=
  ⟨a.toRampCore.trans b.toRampCore, fun h => b.free (a.free h)⟩

theorem forEach {α : Type} (l : List α) (f : α → State → State) (h : ∀ a t, RampSide t (f a t)) (s : State) :
    RampSide s (forEach l f s) := by
  induction l generalizing s with
  | nil => exact refl s
  | cons a l ih => exact (h a s).trans (ih (f a s))

theorem forRamps (f : Ramp → State → State) (h : ∀ r t, RampSide t (f r t)) (s : State) :
    RampSide s (forRamps f s) :=
  (((h 0 s).trans (h 1 _)).trans (h 2 _)).trans (h 3 _)

end RampSide

/-- An attention-only change keeps a ramp context in order. -/
theorem RampCtx.Ok.attention {c : RampCtx} (h : c.Ok) (b : Bool) : ({ c with attention := b } : RampCtx).Ok :=
  ⟨h.adopted, h.pattern, h.clock, h.length, h.nominal, h.aligned, h.phase, h.slots, h.lastSlots⟩

/-- Lanes and aspects leave every ramp's state alone. -/
theorem LaneSide.state {s t : State} (a : LaneSide s t) (r : Ramp) : (t.ramps[r]).state = (s.ramps[r]).state := by
  rcases a.ramps r with e | e <;> rw [e]

/-- Lanes and aspects are part of what a ramp does. -/
theorem LaneSide.ramp {s t : State} (a : LaneSide s t) : RampSide s t where
  pending := a.pending
  stride := a.stride
  freeCount := a.freeCount
  tables := a.tables
  det := a.det
  lines := a.lines
  time := a.time
  ring := a.ring
  drivers := a.drivers
  ramps r h := by
    rcases a.ramps r with e | e <;> rw [e]
    · exact h
    · exact h.attention true
  rate r h := by rw [a.rate]; exact h
  lanes := a.lanes
  auth r h := by rw [a.auth]; exact h
  outs := a.outs
  attention r h := by
    rcases a.ramps r with e | e <;> rw [e]
    exact h
  calm h := ⟨by rw [a.ring]; exact h.heard, fun ch => a.sound h.present ch (h.sound ch),
    by rw [a.drivers]; exact h.present, fun r => by rw [a.auth]; exact h.free r⟩
  free h r e := by rw [a.auth]; exact h r ((a.state r).symm.trans e)

/-! ### One unit's record -/

theorem setRamp_core (r : Ramp) (x : RampCtx) (s : State) (h : (s.ramps[r]).Ok → x.Ok)
    (ha : (s.ramps[r]).attention = true → x.attention = true) : RampCore s (s.setRamp r x) := by
  refine ⟨rfl, rfl, rfl, rfl, rfl, rfl, rfl, rfl, rfl, ?_, fun _ h => h, fun _ h => h, fun _ h => h, fun _ h => h, ?_,
    fun h => ⟨h.heard, h.sound, h.present, h.free⟩⟩
  · intro q hq
    show ((vset s.ramps r x)[q]).Ok
    rw [vset_get]; split
    · next e => subst e; exact h hq
    · exact hq
  · intro q hq
    show ((vset s.ramps r x)[q]).attention = true
    rw [vset_get]; split
    · next e => subst e; exact ha hq
    · exact hq

/-- A ramp that was in no state but OFF does not come to be in OFF. -/
theorem setRamp_side (r : Ramp) (x : RampCtx) (s : State) (h : (s.ramps[r]).Ok → x.Ok)
    (ha : (s.ramps[r]).attention = true → x.attention = true) (hs : x.state = .off → (s.ramps[r]).state = .off) :
    RampSide s (s.setRamp r x) := by
  refine ⟨setRamp_core r x s h ha, fun hf q e => hf q ?_⟩
  rw [State.setRamp_ramps, vset_get] at e
  split at e
  · next k => subst k; exact hs e
  · exact e

theorem modRamp_core (r : Ramp) (f : RampCtx → RampCtx) (s : State) (h : (s.ramps[r]).Ok → (f s.ramps[r]).Ok)
    (ha : (s.ramps[r]).attention = true → (f s.ramps[r]).attention = true) : RampCore s (s.modRamp r f) :=
  setRamp_core r _ s h ha

theorem modRamp_side (r : Ramp) (f : RampCtx → RampCtx) (s : State) (h : (s.ramps[r]).Ok → (f s.ramps[r]).Ok)
    (ha : (s.ramps[r]).attention = true → (f s.ramps[r]).attention = true)
    (hs : (f s.ramps[r]).state = .off → (s.ramps[r]).state = .off) : RampSide s (s.modRamp r f) :=
  setRamp_side r _ s h ha hs

theorem setRate_side (r : Ramp) (x : RateRec) (s : State) (h : (s.rate[r]).Ok → x.Ok) :
    RampSide s (s.setRate r x) := by
  refine ⟨⟨rfl, rfl, rfl, rfl, rfl, rfl, rfl, rfl, rfl, fun _ h => h, ?_, fun _ h => h, fun _ h => h, fun _ h => h,
    fun _ h => h, fun h => ⟨h.heard, h.sound, h.present, h.free⟩⟩, fun h => h⟩
  intro q hq
  show ((vset s.rate r x)[q]).Ok
  rw [vset_get]; split
  · next e => subst e; exact h hq
  · exact hq

theorem setVector_side (r : Ramp) (x : Vector Bool 16) (s : State) : RampSide s (s.setVector r x) :=
  ⟨⟨rfl, rfl, rfl, rfl, rfl, rfl, rfl, rfl, rfl, fun _ h => h, fun _ h => h, fun _ h => h, fun _ h => h,
    fun _ h => h, fun _ h => h, fun h => ⟨h.heard, h.sound, h.present, h.free⟩⟩, fun h => h⟩

theorem onTimers_side (v : Vector Timer 64) (s : State) : RampSide s { s with onTimers := v } :=
  ⟨⟨rfl, rfl, rfl, rfl, rfl, rfl, rfl, rfl, rfl, fun _ h => h, fun _ h => h, fun _ h => h, fun _ h => h,
    fun _ h => h, fun _ h => h, fun h => ⟨h.heard, h.sound, h.present, h.free⟩⟩, fun h => h⟩

/-- An authority record written: it stays in order, and does not assert FAILSAFE in a calm part. -/
theorem setAuth_core (r : Ramp) (x : AuthUnit) (s : State) (h : (s.auth[r]).Ok → x.Ok)
    (hf : Calm s → (x.sources[(0 : Source)]).asserted = false) : RampCore s (s.setAuth r x) := by
  refine ⟨rfl, rfl, rfl, rfl, rfl, rfl, rfl, rfl, rfl, fun _ h => h, fun _ h => h, fun _ h => h, ?_, fun _ h => h,
    fun _ h => h, fun c => ⟨c.heard, c.sound, c.present, ?_⟩⟩
  · intro q hq
    show ((vset s.auth r x)[q]).Ok
    rw [vset_get]; split
    · next e => subst e; exact h hq
    · exact hq
  · intro q
    show (((vset s.auth r x)[q]).sources[(0 : Source)]).asserted = false
    rw [vset_get]; split
    · exact hf c
    · exact c.free q

/-- The same where the assertion of FAILSAFE is as it was. -/
theorem setAuth_core' (r : Ramp) (x : AuthUnit) (s : State) (h : (s.auth[r]).Ok → x.Ok)
    (e : (x.sources[(0 : Source)]).asserted = ((s.auth[r]).sources[(0 : Source)]).asserted) :
    RampCore s (s.setAuth r x) :=
  setAuth_core r x s h fun c => e.trans (c.free r)

/-- A record that names no holder where the ramp is in OFF and had none. -/
theorem setAuth_free (r : Ramp) (x : AuthUnit) (s : State) (c : RampCore s (s.setAuth r x))
    (hh : (s.ramps[r]).state = .off → (s.auth[r]).holder = none → x.holder = none) : RampSide s (s.setAuth r x) := by
  refine ⟨c, fun hf q e => ?_⟩
  have e : (s.ramps[q]).state = .off := e
  show ((vset s.auth r x)[q]).holder = none
  rw [vset_get]; split
  · next k => subst k; exact hh e (hf _ e)
  · exact hf q e

theorem setAuth_side (r : Ramp) (x : AuthUnit) (s : State) (h : (s.auth[r]).Ok → x.Ok)
    (hf : Calm s → (x.sources[(0 : Source)]).asserted = false)
    (hh : (s.auth[r]).holder = none → x.holder = none) : RampSide s (s.setAuth r x) :=
  setAuth_free r x s (setAuth_core r x s h hf) fun _ => hh

theorem setAuth_side' (r : Ramp) (x : AuthUnit) (s : State) (h : (s.auth[r]).Ok → x.Ok)
    (e : (x.sources[(0 : Source)]).asserted = ((s.auth[r]).sources[(0 : Source)]).asserted)
    (hh : (s.auth[r]).holder = none → x.holder = none) : RampSide s (s.setAuth r x) :=
  setAuth_free r x s (setAuth_core' r x s h e) fun _ => hh

/-! ### Judgement and arbitration -/

theorem judge_side (r : Ramp) (s : State) : RampSide s (judge r s) :=
  (modRamp_side r _ s (fun h => ⟨h.adopted, h.pattern, h.clock, h.length, h.nominal, h.aligned, h.phase, h.slots,
    h.lastSlots⟩) (fun h => h) (fun h => h)).trans (attentionIf_side _ r _).ramp

theorem arbitrated_core (r : Ramp) (s : State) :
    RampCore s (s.setAuth r ((s.auth[r]).arbitrate (actionRec s.tables r) s.time.corridor).1) :=
  setAuth_core' r _ s (fun h => AuthUnit.arbitrate_ok h _ _) (AuthUnit.arbitrate_asserted _ _ _ _)

theorem arbitrateRamp_core (r : Ramp) (s : State) : RampCore s (arbitrateRamp r s).1 :=
  (arbitrated_core r s).trans (attentionIf_side _ r _).ramp.toRampCore

theorem arbitrateRamp_side (r : Ramp) (s : State) (h : (s.ramps[r]).state ≠ .off) : RampSide s (arbitrateRamp r s).1 :=
  (setAuth_free r _ s (arbitrated_core r s) fun e => absurd e h).trans (attentionIf_side _ r _).ramp

theorem arbitrateRamp_state (r q : Ramp) (s : State) :
    ((arbitrateRamp r s).1.ramps[q]).state = (s.ramps[q]).state := (attentionIf_side _ r _).state q

theorem judge_state (r q : Ramp) (s : State) : ((judge r s).ramps[q]).state = (s.ramps[q]).state := by
  unfold judge
  rw [(attentionIf_side _ r _).state q]
  show ((vset s.ramps r _)[q]).state = _
  rw [vset_get]; split
  · next e => subst e; rfl
  · rfl

theorem setRefreshLower_side (r : Ramp) (s : State) : RampSide s (s.setAuth r (s.auth[r]).refreshLower) :=
  setAuth_side' r _ s AuthUnit.refreshLower_ok (AuthUnit.refreshLower_asserted _ _) fun h => h

theorem boundaryArbitration_side (r : Ramp) (s : State) (h : (s.ramps[r]).state ≠ .off) :
    RampSide s (boundaryArbitration r s) := (setRefreshLower_side r s).trans (arbitrateRamp_side r _ h)

theorem boundaryArbitration_state (r q : Ramp) (s : State) :
    ((boundaryArbitration r s).ramps[q]).state = (s.ramps[q]).state := arbitrateRamp_state r q _

/-! ### Entering a state -/

/-- The ramp context on entering a state, from whatever state it was in. -/
theorem entered_ok {c d : RampCtx} (h : c.Ok) (hd : d = if c.state = .metering then c.leaveMetering else c)
    (st : RampState) (ph : Option ClearPhase) (tm : Timer) (hp : ph.isSome = true ↔ st = .startClear) :
    ({ d with state := st, clearPhase := ph, phaseTimer := tm, attention := true } : RampCtx).Ok := by
  subst hd
  split
  · exact ⟨fun _ => rfl, fun _ => rfl, fun _ => rfl, fun _ => rfl, fun _ => rfl, fun _ => rfl, hp, h.slots, h.lastSlots⟩
  · next hs =>
    exact ⟨fun _ => h.adopted hs, fun _ => h.pattern hs, fun _ => h.clock hs, fun _ => h.length hs,
      fun _ => h.nominal hs, fun _ => h.aligned hs, hp, h.slots, h.lastSlots⟩

theorem leaveMetering_ramp (r : Ramp) (s : State) :
    (leaveMetering r s).ramps[r] = if (s.ramps[r]).state = .metering then (s.ramps[r]).leaveMetering else s.ramps[r] := by
  unfold leaveMetering; split
  · next h => simp only [State.setRate_ramps, State.modRamp_ramps, vset_same]
  · rfl

theorem RateRec.reset_ok : RateRec.reset.Ok := Nat.zero_le _

theorem leaveMetering_core (r : Ramp) (st : RampState) (ph : Option ClearPhase) (tm : Timer) (s : State)
    (hp : ph.isSome = true ↔ st = .startClear) :
    ∃ x : RampCtx, x.state = st
      ∧ (leaveMetering r s).modRamp r (fun c => { c with state := st, clearPhase := ph, phaseTimer := tm, attention := true })
        = (if (s.ramps[r]).state = .metering then s.setRate r RateRec.reset else s).setRamp r x
      ∧ ((s.ramps[r]).Ok → x.Ok) ∧ x.attention = true := by
  unfold leaveMetering
  split
  · next hm =>
    have e : ((s.modRamp r RampCtx.leaveMetering).setRate r RateRec.reset).ramps[r] = (s.ramps[r]).leaveMetering := by
      simp only [State.setRate_ramps, State.modRamp_ramps, vset_same]
    refine ⟨{ (s.ramps[r]).leaveMetering with state := st, clearPhase := ph, phaseTimer := tm, attention := true }, rfl, ?_,
      fun h => entered_ok h (if_pos hm).symm st ph tm hp, rfl⟩
    unfold State.modRamp; rw [← State.modRamp, e]
    simp only [State.modRamp, State.setRamp, State.setRate, vset_vset]
  · next hm => exact ⟨_, rfl, rfl, fun h => entered_ok h (if_neg hm).symm st ph tm hp, rfl⟩

theorem enter_core (r : Ramp) (st : RampState) (ph : Option ClearPhase) (tm : Timer) (s : State)
    (hp : ph.isSome = true ↔ st = .startClear) : RampCore s (enter r st ph tm s) := by
  obtain ⟨x, _, e, ok, at'⟩ := leaveMetering_core r st ph tm s hp
  unfold enter
  rw [e]
  refine RampCore.trans ?_ (commandBeacon_side r _ _).ramp.toRampCore
  split
  · exact (setRate_side r _ s fun _ => RateRec.reset_ok).toRampCore.trans (setRamp_core r x _ ok fun _ => at')
  · exact setRamp_core r x s ok fun _ => at'

theorem enter_side (r : Ramp) (st : RampState) (ph : Option ClearPhase) (tm : Timer) (s : State)
    (hp : ph.isSome = true ↔ st = .startClear) (hs : st ≠ .off) : RampSide s (enter r st ph tm s) := by
  obtain ⟨x, ex, e, ok, at'⟩ := leaveMetering_core r st ph tm s hp
  have ho : x.state = .off → (s.ramps[r]).state = .off := fun k => absurd (ex.symm.trans k) hs
  unfold enter
  rw [e]
  refine RampSide.trans ?_ (commandBeacon_side r _ _).ramp
  split
  · exact (setRate_side r _ s fun _ => RateRec.reset_ok).trans (setRamp_side r x _ ok (fun _ => at') ho)
  · exact setRamp_side r x s ok (fun _ => at') ho

theorem enter_state (r : Ramp) (st : RampState) (ph : Option ClearPhase) (tm : Timer) (s : State) :
    ((enter r st ph tm s).ramps[r]).state = st := by
  unfold enter
  rw [(commandBeacon_side r _ _).state r]
  simp only [State.modRamp_ramps, vset_same]

theorem arbitrateAfterMetering_core (r : Ramp) (s : State) : RampCore s (arbitrateAfterMetering r s) := by
  have a := (setRefreshLower_side r s).toRampCore.trans (arbitrateRamp_core r _)
  unfold arbitrateAfterMetering; split
  · exact .refl s
  · dsimp only; split
    · exact a.trans (judge_side r _).toRampCore
    · exact a

theorem arbitrateAfterMetering_side (r : Ramp) (s : State) (h : (s.ramps[r]).state ≠ .off) :
    RampSide s (arbitrateAfterMetering r s) := by
  unfold arbitrateAfterMetering; split
  · exact .refl s
  · dsimp only; split
    · exact ((setRefreshLower_side r s).trans (arbitrateRamp_side r _ h)).trans (judge_side r _)
    · exact (setRefreshLower_side r s).trans (arbitrateRamp_side r _ h)

theorem enterShutFlush_side (r : Ramp) (s : State) : RampSide s (enterShutFlush r s) :=
  enter_side r _ _ _ s (by decide) (by decide)

theorem shutClearDone_side (r : Ramp) (s : State) : RampSide s (shutClearDone r s) := by
  unfold shutClearDone; split
  · exact enterShutFlush_side r s
  · exact .refl s

/-- What a SHUT_CLEAR ramp goes on to is not OFF. -/
theorem shutClearDone_inUse (r : Ramp) (s : State) (h : (s.ramps[r]).state ≠ .off) :
    ((shutClearDone r s).ramps[r]).state ≠ .off := by
  unfold shutClearDone; split
  · unfold enterShutFlush; rw [enter_state]; decide
  · exact h

theorem enterShutClear_side (r : Ramp) (s : State) : RampSide s (enterShutClear r s) := by
  have h := ((enter_side r .shutClear none .stopped s (by decide) (by decide)).trans (orderFlush_side r _).ramp).trans
    (shutClearDone_side r _)
  unfold enterShutClear; dsimp only; split
  · refine h.trans (arbitrateAfterMetering_side r _ (shutClearDone_inUse r _ ?_))
    rw [(orderFlush_side r _).state, enter_state]; decide
  · exact h

theorem enterDarkFail_side (r : Ramp) (s : State) : RampSide s (enterDarkFail r s) := by
  have h := (enter_side r .darkFail none .stopped s (by decide) (by decide)).trans (orderDark_side r _).ramp
  unfold enterDarkFail; dsimp only; split
  · refine h.trans (arbitrateAfterMetering_side r _ ?_)
    rw [(orderDark_side r _).state, enter_state]; decide
  · exact h

theorem enterOff_core (r : Ramp) (s : State) : RampCore s (enterOff r s) := by
  have last : ∀ t : State, RampCore t ((t.setVector r vectorFalse).setAuth r (t.auth[r]).enterOff) := fun t =>
    (setVector_side r _ t).toRampCore.trans (setAuth_core' r (t.auth[r]).enterOff (t.setVector r vectorFalse)
      (fun _ => AuthUnit.enterOff_ok _) (AuthUnit.enterOff_asserted (t.auth[r]) 0))
  have cleared : ∀ t : State, RampCore t (t.modRamp r RampCtx.enterOff) := fun t =>
    modRamp_core r _ t (fun h => ⟨h.adopted, h.pattern, h.clock, h.length, h.nominal, h.aligned, h.phase, h.slots,
      h.lastSlots⟩) (fun h => h)
  exact (((enter_core r .off none .stopped s (by decide)).trans (orderDark_side r _).ramp.toRampCore).trans
    (cleared _)).trans (last _)

theorem leaveMetering_other (r q : Ramp) (s : State) (n : q ≠ r) : (leaveMetering r s).ramps[q] = s.ramps[q] := by
  unfold leaveMetering; split
  · simp only [State.setRate_ramps, State.modRamp_ramps, vset_other _ _ _ _ n.symm]
  · rfl

theorem leaveMetering_auth (r : Ramp) (s : State) : (leaveMetering r s).auth = s.auth := by
  unfold leaveMetering; split <;> rfl

theorem AuthUnit.enterOff_holder (a : AuthUnit) : a.enterOff.holder = none := rfl

/-- A ramp that enters OFF loses its holder, and the others stay. -/
theorem enterOff_side (r : Ramp) (s : State) : RampSide s (enterOff r s) := by
  refine ⟨enterOff_core r s, fun h q e => ?_⟩
  obtain ⟨m, hm⟩ : ∃ m, m = (leaveMetering r s).modRamp r fun c =>
    { c with state := .off, clearPhase := none, phaseTimer := .stopped, attention := true } := ⟨_, rfl⟩
  have f : LaneSide m (orderDark r (enter r .off none .stopped s)) := by
    rw [hm]; exact (commandBeacon_side r _ _).trans (orderDark_side r _)
  unfold enterOff at e ⊢
  dsimp only at e ⊢
  rw [State.setAuth_ramps, State.setVector_ramps, State.modRamp_ramps, vset_get] at e
  rw [State.setAuth_auth, vset_get]
  by_cases n : r = q
  · rw [if_pos n]; exact AuthUnit.enterOff_holder _
  · rw [if_neg n]
    rw [if_neg n, f.state, hm, State.modRamp_ramps, vset_other _ _ _ _ n, leaveMetering_other r q s (Ne.symm n)] at e
    rw [State.setVector_auth, State.modRamp_auth, f.auth, hm, State.modRamp_auth, leaveMetering_auth]
    exact h q e

theorem enterWarn_side (r : Ramp) (s : State) : RampSide s (enterWarn r s) := enter_side r _ _ _ s (by decide) (by decide)

theorem standbyActs_side (r : Ramp) (s : State) : RampSide s (standbyActs r s) := by
  unfold standbyActs; split
  · exact enterWarn_side r s
  · exact .refl s

theorem enterStandby_side (r : Ramp) (s : State) : RampSide s (enterStandby r s) :=
  (((enter_side r .standby none .stopped s (by decide) (by decide)).trans (orderDark_side r _).ramp).trans
    (judge_side r _)).trans (standbyActs_side r _)

theorem enterOffOrStandby_side (r : Ramp) (s : State) : RampSide s (enterOffOrStandby r s) := by
  unfold enterOffOrStandby; split
  · exact enterOff_side r s
  · exact enterStandby_side r s

/-! ### Demands and results -/

theorem actOnDemand_side (r : Ramp) (s : State) : RampSide s (actOnDemand r s) := by
  unfold actOnDemand
  split
  · exact standbyActs_side r s
  · split
    · exact enterOffOrStandby_side r s
    · exact .refl s
  · split
    · exact enterShutFlush_side r s
    · exact .refl s
  all_goals exact .refl s

theorem meteringTakes_side (r : Ramp) (old : Effective) (s : State) : RampSide s (meteringTakes r old s) := by
  unfold meteringTakes
  split
  · exact enterDarkFail_side r s
  · exact enterShutClear_side r s
  · exact (orderFlush_side r s).ramp
  · exact (orderHold_side r s).ramp
  · exact (orderReturn_side r s).ramp
  · split
    · split
      · exact .refl s
      · exact enterShutClear_side r s
    · exact (orderReturn_side r s).ramp

theorem startingTakes_side (r : Ramp) (s : State) : RampSide s (startingTakes r s) := by
  unfold startingTakes; split
  · exact enterDarkFail_side r s
  · exact actOnDemand_side r s

theorem takeResult_side (r : Ramp) (old : Effective) (s : State) : RampSide s (takeResult r old s) := by
  unfold takeResult
  split
  · exact .refl s
  · exact standbyActs_side r s
  · exact meteringTakes_side r old s
  · split
    · exact .refl s
    · exact enterOffOrStandby_side r s
  all_goals exact startingTakes_side r s

theorem decisionPoint_core (r : Ramp) (s : State) : RampCore s (decisionPoint r s) := by
  unfold decisionPoint; dsimp only; split
  · exact ((arbitrateRamp_core r s).trans (judge_side r _).toRampCore).trans (takeResult_side r _ _).toRampCore
  · exact arbitrateRamp_core r s

theorem decisionPoint_side (r : Ramp) (s : State) (h : (s.ramps[r]).state ≠ .off) : RampSide s (decisionPoint r s) := by
  unfold decisionPoint; dsimp only; split
  · exact ((arbitrateRamp_side r s h).trans (judge_side r _)).trans (takeResult_side r _ _)
  · exact arbitrateRamp_side r s h

theorem sourceChanged_side (r : Ramp) (k : Source) (s : State) : RampSide s (sourceChanged r k s) := by
  unfold sourceChanged; split
  · exact .refl s
  · next h =>
    split
    · exact .refl s
    · split
      · exact .refl s
      · exact (setAuth_side' r _ s (fun h => AuthUnit.refresh_ok h k) (AuthUnit.refresh_asserted _ _ _)
          fun h => h).trans (decisionPoint_side r _ h)

theorem holdExpired_side (r : Ramp) (s : State) : RampSide s (holdExpired r s) := by
  unfold holdExpired; split
  · next k hk =>
    have c := setAuth_core' r ((s.auth[r]).expireHold k) s (fun h => AuthUnit.expireHold_ok h _)
      (AuthUnit.expireHold_asserted _ _ _)
    by_cases h : (s.ramps[r]).state = .off
    · exact ⟨c.trans (decisionPoint_core r _), fun f => absurd (hk.symm.trans (f r h)) (by simp)⟩
    · exact (setAuth_free r _ s c fun e => absurd e h).trans (decisionPoint_side r _ h)
  · exact .refl s

theorem expireFirst_side (r : Ramp) (k : Source) (v : Bool) (s : State) : RampSide s (expireFirst r k v s) := by
  unfold expireFirst; split
  · exact holdExpired_side r s
  · exact .refl s

/-- An assertion is preceded by no expiry (R111). -/
@[simp] theorem expireFirst_true (r : Ramp) (k : Source) (s : State) : expireFirst r k true s = s := by
  unfold expireFirst; rw [if_neg]; simp

/-- A change of a source's asserted field that does not assert FAILSAFE in a calm part. -/
theorem changeAsserted_side (r : Ramp) (k : Source) (v : Bool) (s : State) (h : Calm s → k ≠ 0 ∨ v = false) :
    RampSide s (changeAsserted r k v s) := by
  unfold changeAsserted
  refine (setAuth_side r _ s (fun h => AuthUnit.setAsserted_ok h k v) (fun c => ?_) fun h => h).trans
    (sourceChanged_side r k _)
  rw [AuthUnit.setAsserted_asserted]; split
  · next e => exact (h c).resolve_left (fun n => n e)
  · exact c.free r

/-- A source given a value that does not assert FAILSAFE in a calm part. -/
theorem setAsserted_side' (r : Ramp) (k : Source) (v : Bool) (s : State) (h : Calm s → k ≠ 0 ∨ v = false) :
    RampSide s (setAsserted r k v s) := by
  unfold setAsserted; split
  · exact .refl s
  · cases v
    · exact (expireFirst_side r k false s).trans (changeAsserted_side r k false _ fun _ => Or.inr rfl)
    · rw [expireFirst_true]; exact changeAsserted_side r k true s h

/-- A source other than FAILSAFE asserted or deasserted. -/
theorem setAsserted_side (r : Ramp) (k : Source) (v : Bool) (s : State) (hk : k ≠ 0) :
    RampSide s (setAsserted r k v s) := setAsserted_side' r k v s fun _ => Or.inl hk

/-- In a calm part no ramp has a cause of FAILSAFE. -/
theorem Calm.noCause {s : State} (h : Calm s) (r : Ramp) : failsafeCause s r = false := by
  unfold failsafeCause faultedChannels
  rw [h.heard, Bool.false_or, Bool.not_eq_false', List.isEmpty_iff, List.filter_eq_nil_iff]
  intro ch _
  rw [h.sound ch]; simp

/-- In a calm part the FAILSAFE sources stand as they are. -/
theorem Calm.judgeFailsafe {s : State} (h : Calm s) (r : Ramp) : judgeFailsafe r s = s := by
  unfold Machine.judgeFailsafe setAsserted
  rw [h.noCause r, if_pos (h.free r)]

theorem Calm.settle {s : State} (h : Calm s) : settle s = s := by
  unfold Machine.settle forRamps
  simp only [h.judgeFailsafe]

theorem judgeFailsafe_side (r : Ramp) (s : State) : RampSide s (judgeFailsafe r s) :=
  setAsserted_side' r 0 _ s fun c => Or.inr (c.noCause r)

theorem settle_side (s : State) : RampSide s (settle s) :=
  .forRamps _ (fun r t => (judgeFailsafe_side r t).trans (judgeFailsafe_side r _)) s

/-! ### The slot boundary -/

theorem startSlot_side (r : Ramp) (len : Nat) (s : State) (hm : (s.ramps[r]).state = .metering) :
    RampSide s (startSlot r len s) := by
  unfold startSlot; dsimp only
  refine modRamp_side r (fun c => { c with
    slotLength := some (alignedSlot (aligns s s.ramps[r]) s.time.corridor (offsetOf s.tables r) len).1
    aligned := (alignedSlot (aligns s s.ramps[r]) s.time.corridor (offsetOf s.tables r) len).2
    slotClock := .running 0 }) s (fun h => ?_) (fun h => h) (fun h => h)
  exact ⟨fun n => absurd hm n, fun n => absurd hm n, fun n => absurd hm n, fun n => absurd hm n, fun n => absurd hm n,
    fun n => absurd hm n, h.phase, h.slots, h.lastSlots⟩

theorem holdingSlot_side (r : Ramp) (s : State) (hm : (s.ramps[r]).state = .metering) :
    RampSide s (holdingSlot r s) := startSlot_side r _ s hm

theorem nominalSlot_ok (p : PlanRec) (x : RateRec) (h : x.Ok) : (nominalSlot p x).2.Ok := by
  unfold nominalSlot; split
  · exact RateRec.reset_ok
  · split
    · exact h
    · exact h

theorem meterPlan_side (r : Ramp) (n : Nat) (p : PlanRec) (s : State) (hm : (s.ramps[r]).state = .metering) :
    RampSide s (meterPlan r n p s) := by
  unfold meterPlan; dsimp only
  have a := attentionIf_side (decide (adoptedNumber s.ramps[r] ≠ some n)) r s
  refine RampSide.trans (RampSide.trans (a.ramp.trans (setRate_side r _ _ ?_)) (modRamp_side r _ _ ?_ ?_ (fun h => h)))
    (startSlot_side r _ _ ?_)
  · intro h
    rw [a.rate] at h
    apply nominalSlot_ok
    split
    · exact RateRec.reset_ok
    · exact h
  · intro h
    have e : (((attentionIf (decide (adoptedNumber s.ramps[r] ≠ some n)) r s).setRate r
        (nominalSlot p (if decide (adoptedNumber s.ramps[r] ≠ some n) = true then rateAdopted p else s.rate[r])).2).ramps[r]).state
        = .metering := (a.state r).trans hm
    exact ⟨fun n => absurd e n, fun n => absurd e n, fun n => absurd e n, fun n => absurd e n, fun n => absurd e n,
      fun n => absurd e n, h.phase, h.slots, h.lastSlots⟩
  · exact fun h => h
  · simp only [State.modRamp_ramps, vset_same]
    exact (a.state r).trans hm

theorem meteredBoundary_side (r : Ramp) (n : Nat) (s : State) (hm : (s.ramps[r]).state = .metering) :
    RampSide s (meteredBoundary r n s) := by
  unfold meteredBoundary; split
  · have a := orderReturn_side r s
    exact (a.ramp.trans (meterPlan_side r n _ _ ((a.state r).trans hm))).trans (makeOffers_side r _).ramp
  · exact .refl s

theorem boundaryActs_side (r : Ramp) (s : State) (hm : (s.ramps[r]).state = .metering) :
    RampSide s (boundaryActs r s) := by
  unfold boundaryActs; split
  · exact enterDarkFail_side r s
  · split
    · exact enterShutClear_side r s
    · split
      · exact (orderHold_side r s).ramp.trans (holdingSlot_side r _ (((orderHold_side r s).state r).trans hm))
      · exact (orderFlush_side r s).ramp.trans (holdingSlot_side r _ (((orderFlush_side r s).state r).trans hm))
      · exact meteredBoundary_side r _ s hm
      · exact meteredBoundary_side r _ s hm
      · exact .refl s
      · exact .refl s

theorem slotBoundary_side (r : Ramp) (s : State) (hm : (s.ramps[r]).state = .metering) :
    RampSide s (slotBoundary r s) := by
  unfold slotBoundary
  have a : RampSide s (s.modRamp r fun c => { c with slotCount := satInc c.slotCount }) :=
    modRamp_side r _ s (fun h => ⟨h.adopted, h.pattern, h.clock, h.length, h.nominal, h.aligned, h.phase, satInc_le _,
      h.lastSlots⟩) (fun h => h) (fun h => h)
  have m : ((s.modRamp r fun c => { c with slotCount := satInc c.slotCount }).ramps[r]).state = .metering := by
    simp only [State.modRamp_ramps, vset_same]; exact hm
  refine ((a.trans (boundaryArbitration_side r _ (by rw [m]; decide))).trans (judge_side r _)).trans
    (boundaryActs_side r _ ?_)
  rw [judge_state, boundaryArbitration_state]
  exact m

/-! ### Start-up, shutdown and the mode -/

theorem warnExpired_side (r : Ramp) (s : State) : RampSide s (warnExpired r s) :=
  (enter_side r _ _ _ s (by decide) (by decide)).trans (orderStartGreen_side r _).ramp

theorem startGreenExpired_side (r : Ramp) (s : State) : RampSide s (startGreenExpired r s) :=
  (enter_side r _ _ _ s (by decide) (by decide)).trans (orderStartYellow_side r _).ramp

theorem startYellowExpired_side (r : Ramp) (s : State) (hs : (s.ramps[r]).state = .startClear) :
    RampSide s (startYellowExpired r s) :=
  (modRamp_side r _ s (fun h => ⟨h.adopted, h.pattern, h.clock, h.length, h.nominal, h.aligned,
    ⟨fun _ => hs, fun _ => rfl⟩, h.slots, h.lastSlots⟩) (fun h => h) (fun h => h)).trans (orderStartRed_side r _).ramp

theorem enterMetering_side (r : Ramp) (s : State) : RampSide s (enterMetering r s) := by
  unfold enterMetering
  refine ((enter_side r .metering none .stopped s (by decide) (by decide)).trans
    (modRamp_side r _ _ ?_ (fun h => h) (fun h => h))).trans
    (slotBoundary_side r _ ?_)
  · intro h
    exact ⟨fun _ => rfl, fun _ => rfl, h.clock, h.length, h.nominal, h.aligned, h.phase, h.slots, h.lastSlots⟩
  · simp only [State.modRamp_ramps, vset_same]
    exact enter_state r _ _ _ s

theorem startRedExpired_side (r : Ramp) (s : State) : RampSide s (startRedExpired r s) := by
  unfold startRedExpired; split
  · exact enterShutClear_side r s
  · exact enterMetering_side r s

theorem shutFlushExpired_side (r : Ramp) (s : State) : RampSide s (shutFlushExpired r s) := enterOffOrStandby_side r s

/-- A change of mode alone. -/
theorem mode_side (r : Ramp) (m : Mode) (s : State) : RampSide s (s.modRamp r fun c => { c with mode := m }) :=
  modRamp_side r _ s (fun h => ⟨h.adopted, h.pattern, h.clock, h.length, h.nominal, h.aligned, h.phase, h.slots,
    h.lastSlots⟩) (fun h => h) (fun h => h)

/-- The standings refreshed, the ramp arbitrated, its demands judged and acted on. -/
theorem refreshed_side (r : Ramp) (s : State) (h : (s.ramps[r]).state ≠ .off) :
    RampSide s (standbyActs r (judge r (arbitrateRamp r (s.setAuth r (s.auth[r]).refreshAll)).1)) :=
  (((setAuth_side' r _ s AuthUnit.refreshAll_ok (AuthUnit.refreshAll_asserted _ _) fun h => h).trans
    (arbitrateRamp_side r _ h)).trans (judge_side r _)).trans (standbyActs_side r _)

theorem leaveOff_side (r : Ramp) (s : State) : RampSide s (leaveOff r s) := by
  refine (((mode_side r .auto s).trans (enter_side r .standby none .stopped _ (by decide) (by decide))).trans
    (orderDark_side r _).ramp).trans (refreshed_side r _ ?_)
  rw [(orderDark_side r _).state, enter_state]; decide

theorem modeAuto_side (r : Ramp) (s : State) : RampSide s (modeAuto r s) :=
  ((mode_side r .auto s).trans (judge_side r _)).trans (actOnDemand_side r _)

theorem modeOff_side (r : Ramp) (s : State) : RampSide s (modeOff r s) := by
  have a := mode_side r .off s
  have b := a.trans (judge_side r _)
  unfold modeOff; dsimp only
  split
  · exact a
  · exact b.trans (enterOff_side r _)
  · exact b.trans (enterOff_side r _)
  · exact b.trans (enterOff_side r _)
  · exact b.trans (enterShutFlush_side r _)
  all_goals exact b

/-! ### Sources -/

theorem setArmed_side (r : Ramp) (k : Source) (v : Bool) (s : State) : RampSide s (setArmed r k v s) := by
  unfold setArmed; split
  · exact .refl s
  · exact (setAuth_side' r ((s.auth[r]).setSource k { (s.auth[r]).sources[k] with armed := v }) s
      (fun h => AuthUnit.setSource_ok h k _ rfl) (AuthUnit.setSource_asserted _ k _ _ rfl) fun h => h).trans
      (sourceChanged_side r k _)

theorem setLease_side (r : Ramp) (k : Source) (v : Option Nat) (s : State) : RampSide s (setLease r k v s) :=
  setAuth_side' r _ s (fun h => AuthUnit.setSource_ok h k _ rfl) (AuthUnit.setSource_asserted _ k _ _ rfl) fun h => h

theorem assertCentral_side (r : Ramp) (k : Source) (n : Nat) (s : State) (hk : k ≠ 0) :
    RampSide s (assertCentral r k n s) := (setLease_side r k _ s).trans (setAsserted_side r k true _ hk)

theorem endLease_side (r : Ramp) (k : Source) (s : State) (hk : k ≠ 0) : RampSide s (endLease r k s) :=
  (setLease_side r k none s).trans (setAsserted_side r k false _ hk)

theorem centralSource_ne (c : Central) : centralSource c ≠ 0 := by cases c <;> decide

theorem judgeLines_side (r : Ramp) (s : State) : RampSide s (judgeLines r s) :=
  (setAsserted_side r 1 _ s (by decide)).trans (setAsserted_side r 4 _ _ (by decide))

/-! ### Spillback and announcements -/

theorem reviewOnTimers_side (s : State) : RampSide s (reviewOnTimers s) := onTimers_side _ s

theorem setClearTimer_side (r : Ramp) (t : Timer) (s : State) : RampSide s (setClearTimer r t s) :=
  setAuth_side' r _ s (fun h => AuthUnit.clearTimer_ok h t) rfl fun h => h

theorem reviewClear_side (r : Ramp) (s : State) : RampSide s (reviewClear r s) := by
  have off := (setClearTimer_side r .stopped s).trans (setAsserted_side r 2 false _ (by decide))
  unfold reviewClear; dsimp only
  split
  · exact off
  · split
    · exact setClearTimer_side r _ s
    · split
      · exact off
      · split
        · exact setClearTimer_side r _ s
        · exact setClearTimer_side r _ s

theorem reviewSpillback_side (s : State) : RampSide s (reviewSpillback s) :=
  (reviewOnTimers_side s).trans (.forRamps _ reviewClear_side _)

theorem setOnTimer_side (ch : Channel) (t : Timer) (s : State) : RampSide s (s.setOnTimer ch t) := onTimers_side _ s

theorem onTimerExpired_side (ch : Channel) (s : State) : RampSide s (onTimerExpired ch s) := by
  unfold onTimerExpired; split
  · exact ((setOnTimer_side ch _ s).trans (setAsserted_side _ 2 true _ (by decide))).trans (reviewClear_side _ _)
  · exact .refl s

theorem clearTimerExpired_side (r : Ramp) (s : State) : RampSide s (clearTimerExpired r s) :=
  (setClearTimer_side r .stopped s).trans (setAsserted_side r 2 false _ (by decide))

theorem restartSpillback_side (r : Ramp) (s : State) : RampSide s (restartSpillback r s) := by
  unfold restartSpillback; dsimp only
  exact ((((onTimers_side _ s).trans (setClearTimer_side r .stopped _)).trans
    (setAsserted_side r 2 false _ (by decide))).trans (reviewOnTimers_side _)).trans (reviewClear_side r _)

theorem announce_side (before s : State) : RampSide s (announce before s) :=
  (LaneSide.forEach _ _ (laneHears_side before) s).ramp.trans (reviewSpillback_side _)

/-! ### Selection and the Rate Unit -/

theorem selectPlan_side (r : Ramp) (s : State) : RampSide s (selectPlan r s) := by
  unfold selectPlan; split
  · exact .refl s
  · dsimp only
    have a : ∀ (v : Vector Bool 16) (p : Proposal) (b : Bool), RampSide s (attentionIf b r
        ((s.setVector r v).modRamp r fun c => { persist p c with planUnset := p.unset })) := by
      intro v p b
      refine ((setVector_side r v s).trans (modRamp_side r _ _ ?_ ?_ ?_)).trans (attentionIf_side b r _).ramp
      · intro h
        unfold persist; split
        · exact ⟨h.adopted, h.pattern, h.clock, h.length, h.nominal, h.aligned, h.phase, h.slots, h.lastSlots⟩
        · dsimp only; split
          · exact ⟨h.adopted, h.pattern, h.clock, h.length, h.nominal, h.aligned, h.phase, h.slots, h.lastSlots⟩
          · exact ⟨h.adopted, h.pattern, h.clock, h.length, h.nominal, h.aligned, h.phase, h.slots, h.lastSlots⟩
      · intro h
        unfold persist; split
        · exact h
        · dsimp only; split
          · exact h
          · exact h
      · intro h
        rw [← h]; show _ = (persist p _).state
        unfold persist; split
        · rfl
        · dsimp only; split <;> rfl
    split
    · exact a _ _ _
    · exact ((a _ _ _).trans (judge_side r _)).trans (actOnDemand_side r _)

theorem stepRelief_le (a : Adaptive) (q : Option Nat) (n : Nat) (h : n ≤ 8) : stepRelief a q n ≤ 8 := by
  unfold stepRelief
  repeat' split
  all_goals omega

theorem rateClose_side (r : Ramp) (s : State) : RampSide s (rateClose r s) := by
  unfold rateClose; split
  · refine setRate_side r _ s fun h => ?_
    unfold rateAtClose; dsimp only; split
    · exact stepRelief_le _ _ _ h
    · exact stepRelief_le _ _ _ h
  · exact .refl s

/-! ### A lane's points -/

theorem lanePoint_side (f : LaneRec → Bool → LaneCtx → LaneCtx) (l : Lane) (s : State)
    (h : ∀ c b, (s.lanes[l]).Ok → (f c b s.lanes[l]).Ok) : RampSide s (lanePoint f l s) :=
  (orderLane_side f l s h).ramp

theorem laneRedEnd_side (l : Lane) (s : State) : RampSide s (laneRedEnd l s) := by
  unfold laneRedEnd; dsimp only
  have a := lanePoint_side redEnded l s fun c b h => redEnded_ok h c b
  split
  · exact a.trans (shutClearDone_side _ _)
  · exact a

end Sys2Proof.Machine
end

