-- ==== Sys2Proof/Laws/Ring.lean ====
section
/-! SUPPORT. The ring's stores: every operation keeps them in order, the port's take leaves no frame waiting at a free
port, and what the end of an event can do (`EndSide`). -/

namespace Sys2Proof.Machine

/-! ### Counting -/

theorem rspCount_append (l m : List Insert) : rspCount (l ++ m) = rspCount l + rspCount m := by
  simp [rspCount]

theorem sigCount_append (l m : List Insert) : sigCount (l ++ m) = sigCount l + sigCount m := by
  simp [sigCount]

theorem sigStations_append (l m : List Insert) : sigStations (l ++ m) = sigStations l ++ sigStations m := by
  simp [sigStations]

theorem any_isSigFor (st : Nat) (l : List Insert) : l.any (Insert.isSigFor st) = true ↔ st ∈ sigStations l := by
  induction l with
  | nil => simp [sigStations]
  | cons i l ih =>
    cases i with
    | sig x im =>
      have e : sigStations (.sig x im :: l) = x :: sigStations l := rfl
      rw [List.any_cons, Bool.or_eq_true, ih, e, List.mem_cons]
      refine or_congr ?_ Iff.rfl
      show (x == st) = true ↔ st = x
      rw [beq_iff_eq]; exact eq_comm
    | rsp d p =>
      have e : sigStations (.rsp d p :: l) = sigStations l := rfl
      rw [List.any_cons, e, ← ih]; simp [Insert.isSigFor]

/-- A queued SIG's content replaced in place. -/
def putSig (st : Nat) (image : List Aspect) (i : Insert) : Insert := if i.isSigFor st then .sig st image else i

theorem putSig_isRsp (st : Nat) (im : List Aspect) (i : Insert) : (putSig st im i).isRsp = i.isRsp := by
  cases i with
  | sig x y => unfold putSig; split <;> rfl
  | rsp d p => rfl

theorem rspCount_cons (i : Insert) (l : List Insert) : rspCount (i :: l) = (if i.isRsp then 1 else 0) + rspCount l := by
  unfold rspCount; rw [List.filter_cons]; split
  · rw [List.length_cons]; omega
  · omega

theorem sigCount_cons (i : Insert) (l : List Insert) : sigCount (i :: l) = (if i.isRsp then 0 else 1) + sigCount l := by
  unfold sigCount; rw [List.filter_cons]; cases i.isRsp <;> simp [Nat.add_comm]

theorem rspCount_map (st : Nat) (im : List Aspect) (l : List Insert) : rspCount (l.map (putSig st im)) = rspCount l := by
  induction l with
  | nil => rfl
  | cons i l ih => rw [List.map_cons, rspCount_cons, rspCount_cons, putSig_isRsp, ih]

theorem sigCount_map (st : Nat) (im : List Aspect) (l : List Insert) : sigCount (l.map (putSig st im)) = sigCount l := by
  induction l with
  | nil => rfl
  | cons i l ih => rw [List.map_cons, sigCount_cons, sigCount_cons, putSig_isRsp, ih]

theorem sigStations_map (st : Nat) (im : List Aspect) (l : List Insert) :
    sigStations (l.map (putSig st im)) = sigStations l := by
  induction l with
  | nil => rfl
  | cons i l ih =>
    rw [List.map_cons]
    cases i with
    | sig x y =>
      have e : ∃ y', putSig st im (.sig x y) = .sig x y' := by
        unfold putSig Insert.isSigFor
        by_cases h : (x == st) = true
        · have h' : x = st := by simpa using h
          subst h'; exact ⟨im, if_pos h⟩
        · exact ⟨y, if_neg h⟩
      obtain ⟨y', e⟩ := e
      rw [e]
      show x :: sigStations _ = x :: sigStations l
      rw [ih]
    | rsp d p =>
      show sigStations _ = sigStations l
      exact ih

theorem sigStations_length (l : List Insert) : (sigStations l).length = sigCount l := by
  induction l with
  | nil => rfl
  | cons i l ih =>
    rw [sigCount_cons, ← ih]
    cases i with
    | sig x y => show (x :: sigStations l).length = _; rw [List.length_cons]; simp [Insert.isRsp, Nat.add_comm]
    | rsp d p => show (sigStations l).length = _; simp [Insert.isRsp]

/-! ### The stores -/

theorem enqueueSig_stores {q : RingUnit} (h : q.Stores) (st : Nat) (im : List Aspect) : (enqueueSig st im q).Stores := by
  unfold enqueueSig
  split
  · have e : (q.insert.map fun i => if i.isSigFor st then .sig st im else i) = q.insert.map (putSig st im) := rfl
    refine ⟨h.forward, ?_, ?_, ?_, ?_, h.run, h.bad, h.overflow, h.discard⟩
    · rw [e, rspCount_map]; exact h.rsps
    · rw [e, sigCount_map]; exact h.sigs
    · rw [e, sigStations_map]; exact h.oneSig
    · intro hw; rw [e, sigCount_map]; exact h.waits hw
  · next h1 =>
    have n1 : st ∉ sigStations q.insert := fun hm => h1 ((any_isSigFor st _).2 hm)
    split
    · have e : (q.waiting.map fun w => if w.station = st then ⟨st, im⟩ else w).map (·.station)
          = q.waiting.map (·.station) := by
        rw [List.map_map]; apply List.map_congr_left
        intro w _; show (if w.station = st then (⟨st, im⟩ : WaitingSig) else w).station = w.station
        split
        · next e => exact e.symm
        · rfl
      refine ⟨h.forward, h.rsps, h.sigs, ?_, ?_, h.run, h.bad, h.overflow, h.discard⟩
      · rw [e]; exact h.oneSig
      · intro hw; apply h.waits; intro hn; apply hw; rw [hn]; rfl
    · next h2 =>
      have n2 : st ∉ q.waiting.map (·.station) := by
        intro hm; apply h2
        obtain ⟨w, hw, e⟩ := List.mem_map.1 hm
        exact List.any_eq_true.2 ⟨w, hw, by simpa using e⟩
      split
      · next h3 =>
        have hw : q.waiting = [] := by
          by_contra hn; rw [h.waits hn] at h3; exact Nat.lt_irrefl _ h3
        have hs := h.oneSig
        rw [hw, List.map_nil, List.append_nil] at hs
        refine ⟨h.forward, ?_, ?_, ?_, fun hn => absurd hw hn, h.run, h.bad, h.overflow, h.discard⟩
        · rw [rspCount_append]; exact h.rsps
        · rw [sigCount_append]; exact h3
        · rw [hw, List.map_nil, List.append_nil, sigStations_append]
          exact List.nodup_append'.2 ⟨hs, List.nodup_singleton st, by simpa [sigStations] using n1⟩
      · next h3 =>
        refine ⟨h.forward, h.rsps, h.sigs, ?_, fun _ => le_antisymm h.sigs (not_lt.1 h3), h.run, h.bad, h.overflow,
          h.discard⟩
        rw [List.map_append, ← List.append_assoc]
        refine List.nodup_append'.2 ⟨h.oneSig, List.nodup_singleton st, ?_⟩
        intro x hx hy
        have : x = st := by simpa using hy
        subst this
        rcases List.mem_append.1 hx with hx | hx
        · exact n1 hx
        · exact n2 hx

theorem forwardFrame_stores {q : RingUnit} (h : q.Stores) (b : List Byte) : (forwardFrame b q).Stores := by
  unfold forwardFrame; split
  · next hl =>
    exact ⟨by rw [List.length_append]; exact hl, h.rsps, h.sigs, h.oneSig, h.waits, h.run, h.bad, h.overflow, h.discard⟩
  · exact ⟨h.forward, h.rsps, h.sigs, h.oneSig, h.waits, h.run, h.bad, satInc_le _, h.discard⟩

theorem takeForward_stores {q : RingUnit} (h : q.Stores) (f : List Byte) (fs : List (List Byte))
    (e : q.forward = f :: fs) : (takeForward f fs q).Stores := by
  have hf := h.forward
  rw [e, List.length_cons] at hf
  exact ⟨by show fs.length ≤ 2; omega, h.rsps, h.sigs, h.oneSig, h.waits, min_le_right _ _, h.bad, h.overflow, h.discard⟩

theorem takeInsert_stores {q : RingUnit} (h : q.Stores) (own : Nat) (i : Insert) (is : List Insert)
    (e : q.insert = i :: is) : (takeInsert own i is q).Stores := by
  have hr := h.rsps
  have hs := h.sigs
  have ho := h.oneSig
  have hw := h.waits
  rw [e] at hr hs ho hw
  rw [rspCount_cons] at hr
  rw [sigCount_cons] at hs hw
  unfold takeInsert
  cases i with
  | rsp d p =>
    simp only [Insert.isRsp, if_true] at hr hs hw ⊢
    exact ⟨h.forward, by show rspCount is ≤ 8; omega, by show sigCount is ≤ 8; omega, ho,
      fun hn => by show sigCount is = 8; have := hw hn; omega, Nat.zero_le _, h.bad, h.overflow, h.discard⟩
  | sig x im =>
    simp only [Insert.isRsp, Bool.false_eq_true, if_false] at hr hs hw ⊢
    have ho' : (sigStations is ++ q.waiting.map (·.station)).Nodup := (List.nodup_cons.1 ho).2
    unfold promoteWaiting
    dsimp only
    split
    · next hq =>
      refine ⟨h.forward, by show rspCount is ≤ 8; omega, by show sigCount is ≤ 8; omega, ho', ?_, Nat.zero_le _,
        h.bad, h.overflow, h.discard⟩
      intro hn; exact absurd hq hn
    · next w ws hq =>
      have h8 := hw (by rw [hq]; exact List.cons_ne_nil _ _)
      rw [hq, List.map_cons] at ho'
      refine ⟨h.forward, ?_, ?_, ?_, ?_, Nat.zero_le _, h.bad, h.overflow, h.discard⟩
      · show rspCount (is ++ [.sig w.station w.image]) ≤ 8
        rw [rspCount_append]; show rspCount is + 0 ≤ 8; omega
      · show sigCount (is ++ [.sig w.station w.image]) ≤ 8
        rw [sigCount_append]; show sigCount is + 1 ≤ 8; omega
      · show (sigStations (is ++ [.sig w.station w.image]) ++ ws.map (·.station)).Nodup
        rw [sigStations_append]
        show ((sigStations is ++ [w.station]) ++ ws.map (·.station)).Nodup
        rw [List.append_assoc]; exact ho'
      · intro _
        show sigCount (is ++ [.sig w.station w.image]) = 8
        rw [sigCount_append]; show sigCount is + 1 = 8; omega

theorem portTake_stores {q : RingUnit} (h : q.Stores) (own : Nat) : (portTake own q).Stores := by
  unfold portTake
  split
  · exact h
  · split
    · exact h
    · next hf _ => exact takeForward_stores h _ _ hf
    · next _ hi => exact takeInsert_stores h own _ _ hi
    · next hf hi =>
      split
      · exact takeForward_stores h _ _ hf
      · exact takeInsert_stores h own _ _ hi

theorem takeInsert_inFlight (own : Nat) (i : Insert) (is : List Insert) (q : RingUnit) :
    (takeInsert own i is q).inFlight = some ⟨insertBytes own i, 0⟩ := by
  unfold takeInsert; dsimp only; split
  · rfl
  · unfold promoteWaiting; split <;> rfl

/-- After the port's choice, a free port has nothing to take (R160). -/
theorem portTake_busy (own : Nat) (q : RingUnit) (h : (portTake own q).inFlight = none) :
    (portTake own q).forward = [] ∧ (portTake own q).insert = [] := by
  unfold portTake at h ⊢
  split
  · next x e => rw [e] at h; dsimp only at h; rw [e] at h; cases h
  · next e =>
    rw [e] at h
    dsimp only at h ⊢
    split at h
    · next hf hi => exact ⟨hf, hi⟩
    · cases h
    · rw [takeInsert_inFlight] at h; cases h
    · split at h
      · cases h
      · rw [takeInsert_inFlight] at h; cases h

theorem portTake_ok {q : RingUnit} (h : q.Stores) (own : Nat) : (portTake own q).Ok :=
  ⟨portTake_stores h own, portTake_busy own q⟩

/-! ### SIGs due and SIG places -/

/-- A station put among those due a SIG joins them, and their order stays ascending (R163). -/
theorem mem_insertStation (st : Nat) (l : List Nat) (x : Nat) : x ∈ insertStation st l ↔ x = st ∨ x ∈ l := by
  induction l with
  | nil => simp [insertStation]
  | cons a l ih =>
    unfold insertStation
    split
    · next h => subst h; simp
    · split
      · simp
      · simp only [List.mem_cons, ih]; tauto

theorem insertStation_ascending (st : Nat) {l : List Nat} (h : l.Pairwise (· < ·)) :
    (insertStation st l).Pairwise (· < ·) := by
  induction l with
  | nil => simp [insertStation]
  | cons a l ih =>
    rw [List.pairwise_cons] at h
    unfold insertStation
    split
    · exact List.pairwise_cons.2 h
    · split
      · refine List.pairwise_cons.2 ⟨fun x hx => ?_, List.pairwise_cons.2 h⟩
        rcases List.mem_cons.1 hx with e | e
        · omega
        · have := h.1 x e; omega
      · refine List.pairwise_cons.2 ⟨fun x hx => ?_, ih h.2⟩
        rcases (mem_insertStation st l x).1 hx with e | e
        · omega
        · exact h.1 x e

/-- A waiting SIG for a station. -/
theorem any_waits (st : Nat) (l : List WaitingSig) :
    (l.any fun w => w.station == st) = true ↔ st ∈ l.map (·.station) := by
  simp [List.any_eq_true]

/-- The insert queue's frames are its responses and its SIGs. -/
theorem insert_length (l : List Insert) : l.length = rspCount l + sigCount l := by
  induction l with
  | nil => rfl
  | cons i l ih => rw [List.length_cons, rspCount_cons, sigCount_cons, ih]; cases i.isRsp <;> simp <;> omega

/-- A freed SIG place is the oldest waiting SIG's (R163). -/
theorem promoteWaiting_spec (q : RingUnit) : (promoteWaiting q).waiting = q.waiting.drop 1
    ∧ (promoteWaiting q).insert = q.insert ++ (q.waiting.take 1).map (fun w => .sig w.station w.image)
    ∧ (promoteWaiting q).run = q.run ∧ (promoteWaiting q).forward = q.forward
    ∧ (promoteWaiting q).inFlight = q.inFlight := by
  unfold promoteWaiting
  split
  · next h => rw [h]; simp
  · next h => rw [h]; simp

/-- A busy port takes nothing (R160). -/
theorem portTake_of_busy (own : Nat) {q : RingUnit} {x : InFlight} (h : q.inFlight = some x) : portTake own q = q := by
  unfold portTake; rw [h]

/-- Nothing waits: nothing is taken. -/
theorem portTake_of_empty (own : Nat) {q : RingUnit} (hf : q.forward = []) (hi : q.insert = []) :
    portTake own q = q := by
  unfold portTake; split
  · rfl
  · rw [hf, hi]

/-- A state whose port is settled stays as it is. -/
theorem pump_of_ok {s : State} (h : s.ring.Ok) : pump s = s := by
  have e : portTake (s.station.getD 0) s.ring = s.ring := by
    cases hx : s.ring.inFlight with
    | none => exact portTake_of_empty _ (h.busy hx).1 (h.busy hx).2
    | some x => exact portTake_of_busy _ hx
  unfold pump; rw [e]

theorem appendRsp_stores {s : State} (h : s.ring.Stores) (dst : Nat) (p : List Byte)
    (hr : rspCount s.ring.insert < 8) : (appendRsp dst p s).ring.Stores := by
  refine ⟨h.forward, ?_, ?_, ?_, ?_, h.run, h.bad, h.overflow, h.discard⟩
  · show rspCount (s.ring.insert ++ [.rsp dst p]) ≤ 8
    rw [rspCount_append]; exact hr
  · show sigCount (s.ring.insert ++ [.rsp dst p]) ≤ 8
    rw [sigCount_append]; exact h.sigs
  · show (sigStations (s.ring.insert ++ [.rsp dst p]) ++ _).Nodup
    rw [sigStations_append]; show (sigStations s.ring.insert ++ [] ++ _).Nodup
    rw [List.append_nil]; exact h.oneSig
  · intro hw
    show sigCount (s.ring.insert ++ [.rsp dst p]) = 8
    rw [sigCount_append]; exact h.waits hw

/-! ### The SIGs of an event and its end -/

theorem enqueueSig_rsps (st : Nat) (im : List Aspect) (q : RingUnit) :
    rspCount (enqueueSig st im q).insert = rspCount q.insert := by
  unfold enqueueSig
  split
  · exact rspCount_map st im q.insert
  · split
    · rfl
    · split
      · rw [rspCount_append]; rfl
      · rfl

/-- Only the ring's insert queue and waiting SIGs, the drivers' refresh timers and the due SIGs change. -/
structure SigSide (s t : State) : Prop where
  frame : t = { s with ring := t.ring, out := t.out }
  chans : t.out.chans = s.out.chans
  stores : s.ring.Stores → t.ring.Stores
  rsps : rspCount t.ring.insert = rspCount s.ring.insert
  ring : t.ring = { s.ring with insert := t.ring.insert, waiting := t.ring.waiting }
  drivers : t.out.drivers.map (fun d => (d.station, d.silence)) = s.out.drivers.map fun d => (d.station, d.silence)

namespace SigSide

theorem refl (s : State) : SigSide s s := ⟨rfl, rfl, fun h => h, rfl, rfl, rfl⟩

theorem trans {s t u : State} (a : SigSide s t) (b : SigSide t u) : SigSide s u where
  frame := by rw [b.frame, a.frame]
  chans := b.chans.trans a.chans
  stores h := b.stores (a.stores h)
  rsps := b.rsps.trans a.rsps
  ring := by rw [b.ring, a.ring]
  drivers := b.drivers.trans a.drivers

theorem forEach {α : Type} (l : List α) (f : α → State → State) (h : ∀ a t, SigSide t (f a t)) (s : State) :
    SigSide s (forEach l f s) := by
  induction l generalizing s with
  | nil => exact refl s
  | cons a l ih => exact (h a s).trans (ih (f a s))

end SigSide

theorem modDriver_refresh (st : Nat) (l : List DriverRec) :
    (modDriver st (fun d => { d with refresh := .running 0 }) l).map (fun d => (d.station, d.silence))
      = l.map fun d => (d.station, d.silence) := by
  unfold modDriver
  rw [List.map_map]
  apply List.map_congr_left
  intro d _
  show ((if d.station = st then { d with refresh := .running 0 } else d : DriverRec).station,
    (if d.station = st then { d with refresh := .running 0 } else d : DriverRec).silence) = (d.station, d.silence)
  split <;> rfl

theorem enqueueSig_frame (st : Nat) (im : List Aspect) (q : RingUnit) :
    enqueueSig st im q = { q with insert := (enqueueSig st im q).insert, waiting := (enqueueSig st im q).waiting } := by
  unfold enqueueSig; repeat' split
  all_goals rfl

theorem sendSig_side (st : Nat) (s : State) : SigSide s (sendSig st s) :=
  ⟨rfl, rfl, fun h => enqueueSig_stores h _ _, enqueueSig_rsps _ _ _, enqueueSig_frame _ _ _, modDriver_refresh _ _⟩

theorem flushSigs_side (s : State) : SigSide s (flushSigs s) := by
  have a : SigSide s (if s.station.isSome then forEach s.out.sigDue sendSig s else s) := by
    split
    · exact SigSide.forEach _ _ sendSig_side s
    · exact .refl s
  exact a.trans ⟨rfl, rfl, fun h => h, rfl, rfl, rfl⟩

/-- With no SIG due there is nothing to enqueue. -/
theorem flushSigs_none {s : State} (h : s.out.sigDue = []) : flushSigs s = s := by
  unfold flushSigs
  rw [h]
  have e : (if s.station.isSome = true then forEach ([] : List Nat) sendSig s else s) = s := by split <;> rfl
  rw [e]
  show { s with out := { s.out with sigDue := [] } } = s
  rw [← h]

/-- What the end of an event can do: the failsafe's ramps move, SIGs enter the ring's stores and the port takes. -/
structure EndSide (s t : State) : Prop where
  pending : t.pending = s.pending
  stride : t.stride = s.stride
  freeCount : t.freeCount = s.freeCount
  tables : t.tables = s.tables
  det : t.det = s.det
  lines : t.lines = s.lines
  time : t.time = s.time
  ramps : ∀ r : Ramp, (s.ramps[r]).Ok → (t.ramps[r]).Ok
  rate : ∀ r : Ramp, (s.rate[r]).Ok → (t.rate[r]).Ok
  lanes : ∀ l : Lane, (s.lanes[l]).Ok → (t.lanes[l]).Ok
  auth : ∀ r : Ramp, (s.auth[r]).Ok → (t.auth[r]).Ok
  outs : ∀ ch : OutCh, (s.out.chans[ch]).Ok → (t.out.chans[ch]).Ok
  attention : ∀ r : Ramp, (s.ramps[r]).attention = true → (t.ramps[r]).attention = true
  free : (∀ r : Ramp, OffFree s r) → ∀ r : Ramp, OffFree t r

theorem SigSide.ending {s t : State} (a : SigSide s t) : EndSide s t := by
  have e : ∃ q o, t = { s with ring := q, out := o } ∧ o.chans = s.out.chans := ⟨t.ring, t.out, a.frame, a.chans⟩
  obtain ⟨q, o, rfl, c⟩ := e
  refine ⟨rfl, rfl, rfl, rfl, rfl, rfl, rfl, fun _ h => h, fun _ h => h, fun _ h => h, fun _ h => h, ?_, fun _ h => h,
    fun h => h⟩
  intro ch h
  show (o.chans[ch]).Ok
  rw [c]; exact h

theorem RampSide.ending {s t : State} (a : RampSide s t) : EndSide s t :=
  ⟨a.pending, a.stride, a.freeCount, a.tables, a.det, a.lines, a.time, a.ramps, a.rate, a.lanes, a.auth, a.outs,
    a.attention, a.free⟩

theorem EndSide.trans {s t u : State} (a : EndSide s t) (b : EndSide t u) : EndSide s u where
  pending := b.pending.trans a.pending
  stride := b.stride.trans a.stride
  freeCount := b.freeCount.trans a.freeCount
  tables := b.tables.trans a.tables
  det := b.det.trans a.det
  lines := b.lines.trans a.lines
  time := b.time.trans a.time
  ramps r h := b.ramps r (a.ramps r h)
  rate r h := b.rate r (a.rate r h)
  lanes l h := b.lanes l (a.lanes l h)
  auth r h := b.auth r (a.auth r h)
  outs ch h := b.outs ch (a.outs ch h)
  attention r h := b.attention r (a.attention r h)
  free h := b.free (a.free h)

theorem EndSide.refl (s : State) : EndSide s s := (RampSide.refl s).ending

theorem pump_side (s : State) : EndSide s (pump s) :=
  ⟨rfl, rfl, rfl, rfl, rfl, rfl, rfl, fun _ h => h, fun _ h => h, fun _ h => h, fun _ h => h, fun _ h => h,
    fun _ h => h, fun h => h⟩

theorem endEvent_side (s : State) : EndSide s (endEvent s) :=
  ((settle_side s).ending.trans (flushSigs_side _).ending).trans (pump_side _)

theorem pump_ring {s : State} (h : s.ring.Stores) : (pump s).ring.Ok := portTake_ok h _

/-- The ring after the end of an event (R160, R163). -/
theorem endEvent_ring {s : State} (h : s.ring.Stores) : (endEvent s).ring.Ok := by
  have a := (settle_side s).ring
  exact pump_ring ((flushSigs_side (settle s)).stores (by rw [a]; exact h))

/-- The end of an event in a calm part with no SIG due is the port's take alone. -/
theorem endEvent_calm {s : State} (h : Calm s) (hd : s.out.sigDue = []) : endEvent s = pump s := by
  unfold endEvent; rw [h.settle, flushSigs_none hd]

theorem promoteWaiting_eq (q : RingUnit) : promoteWaiting q = { q with
    insert := q.insert ++ (q.waiting.take 1).map fun w => .sig w.station w.image, waiting := q.waiting.drop 1 } := by
  unfold promoteWaiting
  cases h : q.waiting with
  | nil => cases q; simp_all
  | cons w ws => rfl

/-- Taking the head of the insert queue, whole (R161, R163). -/
theorem takeInsert_eq (own : Nat) (i : Insert) (is : List Insert) (q : RingUnit) : takeInsert own i is q = { q with
    inFlight := some ⟨insertBytes own i, 0⟩, run := 0,
    insert := is ++ (if i.isRsp then [] else (q.waiting.take 1).map fun w => .sig w.station w.image),
    waiting := if i.isRsp then q.waiting else q.waiting.drop 1 } := by
  unfold takeInsert; dsimp only; split
  · rw [List.append_nil]
  · rw [promoteWaiting_eq]

/-- The port's take touches the stores, the frame in flight and the run alone. -/
theorem portTake_frame (own : Nat) (q : RingUnit) : ∃ a b c d e, portTake own q =
    { q with forward := a, inFlight := b, insert := c, waiting := d, run := e } := by
  unfold portTake
  repeat' split
  all_goals first
    | exact ⟨q.forward, q.inFlight, q.insert, q.waiting, q.run, rfl⟩
    | (rw [takeInsert_eq]; exact ⟨_, _, _, _, _, rfl⟩)
    | exact ⟨_, _, _, _, _, rfl⟩

theorem pump_ring_eq (s : State) : (pump s).ring = portTake (s.station.getD 0) s.ring := rfl

end Sys2Proof.Machine
end

