-- ==== Sys2Proof/Laws/Detectors.lean ====
section
/-! SUPPORT. Every operation on a detector channel keeps `DetState.Ok`; and what an event of the Detector Unit can do to
the part. -/

namespace Sys2Proof.Machine

namespace DetState

theorem reset_ok (e : Nat) : DetState.reset.Ok e :=
  ⟨fun h => (by cases h), fun h => (by cases h), fun h => absurd rfl h, Nat.zero_le _, Nat.zero_le _, Nat.zero_le _,
    Nat.zero_le _, Nat.zero_le _⟩

/-- A change of health to one other than STUCK. -/
theorem setHealth_ok {e : Nat} {c : DetState} (h : c.Ok e) (x : Health) (hx : x = .stuck → c.stuck = .expired) :
    (c.setHealth x).Ok e := by
  refine ⟨fun ht => ?_, hx, h.stuckTimer, h.volume, h.glitches, h.onTime, h.lastOcc, h.lastVol⟩
  have : (c.okThroughout && decide (x = .ok)) = true := ht
  rw [Bool.and_eq_true] at this
  exact of_decide_eq_true this.2

theorem setFiltered_ok {e : Nat} {c : DetState} (h : c.Ok e) (v : Bool) : (c.setFiltered v).Ok e := by
  unfold setFiltered
  split
  · exact h
  · split
    · next hn hv =>
      refine ⟨h.throughout, fun hs => ?_, fun _ => rfl, satInc_le _, h.glitches, h.onTime, h.lastOcc, h.lastVol⟩
      have hf : c.filtered = false := by
        cases hc : c.filtered with
        | false => rfl
        | true => rw [hc] at hn; exact absurd hv hn
      have h1 := h.stuckHealth hs
      have h2 := h.stuckTimer (by rw [h1]; decide)
      rw [hf] at h2; cases h2
    · dsimp only
      split
      · next hs =>
        refine ⟨fun _ => rfl, fun h => (by cases h), fun hn => absurd rfl hn, h.volume, h.glitches, h.onTime, h.lastOcc, h.lastVol⟩
      · next hs =>
        exact ⟨h.throughout, fun hs' => absurd hs' hs, fun hn => absurd rfl hn, h.volume, h.glitches, h.onTime,
          h.lastOcc, h.lastVol⟩

/-- A change of the pending change and the glitch count. -/
theorem pending_ok {e : Nat} {c : DetState} (h : c.Ok e) (p : Option PendingChange) :
    ({ c with pending := p } : DetState).Ok e :=
  ⟨h.throughout, h.stuckHealth, h.stuckTimer, h.volume, h.glitches, h.onTime, h.lastOcc, h.lastVol⟩

theorem glitch_ok {e : Nat} {c : DetState} (h : c.Ok e) :
    ({ c with pending := none, glitches := satInc c.glitches } : DetState).Ok e :=
  ⟨h.throughout, h.stuckHealth, h.stuckTimer, h.volume, satInc_le _, h.onTime, h.lastOcc, h.lastVol⟩

end DetState

theorem applyFilter_ok {e : Nat} {c : DetState} (h : c.Ok e) (d : DetRec) (v : Bool) : (applyFilter d v c).Ok e := by
  unfold applyFilter
  split
  · split
    · exact h
    · split
      · exact DetState.setFiltered_ok h v
      · exact DetState.pending_ok h _
  · split
    · exact h
    · exact DetState.glitch_ok h

theorem recoveredHealth_stuck {c : DetState} (h : recoveredHealth c = .stuck) : c.stuck = .expired := by
  unfold recoveredHealth at h; split at h
  · next e => exact e
  · cases h

theorem judgeLoop_ok {e : Nat} {c : DetState} (h : c.Ok e) (f : Bool) : (judgeLoop f c).Ok e := by
  unfold judgeLoop
  split
  · split
    · exact DetState.setHealth_ok h _ (fun h => by cases h)
    · exact DetState.setHealth_ok h _ (fun h => by cases h)
    · exact DetState.setHealth_ok h _ (fun h => by cases h)
    all_goals exact h
  · split
    · exact DetState.setHealth_ok h _ recoveredHealth_stuck
    · exact h

theorem applyReport_ok {e : Nat} {c : DetState} (h : c.Ok e) (d : DetRec) (v f : Bool) :
    (applyReport d v f c).Ok e := by
  have h1 : (takeReport v f c).Ok e :=
    ⟨h.throughout, h.stuckHealth, h.stuckTimer, h.volume, h.glitches, h.onTime, h.lastOcc, h.lastVol⟩
  refine judgeLoop_ok ?_ f
  unfold serveReport
  split
  · exact DetState.setFiltered_ok (DetState.setHealth_ok h1 _ (fun h => by cases h)) v
  · exact DetState.setFiltered_ok (DetState.setHealth_ok h1 _ (fun h => by cases h)) v
  all_goals exact applyFilter_ok h1 d v

theorem filterExpired_ok {e : Nat} {c : DetState} (h : c.Ok e) : (filterExpired c).Ok e := by
  unfold filterExpired; split
  · exact DetState.setFiltered_ok (DetState.pending_ok h none) _
  · exact h

theorem silenceExpired_ok {e : Nat} {c : DetState} (h : c.Ok e) : (silenceExpired c).Ok e :=
  ⟨fun h => (by cases h), fun h => (by cases h), fun hn => absurd rfl hn, h.volume, h.glitches, h.onTime, h.lastOcc,
    h.lastVol⟩

theorem stuckExpired_ok {e : Nat} {c : DetState} (h : c.Ok e) (hr : c.stuck ≠ .stopped) : (stuckExpired c).Ok e := by
  have h1 : ({ c with stuck := .expired } : DetState).Ok e :=
    ⟨h.throughout, fun _ => rfl, fun _ => h.stuckTimer hr, h.volume, h.glitches, h.onTime, h.lastOcc, h.lastVol⟩
  unfold stuckExpired; dsimp only; split
  · exact DetState.setHealth_ok h1 _ (fun _ => rfl)
  · exact h1

theorem judgeChatter_ok {e : Nat} {c : DetState} (h : c.Ok e) (d : Option DetRec) : (judgeChatter d c).Ok e := by
  unfold judgeChatter
  split
  · exact h
  · split
    · split
      · exact DetState.setHealth_ok h _ (fun h => by cases h)
      · exact h
    · split
      · exact DetState.setHealth_ok h _ recoveredHealth_stuck
      · exact h
    all_goals exact h

theorem wholeTenths_mono {a b : Nat} (h : a ≤ b) : wholeTenths a ≤ wholeTenths b := Nat.div_le_div_right h

/-- A published occupancy is at most 1000 where the on-time fits the window (R18). -/
theorem occupancy_le {on len : Nat} (h : on ≤ len) : occupancy on (wholeTenths len) ≤ 1000 := by
  unfold occupancy; split
  · omega
  · next hn =>
    exact Nat.div_le_of_le_mul (Nat.mul_le_mul_right 1000 (wholeTenths_mono h))

theorem publish_ok {len : Nat} {c : DetState} (h : c.Ok len) (d : Option DetRec) :
    (publish d (wholeTenths len) c).Ok 0 := by
  refine ⟨fun ht => ?_, h.stuckHealth, h.stuckTimer, Nat.zero_le _, Nat.zero_le _, Nat.zero_le _, ?_, ?_⟩
  · have : (d.isSome && decide (c.health = .ok)) = true := ht
    rw [Bool.and_eq_true] at this
    exact of_decide_eq_true this.2
  · show (if d.isSome = true then occupancy c.onTime (wholeTenths len) else 0) ≤ 1000
    split
    · exact occupancy_le h.onTime
    · omega
  · show (if d.isSome = true then c.volume else 0) ≤ 65535
    split
    · exact h.volume
    · omega

theorem advance_stopped {d : Nat} {t : Timer} (h : t.advance d ≠ .stopped) : t ≠ .stopped := by
  intro e; rw [e] at h; exact h rfl

theorem detPass_ok {e : Nat} {c : DetState} (h : c.Ok e) (d : Nat) : (c.pass d).Ok (e + d) := by
  refine ⟨h.throughout, fun hs => ?_, fun hn => h.stuckTimer (advance_stopped hn), h.volume, h.glitches, ?_,
    h.lastOcc, h.lastVol⟩
  · show c.stuck.advance d = .expired
    rw [h.stuckHealth hs]; rfl
  · show (if c.filtered = true then c.onTime + d else c.onTime) ≤ e + d
    have := h.onTime
    split <;> omega

theorem detReset_ok : DetUnit.reset.Ok := by
  intro ch
  have e : DetUnit.reset.chans[ch] = DetState.reset := by simp [DetUnit.reset]
  rw [e]; exact DetState.reset_ok _

/-! ### Channels of the unit -/

/-- One channel's record rewritten. -/
theorem setChan_ok {s : State} (h : s.det.Ok) (ch : Channel) (x : DetState)
    (hx : (s.det.chans[ch]).Ok s.det.elapsed → x.Ok s.det.elapsed) : (s.setChan ch x).det.Ok := by
  intro c
  show ((vset s.det.chans ch x)[c]).Ok s.det.elapsed
  rw [vset_get]; split
  · next e => subst e; exact hx (h ch)
  · exact h c

/-- Every channel's record rewritten in place. -/
theorem mapChans_ok {u : DetUnit} (h : u.Ok) (f : Channel → DetState → DetState)
    (hf : ∀ ch c, c.Ok u.elapsed → (f ch c).Ok u.elapsed) : ({ u with chans := vmap f u.chans } : DetUnit).Ok := by
  intro c
  show ((vmap f u.chans)[c]).Ok u.elapsed
  rw [vmap_get]; exact hf c _ (h c)

/-- A change of one channel with its announcement: the channel's record is the one written, and the readers move as
`RampSide` says. -/
theorem changeChannel_side (ch : Channel) (f : DetState → DetState) (s : State) :
    RampSide (s.setChan ch (f s.det.chans[ch])) (changeChannel ch f s) := announce_side s _

theorem changeChannel_det (ch : Channel) (f : DetState → DetState) (s : State) :
    (changeChannel ch f s).det = (s.setChan ch (f s.det.chans[ch])).det := (changeChannel_side ch f s).det

theorem applyDpr_ok {s : State} (h : s.det.Ok) (st : Nat) (inputs : List Byte) : (applyDpr st inputs s).det.Ok := by
  unfold applyDpr
  rw [(announce_side s _).det]
  refine mapChans_ok h _ fun ch c hc => ?_
  split
  · split
    · split
      · exact applyReport_ok hc _ _ _
      · exact hc
    · exact hc
  · exact hc

end Sys2Proof.Machine
end

