-- ==== Sys2Proof/Laws/Keeps.lean ====
section
/-! SUPPORT. The records that every event keeps in order, taken together (`Keeps`), for the window close, the time
marks, the resets, the lines, the requests and the passing of time. -/

namespace Sys2Proof.Machine

/-- Every record that was in order is in order, and the queue of commands is as it was. -/
structure Keeps (s t : State) : Prop where
  pending : t.pending = s.pending
  det : s.det.Ok → t.det.Ok
  ramps : (∀ r : Ramp, (s.ramps[r]).Ok) → ∀ r : Ramp, (t.ramps[r]).Ok
  rate : (∀ r : Ramp, (s.rate[r]).Ok) → ∀ r : Ramp, (t.rate[r]).Ok
  lanes : (∀ l : Lane, (s.lanes[l]).Ok) → ∀ l : Lane, (t.lanes[l]).Ok
  auth : (∀ r : Ramp, (s.auth[r]).Ok) → ∀ r : Ramp, (t.auth[r]).Ok
  outs : (∀ ch : OutCh, (s.out.chans[ch]).Ok) → ∀ ch : OutCh, (t.out.chans[ch]).Ok
  time : s.time.Ok (windowLength s.tables) → t.time.Ok (windowLength t.tables)
  apart : s.tables.Apart → t.tables.Apart
  free : (∀ r : Ramp, OffFree s r) → ∀ r : Ramp, OffFree t r

theorem Keeps.refl (s : State) : Keeps s s :=
  ⟨rfl, fun h => h, fun h => h, fun h => h, fun h => h, fun h => h, fun h => h, fun h => h, fun h => h, fun h => h⟩

theorem Keeps.trans {s t u : State} (a : Keeps s t) (b : Keeps t u) : Keeps s u :=
  ⟨b.pending.trans a.pending, fun h => b.det (a.det h), fun h => b.ramps (a.ramps h), fun h => b.rate (a.rate h),
    fun h => b.lanes (a.lanes h), fun h => b.auth (a.auth h), fun h => b.outs (a.outs h), fun h => b.time (a.time h),
    fun h => b.apart (a.apart h), fun h => b.free (a.free h)⟩

theorem EndSide.keeps {s t : State} (a : EndSide s t) : Keeps s t :=
  ⟨a.pending, fun h => by rw [a.det]; exact h, fun h r => a.ramps r (h r), fun h r => a.rate r (h r),
    fun h l => a.lanes l (h l), fun h r => a.auth r (h r), fun h ch => a.outs ch (h ch),
    fun h => by rw [a.time, a.tables]; exact h, fun h => by rw [a.tables]; exact h, a.free⟩

theorem RampSide.keeps {s t : State} (a : RampSide s t) : Keeps s t := a.ending.keeps

theorem LaneSide.keeps {s t : State} (a : LaneSide s t) : Keeps s t := a.ramp.keeps

theorem endEvent_keeps (s : State) : Keeps s (endEvent s) := (endEvent_side s).keeps

/-- An event that happens only when due keeps what it keeps when due. -/
theorem whenDue_keeps (left : Option Nat) (f : State → State) (s : State) (h : left = some 0 → Keeps s (f s)) :
    Keeps s (whenDue left f s) := by
  unfold whenDue; split
  · next e => exact (h e).trans (endEvent_keeps _)
  · exact .refl s

/-- The channels of the Detector Unit alone change. -/
theorem det_keeps {s : State} (u : DetUnit) (h : s.det.Ok → u.Ok) : Keeps s { s with det := u } :=
  ⟨rfl, h, fun h => h, fun h => h, fun h => h, fun h => h, fun h => h, fun h => h, fun h => h, fun h => h⟩

theorem ring_keeps (s : State) (q : RingUnit) : Keeps s { s with ring := q } :=
  ⟨rfl, fun h => h, fun h => h, fun h => h, fun h => h, fun h => h, fun h => h, fun h => h, fun h => h, fun h => h⟩

theorem changeChannel_keeps (ch : Channel) (f : DetState → DetState) (s : State)
    (h : (s.det.chans[ch]).Ok s.det.elapsed → (f s.det.chans[ch]).Ok s.det.elapsed) :
    Keeps s (changeChannel ch f s) :=
  (det_keeps (s := s) _ fun hd => setChan_ok hd ch _ h).trans (changeChannel_side ch f s).keeps

/-! ### The window close (R19) -/

theorem chatterStep_keeps (s : State) : Keeps s (chatterStep s) :=
  (det_keeps (s := s) _ fun h => mapChans_ok h _ fun ch _ hc => judgeChatter_ok hc s.tables.detMap[ch]).trans
    (announce_side s _).keeps

theorem publishStep_keeps (s : State) : Keeps s (publishStep s) := by
  refine det_keeps (s := s) _ fun h ch => ?_
  show DetState.Ok 0 ((vmap _ s.det.chans)[ch])
  rw [vmap_get]; exact publish_ok (h ch) _

theorem rollCounts_keeps (s : State) : Keeps s (rollCounts s) := by
  refine ⟨rfl, fun h => h, fun h r => ?_, fun h => h, fun h l => ?_, fun h => h, fun h => h, fun h => h, fun h => h,
    fun h r e => h r ?_⟩
  · show RampCtx.Ok ((vmap _ s.ramps)[r])
    rw [vmap_get]
    have a := h r
    exact ⟨a.adopted, a.pattern, a.clock, a.length, a.nominal, a.aligned, a.phase, Nat.zero_le _, a.slots⟩
  · show LaneCtx.Ok ((vmap _ s.lanes)[l])
    rw [vmap_get]; exact rollLane_ok (h l)
  · rw [← e]; unfold rollCounts; dsimp only; rw [vmap_get]

theorem Keeps.forRamps (f : Ramp → State → State) (h : ∀ r t, Keeps t (f r t)) (s : State) : Keeps s (forRamps f s) :=
  (((h 0 s).trans (h 1 _)).trans (h 2 _)).trans (h 3 _)

theorem closeTaken_keeps (s : State) : Keeps s { s with time := { s.time with closeDue := false } } :=
  ⟨rfl, fun h => h, fun h => h, fun h => h, fun h => h, fun h => h, fun h => h,
    fun h => ⟨h.corridor, h.phase, fun e => (by cases e)⟩, fun h => h, fun h => h⟩

theorem windowClose_keeps (s : State) : Keeps s (windowClose s) :=
  (((((closeTaken_keeps s).trans (chatterStep_keeps _)).trans (publishStep_keeps _)).trans (rollCounts_keeps _)).trans
    (.forRamps _ (fun r t => (selectPlan_side r t).keeps) _)).trans (.forRamps _ (fun r t => (rateClose_side r t).keeps) _)

/-- The window close leaves ring, tables and lines, and takes the close that was due. -/
structure CloseSide (s t : State) : Prop where
  ring : t.ring = s.ring
  tables : t.tables = s.tables
  lines : t.lines = s.lines
  time : t.time = s.time
  drivers : t.out.drivers = s.out.drivers
  calm : Calm s → Calm t

theorem CloseSide.trans {s t u : State} (a : CloseSide s t) (b : CloseSide t u) : CloseSide s u :=
  ⟨b.ring.trans a.ring, b.tables.trans a.tables, b.lines.trans a.lines, b.time.trans a.time,
    b.drivers.trans a.drivers, fun h => b.calm (a.calm h)⟩

theorem RampSide.close {s t : State} (a : RampSide s t) : CloseSide s t :=
  ⟨a.ring, a.tables, a.lines, a.time, a.drivers, a.calm⟩

theorem det_close (s : State) (u : DetUnit) : CloseSide s { s with det := u } :=
  ⟨rfl, rfl, rfl, rfl, rfl, fun h => ⟨h.heard, h.sound, h.present, h.free⟩⟩

theorem rollCounts_close (s : State) : CloseSide s (rollCounts s) :=
  ⟨rfl, rfl, rfl, rfl, rfl, fun h => ⟨h.heard, h.sound, h.present, h.free⟩⟩

theorem windowClose_side (s : State) :
    CloseSide { s with time := { s.time with closeDue := false } } (windowClose s) :=
  ((((det_close _ _).trans (announce_side _ _).close).trans (det_close _ _)).trans (rollCounts_close _)).trans
    ((RampSide.forRamps _ selectPlan_side _).trans (.forRamps _ rateClose_side _)).close

/-! ### Time marks -/

theorem adopt_keeps (d : Int) (m : Nat) (s : State) (hm : m < Config.dayTenths) : Keeps s (adopt d m s) := by
  have p : 0 < Config.tenth := by decide
  have off : ∀ b : Bool, (b = true → False) →
      Keeps s { s with time := { s.time with corridor := m, phase := 0, closeDue := b } } := fun b hb =>
    ⟨rfl, fun h => h, fun h => h, fun h => h, fun h => h, fun h => h, fun h => h,
      fun _ => ⟨hm, p, fun e => (hb e).elim⟩, fun h => h, fun h => h⟩
  unfold adopt
  dsimp only
  split
  · split
    · have e : windowClose { s with time := { s.time with corridor := m, phase := 0 } }
          = windowClose { s with time := { s.time with corridor := m, phase := 0, closeDue := false } } := rfl
      rw [e]
      exact (off false (fun e => by cases e)).trans (windowClose_keeps _)
    · next hc =>
      exact off s.time.closeDue (fun e => by rw [e] at hc; exact hc rfl)
  · exact off false (fun e => by cases e)

theorem timeMark_keeps (src : Nat) (payload : List Byte) (s : State) : Keeps s (timeMark src payload s) := by
  unfold timeMark
  split
  · dsimp only
    split
    · next h =>
      unfold countedMark
      dsimp only
      have last : ∀ t : State, Keeps t { t with time := { t.time with locked := true, syncTimer := .running 0 } } :=
        fun t => ⟨rfl, fun h => h, fun h => h, fun h => h, fun h => h, fun h => h, fun h => h,
          fun h => ⟨h.corridor, h.phase, h.close⟩, fun h => h, fun h => h⟩
      split
      · exact last s
      · exact (adopt_keeps _ _ s h.2).trans (last _)
    · exact .refl s
  · exact .refl s

theorem syncExpired_keeps (s : State) : Keeps s (syncExpired s) :=
  ⟨rfl, fun h => h, fun h => h, fun h => h, fun h => h, fun h => h, fun h => h, fun h => ⟨h.corridor, h.phase, h.close⟩,
    fun h => h, fun h => h⟩

/-! ### Ring quiet and the lines -/

theorem setQuiet_keeps (v : Bool) (s : State) : Keeps s (setQuiet v s) := by
  unfold setQuiet; split
  · exact .refl s
  · exact (ring_keeps s _).trans (.forRamps _ (fun r t => (setAttention_side r t).keeps) _)

theorem heard_keeps (s : State) : Keeps s (heard s) :=
  ((ring_keeps s _).trans (setQuiet_keeps false _)).trans (settle_side _).keeps

theorem setLine_keeps (s : State) (l : Line) (x : LineState) : Keeps s (s.setLine l x) :=
  ⟨rfl, fun h => h, fun h => h, fun h => h, fun h => h, fun h => h, fun h => h, fun h => h, fun h => h, fun h => h⟩

theorem debounced_keeps (l : Line) (s : State) : Keeps s (debounced l s) :=
  (setLine_keeps s l _).trans (.forRamps _ (fun r t => (judgeLines_side r t).keeps) _)

/-! ### Resets -/

theorem rampReset_ok : RampCtx.reset.Ok :=
  ⟨fun _ => rfl, fun _ => rfl, fun _ => rfl, fun _ => rfl, fun _ => rfl, fun _ => rfl, by decide, Nat.zero_le _,
    Nat.zero_le _⟩

theorem authReset_ok : AuthUnit.reset.Ok := by
  have n : ∀ k : Source, (AuthUnit.reset.sources[k]).hold = none := by decide
  refine ⟨List.Pairwise.nil, fun k hk => (by cases hk), fun _ => ⟨rfl, rfl⟩, fun k m h => ?_, fun k m h => ?_,
    fun k h => ?_⟩ <;> rw [n] at h <;> cases h

theorem outReset_ok : OutChan.reset.Ok := fun h => by cases h

theorem replicate_get {α : Type} {n : Nat} (x : α) (i : Fin n) : (Vector.replicate n x)[i] = x := by simp

theorem resetBlocks (r : Ramp) (l : Lane) (ch : OutCh) :
    (State.reset.ramps[r]).Ok ∧ (State.reset.rate[r]).Ok ∧ (State.reset.lanes[l]).Ok ∧ (State.reset.auth[r]).Ok
      ∧ (OutUnit.reset.chans[ch]).Ok := by
  have e1 : State.reset.ramps[r] = RampCtx.reset := replicate_get _ r
  have e2 : State.reset.rate[r] = RateRec.reset := replicate_get _ r
  have e3 : State.reset.lanes[l] = LaneCtx.reset := replicate_get _ l
  have e4 : State.reset.auth[r] = AuthUnit.reset := replicate_get _ r
  have e5 : OutUnit.reset.chans[ch] = OutChan.reset := replicate_get _ ch
  rw [e1, e2, e3, e4, e5]
  exact ⟨rampReset_ok, RateRec.reset_ok, laneReset_ok, authReset_ok, outReset_ok⟩

/-- Unset tables name nothing twice. -/
theorem unset_apart : Tables.unset.Apart :=
  have b : ∀ r, beaconOf Tables.unset r = none := by decide
  have d : ∀ l, headOf Tables.unset l = none := by decide
  have i : ∀ c : Channel, Tables.unset.detMap[c] = none := by decide
  have o : ∀ c : OutCh, Tables.unset.outMap[c] = none := by decide
  ⟨by decide, by decide, fun k _ _ _ h => (by rw [d] at h; cases h), fun r _ _ _ h => (by rw [b] at h; cases h),
    fun r _ _ h => (by rw [b] at h; cases h), fun c _ _ _ _ h => (by rw [i] at h; cases h),
    fun c _ _ _ _ h => (by rw [o] at h; cases h)⟩

/-- After a reset no ramp has a holder (R102). -/
theorem reset_unheld (r : Ramp) : (State.reset.auth[r]).holder = none := by
  have e : State.reset.auth[r] = AuthUnit.reset := replicate_get _ r
  rw [e]; rfl

theorem powerOn_keeps (straps : BitVec 6) (s : State) : Keeps s (powerOn straps s) :=
  ⟨rfl, fun _ => detReset_ok, fun _ r => (resetBlocks r 0 0).1, fun _ r => (resetBlocks r 0 0).2.1,
    fun _ l => (resetBlocks 0 l 0).2.2.1, fun _ r => (resetBlocks r 0 0).2.2.2.1, fun _ ch => (resetBlocks 0 0 ch).2.2.2.2,
    fun _ => ⟨show 0 < Config.dayTenths by decide, show 0 < Config.tenth by decide, fun e => (by cases e)⟩,
    fun _ => unset_apart, fun _ r _ => reset_unheld r⟩

theorem runReset_keeps (s : State) : Keeps s (runResetState s) := by
  refine ⟨rfl, fun _ => detReset_ok, fun _ r => (resetBlocks r 0 0).1, fun _ r => (resetBlocks r 0 0).2.1,
    fun _ l => (resetBlocks 0 l 0).2.2.1, fun _ r => (resetBlocks r 0 0).2.2.2.1, fun _ ch => ?_,
    fun h => ⟨h.corridor, h.phase, fun e => (by cases e)⟩, fun h => h, fun _ r _ => reset_unheld r⟩
  show ((vmap (fun _ _ => OutChan.reset) s.out.chans)[ch]).Ok
  rw [vmap_get]; exact outReset_ok

/-! ### Lamp reports and expiries of the Output Unit -/

theorem drivers_keeps (s : State) (l : List DriverRec) : Keeps s { s with out := { s.out with drivers := l } } :=
  ⟨rfl, fun h => h, fun h => h, fun h => h, fun h => h, fun h => h, fun h => h, fun h => h, fun h => h, fun h => h⟩

theorem lampReport_keeps (st : Nat) (outs : List Byte) (s : State) : Keeps s (lampReport st outs s) := by
  unfold lampReport; split
  · exact .refl s
  · exact (drivers_keeps s _).trans (LaneSide.forEach _ _ (lampReportChannel_side st outs) _).keeps

theorem driverSilent_keeps (st : Nat) (s : State) : Keeps s (driverSilent st s) :=
  (drivers_keeps s _).trans (LaneSide.forEach _ _ (silenceLatch_side st) _).keeps

theorem setOut_keeps (ch : OutCh) (x : OutChan) (s : State) (h : (s.out.chans[ch]).Ok → x.Ok) :
    Keeps s (s.setOut ch x) := by
  refine ⟨rfl, fun h => h, fun h => h, fun h => h, fun h => h, fun h => h, fun ho c => ?_, fun h => h, fun h => h,
    fun h => h⟩
  show ((vset s.out.chans ch x)[c]).Ok
  rw [vset_get]; split
  · next e => subst e; exact h (ho ch)
  · exact ho c

theorem latchFault_keeps (ch : OutCh) (s : State) : Keeps s (latchFault ch s) :=
  (setOut_keeps ch _ s fun _ _ => rfl).trans (attentionOwner_side ch _).keeps

/-! ### Table writes and clears -/

/-- The other tables list, name and map nothing. -/
theorem Tables.Apart.same {t u : Tables} (h : t.Apart) (er : u.rampCfg = t.rampCfg) (el : u.laneCfg = t.laneCfg)
    (ed : u.detMap = t.detMap) (eo : u.outMap = t.outMap) : u.Apart := by
  have a : lanesOf u = lanesOf t := by unfold lanesOf; rw [er]
  have b : headOf u = headOf t := by unfold headOf; rw [el]
  have c : beaconOf u = beaconOf t := by unfold beaconOf; rw [er]
  exact ⟨by rw [a]; exact h.once, by rw [a]; exact h.lanes, by rw [b]; exact h.heads, by rw [c]; exact h.beacons,
    by rw [b, c]; exact h.beaconHead, by rw [ed]; exact h.inputs, by rw [eo]; exact h.outputs⟩

/-- A Ramp Config record read and free of conflicts, or its clear, keeps the tables apart (R55). -/
theorem Tables.Apart.ramp {t : Tables} (h : t.Apart) (r : Ramp) (x : Option RampRec)
    (hx : ∀ c, x = some c → c.lanes.Nodup ∧ rampConflict t r c = false) :
    Tables.Apart { t with rampCfg := vset t.rampCfg r x } := by
  obtain ⟨u, hu⟩ : ∃ u : Tables, u = { t with rampCfg := vset t.rampCfg r x } := ⟨_, rfl⟩
  rw [← hu]
  have lo : ∀ q, q ≠ r → lanesOf u q = lanesOf t q := fun q n => by
    unfold lanesOf; rw [hu]; dsimp only; rw [vset_other _ _ _ _ n.symm]
  have lr : (∀ c, x = some c → lanesOf u r = c.lanes) ∧ (x = none → lanesOf u r = []) := by
    unfold lanesOf; rw [hu]; dsimp only; rw [vset_same]
    exact ⟨fun c e => (by rw [e]), fun e => by rw [e]⟩
  have bo : ∀ q, q ≠ r → beaconOf u q = beaconOf t q := fun q n => by
    unfold beaconOf; rw [hu]; dsimp only; rw [vset_other _ _ _ _ n.symm]
  have br : beaconOf u r = x.bind (·.beacon) := by unfold beaconOf; rw [hu]; dsimp only; rw [vset_same]
  have hd : headOf u = headOf t := by rw [hu]; rfl
  have ei : u.detMap = t.detMap := by rw [hu]
  have eo : u.outMap = t.outMap := by rw [hu]
  have none_taken : ∀ c, x = some c → ∀ q, q ≠ r → ∀ l ∈ c.lanes, l ∉ lanesOf t q := fun c e q n l m k => by
    have a := (hx c e).2
    unfold rampConflict at a; rw [Bool.or_eq_false_iff] at a
    have b := a.1; unfold laneTaken at b
    rw [List.any_eq_false] at b
    exact b q (List.mem_finRange q) (by rw [Bool.and_eq_true]; exact ⟨decide_eq_true n, List.any_eq_true.2 ⟨l, m, by simpa using k⟩⟩)
  have free : ∀ ch, beaconOf u r = some ch → (∀ q, q ≠ r → beaconOf t q ≠ some ch) ∧ ∀ l, headOf t l ≠ some ch := by
    intro ch e
    rw [br] at e
    cases x with
    | none => cases e
    | some c =>
      have e' : c.beacon = some ch := e
      have a := (hx c rfl).2
      unfold rampConflict at a; rw [e', Bool.or_eq_false_iff] at a
      have b := a.2; simp only [Bool.or_eq_false_iff] at b
      refine ⟨fun q n k => ?_, fun l k => ?_⟩
      · have d := b.1.1; unfold beaconNamed at d; rw [List.any_eq_false] at d
        refine d q (List.mem_finRange q) ?_
        rw [Bool.and_eq_true]; exact ⟨decide_eq_true fun e => n (Option.some.inj e), by rw [k]; exact beq_self_eq_true _⟩
      · have d := b.1.2; unfold headNamed at d; rw [List.any_eq_false] at d
        refine d l (List.mem_finRange l) ?_
        rw [Bool.and_eq_true]; exact ⟨decide_eq_true (by simp), by rw [k]; exact beq_self_eq_true _⟩
  have mem : ∀ l, l ∈ lanesOf u r → ∃ c, x = some c ∧ l ∈ c.lanes := fun l m => by
    cases x with
    | none => rw [lr.2 rfl] at m; cases m
    | some c => rw [lr.1 c rfl] at m; exact ⟨c, rfl, m⟩
  refine ⟨fun q => ?_, fun a b n l ma mb => ?_, by rw [hd]; exact h.heads, fun a b ch n ea eb => ?_, fun a l ch ea el => ?_,
    by rw [ei]; exact h.inputs, by rw [eo]; exact h.outputs⟩
  · rcases eq_or_ne q r with e | n
    · rw [e]
      cases x with
      | none => rw [lr.2 rfl]; exact List.nodup_nil
      | some c => rw [lr.1 c rfl]; exact (hx c rfl).1
    · rw [lo q n]; exact h.once q
  · rcases eq_or_ne a r with e | na
    · rw [e] at ma n
      obtain ⟨c, ec, m⟩ := mem l ma
      rw [lo b n] at mb
      exact none_taken c ec b n l m mb
    · rw [lo a na] at ma
      rcases eq_or_ne b r with e | nb
      · rw [e] at mb
        obtain ⟨c, ec, m⟩ := mem l mb
        exact none_taken c ec a na l m ma
      · rw [lo b nb] at mb
        exact h.lanes a b n l ma mb
  · rcases eq_or_ne a r with e | na
    · rw [e] at ea n
      rw [bo b n] at eb
      exact (free ch ea).1 b n eb
    · rw [bo a na] at ea
      rcases eq_or_ne b r with e | nb
      · rw [e] at eb
        exact (free ch eb).1 a na ea
      · rw [bo b nb] at eb
        exact h.beacons a b ch n ea eb
  · rw [hd] at el
    rcases eq_or_ne a r with e | na
    · rw [e] at ea; exact (free ch ea).2 l el
    · rw [bo a na] at ea; exact h.beaconHead a l ch ea el

/-- A Lane Config record free of conflicts, or its clear, keeps the tables apart (R78). -/
theorem Tables.Apart.lane {t : Tables} (h : t.Apart) (l : Lane) (x : Option LaneRec)
    (hx : ∀ c, x = some c → laneConflict t l c = false) : Tables.Apart { t with laneCfg := vset t.laneCfg l x } := by
  obtain ⟨u, hu⟩ : ∃ u : Tables, u = { t with laneCfg := vset t.laneCfg l x } := ⟨_, rfl⟩
  rw [← hu]
  have ho : ∀ k, k ≠ l → headOf u k = headOf t k := fun k n => by
    unfold headOf; rw [hu]; dsimp only; rw [vset_other _ _ _ _ n.symm]
  have hl : headOf u l = x.map (·.head) := by unfold headOf; rw [hu]; dsimp only; rw [vset_same]
  have el : lanesOf u = lanesOf t := by rw [hu]; rfl
  have eb : beaconOf u = beaconOf t := by rw [hu]; rfl
  have ei : u.detMap = t.detMap := by rw [hu]
  have eo : u.outMap = t.outMap := by rw [hu]
  have free : ∀ ch, headOf u l = some ch → (∀ k, k ≠ l → headOf t k ≠ some ch) ∧ ∀ r, beaconOf t r ≠ some ch := by
    intro ch e
    rw [hl] at e
    cases x with
    | none => cases e
    | some c =>
      have e' : c.head = ch := Option.some.inj e
      have a := hx c rfl
      unfold laneConflict at a; rw [e'] at a
      simp only [Bool.or_eq_false_iff] at a
      refine ⟨fun k n m => ?_, fun r m => ?_⟩
      · have d := a.1.1; unfold headNamed at d; rw [List.any_eq_false] at d
        refine d k (List.mem_finRange k) ?_
        rw [Bool.and_eq_true]; exact ⟨decide_eq_true fun e => n (Option.some.inj e), by rw [m]; exact beq_self_eq_true _⟩
      · have d := a.1.2; unfold beaconNamed at d; rw [List.any_eq_false] at d
        refine d r (List.mem_finRange r) ?_
        rw [Bool.and_eq_true]; exact ⟨decide_eq_true (by simp), by rw [m]; exact beq_self_eq_true _⟩
  refine ⟨by rw [el]; exact h.once, by rw [el]; exact h.lanes, fun k j ch n ek ej => ?_, by rw [eb]; exact h.beacons,
    fun r k ch er ek => ?_, by rw [ei]; exact h.inputs, by rw [eo]; exact h.outputs⟩
  · rcases eq_or_ne k l with e | nk
    · rw [e] at ek n
      rw [ho j n] at ej
      exact (free ch ek).1 j n ej
    · rw [ho k nk] at ek
      rcases eq_or_ne j l with e | nj
      · rw [e] at ej
        exact (free ch ej).1 k nk ek
      · rw [ho j nj] at ej
        exact h.heads k j ch n ek ej
  · rw [eb] at er
    rcases eq_or_ne k l with e | nk
    · rw [e] at ek; exact (free ch ek).2 r er
    · rw [ho k nk] at ek; exact h.beaconHead r k ch er ek

/-- A Detector Map record that repeats no other's input, or its clear, keeps the tables apart (R2). -/
theorem Tables.Apart.det {t : Tables} (h : t.Apart) (ch : Channel) (x : Option DetRec)
    (hx : ∀ d, x = some d → detDuplicate t ch d = false) : Tables.Apart { t with detMap := vset t.detMap ch x } := by
  have free : ∀ (d e : DetRec) (c : Channel), x = some d → c ≠ ch → t.detMap[c] = some e →
      d.station ≠ e.station ∨ d.input ≠ e.input := fun d e c hd n he => by
    have a := hx d hd
    unfold detDuplicate at a; rw [List.any_eq_false] at a
    have b := a c (List.mem_finRange c)
    rw [he, decide_eq_true n] at b
    by_contra k; rw [not_or, not_not, not_not] at k
    exact b (by simp [k.1, k.2])
  refine ⟨h.once, h.lanes, h.heads, h.beacons, h.beaconHead, fun c d a b n ea eb => ?_, h.outputs⟩
  rw [vset_get] at ea eb
  split at ea
  · next e =>
    subst e; rw [if_neg n] at eb; exact free a b d ea n.symm eb
  · split at eb
    · next e => subst e; exact (free b a c eb n ea).imp Ne.symm Ne.symm
    · exact h.inputs c d a b n ea eb

/-- An Output Map record that repeats no other's output, or its clear, keeps the tables apart (R126). -/
theorem Tables.Apart.out {t : Tables} (h : t.Apart) (ch : OutCh) (x : Option OutRec)
    (hx : ∀ d, x = some d → outConflict t ch d = false) : Tables.Apart { t with outMap := vset t.outMap ch x } := by
  have free : ∀ (d e : OutRec) (c : OutCh), x = some d → c ≠ ch → t.outMap[c] = some e →
      d.station ≠ e.station ∨ d.output ≠ e.output := fun d e c hd n he => by
    have a := hx d hd
    unfold outConflict at a; simp only [Bool.or_eq_false_iff] at a
    have a := a.1.1.1
    rw [List.any_eq_false] at a
    have b := a c (List.mem_finRange c)
    rw [he, decide_eq_true n] at b
    by_contra k; rw [not_or, not_not, not_not] at k
    exact b (by simp [k.1, k.2])
  refine ⟨h.once, h.lanes, h.heads, h.beacons, h.beaconHead, h.inputs, fun c d a b n ea eb => ?_⟩
  rw [vset_get] at ea eb
  split at ea
  · next e =>
    subst e; rw [if_neg n] at eb; exact free a b d ea n.symm eb
  · split at eb
    · next e => subst e; exact (free b a c eb n ea).imp Ne.symm Ne.symm
    · exact h.outputs c d a b n ea eb

/-- Tables other than Part Settings change. -/
theorem tables_keeps {s : State} (t : Tables) (h : t.settings = s.tables.settings)
    (ha : s.tables.Apart → t.Apart) : Keeps s { s with tables := t } := by
  refine ⟨rfl, fun h => h, fun h => h, fun h => h, fun h => h, fun h => h, fun h => h, fun ht => ?_, ha,
    fun h => h⟩
  show s.time.Ok (windowLength t)
  unfold windowLength at ht ⊢
  rw [h]; exact ht

theorem putDetMap_keeps (ch : Channel) (rec : Option DetRec) (s : State)
    (hx : ∀ d, rec = some d → detDuplicate s.tables ch d = false) : Keeps s (putDetMap ch rec s) := by
  have a : Keeps s { s with tables := { s.tables with detMap := vset s.tables.detMap ch rec } } :=
    tables_keeps _ rfl fun h => h.det ch rec hx
  exact (a.trans (det_keeps _ fun h => setChan_ok h ch _ fun _ => DetState.reset_ok _)).trans (announce_side s _).keeps

theorem touchStation_keeps (st : Option Nat) (s : State) : Keeps s (touchStation st s) := by
  unfold touchStation; split
  · refine Keeps.trans ?_ (dueSig_side _ _).keeps
    unfold reviewDriver; split
    · split
      · exact .refl s
      · exact drivers_keeps s _
    · exact drivers_keeps s _
  · exact .refl s

theorem putOutMap_keeps (ch : OutCh) (rec : Option OutRec) (s : State)
    (hx : ∀ d, rec = some d → outConflict s.tables ch d = false) : Keeps s (putOutMap ch rec s) := by
  unfold putOutMap
  dsimp only
  have a : Keeps s { s with tables := { s.tables with outMap := vset s.tables.outMap ch rec } } :=
    tables_keeps _ rfl fun h => h.out ch rec hx
  have b := a.trans (setOut_keeps ch (resetOutChan s.out.chans[ch]) _ fun _ h => (by cases h))
  refine Keeps.trans (Keeps.trans (Keeps.trans ?_ (touchStation_keeps _ _)) (touchStation_keeps _ _))
    (judgeSilence_side ch _).keeps
  split
  · exact b.trans (attentionIf_side _ _ _).keeps
  · exact b

end Sys2Proof.Machine
end

