-- ==== Sys2Proof/Laws/Records.lean ====
section
/-! SUPPORT. A record that its reader takes is written back in the form it had (R170, R173), field by field and for
each table. -/

namespace Sys2Proof.Machine

/-- One step of a reader. -/
theorem bind_some {α β : Type} {x : Option α} {f : α → Option β} {b : β} (h : (x >>= f) = some b) :
    ∃ a, x = some a ∧ f a = some b := Option.bind_eq_some_iff.1 h

theorem byte_of_toNat (b : Byte) : byte b.toNat = b := by
  unfold byte; exact (BitVec.ofNat_toNat 8 b).trans (by simp)

theorem be16_num16 (a b : Byte) : be16 (num16 a b) = [a, b] := by
  unfold be16 num16
  have h1 := a.isLt
  have h2 := b.isLt
  congr 1
  · apply BitVec.eq_of_toNat_eq; simp; omega
  · congr 1; apply BitVec.eq_of_toNat_eq; simp; omega

theorem be16_append (a b : Byte) : be16 (a ++ b : BitVec 16).toNat = [a, b] := by
  have : (a ++ b : BitVec 16).toNat = num16 a b := by
    rw [BitVec.toNat_append, ← Nat.shiftLeft_add_eq_or_of_lt b.isLt, Nat.shiftLeft_eq]; unfold num16; omega
  rw [this, be16_num16]

/-! ### Fields -/

theorem within_spec {lo hi n m : Nat} (h : within lo hi n = some m) : m = n ∧ lo ≤ n ∧ n ≤ hi := by
  unfold within at h; split at h
  · next e => cases h; exact ⟨rfl, e⟩
  · cases h

theorem asFin_spec {n k : Nat} {x : Fin n} (h : asFin n k = some x) : x.val = k := by
  unfold asFin at h; split at h
  · cases h; rfl
  · cases h

theorem asBool_spec {b : Byte} {v : Bool} (h : asBool b = some v) : boolByte v = b := by
  unfold asBool at h; split at h
  · next e => cases h; rw [e]; rfl
  · split at h
    · next e => cases h; rw [e]; rfl
    · cases h

theorem asLane_spec {b : Byte} {l : Lane} (h : asLane b = some l) : laneNumber l = b ∧ b ≠ 0#8 := by
  unfold asLane at h; split at h
  · cases h
  · next e =>
    have := asFin_spec h
    unfold laneNumber; rw [this, Nat.sub_add_cancel (by omega), byte_of_toNat]
    exact ⟨rfl, fun h => e (by rw [h]; rfl)⟩

theorem optional_spec {α : Type} {a : Byte} {f : Byte → Option α} {b : Byte} {x : Option α}
    (h : Machine.optional a f b = some x) : (b = a ∧ x = none) ∨ (b ≠ a ∧ ∃ y, x = some y ∧ f b = some y) := by
  unfold Machine.optional at h; split at h
  · next e => cases h; exact Or.inl ⟨e, rfl⟩
  · next e =>
    obtain ⟨y, hy, rfl⟩ := Option.map_eq_some_iff.1 h
    exact Or.inr ⟨e, y, rfl, hy⟩

theorem optByte_spec {n : Nat} {b : Byte} {x : Option (Fin n)}
    (h : Machine.optional 255#8 (fun b => asFin n b.toNat) b = some x) : optByte x = b := by
  rcases optional_spec h with ⟨rfl, rfl⟩ | ⟨_, y, rfl, hy⟩
  · rfl
  · unfold optByte; dsimp only; rw [asFin_spec hy, byte_of_toNat]

theorem roleOf_spec {b : Byte} {r : Role} (h : roleOf b = some r) : roleCode r = b := by
  unfold roleOf at h
  split at h <;> cases h
  all_goals (rename_i e; apply BitVec.eq_of_toNat_eq; rw [e]; rfl)

theorem readAll_spec {α : Type} {f : Byte → Option α} {g : α → Byte} (hf : ∀ b x, f b = some x → g x = b) :
    ∀ (l : List Byte) (xs : List α), readAll f l = some xs → xs.map g = l
  | [], xs, h => by cases h; rfl
  | b :: bs, xs, h => by
    unfold readAll at h
    obtain ⟨x, hx, h⟩ := bind_some h
    obtain ⟨ys, hy, h⟩ := bind_some h
    cases h
    rw [List.map_cons, hf b x hx, readAll_spec hf bs ys hy]

/-! ### Records -/

theorem writeDet_readDet {l : List Byte} {d : DetRec} (h : readDet l = some d) : writeDet d = l := by
  unfold readDet at h; split at h
  · next st inp role ramps lane filter s1 s0 chatter sub mode =>
    simp only [Option.bind_eq_bind, Option.bind_eq_some_iff, Option.ite_none_right_eq_some, Option.some.injEq] at h
    obtain ⟨a, ha, b, hb, c, hc, e, he, f, hf, g, hg, i, hi, j, hj, k, hk, m, hm, _, rfl⟩ := h
    obtain ⟨rfl, _⟩ := within_spec ha
    obtain ⟨rfl, _⟩ := within_spec hb
    obtain ⟨rfl, _, he'⟩ := within_spec he
    obtain ⟨rfl, _⟩ := within_spec hg
    obtain ⟨rfl, _⟩ := within_spec hi
    obtain ⟨rfl, _⟩ := within_spec hj
    unfold writeDet; dsimp only
    rw [byte_of_toNat, byte_of_toNat, byte_of_toNat, byte_of_toNat, be16_num16, roleOf_spec hc, asBool_spec hk,
      asBool_spec hm, BitVec.toNat_ofNat, Nat.mod_eq_of_lt (by omega), byte_of_toNat]
    rcases optional_spec hf with ⟨rfl, rfl⟩ | ⟨_, y, rfl, hy⟩
    · rfl
    · dsimp only; rw [(asLane_spec hy).1]; rfl
  · cases h

theorem writeCond_readCond {l : List Byte} {d : CondRec} (h : readCond l = some d) : writeCond d = l := by
  unfold readCond at h; split at h
  · cases h
  · next k rest =>
    obtain ⟨chans, hch, h⟩ := bind_some h
    split at h
    · next m c t1 t0 h1 h0 sub force e =>
      simp only [Option.bind_eq_bind, Option.bind_eq_some_iff, Option.ite_none_right_eq_some, Option.some.injEq] at h
      obtain ⟨a, ha, b, hb, cc, hc, e', he, ⟨h1, h2, _⟩, rfl⟩ := h
      have hm := readAll_spec (g := fun ch : Channel => byte ch.val)
        (fun b x hx => by rw [asFin_spec hx, byte_of_toNat]) _ _ hch
      have hl : chans.length = k.toNat := by
        rw [← List.length_map (f := fun ch : Channel => byte ch.val), hm, List.length_take]
        have : (rest.drop k.toNat).length = 8 := by rw [e]; rfl
        rw [List.length_drop] at this; omega
      unfold writeCond; dsimp only
      rw [hm, hl, byte_of_toNat, asBool_spec ha, asBool_spec hb, asBool_spec hc, asBool_spec he, be16_num16, be16_num16]
      conv_rhs => rw [← List.take_append_drop k.toNat rest, e]
      simp
    · cases h

theorem writeMatch_readMatch {l : List Byte} {d : MatchRec} (h : readMatch l = some d) : writeMatch d = l := by
  unfold readMatch at h; split at h
  · next v1 v0 c1 c0 plan pers =>
    obtain ⟨a, ha, h⟩ := bind_some h
    obtain ⟨b, hb, h⟩ := bind_some h
    cases h
    obtain ⟨rfl, _⟩ := within_spec ha
    unfold writeMatch; dsimp only
    rw [be16_append, be16_append, byte_of_toNat]
    rcases optional_spec hb with ⟨rfl, rfl⟩ | ⟨_, y, rfl, hy⟩
    · rfl
    · obtain ⟨rfl, _⟩ := within_spec hy
      simp [byte_of_toNat]
  · cases h

/-- A Ramp Config record that is read lists no lane twice (R55). -/
theorem readRamp_nodup {l : List Byte} {d : RampRec} (h : readRamp l = some d) : d.lanes.Nodup := by
  unfold readRamp at h; split at h
  · cases h
  · obtain ⟨_, _, h⟩ := bind_some h
    split at h
    · iterate 12 (obtain ⟨_, _, h⟩ := bind_some h)
      split at h
      · next hc => cases h; exact hc.2.2
      · cases h
    · cases h

theorem writeRamp_readRamp {l : List Byte} {d : RampRec} (h : readRamp l = some d) : writeRamp d = l := by
  unfold readRamp at h; split at h
  · cases h
  · next k rest =>
    obtain ⟨lanes, hch, h⟩ := bind_some h
    split at h
    · next beacon dplan w1 w0 sg sy sr f1 f0 o1 o0 pre pan on1 on0 cl1 cl0 e =>
      obtain ⟨a1, g1, h⟩ := bind_some h
      obtain ⟨a2, g2, h⟩ := bind_some h
      obtain ⟨a3, g3, h⟩ := bind_some h
      obtain ⟨a4, g4, h⟩ := bind_some h
      obtain ⟨a5, g5, h⟩ := bind_some h
      obtain ⟨a6, g6, h⟩ := bind_some h
      obtain ⟨a7, g7, h⟩ := bind_some h
      obtain ⟨a8, g8, h⟩ := bind_some h
      obtain ⟨a9, g9, h⟩ := bind_some h
      obtain ⟨a10, g10, h⟩ := bind_some h
      obtain ⟨a11, g11, h⟩ := bind_some h
      obtain ⟨a12, g12, h⟩ := bind_some h
      split at h
      · next hc =>
        obtain ⟨h1, h2, _⟩ := hc
        cases h
        have hm := readAll_spec (g := laneNumber) (fun b x hx => (asLane_spec hx).1) _ _ hch
        have hl : lanes.length = k.toNat := by
          rw [← List.length_map (f := laneNumber), hm, List.length_take]
          have : (rest.drop k.toNat).length = 17 := by rw [e]; rfl
          rw [List.length_drop] at this; omega
        obtain ⟨rfl, _⟩ := within_spec g2
        obtain ⟨rfl, _⟩ := within_spec g3
        obtain ⟨rfl, _⟩ := within_spec g4
        obtain ⟨rfl, _⟩ := within_spec g5
        obtain ⟨rfl, _⟩ := within_spec g6
        obtain ⟨rfl, _⟩ := within_spec g7
        obtain ⟨rfl, _⟩ := within_spec g8
        obtain ⟨rfl, _⟩ := within_spec g11
        obtain ⟨rfl, _⟩ := within_spec g12
        unfold writeRamp; dsimp only
        rw [hm, hl, optByte_spec g1, optByte_spec g9, optByte_spec g10]
        simp only [byte_of_toNat, be16_num16]
        conv_rhs => rw [← List.take_append_drop k.toNat rest, e]
        simp
      · cases h
    · cases h

theorem readYellow_spec {n m : Nat} (h : readYellow n = some m) : m = n := by
  unfold readYellow at h; split at h
  · next e => cases h; exact e.symm
  · exact (within_spec h).1

theorem writeLane_readLane {l : List Byte} {d : LaneRec} (h : readLane l = some d) : writeLane d = l := by
  unfold readLane at h; split at h
  · simp only [Option.bind_eq_bind, Option.bind_eq_some_iff, Option.ite_none_right_eq_some, Option.some.injEq] at h
    obtain ⟨a, ha, b, hb, c, hc, e, he, f, hf, g, hg, i, hi, j, hj, k, hk, m, hm, _, rfl⟩ := h
    obtain ⟨rfl, _⟩ := within_spec hf
    obtain ⟨rfl, _⟩ := within_spec hg
    obtain ⟨rfl, _⟩ := within_spec hi
    obtain ⟨rfl, _⟩ := within_spec hk
    obtain ⟨rfl, _⟩ := within_spec hm
    have := readYellow_spec hj
    subst this
    unfold writeLane; dsimp only
    rw [asFin_spec ha, asFin_spec hb, optByte_spec hc, Bool.not_not, asBool_spec he]
    simp only [byte_of_toNat]
  · cases h

theorem writeOut_readOut {l : List Byte} {d : OutRec} (h : readOut l = some d) : writeOut d = l := by
  unfold readOut at h; split at h
  · simp only [Option.bind_eq_bind, Option.bind_eq_some_iff, Option.pure_def, Option.some.injEq] at h
    obtain ⟨a, ha, b, hb, c, hc, e, he, rfl⟩ := h
    obtain ⟨rfl, _⟩ := within_spec ha
    unfold writeOut; dsimp only
    rw [byte_of_toNat, asFin_spec hb, byte_of_toNat, asBool_spec hc, asBool_spec he]
  · cases h

theorem kindOf_spec {kind plan : Byte} {a : ActionKind} (h : kindOf kind.toNat plan.toNat = some a) :
    kindBytes a = [kind, plan] := by
  have z : ∀ (x : Byte) (n : Nat), x.toNat = n → x = byte n := fun x n e => by rw [← e, byte_of_toNat]
  unfold kindOf at h
  split at h
  · next e => split at h
              · next e' => cases h; rw [z kind _ e, z plan _ e']; rfl
              · cases h
  · next e => split at h
              · next e' => cases h; rw [z kind _ e, z plan _ e']; rfl
              · cases h
  · next e => split at h
              · next e' => cases h; rw [z kind _ e, z plan _ e']; rfl
              · cases h
  · next e =>
    obtain ⟨y, hy, rfl⟩ := Option.map_eq_some_iff.1 h
    obtain ⟨rfl, _⟩ := within_spec hy
    rw [z kind _ e]; unfold kindBytes; simp only [byte_of_toNat]; rfl
  · cases h

theorem capOf_spec {kind : ActionKind} {n : Nat} {x : Option Nat} (h : capOf kind n = some x) : x.getD 0 = n := by
  unfold capOf at h
  split at h
  · obtain ⟨y, hy, rfl⟩ := Option.map_eq_some_iff.1 h; exact (within_spec hy).1
  all_goals
    split at h
    · next e => cases h; exact e.symm
    · obtain ⟨y, hy, rfl⟩ := Option.map_eq_some_iff.1 h; exact (within_spec hy).1

theorem writeAction_readAction {l : List Byte} {d : ActionRec} (h : readAction l = some d) : writeAction d = l := by
  unfold readAction at h; split at h
  · obtain ⟨a, ha, h⟩ := bind_some h
    obtain ⟨b, hb, h⟩ := bind_some h
    cases h
    unfold writeAction; dsimp only; rw [capOf_spec hb, kindOf_spec ha, be16_num16]; rfl
  · cases h

theorem be16_readSettings {l : List Byte} {d : Nat} (h : readSettings l = some d) : be16 d = l := by
  unfold readSettings at h; split at h
  · split at h
    · cases h; exact be16_num16 _ _
    · cases h
  · cases h

/-! ### Rate Plans: the presence byte -/

theorem readPattern_spec {l : List Byte} {x : Nat × Vector (BitVec 16) 4 × Bool} (h : readPattern l = some x) :
    [byte x.1, 4#8] ++ x.2.1.toList.flatMap (fun m => be16 m.toNat) ++ [boolByte x.2.2] = l := by
  unfold readPattern at h; split at h
  · next period m a1 a0 b1 b0 c1 c0 d1 d0 coord =>
    obtain ⟨p, hp, h⟩ := bind_some h
    obtain ⟨c, hc, h⟩ := bind_some h
    split at h
    · next hm =>
      cases h
      obtain ⟨rfl, _⟩ := within_spec hp
      have : m = 4#8 := BitVec.eq_of_toNat_eq hm
      rw [this, byte_of_toNat, asBool_spec hc]
      simp [be16_append]
    · cases h
  · cases h

theorem readPattern_length {l : List Byte} {x : Nat × Vector (BitVec 16) 4 × Bool} (h : readPattern l = some x) :
    l.length = 11 := by
  unfold readPattern at h; split at h
  · rfl
  · cases h

theorem takeIf_spec {p : Bool} {n : Nat} {l : List Byte} : (takeIf p n l).1 ++ (takeIf p n l).2 = l
    ∧ ((takeIf p n l).1 = [] ∨ p = true) := by
  unfold takeIf; split
  · next h => exact ⟨List.take_append_drop n l, Or.inr h⟩
  · exact ⟨rfl, Or.inl rfl⟩

theorem presence_bits (p : Byte) (h0 : p.getLsbD 0 = true) (h1 : p.getLsbD 1 = true) (h2 : p.getLsbD 2 = true)
    (h4 : p.getLsbD 4 = true) (h5 : p.getLsbD 5 = true) (h6 : p.getLsbD 6 = false) (h7 : p.getLsbD 7 = false) :
    p = if p.getLsbD 3 then 0x3F#8 else 0x37#8 := by
  revert p; decide

theorem readAdaptive_spec {p : Byte} {slot : Nat} {l : List Byte} {a : Adaptive} (h : readAdaptive p slot l = some a)
    (h67 : ¬ (p.getLsbD 6 = true ∨ p.getLsbD 7 = true)) (hl : l.length = presentLength p) :
    writeAdaptive a = l ∧ (if a.queueThreshold.isSome then 0x3F#8 else 0x37#8) = p := by
  unfold readAdaptive at h
  dsimp only at h
  generalize ea : takeIf (p.getLsbD 0) 1 l = A at h
  generalize eb : takeIf (p.getLsbD 1) 1 A.2 = B at h
  generalize ec : takeIf (p.getLsbD 2) 1 B.2 = C at h
  generalize eq : takeIf (p.getLsbD 3) 2 C.2 = Q at h
  generalize es : takeIf (p.getLsbD 4) 1 Q.2 = S at h
  generalize eh : takeIf (p.getLsbD 5) 1 S.2 = H at h
  have sa := takeIf_spec (p := p.getLsbD 0) (n := 1) (l := l); rw [ea] at sa
  have sb := takeIf_spec (p := p.getLsbD 1) (n := 1) (l := A.2); rw [eb] at sb
  have sc := takeIf_spec (p := p.getLsbD 2) (n := 1) (l := B.2); rw [ec] at sc
  have sq := takeIf_spec (p := p.getLsbD 3) (n := 2) (l := C.2); rw [eq] at sq
  have ss := takeIf_spec (p := p.getLsbD 4) (n := 1) (l := Q.2); rw [es] at ss
  have sh := takeIf_spec (p := p.getLsbD 5) (n := 1) (l := S.2); rw [eh] at sh
  split at h
  · next a1 b1 c1 s1 h1 e1 e2 e3 e4 e5 =>
    rw [e1] at sa; rw [e2] at sb; rw [e3] at sc; rw [e4] at ss; rw [e5] at sh
    have q0 := sa.2.resolve_left (by simp)
    have q1 := sb.2.resolve_left (by simp)
    have q2 := sc.2.resolve_left (by simp)
    have q4 := ss.2.resolve_left (by simp)
    have q5 := sh.2.resolve_left (by simp)
    have q6 : p.getLsbD 6 = false := by simpa using fun h => h67 (Or.inl h)
    have q7 : p.getLsbD 7 = false := by simpa using fun h => h67 (Or.inr h)
    have hp := presence_bits p q0 q1 q2 q4 q5 q6 q7
    have len := congrArg List.length sa.1
    have len2 := congrArg List.length sb.1
    have len3 := congrArg List.length sc.1
    have len4 := congrArg List.length sq.1
    have len5 := congrArg List.length ss.1
    have len6 := congrArg List.length sh.1
    simp only [List.length_append, List.length_cons, List.length_nil] at len len2 len3 len4 len5 len6
    have hH : H.2 = [] ∧ (p.getLsbD 3 = true → ∃ x y, Q.1 = [x, y]) := by
      unfold presentLength at hl
      rw [q0, q1, q2, q4, q5] at hl
      cases h3 : p.getLsbD 3 with
      | false =>
        rw [h3] at sq hl; simp at sq hl
        rw [sq.2] at len4
        refine ⟨List.eq_nil_of_length_eq_zero ?_, fun h => (by cases h)⟩
        simp at len4; omega
      | true =>
        rw [h3] at eq hl; simp at hl
        unfold takeIf at eq; rw [if_pos rfl] at eq
        have : Q.1.length = 2 := by rw [← eq]; simp; omega
        refine ⟨List.eq_nil_of_length_eq_zero (by omega), fun _ => List.length_eq_two.1 this⟩
    obtain ⟨m1, g1, h⟩ := bind_some h
    obtain ⟨m2, g2, h⟩ := bind_some h
    obtain ⟨m3, g3, h⟩ := bind_some h
    obtain ⟨m4, g4, h⟩ := bind_some h
    obtain ⟨m5, g5, h⟩ := bind_some h
    obtain ⟨m6, g6, h⟩ := bind_some h
    obtain ⟨rfl, _⟩ := within_spec g1
    obtain ⟨rfl, _⟩ := within_spec g2
    obtain ⟨rfl, _⟩ := within_spec g3
    obtain ⟨rfl, _⟩ := within_spec g4
    obtain ⟨rfl, _⟩ := within_spec g5
    split at h
    · next t1 t0 eQ =>
      obtain ⟨m7, g7, h⟩ := bind_some h
      obtain ⟨m8, g8, h⟩ := bind_some h
      cases h
      obtain ⟨rfl, _⟩ := within_spec g7
      rw [eQ] at sq
      rw [sq.2.resolve_left (by simp)] at hp
      refine ⟨?_, hp.symm⟩
      unfold writeAdaptive; dsimp only; simp only [byte_of_toNat, be16_num16]
      rw [← sa.1, ← sb.1, ← sc.1, ← sq.1, ← ss.1, ← sh.1, hH.1]; simp
    · next hQ =>
      cases h
      have h3 : p.getLsbD 3 = false := by
        by_contra hc
        obtain ⟨x, y, e⟩ := hH.2 (by simpa using hc)
        exact hQ x y e
      rw [h3] at hp sq
      refine ⟨?_, hp.symm⟩
      unfold writeAdaptive; dsimp only; simp only [byte_of_toNat]
      rw [← sa.1, ← sb.1, ← sc.1, ← sq.1, ← ss.1, ← sh.1, hH.1, sq.2.resolve_right (by simp)]; simp
  · cases h

theorem writePlan_readPlan {l : List Byte} {d : PlanRec} (h : readPlan l = some d) : writePlan d = l := by
  unfold readPlan at h; split at h
  · next mode p slot rest =>
    obtain ⟨am, g1, h⟩ := bind_some h
    obtain ⟨sl, g2, h⟩ := bind_some h
    obtain ⟨pat, g3, h⟩ := bind_some h
    obtain ⟨rfl, _⟩ := within_spec g2
    have hp := readPattern_spec g3
    have hlen := readPattern_length g3
    have hm := asBool_spec g1
    cases am with
    | true =>
      rw [if_pos rfl] at h
      dsimp only at h
      split at h
      · cases h
      · next hb =>
        obtain ⟨a, g4, h⟩ := bind_some h
        cases h
        have hl : (rest.take (presentLength p)).length = presentLength p := by
          rw [List.length_take]; rw [List.length_drop] at hlen; omega
        obtain ⟨e1, e2⟩ := readAdaptive_spec g4 hb hl
        unfold writePlan presenceByte; dsimp only
        rw [e1, e2, byte_of_toNat]
        conv_rhs => rw [← List.take_append_drop (presentLength p) rest, ← hp]
        rw [← hm]; simp
    | false =>
      rw [if_neg (by simp)] at h
      split at h
      · next hz =>
        cases h
        subst hz
        unfold writePlan presenceByte; dsimp only
        rw [byte_of_toNat, ← hm]
        have : presentLength 0#8 = 0 := rfl
        rw [this] at hp
        conv_rhs => rw [← List.drop_zero (l := rest), ← hp]
        simp
      · cases h
  · cases h

/-! ### Occupancy Curves: the high-bits bytes -/

theorem pairs_sum (b : Byte) : byte (((List.range 4).map fun q => b.toNat / 4 ^ q % 4 * 4 ^ q).sum) = b := by
  have : ((List.range 4).map fun q => b.toNat / 4 ^ q % 4 * 4 ^ q).sum = b.toNat := by
    have := b.isLt
    show b.toNat / 1 % 4 * 1 + (b.toNat / 4 % 4 * 4 + (b.toNat / 16 % 4 * 16 + (b.toNat / 64 % 4 * 64 + 0))) = b.toNat
    omega
  rw [this, byte_of_toNat]

theorem low_byte (b : Byte) (k : Nat) : byte (b.toNat + 256 * k) = b := by
  apply BitVec.eq_of_toNat_eq; unfold byte; rw [BitVec.toNat_ofNat]; have := b.isLt; omega

theorem writeCurve_readCurve {l : List Byte} {d : CurveRec} (hs : shapeOk 5 l = true) (h : readCurve l = some d) :
    writeCurve d = l := by
  unfold readCurve at h; split at h
  · cases h
  · next c rest =>
    dsimp only at h
    split at h
    swap
    · cases h
    next hc =>
    obtain ⟨_, hn, hz⟩ := hc
    cases h
    have hlen : rest.length = c.toNat + (c.toNat + 3) / 4 + c.toNat := by
      unfold shapeOk recordLength at hs; simp at hs; omega
    generalize hN : c.toNat = n at *
    generalize hH : (rest.drop n).take ((n + 3) / 4) = high at *
    have hhl : high.length = (n + 3) / 4 := by rw [← hH]; simp; omega
    have e : rest = rest.take n ++ (high ++ rest.drop (n + (n + 3) / 4)) := by
      rw [← hH, ← List.drop_drop, List.take_append_drop, List.take_append_drop]
    generalize hA : rest.take n = A at *
    generalize hC : rest.drop (n + (n + 3) / 4) = C at *
    have hAl : A.length = n := by rw [← hA]; simp; omega
    have hCl : C.length = n := by rw [← hC]; simp; omega
    generalize hP : ((A.zipIdx.map fun p => p.1.toNat + 256 * highBits high p.2).zip (C.map (·.toNat))) = P at *
    have get1 : ∀ i (h : i < n), P[i]? = some (A[i].toNat + 256 * highBits high i, C[i].toNat) := by
      intro i h
      subst hP
      rw [List.getElem?_eq_getElem (by omega)]
      simp
    unfold writeCurve; dsimp only
    rw [hn, ← hN, byte_of_toNat, hN]
    show c :: _ = c :: _
    rw [e]
    have p1 : P.map (fun p => byte p.1) = A := by
      apply List.ext_getElem (by simp [hn, hAl])
      intro i h1 h2
      have := get1 i (by omega)
      rw [List.getElem?_eq_getElem (by omega)] at this
      rw [List.getElem_map, Option.some.inj this]; exact low_byte _ _
    have p2 : P.map (fun p => byte p.2) = C := by
      apply List.ext_getElem (by simp [hn, hCl])
      intro i h1 h2
      have := get1 i (by omega)
      rw [List.getElem?_eq_getElem (by omega)] at this
      rw [List.getElem_map, Option.some.inj this]; exact byte_of_toNat _
    have p3 : (List.range ((n + 3) / 4)).map (highByte P) = high := by
      apply List.ext_getElem (by simp [hhl])
      intro j h1 h2
      rw [List.getElem_map, List.getElem_range]
      conv_rhs => rw [← pairs_sum high[j]]
      unfold highByte
      congr 2
      apply List.map_congr_left
      intro q hq
      rw [List.mem_range] at hq
      congr 1
      have hb : highBits high (4 * j + q) = high[j].toNat / 4 ^ q % 4 := by
        unfold highBits
        rw [show (4 * j + q) / 4 = j by omega, show (4 * j + q) % 4 = q by omega, List.getElem?_eq_getElem h2]; rfl
      by_cases hlt : 4 * j + q < n
      · rw [get1 _ hlt, ← hb]
        have := (A[4 * j + q]).isLt
        show (_ + 256 * _) / 256 = _
        have h4 : highBits high (4 * j + q) < 4 := by unfold highBits; omega
        omega
      · rw [List.getElem?_eq_none (by omega)]
        unfold unusedPairsZero at hz
        rw [List.all_eq_true] at hz
        have := hz (4 * j + q) (by rw [List.mem_range]; omega)
        simp [hlt] at this
        rw [← hb, this]; rfl
    rw [p1, p2, p3]
    show c :: ((A ++ high) ++ C) = _
    rw [List.append_assoc]

end Sys2Proof.Machine
end

