-- ==== Sys2Proof/Laws/Requests.lean ====
section
/-! SUPPORT. A request row is the arrival of a CMD frame that the part accepts; what hearing it leaves alone; what the
Management Unit can do to the part. -/

namespace Sys2Proof.Machine

/-! ### Frames the part's layout makes are accepted (R154, R155) -/

theorem byte_toNat {n : Nat} (h : n < 256) : (byte n).toNat = n := by
  unfold byte; rw [BitVec.toNat_ofNat]; exact Nat.mod_eq_of_lt h

theorem stationOf_byte {n : Nat} (h : n < 64) : stationOf (byte n) = n := by
  unfold stationOf; rw [byte_toNat (by omega)]; exact Nat.mod_eq_of_lt h

/-- A frame of 11.1 with a check of its own passes acceptance and reads back. -/
theorem acceptFrame_frameBytes (dst src kind : Nat) (payload : List Byte) (hd : dst < 63) (hs : src < 63) (h0 : src ≠ 0)
    (hk : kind < 256) (hl : payload.length ≤ 48) :
    acceptFrame (frameBytes dst src kind payload) = some ⟨dst, src, kind, payload⟩ := by
  have e : frameBytes dst src kind payload = byte dst :: byte src :: byte kind :: byte payload.length
      :: (payload ++ be16 (crc16 (byte dst :: byte src :: byte kind :: byte payload.length :: payload)).toNat) := by
    simp [frameBytes, withCheck]
  have hn : (byte payload.length).toNat = payload.length := byte_toNat (by omega)
  rw [e]
  unfold acceptFrame
  dsimp only
  rw [hn, stationOf_byte (by omega), stationOf_byte (by omega), byte_toNat hk]
  have hlen : ∀ n : Nat, (be16 n).length = 2 := fun n => rfl
  rw [List.take_left, List.drop_left, if_pos]
  refine ⟨hl, ?_, rfl, by omega, h0, by omega⟩
  rw [List.length_append, hlen]

/-- A sender is a station of 1 to 62. -/
theorem stationOk_iff (n : Nat) : stationOk n = true ↔ 1 ≤ n ∧ n ≤ 62 := by
  unfold stationOk; rw [Bool.and_eq_true, decide_eq_true_eq, decide_eq_true_eq]

/-- A station address is 2 to 62 (R152). -/
theorem station_range {s : State} {own : Nat} (h : s.station = some own) : 2 ≤ own ∧ own ≤ 62 := by
  unfold State.station at h; split at h
  · next hr => cases h; exact hr
  · cases h

/-! ### What hearing a frame leaves alone -/

theorem setQuiet_false_ring (s : State) : (setQuiet false s).ring = { s.ring with quiet := false } := by
  unfold setQuiet; split
  · next h => rw [← h]
  · rfl

theorem heard_ring (s : State) : (heard s).ring = { s.ring with quietTimer := .running 0, quiet := false } := by
  unfold heard; rw [(settle_side _).ring, setQuiet_false_ring]; rfl

theorem heard_station (s : State) : (heard s).station = s.station := by
  unfold State.station; rw [heard_ring]

theorem setQuiet_frame (v : Bool) (s : State) : (setQuiet v s).tables = s.tables ∧ (setQuiet v s).det = s.det
    ∧ (setQuiet v s).lines = s.lines ∧ (setQuiet v s).time = s.time ∧ (setQuiet v s).pending = s.pending
    ∧ (setQuiet v s).freeCount = s.freeCount ∧ (setQuiet v s).stride = s.stride := by
  unfold setQuiet; split <;> exact ⟨rfl, rfl, rfl, rfl, rfl, rfl, rfl⟩

/-- Tables, detector channels, lines, time and the queue are as they were. -/
theorem heard_frame (s : State) : (heard s).tables = s.tables ∧ (heard s).det = s.det ∧ (heard s).lines = s.lines
    ∧ (heard s).time = s.time ∧ (heard s).pending = s.pending ∧ (heard s).freeCount = s.freeCount
    ∧ (heard s).stride = s.stride := by
  have a := settle_side (setQuiet false (restartQuiet s))
  have b := setQuiet_frame false (restartQuiet s)
  unfold heard
  exact ⟨a.tables.trans b.1, a.det.trans b.2.1, a.lines.trans b.2.2.1, a.time.trans b.2.2.2.1,
    a.pending.trans b.2.2.2.2.1, a.freeCount.trans b.2.2.2.2.2.1, a.stride.trans b.2.2.2.2.2.2⟩

/-- A calm part hears a frame with nothing but its quiet timer. -/
theorem heard_calm {s : State} (h : Calm s) : heard s = restartQuiet s := by
  have e : setQuiet false (restartQuiet s) = restartQuiet s := by
    unfold setQuiet; exact if_pos h.heard
  have c : Calm (restartQuiet s) := ⟨h.heard, h.sound, h.present, h.free⟩
  unfold heard; rw [e, c.settle]

/-! ### A request row -/

theorem cmdFrame_accepted {s : State} {own src : Nat} (h : Serves own src s) (code : Byte) (fields : List Byte)
    (hl : fields.length ≤ 47) : acceptFrame (cmdFrame own src code fields) = some ⟨own, src, 5, code :: fields⟩ := by
  have h1 := station_range h.active
  have h2 := (stationOk_iff src).1 h.sender
  exact acceptFrame_frameBytes own src 5 _ (by omega) (by omega) (by omega) (by omega)
    (by rw [List.length_cons]; omega)

/-- A request that the part can take is judged on the state in which its frame has been heard, and answered. -/
theorem request_served {s : State} {own src : Nat} (h : Serves own src s) (code : Byte) (fields : List Byte)
    (hl : fields.length ≤ 47) :
    request src code fields s = respond src (code :: fields) (handle own code.toNat fields (heard s)) := by
  unfold request
  rw [h.active]
  dsimp only
  unfold arrival
  rw [cmdFrame_accepted h code fields hl]
  dsimp only
  unfold dispose
  rw [heard_station, h.active]
  dsimp only
  rw [if_neg h.other, if_pos rfl]
  unfold consume
  dsimp only
  unfold executeCmd
  have hr : (heard s).ring.insert = s.ring.insert := by rw [heard_ring]
  rw [hr, if_neg (not_le.2 h.room)]
  rfl

/-- A request of a part without a station address is not taken (R153). -/
theorem request_passive {s : State} (h : s.station = none) (src : Nat) (code : Byte) (fields : List Byte) :
    request src code fields s = s := by
  unfold request; rw [h]

/-! ### What the Management Unit can do -/

/-- The queue, the stride and the ring's sending side are as they were or reset; every record stays in order. -/
structure ReplySide (s : State) (x : Reply) : Prop where
  keeps : Keeps s x.state
  stores : s.ring.Stores → x.state.ring.Stores
  straps : x.state.ring.straps = s.ring.straps
  rsps : rspCount x.state.ring.insert ≤ rspCount s.ring.insert
  refused : x.result ≠ .done → x.state = s ∧ x.fields = []

theorem refuse_side (e : Result) (s : State) : ReplySide s (refuse e s) :=
  ⟨.refl s, fun h => h, rfl, le_rfl, fun _ => ⟨rfl, rfl⟩⟩

theorem answer_side {s t : State} (l : List Byte) (k : Keeps s t) (e : t.ring = s.ring) : ReplySide s (answer l t) :=
  ⟨k, fun h => by show t.ring.Stores; rw [e]; exact h, by show t.ring.straps = _; rw [e],
    by show rspCount t.ring.insert ≤ _; rw [e], fun h => absurd rfl h⟩

theorem onRamp_side (b : Byte) (s : State) (f : Ramp → Reply) (h : ∀ r, ReplySide s (f r)) :
    ReplySide s (onRamp b s f) := by
  unfold onRamp; split
  · exact h _
  · exact refuse_side _ s

/-- What a table's write or clear can do. -/
structure PutSide (s : State) (x : Result × State) : Prop where
  keeps : Keeps s x.2
  ring : x.2.ring = s.ring
  refused : x.1 ≠ .done → x.2 = s

theorem putSide_refuse (e : Result) (s : State) : PutSide s (e, s) := ⟨.refl s, rfl, fun _ => rfl⟩

theorem putSide_done {s t : State} (k : Keeps s t) (e : t.ring = s.ring) : PutSide s (.done, t) :=
  ⟨k, e, fun h => absurd rfl h⟩

theorem replyOf_side (t i : Byte) (s : State) (x : Result × State) (h : PutSide s x) : ReplySide s (replyOf t i x) := by
  unfold replyOf; split
  · exact answer_side _ h.keeps h.ring
  · next hd => rw [h.refused (fun e => hd e)]; exact refuse_side _ s

theorem writeTested_side {α : Type} (rec : Option α) (c l : α → Bool) (put : Option α → State → State) (s : State)
    (hk : ∀ x, rec = some x → c x = false → Keeps s (put (some x) s)) (hr : ∀ x, (put x s).ring = s.ring) :
    PutSide s (writeTested rec c l put s) := by
  unfold writeTested
  split
  · exact putSide_refuse _ s
  · split
    · exact putSide_refuse _ s
    · next hc =>
      split
      · exact putSide_refuse _ s
      · exact putSide_done (hk _ rfl (Bool.eq_false_iff.2 hc)) (hr _)

theorem clearTested_side {α : Type} (stored : Option α) (l : Bool) (put : Option α → State → State) (s : State)
    (hk : Keeps s (put none s)) (hr : ∀ x, (put x s).ring = s.ring) : PutSide s (clearTested stored l put s) := by
  unfold clearTested
  split
  · exact putSide_refuse _ s
  · split
    · exact putSide_done hk (hr _)
    · exact putSide_done (.refl s) rfl

theorem atIndex_side {n : Nat} (lo i : Nat) (s : State) (f : Fin n → Result × State) (h : ∀ j, PutSide s (f j)) :
    PutSide s (atIndex lo i s f) := by
  unfold atIndex
  split
  · exact putSide_refuse _ s
  · split
    · exact h _
    · exact putSide_refuse _ s

/-! ### The ring is not touched by a table's write -/

theorem putDetMap_ring (ch : Channel) (x : Option DetRec) (s : State) : (putDetMap ch x s).ring = s.ring :=
  (announce_side s _).ring

theorem putRamp_side (r : Ramp) (x : Option RampRec) (s : State) :
    RampSide { s with tables := { s.tables with rampCfg := vset s.tables.rampCfg r x } } (putRamp r x s) :=
  ((reviewChecked_side s.tables _).ramp.trans (restartSpillback_side r _)).trans (judgeLines_side r _)

theorem putLaneCfg_side (l : Lane) (x : Option LaneRec) (s : State) :
    LaneSide { s with tables := { s.tables with laneCfg := vset s.tables.laneCfg l x } } (putLaneCfg l x s) :=
  reviewChecked_side s.tables _

theorem touchStation_ring (st : Option Nat) (s : State) : (touchStation st s).ring = s.ring := by
  unfold touchStation; split
  · refine ((dueSig_side _ _).ring).trans ?_
    unfold reviewDriver; split
    · split <;> rfl
    · rfl
  · rfl

theorem putOutMap_ring (ch : OutCh) (x : Option OutRec) (s : State) : (putOutMap ch x s).ring = s.ring := by
  unfold putOutMap
  dsimp only
  rw [(judgeSilence_side ch _).ring, touchStation_ring, touchStation_ring]
  split
  · exact (attentionIf_side _ _ _).ring
  · rfl

theorem putRamp_keeps (r : Ramp) (x : Option RampRec) (s : State)
    (hx : ∀ c, x = some c → c.lanes.Nodup ∧ rampConflict s.tables r c = false) : Keeps s (putRamp r x s) :=
  (tables_keeps { s.tables with rampCfg := vset s.tables.rampCfg r x } rfl fun h => h.ramp r x hx).trans
    (putRamp_side r x s).keeps

theorem putLaneCfg_keeps (l : Lane) (x : Option LaneRec) (s : State)
    (hx : ∀ c, x = some c → laneConflict s.tables l c = false) : Keeps s (putLaneCfg l x s) :=
  (tables_keeps { s.tables with laneCfg := vset s.tables.laneCfg l x } rfl fun h => h.lane l x hx).trans
    (putLaneCfg_side l x s).keeps

theorem putSettings_keeps (x : Option Nat) (s : State) : Keeps s (putSettings x s) := by
  refine ⟨rfl, fun h => h, fun h => h, fun h => h, fun h => h, fun h => h, fun h => h, fun h => ?_,
    fun h => h.same rfl rfl rfl rfl, fun h => h⟩
  refine ⟨h.corridor, h.phase, fun e => ?_⟩
  have e' : (s.time.closeDue && decide (s.time.corridor % windowLength { s.tables with settings := x } = 0)) = true := e
  rw [Bool.and_eq_true] at e'
  exact of_decide_eq_true e'.2

/-- The writes and clears that touch a record alone. -/
theorem putCond_keeps (i : Fin 64) (x : Option CondRec) (s : State) : Keeps s (putCond i x s) :=
  tables_keeps { s.tables with conds := vset s.tables.conds i x } rfl fun h => h.same rfl rfl rfl rfl

theorem putMatch_keeps (i : Fin 48) (x : Option MatchRec) (s : State) : Keeps s (putMatch i x s) :=
  tables_keeps { s.tables with matches_ := vset s.tables.matches_ i x } rfl fun h => h.same rfl rfl rfl rfl

theorem putPlan_keeps (i : Fin 32) (x : Option PlanRec) (s : State) : Keeps s (putPlan i x s) :=
  tables_keeps { s.tables with plans := vset s.tables.plans i x } rfl fun h => h.same rfl rfl rfl rfl

theorem putCurve_keeps (i : Fin 8) (x : Option CurveRec) (s : State) : Keeps s (putCurve i x s) :=
  tables_keeps { s.tables with curves := vset s.tables.curves i x } rfl fun h => h.same rfl rfl rfl rfl

theorem putAction_keeps (i : Fin 20) (x : Option ActionRec) (s : State) : Keeps s (putAction i x s) :=
  tables_keeps { s.tables with actions := vset s.tables.actions i x } rfl fun h => h.same rfl rfl rfl rfl

theorem writeTable_side (table index : Nat) (bytes : List Byte) (s : State) :
    PutSide s (writeTable table index bytes s) := by
  unfold writeTable
  split
  · exact atIndex_side _ _ _ _ fun ch => writeTested_side _ _ _ _ _ (fun x _ hc => putDetMap_keeps ch _ s fun d e => by cases e; exact hc)
      (fun x => putDetMap_ring ch x s)
  · exact atIndex_side _ _ _ _ fun i => writeTested_side _ _ _ _ _
      (fun x _ _ => putCond_keeps i _ s) (fun _ => rfl)
  · exact atIndex_side _ _ _ _ fun i => writeTested_side _ _ _ _ _
      (fun x _ _ => putMatch_keeps i _ s) (fun _ => rfl)
  · exact atIndex_side _ _ _ _ fun i => writeTested_side _ _ _ _ _
      (fun x _ _ => putPlan_keeps i _ s) (fun _ => rfl)
  · exact atIndex_side _ _ _ _ fun i => writeTested_side _ _ _ _ _
      (fun x _ _ => putCurve_keeps i _ s) (fun _ => rfl)
  · exact atIndex_side _ _ _ _ fun r => writeTested_side _ _ _ _ _ (fun x e hc => putRamp_keeps r _ s fun c ec => by cases ec; exact ⟨readRamp_nodup e, hc⟩)
      (fun x => (putRamp_side r x s).ring)
  · exact atIndex_side _ _ _ _ fun l => writeTested_side _ _ _ _ _ (fun x _ hc => putLaneCfg_keeps l _ s fun c ec => by cases ec; exact hc)
      (fun x => (putLaneCfg_side l x s).ring)
  · exact atIndex_side _ _ _ _ fun ch => writeTested_side _ _ _ _ _ (fun x _ hc => putOutMap_keeps ch _ s fun d e => by cases e; exact hc)
      (fun x => putOutMap_ring ch x s)
  · exact atIndex_side _ _ _ _ fun i => writeTested_side _ _ _ _ _
      (fun x _ _ => putAction_keeps i _ s) (fun _ => rfl)
  · split
    · exact writeTested_side _ _ _ _ _ (fun x _ _ => putSettings_keeps _ s) (fun _ => rfl)
    · exact putSide_refuse _ s
  · exact putSide_refuse _ s

theorem clearTable_side (table index : Nat) (s : State) : PutSide s (clearTable table index s) := by
  unfold clearTable
  split
  · exact atIndex_side _ _ _ _ fun ch => clearTested_side _ _ _ _ (putDetMap_keeps ch none s fun _ e => by cases e)
      (fun x => putDetMap_ring ch x s)
  · exact atIndex_side _ _ _ _ fun i => clearTested_side _ _ _ _
      (putCond_keeps i none s) (fun _ => rfl)
  · exact atIndex_side _ _ _ _ fun i => clearTested_side _ _ _ _
      (putMatch_keeps i none s) (fun _ => rfl)
  · exact atIndex_side _ _ _ _ fun i => clearTested_side _ _ _ _
      (putPlan_keeps i none s) (fun _ => rfl)
  · exact atIndex_side _ _ _ _ fun i => clearTested_side _ _ _ _
      (putCurve_keeps i none s) (fun _ => rfl)
  · exact atIndex_side _ _ _ _ fun r => clearTested_side _ _ _ _ (putRamp_keeps r none s (fun _ e => by cases e))
      (fun x => (putRamp_side r x s).ring)
  · exact atIndex_side _ _ _ _ fun l => clearTested_side _ _ _ _ (putLaneCfg_keeps l none s (fun _ e => by cases e))
      (fun x => (putLaneCfg_side l x s).ring)
  · exact atIndex_side _ _ _ _ fun ch => clearTested_side _ _ _ _ (putOutMap_keeps ch none s fun _ e => by cases e)
      (fun x => putOutMap_ring ch x s)
  · exact atIndex_side _ _ _ _ fun i => clearTested_side _ _ _ _
      (putAction_keeps i none s) (fun _ => rfl)
  · split
    · exact clearTested_side _ _ _ _ (putSettings_keeps none s) (fun _ => rfl)
    · exact putSide_refuse _ s
  · exact putSide_refuse _ s

/-! ### The fourteen requests -/

/-- A reply made of ramp-side moves. -/
theorem answer_ramp {s t : State} (l : List Byte) (a : RampSide s t) : ReplySide s (answer l t) :=
  answer_side l a.keeps a.ring

theorem runReset_side (s : State) : ReplySide s (runResetRequest s) := by
  refine ⟨runReset_keeps s, fun h => ?_, rfl, Nat.zero_le _, fun h => absurd rfl h⟩
  exact ⟨h.forward, Nat.zero_le _, Nat.zero_le _, List.nodup_nil, fun e => absurd rfl e, Nat.zero_le _, Nat.zero_le _,
    Nat.zero_le _, Nat.zero_le _⟩

theorem clearAttention_keeps (r : Ramp) (s : State) : Keeps s (clearAttention r s) := by
  refine ⟨rfl, fun h => h, fun h q => ?_, fun h => h, fun h => h, fun h => h, fun h => h, fun h => h,
    fun h => h, fun h q e => h q ?_⟩
  · show RampCtx.Ok ((vset s.ramps r _)[q])
    rw [vset_get]; split
    · next e => subst e; exact (h r).attention false
    · exact h q
  · rw [← e]; unfold clearAttention; rw [State.modRamp_ramps, vset_get]; split
    · next e => subst e; rfl
    · rfl

theorem statusRequest_side (ramp sect : Byte) (s : State) : ReplySide s (statusRequest ramp sect s) := by
  unfold statusRequest
  refine onRamp_side _ _ _ fun r => ?_
  dsimp only
  split
  · exact answer_side _ (clearAttention_keeps r s) rfl
  · refine answer_side _ ?_ ?_
    · unfold drawnBy; split
      · exact clearAttention_keeps r s
      · exact (clearAttention_keeps r s).trans ⟨rfl, fun h => h, fun h => h, fun h => h, fun h => h, fun h => h,
          fun h => h, fun h => h, fun h => h, fun h => h⟩
    · unfold drawnBy; split <;> rfl
  · exact answer_side _ (clearAttention_keeps r s) rfl
  · exact refuse_side _ s

theorem tableWrite_side (t i : Byte) (l : List Byte) (s : State) : ReplySide s (tableWrite t i l s) := by
  unfold tableWrite; split
  · exact replyOf_side _ _ _ _ (writeTable_side _ _ _ s)
  · exact refuse_side _ s

theorem tableRead_side (t i : Byte) (s : State) : ReplySide s (tableRead t i s) := by
  unfold tableRead; split
  · exact answer_side _ (.refl s) rfl
  · exact refuse_side _ s

theorem tableCheck_side (t : Byte) (s : State) : ReplySide s (tableCheck t s) := by
  unfold tableCheck; split
  · exact answer_side _ (.refl s) rfl
  · exact refuse_side _ s

theorem modeAutoRequest_side (r : Ramp) (s : State) : ReplySide s (modeAutoRequest r s) := by
  unfold modeAutoRequest; split
  · split
    · exact answer_ramp _ (leaveOff_side r s)
    · exact refuse_side _ s
  · exact answer_ramp _ (modeAuto_side r s)

theorem rampMode_side (r m : Byte) (s : State) : ReplySide s (rampMode r m s) := by
  unfold rampMode
  refine onRamp_side _ _ _ fun r => ?_
  split
  · exact modeAutoRequest_side r s
  · exact answer_ramp _ (modeOff_side r s)
  · exact refuse_side _ s

theorem armRequest_side (r k v : Byte) (s : State) : ReplySide s (armRequest r k v s) := by
  unfold armRequest
  refine onRamp_side _ _ _ fun r => ?_
  split
  · exact answer_ramp _ (setArmed_side r _ _ s)
  · exact refuse_side _ s

theorem assertRequest_side (r k : Byte) (n : Nat) (s : State) : ReplySide s (assertRequest r k n s) := by
  unfold assertRequest
  refine onRamp_side _ _ _ fun r => ?_
  split
  · exact answer_ramp _ (assertCentral_side r _ _ s (centralSource_ne _))
  · exact refuse_side _ s

theorem releaseRequest_side (r k : Byte) (s : State) : ReplySide s (releaseRequest r k s) := by
  unfold releaseRequest
  refine onRamp_side _ _ _ fun r => ?_
  split
  · exact answer_ramp _ (endLease_side r _ s (centralSource_ne _))
  · exact refuse_side _ s

theorem detectorsRequest_side (f n : Byte) (s : State) : ReplySide s (detectorsRequest f n s) := by
  unfold detectorsRequest; split
  · exact refuse_side _ s
  · split
    · exact refuse_side _ s
    · exact answer_side _ (.refl s) rfl

theorem countsRequest_side (r : Byte) (s : State) : ReplySide s (countsRequest r s) := by
  unfold countsRequest
  exact onRamp_side _ _ _ fun r => answer_side _ (.refl s) rfl

theorem clearFaultRequest_side (r : Byte) (s : State) : ReplySide s (clearFaultRequest r s) := by
  unfold clearFaultRequest
  exact onRamp_side _ _ _ fun r => answer_ramp _ (clearFaults_side r s).ramp

theorem identify_side (own : Nat) (s : State) : ReplySide s (identify own s) := answer_side _ (.refl s) rfl

theorem perform_side (own : Nat) (q : Request) (s : State) : ReplySide s (perform own q s) := by
  cases q with
  | identify => exact identify_side own s
  | tableWrite t i l => exact tableWrite_side t i l s
  | tableRead t i => exact tableRead_side t i s
  | tableClear t i => exact replyOf_side t i s _ (clearTable_side _ _ s)
  | tableCheck t => exact tableCheck_side t s
  | rampMode r m => exact rampMode_side r m s
  | arm r k v => exact armRequest_side r k v s
  | assert r k n => exact assertRequest_side r k n s
  | release r k => exact releaseRequest_side r k s
  | status r x => exact statusRequest_side r x s
  | detectors f n => exact detectorsRequest_side f n s
  | counts r => exact countsRequest_side r s
  | clearFault r => exact clearFaultRequest_side r s
  | runReset => exact runReset_side s

/-- Every request keeps the records in order; one that is not DONE leaves the part as it was and carries no field
(R168). -/
theorem handle_side (own code : Nat) (fields : List Byte) (s : State) : ReplySide s (handle own code fields s) := by
  unfold handle
  split
  · exact perform_side own _ s
  · exact refuse_side _ s

theorem handlePayload_side (own : Nat) (payload : List Byte) (s : State) :
    ReplySide s (handlePayload own payload s) := by
  unfold handlePayload; split
  · exact refuse_side _ s
  · exact handle_side _ _ _ s

/-! ### The response -/

/-- The state of a reply, its SIGs enqueued, ahead of the response. -/
theorem respond_keeps (src : Nat) (payload : List Byte) (x : Reply) : Keeps x.state (respond src payload x) := by
  unfold respond
  dsimp only
  exact (((settle_side x.state).keeps.trans (flushSigs_side _).ending.keeps).trans (ring_keeps _ _)).trans
    (pump_side _).keeps

theorem respond_ring (src : Nat) (payload : List Byte) (x : Reply) (h : x.state.ring.Stores)
    (hr : rspCount x.state.ring.insert < 8) : (respond src payload x).ring.Ok := by
  have a := (settle_side x.state).ring
  have b := flushSigs_side (settle x.state)
  unfold respond
  dsimp only
  refine pump_ring (appendRsp_stores (b.stores (by rw [a]; exact h)) _ _ ?_)
  rw [b.rsps, a]; exact hr

theorem executeCmd_keeps (own src : Nat) (payload : List Byte) (s : State) :
    Keeps s (executeCmd own src payload s) := by
  unfold executeCmd; split
  · exact (ring_keeps s _).trans (pump_side _).keeps
  · exact (handlePayload_side own payload s).keeps.trans (respond_keeps _ _ _)

theorem executeCmd_ring (own src : Nat) (payload : List Byte) (s : State) (h : s.ring.Stores) :
    (executeCmd own src payload s).ring.Ok := by
  unfold executeCmd; split
  · exact pump_ring ⟨h.forward, h.rsps, h.sigs, h.oneSig, h.waits, h.run, h.bad, h.overflow, satInc_le _⟩
  · next hr =>
    have a := handlePayload_side own payload s
    exact respond_ring _ _ _ (a.stores h) (lt_of_le_of_lt a.rsps (not_le.1 hr))

/-! ### The arrival of a frame -/

theorem forwardOn_keeps (b : List Byte) (s : State) : Keeps s (forwardOn b s) :=
  (ring_keeps s _).trans (pump_side _).keeps

theorem forwardOn_ring (b : List Byte) (s : State) (h : s.ring.Stores) : (forwardOn b s).ring.Ok := by
  unfold forwardOn; exact pump_ring (forwardFrame_stores h b)

theorem applyDpr_side (st : Nat) (inputs : List Byte) (s : State) :
    Keeps s (applyDpr st inputs s) ∧ (applyDpr st inputs s).ring = s.ring := by
  refine ⟨(det_keeps (s := s) _ fun h => ?_).trans (announce_side s _).keeps, (announce_side s _).ring⟩
  have := applyDpr_ok h st inputs
  unfold applyDpr at this
  rw [(announce_side s _).det] at this
  exact this

theorem windowClose_ring (s : State) : (windowClose s).ring = s.ring := (windowClose_side s).ring

theorem timeMark_ring (src : Nat) (payload : List Byte) (s : State) : (timeMark src payload s).ring = s.ring := by
  unfold timeMark
  split
  · dsimp only; split
    · unfold countedMark; dsimp only; split
      · rfl
      · show (adopt _ _ s).ring = s.ring
        unfold adopt; dsimp only; split
        · split
          · rw [windowClose_ring]
          · rfl
        · rfl
    · rfl
  · rfl

theorem lampReport_ring (st : Nat) (outs : List Byte) (s : State) : (lampReport st outs s).ring = s.ring := by
  unfold lampReport; split
  · rfl
  · rw [(LaneSide.forEach _ _ (lampReportChannel_side st outs) _).ring]

theorem consume_keeps (own : Nat) (f : Frame) (s : State) : Keeps s (consume own f s) := by
  unfold consume
  split
  · split
    · exact (lampReport_keeps _ _ s).trans (endEvent_keeps _)
    · exact endEvent_keeps s
  · exact executeCmd_keeps _ _ _ s
  · exact endEvent_keeps s

theorem consume_ring (own : Nat) (f : Frame) (s : State) (h : s.ring.Stores) : (consume own f s).ring.Ok := by
  unfold consume
  split
  · split
    · exact endEvent_ring (by rw [lampReport_ring]; exact h)
    · exact endEvent_ring h
  · exact executeCmd_ring _ _ _ s h
  · exact endEvent_ring h

theorem broadcast_keeps (b : List Byte) (f : Frame) (s : State) : Keeps s (broadcast b f s) := by
  unfold broadcast
  split
  · split
    · dsimp only
      exact ((applyDpr_side _ _ s).1.trans (endEvent_keeps _)).trans (forwardOn_keeps _ _)
    · exact (endEvent_keeps s).trans (forwardOn_keeps _ _)
  · exact ((timeMark_keeps _ _ s).trans (endEvent_keeps _)).trans (forwardOn_keeps _ _)
  · exact (endEvent_keeps s).trans (forwardOn_keeps _ _)

theorem broadcast_ring (b : List Byte) (f : Frame) (s : State) (h : s.ring.Stores) : (broadcast b f s).ring.Ok := by
  unfold broadcast
  split
  · split
    · dsimp only
      exact forwardOn_ring _ _ (endEvent_ring (by rw [(applyDpr_side _ _ s).2]; exact h)).stores
    · exact forwardOn_ring _ _ (endEvent_ring h).stores
  · exact forwardOn_ring _ _ (endEvent_ring (by rw [timeMark_ring]; exact h)).stores
  · exact forwardOn_ring _ _ (endEvent_ring h).stores

theorem heard_stores {s : State} (h : s.ring.Stores) : (heard s).ring.Stores := by
  rw [heard_ring]
  exact ⟨h.forward, h.rsps, h.sigs, h.oneSig, h.waits, h.run, h.bad, h.overflow, h.discard⟩

/-- An arrival keeps every record in order, and leaves the ring's stores in order with no frame at a free port. -/
theorem arrival_keeps (b : List Byte) (s : State) : Keeps s (arrival b s) := by
  unfold arrival
  split
  · exact (ring_keeps s _).trans (endEvent_keeps _)
  · refine (heard_keeps s).trans ?_
    unfold dispose
    split
    · exact (endEvent_keeps _).trans (forwardOn_keeps _ _)
    · split
      · exact endEvent_keeps _
      · split
        · exact consume_keeps _ _ _
        · split
          · exact broadcast_keeps _ _ _
          · exact (endEvent_keeps _).trans (forwardOn_keeps _ _)

theorem arrival_ring (b : List Byte) (s : State) (h : s.ring.Stores) : (arrival b s).ring.Ok := by
  unfold arrival
  split
  · exact endEvent_ring ⟨h.forward, h.rsps, h.sigs, h.oneSig, h.waits, h.run, satInc_le _, h.overflow, h.discard⟩
  · have h' := heard_stores h
    unfold dispose
    split
    · exact forwardOn_ring _ _ (endEvent_ring h').stores
    · split
      · exact endEvent_ring h'
      · split
        · exact consume_ring _ _ _ h'
        · split
          · exact broadcast_ring _ _ _ h'
          · exact forwardOn_ring _ _ (endEvent_ring h').stores

theorem request_keeps (src : Nat) (code : Byte) (fields : List Byte) (s : State) :
    Keeps s (request src code fields s) := by
  unfold request; split
  · exact arrival_keeps _ s
  · exact .refl s

theorem request_ring (src : Nat) (code : Byte) (fields : List Byte) (s : State) (h : s.ring.Ok) :
    (request src code fields s).ring.Ok := by
  unfold request; split
  · exact arrival_ring _ s h.stores
  · exact h

end Sys2Proof.Machine
end

