-- ==== Sys2Proof/Laws/Timers.lean ====
section
/-! SUPPORT. What a running timer says about the record it belongs to, and what the passing of time does. -/

namespace Sys2Proof.Machine

/-! ### A timer under way -/

theorem left_running {limit n : Nat} {t : Timer} (h : t.left limit = some n) : t ≠ .stopped := by
  intro e; rw [e] at h; cases h

theorem stuckLeft_running {ch : Channel} {s : State} {n : Nat} (h : stuckLeft ch s = some n) :
    (s.det.chans[ch]).stuck ≠ .stopped := by
  unfold stuckLeft at h
  obtain ⟨d, _, hd⟩ := Option.bind_eq_some_iff.1 h
  exact left_running hd

theorem phaseLeft_state {r : Ramp} {st : RampState} {ph : Option ClearPhase} {f : RampRec → Nat} {s : State} {n : Nat}
    (h : phaseLeft r st ph f s = some n) : (s.ramps[r]).state = st ∧ (s.ramps[r]).clearPhase = ph := by
  unfold phaseLeft at h; split at h
  · next e => exact e
  · cases h

theorem slotLeft_state {r : Ramp} {s : State} {n : Nat} (h : slotLeft r s = some n) :
    (s.ramps[r]).state = .metering := by
  unfold slotLeft at h; split at h
  · next e => exact e
  · cases h

/-- A lane on its way to a point is in the state the point belongs to, with an interval that has it. -/
theorem pointLeft_spec {l : Lane} {st : LaneState} {f : Interval → Option Nat} {s : State} {n : Nat}
    (h : pointLeft l st f s = some n) :
    (s.lanes[l]).state = st ∧ ∃ v p, (s.lanes[l]).interval = some v ∧ f v = some p ∧ p - v.counter = n := by
  unfold pointLeft at h; split at h
  · next e =>
    obtain ⟨v, hv, hp⟩ := Option.bind_eq_some_iff.1 h
    obtain ⟨p, hp, hn⟩ := Option.map_eq_some_iff.1 hp
    exact ⟨e, v, p, hv, hp, hn⟩
  · cases h

theorem delayEnded_keeps (l : Lane) (s : State) (h : delayLeft l s = some 0) :
    Keeps s (lanePoint (fun _ _ x => delayEnded x) l s) := by
  obtain ⟨_, v, p, hv, hp, _⟩ := pointLeft_spec h
  refine (lanePoint_side _ l s fun _ _ hx => laneGreen_ok hx ⟨v, hv, ?_⟩).keeps
  unfold Interval.delayEnd at hp
  obtain ⟨c, hc, _⟩ := Option.map_eq_some_iff.1 hp
  rw [hc]; rfl

theorem greenEnded_keeps (l : Lane) (s : State) : Keeps s (lanePoint (fun _ _ x => greenEnded x) l s) :=
  (lanePoint_side _ l s fun _ _ hx => greenEnded_ok hx).keeps

theorem yellowEnded_keeps (l : Lane) (s : State) (h : yellowLeft l s = some 0) :
    Keeps s (lanePoint (fun _ _ x => yellowEnded x) l s) := by
  obtain ⟨hs, v, p, hv, _, _⟩ := pointLeft_spec h
  exact (lanePoint_side _ l s fun _ _ hx => yellowEnded_ok hx hs (by rw [hv]; exact Option.some_ne_none v)).keeps

/-! ### The ring behind an expiry -/

theorem whenDue_ring (left : Option Nat) (f : State → State) (s : State) (h : s.ring.Ok)
    (hf : left = some 0 → (f s).ring.Stores) : (whenDue left f s).ring.Ok := by
  unfold whenDue; split
  · next e => exact endEvent_ring (hf e)
  · exact h

/-- A due event in a calm part that leaves no SIG due: its own effect and the port's take. -/
theorem whenDue_calm (f : State → State) (s : State) (hc : Calm (f s)) (hd : (f s).out.sigDue = []) :
    whenDue (some 0) f s = pump (f s) := by
  unfold whenDue; rw [if_pos rfl, endEvent_calm hc hd]

/-! ### The passing of time -/

theorem foldl_min_le (l : List Nat) (n : Nat) : l.foldl min n ≤ n ∧ ∀ x ∈ l, l.foldl min n ≤ x := by
  induction l generalizing n with
  | nil => exact ⟨le_rfl, fun x hx => by cases hx⟩
  | cons a l ih =>
    have h := ih (min n a)
    refine ⟨h.1.trans (min_le_left _ _), fun x hx => ?_⟩
    rcases List.mem_cons.1 hx with rfl | hx
    · exact h.1.trans (min_le_right _ _)
    · exact h.2 x hx

/-- An idle span ends no later than the running tenth. -/
theorem idleSpan_tenth (s : State) : idleSpan s ≤ Config.tenth - s.time.phase :=
  (min_le_right _ _).trans (foldl_min_le _ _).1

/-- An idle span ends no later than any timer under way. -/
theorem idleSpan_timer {s : State} {e : Instr × Option Nat} {n : Nat} (h : e ∈ timedEvents s) (hn : e.2 = some n) :
    idleSpan s ≤ n :=
  (min_le_right _ _).trans ((foldl_min_le _ _).2 n (List.mem_filterMap.2 ⟨e, h, hn⟩))

theorem timePass_ok {w d : Nat} {t : TimeUnit} (h : t.Ok w) (hd : d ≤ Config.tenth - t.phase)
    (hc : t.closeDue = true → d = 0) : (t.pass w d).Ok w := by
  have hp := h.phase
  unfold TimeUnit.pass
  dsimp only
  split
  · next hl => exact ⟨h.corridor, hl, h.close⟩
  · next hl =>
    refine ⟨Nat.mod_lt _ (by decide), ?_, fun e => ?_⟩
    · show t.phase + d - Config.tenth < Config.tenth
      omega
    · rcases Bool.or_eq_true_iff.1 e with e | e
      · rw [hc e] at hl; exact absurd hp hl
      · exact of_decide_eq_true e

/-- While a close is due no time passes. -/
theorem idleSpan_close {s : State} (h : s.time.closeDue = true) : idleSpan s = 0 := by
  have hm : ((.windowClose, closeLeft s) : Instr × Option Nat) ∈ timedEvents s := by
    unfold timedEvents
    exact List.mem_append_right _ (List.mem_cons_of_mem _ (List.mem_cons_of_mem _ List.mem_cons_self))
  have hn : closeLeft s = some 0 := if_pos h
  have hle : idleSpan s ≤ 0 := idleSpan_timer (e := (Instr.windowClose, closeLeft s)) hm hn
  generalize idleSpan s = n at hle
  omega

/-- Every record of a vector is kept in order where each one is. -/
theorem vmap_all {α : Type} {n : Nat} {P Q : α → Prop} (f : Fin n → α → α) (v : Vector α n)
    (h : ∀ i x, P x → Q (f i x)) (hv : ∀ i : Fin n, P v[i]) (i : Fin n) : Q (vmap f v)[i] := by
  rw [vmap_get]; exact h i _ (hv i)

theorem detUnitPass_ok {u : DetUnit} (h : u.Ok) (d : Nat) :
    ({ u with chans := vmap (fun _ c => c.pass d) u.chans, elapsed := u.elapsed + d } : DetUnit).Ok :=
  vmap_all (P := DetState.Ok u.elapsed) (Q := DetState.Ok (u.elapsed + d)) (fun _ c => c.pass d) u.chans
    (fun _ _ hc => detPass_ok hc d) h

theorem rampPass_ok {c : RampCtx} (h : c.Ok) (d : Nat) : (c.pass d).Ok :=
  ⟨h.adopted, h.pattern, fun n => by show c.slotClock.advance d = .stopped; rw [h.clock n]; rfl, h.length, h.nominal,
    h.aligned, h.phase, h.slots, h.lastSlots⟩

theorem outPass_ok {c : OutChan} (h : c.Ok) (d : Nat) : ({ c with mismatch := c.mismatch.advance d } : OutChan).Ok := by
  intro hf
  show c.mismatch.advance d = .stopped
  rw [h hf]; rfl

/-- A span of time keeps every record in order. -/
theorem passTime_keeps (d : Nat) (s : State) (hd : d ≤ Config.tenth - s.time.phase)
    (hc : s.time.closeDue = true → d = 0) : Keeps s (passTime d s) where
  pending := by unfold passTime; rfl
  det h := by unfold passTime; exact detUnitPass_ok h d
  ramps h := by unfold passTime; exact vmap_all (P := RampCtx.Ok) (Q := RampCtx.Ok) _ s.ramps (fun _ _ hx => rampPass_ok hx d) h
  rate h := by unfold passTime; exact h
  apart h := by unfold passTime; exact h
  free h r e := by
    unfold passTime at e ⊢
    dsimp only at e ⊢
    rw [vmap_get] at e ⊢
    exact h r e
  lanes h := by unfold passTime; exact vmap_all (P := LaneCtx.Ok) (Q := LaneCtx.Ok) _ s.lanes (fun _ _ hx => lanePass_ok hx d) h
  auth h := by unfold passTime; exact vmap_all (P := AuthUnit.Ok) (Q := AuthUnit.Ok) _ s.auth (fun _ _ hx => AuthUnit.pass_ok hx d) h
  outs h := by
    unfold passTime OutUnit.pass
    exact vmap_all (P := OutChan.Ok) (Q := OutChan.Ok) (fun _ c => { c with mismatch := c.mismatch.advance d })
      s.out.chans (fun _ _ hx => outPass_ok hx d) h
  time h := by
    have k := timePass_ok (w := windowLength s.tables) (d := d) (t := s.time) h hd hc
    unfold passTime
    exact k

theorem ringPass_ok {q : RingUnit} (h : q.Ok) (d : Nat) : (q.pass d).Ok := by
  refine ⟨⟨h.stores.forward, h.stores.rsps, h.stores.sigs, h.stores.oneSig, h.stores.waits, h.stores.run, h.stores.bad,
    h.stores.overflow, h.stores.discard⟩, fun e => h.busy ?_⟩
  cases hx : q.inFlight with
  | none => rfl
  | some x =>
    have e' : q.inFlight.map (fun x : InFlight => ({ x with ran := x.ran + d } : InFlight)) = none := e
    rw [hx] at e'; cases e'

end Sys2Proof.Machine
end

