-- ==== Sys2Proof/Laws/Clocks.lean ====
section
/-! SUPPORT. How long a timer runs, what stands among the timed events, and where an idle span ends. -/

namespace Sys2Proof.Machine

/-! ### What is left -/

theorem left_run {L m n : Nat} {t : Timer} (h : t = .running n) (e : L * Config.tenth = m := by rfl) :
    t.left (tenths L) = some (m - n) := by
  subst h; subst e; rfl

theorem left_none {L : Nat} {t : Timer} (h : ∀ n, t ≠ .running n) : t.left (tenths L) = none := by
  cases t with
  | running n => exact absurd rfl (h n)
  | _ => rfl

/-- A phase timer runs for its time of the Ramp Config in its state and phase (R63 to R66, R71). -/
theorem phaseLeft_run {r : Ramp} {st : RampState} {ph : Option ClearPhase} {s : State} {c : RampRec} {n : Nat}
    (f : RampRec → Nat) (hc : s.tables.rampCfg[r] = some c) (hn : (s.ramps[r]).phaseTimer = .running n)
    (h1 : (s.ramps[r]).state = st) (h2 : (s.ramps[r]).clearPhase = ph) :
    phaseLeft r st ph f s = some (f c * 100000 - n) := by
  unfold phaseLeft; rw [if_pos ⟨h1, h2⟩, hc]; exact left_run hn

theorem phaseLeft_stop {r : Ramp} {st : RampState} {ph : Option ClearPhase} {f : RampRec → Nat} {s : State}
    (h : ∀ n, (s.ramps[r]).phaseTimer ≠ .running n) : phaseLeft r st ph f s = none := by
  unfold phaseLeft; split
  · cases s.tables.rampCfg[r] with
    | none => rfl
    | some d => exact left_none h
  · rfl

theorem phaseLeft_none {r : Ramp} {st : RampState} {ph : Option ClearPhase} {f : RampRec → Nat} {s : State}
    (h : (s.ramps[r]).state ≠ st ∨ (s.ramps[r]).clearPhase ≠ ph) : phaseLeft r st ph f s = none := by
  unfold phaseLeft; rw [if_neg]; tauto

/-! ### The timed events -/

theorem foldl_min_mem (l : List Nat) (n : Nat) : l.foldl min n = n ∨ l.foldl min n ∈ l := by
  induction l generalizing n with
  | nil => exact Or.inl rfl
  | cons a l ih =>
    rcases ih (min n a) with h | h
    · rw [List.foldl_cons, h]
      rcases Nat.le_total n a with k | k
      · left; exact min_eq_left k
      · right; rw [min_eq_right k]; exact List.mem_cons_self
    · right; exact List.mem_cons_of_mem _ h

/-- What stands among the timed events: every timer of the part with what it has left, and a close that is due. -/
theorem mem_timedEvents (s : State) (e : Instr × Option Nat) : e ∈ timedEvents s ↔
      e = (.sendingEnd, sendingLeft s) ∨ e = (.syncTimerExpiry, syncLeft s) ∨ e = (.quietTimerExpiry, quietLeft s)
      ∨ e = (.windowClose, if s.time.closeDue = true then some 0 else none)
      ∨ (∃ l : Line, e = (.debounceExpiry l, debounceLeft l s))
      ∨ (∃ ch : Channel, e = (.filterTimerExpiry ch, filterLeft ch s) ∨ e = (.silenceTimerExpiry ch, silenceLeft ch s)
          ∨ e = (.stuckTimerExpiry ch, stuckLeft ch s) ∨ e = (.onTimerExpiry ch, onTimerLeft ch s))
      ∨ (∃ l : Lane, e = (.delayEnd l, delayLeft l s) ∨ e = (.minimumGreenPoint l, minGreenLeft l s)
          ∨ e = (.maximumGreen l, maxGreenLeft l s) ∨ e = (.yellowEnd l, yellowLeft l s) ∨ e = (.redEnd l, redLeft l s))
      ∨ (∃ r : Ramp, e = (.warnExpiry r, warnLeft r s) ∨ e = (.startGreenExpiry r, startGreenLeft r s)
          ∨ e = (.startYellowExpiry r, startYellowLeft r s) ∨ e = (.startRedExpiry r, startRedLeft r s)
          ∨ e = (.shutdownFlushExpiry r, shutFlushLeft r s) ∨ e = (.slotBoundary r, slotLeft r s)
          ∨ e = (.holdExpiry r, holdLeft r s) ∨ e = (.leaseExpiry r .urgent, leaseLeft r .urgent s)
          ∨ e = (.leaseExpiry r .plan, leaseLeft r .plan s) ∨ e = (.clearTimerExpiry r, clearTimerLeft r s))
      ∨ (∃ ch : OutCh, e = (.mismatchTimerExpiry ch, mismatchLeft ch s))
      ∨ ∃ d ∈ s.out.drivers, e = (.driverSilenceExpiry d.station, driverSilenceLeft d.station s)
          ∨ e = (.refreshTimerExpiry d.station, refreshLeft d.station s) := by
  unfold timedEvents channelEvents laneEvents rampEvents driverEvents closeLeft
  simp only [List.mem_append, List.mem_cons, List.mem_map, List.mem_flatMap, List.mem_finRange, true_and,
    List.not_mem_nil, or_false, eq_comm (b := e)]
  exact iff_of_eq (by ac_rfl)

theorem nextDue_mem {s : State} {c : Instr} (h : nextDue s = some c) : (c, some 0) ∈ timedEvents s := by
  unfold nextDue at h
  obtain ⟨e, he, rfl⟩ := Option.map_eq_some_iff.1 h
  have k := of_decide_eq_true (p := e.2 = some 0)
    (List.find?_some (p := fun e : Instr × Option Nat => decide (e.2 = some 0)) he)
  rw [← k]; exact List.mem_of_find?_eq_some he

theorem nextDue_none {s : State} (h : nextDue s = none) (e : Instr × Option Nat) (he : e ∈ timedEvents s) :
    e.2 ≠ some 0 := fun k => by
  unfold nextDue at h
  rw [Option.map_eq_none_iff, List.find?_eq_none] at h
  exact h e he (by simpa using k)

/-- An idle span ends at the stride, at the end of the running tenth or at a timer. -/
theorem idleSpan_reached (s : State) : idleSpan s = s.stride ∨ idleSpan s = 100000 - s.time.phase
    ∨ ∃ e ∈ timedEvents s, e.2 = some (idleSpan s) := by
  unfold idleSpan headroom
  rcases Nat.le_total s.stride (((timedEvents s).filterMap (·.2)).foldl min (Config.tenth - s.time.phase)) with h | h
  · left; exact min_eq_left h
  · right; rw [min_eq_right h]
    rcases foldl_min_mem ((timedEvents s).filterMap (·.2)) (Config.tenth - s.time.phase) with k | k
    · left; rw [k]; rfl
    · right; rw [List.mem_filterMap] at k; exact k

end Sys2Proof.Machine
end

