-- ==== Sys2Proof/Laws/Steps.lean ====
section
/-! SUPPORT. What one command can do: it answers a next state, keeps every record in order, leaves the queue alone and
leaves the ring's stores in order. -/

namespace Sys2Proof.Machine
open Host

theorem outcome_inj {t t' : State} (e : (Outcome.next t : Outcome State Fault Refusal) = .next t') : t = t' := by
  cases e; rfl

/-- Every command answers a next state that keeps the records in order. -/
theorem exec_keeps (c : Instr) (s : State) : ∃ t, exec c s = .next t ∧ Keeps s t := by
  cases c with
  | powerOnReset straps => exact ⟨_, rfl, powerOn_keeps straps s⟩
  | runReset src => exact ⟨_, rfl, request_keeps _ _ _ s⟩
  | frameArrival bytes => exact ⟨_, rfl, arrival_keeps _ s⟩
  | identify src => exact ⟨_, rfl, request_keeps _ _ _ s⟩
  | tableWrite src t i r => exact ⟨_, rfl, request_keeps _ _ _ s⟩
  | tableRead src t i => exact ⟨_, rfl, request_keeps _ _ _ s⟩
  | tableClear src t i => exact ⟨_, rfl, request_keeps _ _ _ s⟩
  | tableCheck src t => exact ⟨_, rfl, request_keeps _ _ _ s⟩
  | rampModeAuto src r => exact ⟨_, rfl, request_keeps _ _ _ s⟩
  | rampModeOff src r => exact ⟨_, rfl, request_keeps _ _ _ s⟩
  | arm src r k v => exact ⟨_, rfl, request_keeps _ _ _ s⟩
  | assertSource src r k l => exact ⟨_, rfl, request_keeps _ _ _ s⟩
  | releaseSource src r k => exact ⟨_, rfl, request_keeps _ _ _ s⟩
  | status src r x => exact ⟨_, rfl, request_keeps _ _ _ s⟩
  | detectors src f n => exact ⟨_, rfl, request_keeps _ _ _ s⟩
  | counts src r => exact ⟨_, rfl, request_keeps _ _ _ s⟩
  | clearFault src r => exact ⟨_, rfl, request_keeps _ _ _ s⟩
  | filterTimerExpiry ch => exact ⟨_, rfl, whenDue_keeps _ _ s fun _ => changeChannel_keeps ch _ s filterExpired_ok⟩
  | silenceTimerExpiry ch => exact ⟨_, rfl, whenDue_keeps _ _ s fun _ => changeChannel_keeps ch _ s silenceExpired_ok⟩
  | stuckTimerExpiry ch =>
    exact ⟨_, rfl, whenDue_keeps _ _ s fun h =>
      changeChannel_keeps ch _ s fun hc => stuckExpired_ok hc (stuckLeft_running h)⟩
  | windowClose => exact ⟨_, rfl, whenDue_keeps _ _ s fun _ => windowClose_keeps s⟩
  | warnExpiry r => exact ⟨_, rfl, whenDue_keeps _ _ s fun _ => (warnExpired_side r s).keeps⟩
  | startGreenExpiry r => exact ⟨_, rfl, whenDue_keeps _ _ s fun _ => (startGreenExpired_side r s).keeps⟩
  | startYellowExpiry r =>
    exact ⟨_, rfl, whenDue_keeps _ _ s fun h => (startYellowExpired_side r s (phaseLeft_state h).1).keeps⟩
  | startRedExpiry r => exact ⟨_, rfl, whenDue_keeps _ _ s fun _ => (startRedExpired_side r s).keeps⟩
  | shutdownFlushExpiry r => exact ⟨_, rfl, whenDue_keeps _ _ s fun _ => (shutFlushExpired_side r s).keeps⟩
  | slotBoundary r => exact ⟨_, rfl, whenDue_keeps _ _ s fun h => (slotBoundary_side r s (slotLeft_state h)).keeps⟩
  | delayEnd l => exact ⟨_, rfl, whenDue_keeps _ _ s (delayEnded_keeps l s)⟩
  | maximumGreen l => exact ⟨_, rfl, whenDue_keeps _ _ s fun _ => greenEnded_keeps l s⟩
  | minimumGreenPoint l => exact ⟨_, rfl, whenDue_keeps _ _ s fun _ => greenEnded_keeps l s⟩
  | yellowEnd l => exact ⟨_, rfl, whenDue_keeps _ _ s (yellowEnded_keeps l s)⟩
  | redEnd l => exact ⟨_, rfl, whenDue_keeps _ _ s fun _ => (laneRedEnd_side l s).keeps⟩
  | holdExpiry r => exact ⟨_, rfl, whenDue_keeps _ _ s fun _ => (holdExpired_side r s).keeps⟩
  | leaseExpiry r c => exact ⟨_, rfl, whenDue_keeps _ _ s fun _ => (endLease_side r _ s (centralSource_ne c)).keeps⟩
  | lineInputChange l v => exact ⟨_, rfl, setLine_keeps s l _⟩
  | debounceExpiry l => exact ⟨_, rfl, whenDue_keeps _ _ s fun _ => debounced_keeps l s⟩
  | onTimerExpiry ch => exact ⟨_, rfl, whenDue_keeps _ _ s fun _ => (onTimerExpired_side ch s).keeps⟩
  | clearTimerExpiry r => exact ⟨_, rfl, whenDue_keeps _ _ s fun _ => (clearTimerExpired_side r s).keeps⟩
  | mismatchTimerExpiry ch => exact ⟨_, rfl, whenDue_keeps _ _ s fun _ => latchFault_keeps ch s⟩
  | driverSilenceExpiry st => exact ⟨_, rfl, whenDue_keeps _ _ s fun _ => driverSilent_keeps st s⟩
  | refreshTimerExpiry st => exact ⟨_, rfl, whenDue_keeps _ _ s fun _ => (dueSig_side st s).keeps⟩
  | syncTimerExpiry => exact ⟨_, rfl, whenDue_keeps _ _ s fun _ => syncExpired_keeps s⟩
  | quietTimerExpiry =>
    exact ⟨_, rfl, whenDue_keeps _ _ s fun _ => (ring_keeps s _).trans (setQuiet_keeps true _)⟩
  | sendingEnd =>
    refine ⟨_, rfl, ?_⟩
    split
    · exact (ring_keeps s _).trans (endEvent_keeps _)
    · exact .refl s

/-! ### The ring behind each command -/

theorem orderLane_ring (f : LaneRec → Bool → LaneCtx → LaneCtx) (l : Lane) (s : State) :
    (orderLane f l s).ring = s.ring := by
  unfold orderLane; split
  · unfold putLane; split
    · exact (setAspect_side _ _ _).ring
    · rfl
  · rfl

theorem debounced_ring (l : Line) (s : State) : (debounced l s).ring = s.ring :=
  (RampSide.forRamps _ judgeLines_side _).ring

theorem latchFault_ring (ch : OutCh) (s : State) : (latchFault ch s).ring = s.ring := (attentionOwner_side ch _).ring

theorem driverSilent_ring (st : Nat) (s : State) : (driverSilent st s).ring = s.ring :=
  (LaneSide.forEach _ _ (silenceLatch_side st) _).ring

theorem setQuiet_ring (v : Bool) (s : State) : (setQuiet v s).ring = { s.ring with quiet := v } := by
  unfold setQuiet; split
  · next h => rw [← h]
  · rfl

theorem quietExpired_stores (s : State) (h : s.ring.Stores) : (quietExpired s).ring.Stores := by
  unfold quietExpired; rw [setQuiet_ring]
  exact ⟨h.forward, h.rsps, h.sigs, h.oneSig, h.waits, h.run, h.bad, h.overflow, h.discard⟩

theorem sendingEnded_stores {s : State} (h : s.ring.Stores) : (sendingEnded s).ring.Stores :=
  ⟨h.forward, h.rsps, h.sigs, h.oneSig, h.waits, h.run, h.bad, h.overflow, h.discard⟩

theorem powerOn_ring (straps : BitVec 6) (s : State) : (powerOn straps s).ring.Ok :=
  ⟨⟨Nat.zero_le _, Nat.zero_le _, Nat.zero_le _, List.nodup_nil, fun e => absurd rfl e, Nat.zero_le _, Nat.zero_le _,
    Nat.zero_le _, Nat.zero_le _⟩, fun _ => ⟨rfl, rfl⟩⟩

/-- The ring behind an expiry whose own effect leaves it alone. -/
theorem whenDue_ring_same (left : Option Nat) (f : State → State) (s : State) (h : s.ring.Ok)
    (hf : left = some 0 → (f s).ring = s.ring) : (whenDue left f s).ring.Ok :=
  whenDue_ring left f s h fun e => by rw [hf e]; exact h.stores

/-- Every command leaves the ring's stores in order, with no frame waiting at a free port. -/
theorem exec_ring (c : Instr) (s t : State) (h : s.ring.Ok) (e : exec c s = .next t) : t.ring.Ok := by
  cases c <;> injection e with e <;> subst e
  case powerOnReset straps => exact powerOn_ring straps s
  case frameArrival bytes => exact arrival_ring _ s h.stores
  case runReset => exact request_ring _ _ _ s h
  case identify => exact request_ring _ _ _ s h
  case tableWrite => exact request_ring _ _ _ s h
  case tableRead => exact request_ring _ _ _ s h
  case tableClear => exact request_ring _ _ _ s h
  case tableCheck => exact request_ring _ _ _ s h
  case rampModeAuto => exact request_ring _ _ _ s h
  case rampModeOff => exact request_ring _ _ _ s h
  case arm => exact request_ring _ _ _ s h
  case assertSource => exact request_ring _ _ _ s h
  case releaseSource => exact request_ring _ _ _ s h
  case status => exact request_ring _ _ _ s h
  case detectors => exact request_ring _ _ _ s h
  case counts => exact request_ring _ _ _ s h
  case clearFault => exact request_ring _ _ _ s h
  case filterTimerExpiry ch => exact whenDue_ring_same _ _ s h fun _ => (changeChannel_side ch _ s).ring
  case silenceTimerExpiry ch => exact whenDue_ring_same _ _ s h fun _ => (changeChannel_side ch _ s).ring
  case stuckTimerExpiry ch => exact whenDue_ring_same _ _ s h fun _ => (changeChannel_side ch _ s).ring
  case windowClose => exact whenDue_ring_same _ _ s h fun _ => windowClose_ring s
  case warnExpiry r => exact whenDue_ring_same _ _ s h fun _ => (warnExpired_side r s).ring
  case startGreenExpiry r => exact whenDue_ring_same _ _ s h fun _ => (startGreenExpired_side r s).ring
  case startRedExpiry r => exact whenDue_ring_same _ _ s h fun _ => (startRedExpired_side r s).ring
  case shutdownFlushExpiry r => exact whenDue_ring_same _ _ s h fun _ => (shutFlushExpired_side r s).ring
  case holdExpiry r => exact whenDue_ring_same _ _ s h fun _ => (holdExpired_side r s).ring
  case leaseExpiry r c => exact whenDue_ring_same _ _ s h fun _ => (endLease_side r _ s (centralSource_ne c)).ring
  case onTimerExpiry ch => exact whenDue_ring_same _ _ s h fun _ => (onTimerExpired_side ch s).ring
  case clearTimerExpiry r => exact whenDue_ring_same _ _ s h fun _ => (clearTimerExpired_side r s).ring
  case startYellowExpiry r => exact whenDue_ring_same _ _ s h fun e => (startYellowExpired_side r s (phaseLeft_state e).1).ring
  case slotBoundary r => exact whenDue_ring_same _ _ s h fun e => (slotBoundary_side r s (slotLeft_state e)).ring
  case delayEnd l => exact whenDue_ring_same _ _ s h fun _ => orderLane_ring _ l s
  case maximumGreen l => exact whenDue_ring_same _ _ s h fun _ => orderLane_ring _ l s
  case minimumGreenPoint l => exact whenDue_ring_same _ _ s h fun _ => orderLane_ring _ l s
  case yellowEnd l => exact whenDue_ring_same _ _ s h fun _ => orderLane_ring _ l s
  case redEnd l => exact whenDue_ring_same _ _ s h fun _ => (laneRedEnd_side l s).ring
  case lineInputChange l v => exact h
  case debounceExpiry l => exact whenDue_ring_same _ _ s h fun _ => debounced_ring l s
  case mismatchTimerExpiry ch => exact whenDue_ring_same _ _ s h fun _ => latchFault_ring ch s
  case driverSilenceExpiry st => exact whenDue_ring_same _ _ s h fun _ => driverSilent_ring st s
  case refreshTimerExpiry st => exact whenDue_ring_same _ _ s h fun _ => (dueSig_side st s).ring
  case syncTimerExpiry => exact whenDue_ring_same _ _ s h fun _ => rfl
  case quietTimerExpiry => exact whenDue_ring _ _ s h fun _ => quietExpired_stores s h.stores
  case sendingEnd =>
    split
    · exact endEvent_ring (sendingEnded_stores h.stores)
    · exact h

end Sys2Proof.Machine
end

