-- ==== Sys2Proof/Laws/Served.lean ====
section
/-! SUPPORT. A served request from its row to its reply, in pieces: the row as an arrival, the request its bytes make,
the index and record of a table request, and what the ramp requests leave in a ramp's context. The state that has heard
the frame (`heard s`) is best generalised before a reply is unfolded: it is a large term. -/

namespace Sys2Proof.Machine

/-! ### From the row to the reply -/

/-- A management row is the request of its sender, code and field bytes. -/
theorem requestRow_exec {c : Instr} {src : Nat} {code : Byte} {fields : List Byte}
    (h : requestRow c = some (src, code, fields)) (s : State) : exec c s = .next (request src code fields s) := by
  cases c <;> simp only [requestRow, Option.some.injEq, Prod.mk.injEq, reduceCtorEq] at h <;>
    (obtain ⟨rfl, rfl, rfl⟩ := h; rfl)

/-- A well-formed row has a sender and fits a frame. -/
theorem requestRow_fits {c : Instr} {src : Nat} {code : Byte} {fields : List Byte} (hw : c.wellFormed = true)
    (h : requestRow c = some (src, code, fields)) : stationOk src = true ∧ fields.length ≤ 47 := by
  cases c <;> simp only [requestRow, Option.some.injEq, Prod.mk.injEq, reduceCtorEq] at h <;>
    (obtain ⟨rfl, rfl, rfl⟩ := h; unfold Instr.wellFormed at hw) <;> try exact ⟨hw, by simp [be16]⟩
  rw [Bool.and_eq_true] at hw
  refine ⟨hw.1, ?_⟩
  have := hw.2
  unfold recordFits at this
  simp at this ⊢
  omega

/-- A served request answers with the reply its handling gives. -/
theorem served {own src : Nat} {s : State} (h : Serves own src s) (code : Byte) (fields : List Byte)
    (hl : fields.length ≤ 47) (x : Reply) (hx : handle own code.toNat fields (heard s) = x) :
    Host.Outcome.next (request src code fields s)
      = (.next (respond src (code :: fields) x) : Host.Outcome State Fault Refusal) := by
  rw [request_served h _ _ hl, hx]

theorem heard_tables (s : State) : (heard s).tables = s.tables := (heard_frame s).1

theorem heard_drivers (s : State) : (heard s).out.drivers = s.out.drivers := by
  unfold heard
  rw [(settle_side _).drivers]
  unfold setQuiet; split <;> rfl

/-- An accepted frame at a part with a station address, by its disposal. -/
theorem arrival_active {own : Nat} {b : List Byte} {f : Frame} {s : State} (ha : s.station = some own)
    (hf : acceptFrame b = some f) : arrival b s = if f.src = own then endEvent (heard s)
      else if f.dst = own then consume own f (heard s)
      else if f.dst = 0 then broadcast b f (heard s)
      else forwardOn b (endEvent (heard s)) := by
  unfold arrival; rw [hf]; dsimp only; unfold dispose; rw [heard_station, ha]

theorem consume_cmd (own : Nat) (f : Frame) (s : State) (h : f.kind = 5) :
    consume own f s = executeCmd own f.src f.payload s := by
  unfold consume; rw [h]; rfl

/-! ### The request that the bytes make -/

theorem handle_identify (own : Nat) (s : State) : handle own (1 : Byte).toNat [] s = identify own s := rfl

theorem handle_tableWrite (own : Nat) (t i : Byte) (l : List Byte) (s : State) :
    handle own (2 : Byte).toNat (t :: i :: l) s = tableWrite t i l s := rfl

theorem handle_tableRead (own : Nat) (t i : Byte) (s : State) :
    handle own (3 : Byte).toNat [t, i] s = tableRead t i s := rfl

theorem handle_tableClear (own : Nat) (t i : Byte) (s : State) :
    handle own (4 : Byte).toNat [t, i] s = tableClear t i s := rfl

theorem handle_tableCheck (own : Nat) (t : Byte) (s : State) :
    handle own (5 : Byte).toNat [t] s = tableCheck t s := rfl

theorem handle_rampMode (own : Nat) (r m : Byte) (s : State) :
    handle own (6 : Byte).toNat [r, m] s = rampMode r m s := rfl

theorem handle_arm (own : Nat) (r k v : Byte) (s : State) :
    handle own (7 : Byte).toNat [r, k, v] s = armRequest r k v s := rfl

theorem num16_be16 (l : BitVec 16) : num16 (BitVec.ofNat 8 (l.toNat / 256)) (BitVec.ofNat 8 l.toNat) = l.toNat := by
  unfold num16; simp; omega

theorem handle_assert (own : Nat) (r k : Byte) (l : BitVec 16) (s : State) :
    handle own (8 : Byte).toNat ([r, k] ++ be16 l.toNat) s = assertRequest r k l.toNat s := by
  show assertRequest _ _ (num16 _ _) _ = _
  rw [num16_be16]

theorem handle_release (own : Nat) (r k : Byte) (s : State) :
    handle own (9 : Byte).toNat [r, k] s = releaseRequest r k s := rfl

theorem handle_status (own : Nat) (r x : Byte) (s : State) :
    handle own (10 : Byte).toNat [r, x] s = statusRequest r x s := rfl

theorem handle_detectors (own : Nat) (f n : Byte) (s : State) :
    handle own (11 : Byte).toNat [f, n] s = detectorsRequest f n s := rfl

theorem handle_counts (own : Nat) (r : Byte) (s : State) :
    handle own (12 : Byte).toNat [r] s = countsRequest r s := rfl

theorem handle_clearFault (own : Nat) (r : Byte) (s : State) :
    handle own (13 : Byte).toNat [r] s = clearFaultRequest r s := rfl

theorem handle_runReset (own : Nat) (s : State) : handle own (14 : Byte).toNat [] s = runResetRequest s := rfl

/-! ### Operands written from their values -/

theorem asFin_byte {n : Nat} (k : Fin n) (h : n ≤ 256) : asFin n (byte k.val).toNat = some k := by
  rw [byte_toNat (by omega)]; unfold asFin; rw [dif_pos k.isLt]

theorem asBool_byte (v : Bool) : asBool (boolByte v) = some v := by cases v <;> rfl

theorem onRamp_byte (r : Ramp) (s : State) (f : Ramp → Reply) : onRamp (byte r.val) s f = f r := by
  unfold onRamp; rw [asFin_byte r (by decide)]

theorem onRamp_above {b : Byte} (h : 4 ≤ b.toNat) (s : State) (f : Ramp → Reply) :
    onRamp b s f = refuse .badIndex s := by
  unfold onRamp asFin; rw [dif_neg (by omega)]

theorem centralOf_none {a : Byte} (h : a ≠ 3 ∧ a ≠ 5) : centralOf a = none := by
  unfold centralOf; split
  · next e => exact absurd (BitVec.eq_of_toNat_eq e) h.1
  · next e => exact absurd (BitVec.eq_of_toNat_eq e) h.2
  · rfl

/-! ### Table requests -/

theorem atIndex_byte {n : Nat} (lo : Nat) (k : Fin n) (h : n + lo ≤ 256) (s : State) (f : Fin n → Result × State) :
    atIndex lo (byte (k.val + lo)).toNat s f = f k := by
  unfold atIndex; rw [byte_toNat (by omega), if_neg (by omega)]
  have : asFin n (k.val + lo - lo) = some k := by unfold asFin; rw [dif_pos (by omega)]; simp
  rw [this]

theorem atIndex_byte0 {n : Nat} (k : Fin n) (h : n ≤ 256) (s : State) (f : Fin n → Result × State) :
    atIndex 0 (byte k.val).toNat s f = f k := atIndex_byte 0 k h s f

theorem atIndex_out {n : Nat} (lo i : Nat) (s : State) (f : Fin n → Result × State) (h : i < lo ∨ n + lo ≤ i) :
    atIndex lo i s f = (.badIndex, s) := by
  unfold atIndex asFin; split
  · rfl
  · rw [dif_neg (by omega)]

theorem writeTested_done {α : Type} {rec : Option α} {c l : α → Bool} {put : Option α → State → State} {s : State}
    {d : α} (h : rec = some d) (hc : c d = false) (hl : l d = false) :
    writeTested rec c l put s = (.done, put (some d) s) := by
  unfold writeTested; rw [h]; dsimp only; rw [hc, hl]; rfl

theorem writeTested_bad {α : Type} {rec : Option α} {c l : α → Bool} {put : Option α → State → State} {s : State}
    (h : rec = none) : writeTested rec c l put s = (.badValue, s) := by
  unfold writeTested; rw [h]

theorem writeTested_locked {α : Type} {rec : Option α} {c l : α → Bool} {put : Option α → State → State} {s : State}
    {d : α} (h : rec = some d) (hc : c d = false) (hl : l d = true) :
    writeTested rec c l put s = (.inUse, s) := by
  unfold writeTested; rw [h]; dsimp only; rw [hc, hl]; rfl

theorem notInUse {s : State} {r : Ramp} (h : (s.ramps[r]).state = .off) : inUse s r = false := by
  unfold inUse; rw [h]; rfl

/-- A TABLE WRITE whose shape passes, with the outcome of its table. -/
theorem tableWrite_of {t i : Byte} {record : List Byte} {s u : State} {e : Result} (hs : shapeOk t.toNat record = true)
    (hw : writeTable t.toNat i.toNat record s = (e, u)) : tableWrite t i record s = replyOf t i (e, u) := by
  unfold tableWrite; rw [if_pos hs, hw]

theorem mem_indicesOf (t i : Nat) : i ∈ indicesOf t ↔ ∃ lo hi, indexRange t = some (lo, hi) ∧ lo ≤ i ∧ i ≤ hi := by
  unfold indicesOf
  split
  · next lo hi h =>
    rw [h]
    simp only [List.mem_map, List.mem_range, Option.some.injEq, Prod.mk.injEq]
    constructor
    · rintro ⟨a, ha, rfl⟩; exact ⟨lo, hi, ⟨rfl, rfl⟩, by omega, by omega⟩
    · rintro ⟨_, _, ⟨rfl, rfl⟩, h1, h2⟩; exact ⟨i - lo, by omega, by omega⟩
  · next h => rw [h]; simp

theorem indexOk_iff (t i : Nat) : indexOk t i = true ↔ ∃ lo hi, indexRange t = some (lo, hi) ∧ lo ≤ i ∧ i ≤ hi := by
  unfold indexOk; rw [decide_eq_true_eq, mem_indicesOf]

theorem setRecords_count (t : Tables) (table : Nat) : (setRecords t table).length
    = ((indicesOf table).filter fun i => (storedRecord t table i).isSome).length := by
  unfold setRecords
  induction indicesOf table with
  | nil => rfl
  | cons a l ih =>
    simp only [List.filterMap_cons, List.filter_cons]
    cases storedRecord t table a <;> simp [ih]

/-! ### A ramp's context through the ramp requests -/

theorem modRamp_get (r : Ramp) (f : RampCtx → RampCtx) (s : State) : (s.modRamp r f).ramps[r] = f s.ramps[r] := by
  rw [State.modRamp_ramps, vset_same]

theorem LaneSide.mode {s t : State} (a : LaneSide s t) (q : Ramp) : (t.ramps[q]).mode = (s.ramps[q]).mode := by
  rcases a.ramps q with e | e <;> rw [e]

theorem judge_mode (r : Ramp) (s : State) : ((judge r s).ramps[r]).mode = (s.ramps[r]).mode := by
  unfold judge; rw [(attentionIf_side _ r _).mode, modRamp_get]

theorem enter_mode (r : Ramp) (st : RampState) (ph : Option ClearPhase) (tm : Timer) (s : State) :
    ((enter r st ph tm s).ramps[r]).mode = (s.ramps[r]).mode := by
  unfold enter
  rw [(commandBeacon_side r _ _).mode, modRamp_get, leaveMetering_ramp]
  dsimp only; split <;> rfl

theorem enter_attention (r : Ramp) (st : RampState) (ph : Option ClearPhase) (tm : Timer) (s : State) :
    ((enter r st ph tm s).ramps[r]).attention = true := by
  unfold enter
  exact (commandBeacon_side r _ _).ramp.attention r (by rw [modRamp_get])

theorem arbitrateRamp_mode (r : Ramp) (s : State) : ((arbitrateRamp r s).1.ramps[r]).mode = (s.ramps[r]).mode := by
  unfold arbitrateRamp; dsimp only; rw [(attentionIf_side _ r _).mode, State.setAuth_ramps]

theorem enterOff_ramp (r : Ramp) (s : State) : (enterOff r s).ramps[r]
    = RampCtx.enterOff ((orderDark r (enter r .off none .stopped s)).ramps[r]) := by
  unfold enterOff
  generalize orderDark r (enter r .off none .stopped s) = t
  dsimp only
  rw [State.setAuth_ramps, State.setVector_ramps, modRamp_get]

theorem enterOff_mode (r : Ramp) (s : State) : ((enterOff r s).ramps[r]).mode = (s.ramps[r]).mode := by
  rw [enterOff_ramp]
  show ((orderDark r _).ramps[r]).mode = _
  rw [(orderDark_side r _).mode, enter_mode]

theorem enterOff_state (r : Ramp) (s : State) : ((enterOff r s).ramps[r]).state = .off := by
  rw [enterOff_ramp]
  show ((orderDark r _).ramps[r]).state = _
  rw [(orderDark_side r _).state, enter_state]

theorem standbyActs_mode (r : Ramp) (s : State) : ((standbyActs r s).ramps[r]).mode = (s.ramps[r]).mode := by
  unfold standbyActs enterWarn; split
  · rw [enter_mode]
  · rfl

theorem standbyActs_state (r : Ramp) (s : State) (h : (s.ramps[r]).state = .standby) :
    ((standbyActs r s).ramps[r]).state = .standby ∨ ((standbyActs r s).ramps[r]).state = .warn := by
  unfold standbyActs enterWarn; split
  · exact Or.inr (enter_state _ _ _ _ _)
  · exact Or.inl h

/-! ### A source's record through the authority requests -/

theorem setSource_same (a : AuthUnit) (k : Source) (x : SourceRec) : (a.setSource k x).sources[k] = x := by
  unfold AuthUnit.setSource; simp only [vset_same]

theorem setSource_setSource (a : AuthUnit) (k : Source) (x y : SourceRec) :
    (a.setSource k x).setSource k y = a.setSource k y := by
  unfold AuthUnit.setSource; simp only [vset_vset]

theorem setAuth_setAuth (s : State) (r : Ramp) (x y : AuthUnit) : (s.setAuth r x).setAuth r y = s.setAuth r y := by
  unfold State.setAuth; simp only [vset_vset]

theorem setLease_auth (r : Ramp) (k : Source) (v : Option Nat) (s : State) :
    (setLease r k v s).auth[r] = (s.auth[r]).setSource k { (s.auth[r]).sources[k] with lease := v } := by
  unfold setLease; rw [State.setAuth_auth, vset_same]

/-- A lease written and the asserted field given a value, as one change of the source's record: an assertion, or a
deassertion at no moment of the source's own expiry (R111). -/
theorem setAsserted_setLease (r : Ramp) (k : Source) (v : Option Nat) (b : Bool) (s : State)
    (h : b = true ∨ (s.auth[r]).holdAtZero k = false) :
    setAsserted r k b (setLease r k v s) = if ((s.auth[r]).sources[k]).asserted = b then setLease r k v s
      else sourceChanged r k (s.setAuth r ((s.auth[r]).setSource k { (s.auth[r]).sources[k] with
        lease := v, asserted := b, spent := ((s.auth[r]).sources[k]).spent && b })) := by
  unfold setAsserted
  have e : ((setLease r k v s).auth[r]).sources[k] = { (s.auth[r]).sources[k] with lease := v } := by
    rw [setLease_auth, setSource_same]
  have z : expireFirst r k b (setLease r k v s) = setLease r k v s := by
    unfold expireFirst
    rw [if_neg]
    rcases h with h | h
    · rw [h]; simp
    · have : ((setLease r k v s).auth[r]).holdAtZero k = false := by
        unfold AuthUnit.holdAtZero at h ⊢
        rw [e, setLease_auth]; exact h
      rw [this]; simp
  rw [e, z]
  dsimp only
  split
  · rfl
  · unfold changeAsserted AuthUnit.setAsserted
    rw [e, setLease_auth, setSource_setSource]
    unfold setLease
    rw [setAuth_setAuth]

end Sys2Proof.Machine
end

