-- ==== Sys2Proof/Laws/Events.lean ====
section
/-! SUPPORT. What the timed events, the resets and the lane orders leave in the records they touch, record by record. -/

namespace Sys2Proof.Machine

/-- An event that is due runs and ends. -/
theorem whenDue_due {left : Option Nat} (h : left = some 0) (f : State → State) (s : State) :
    whenDue left f s = endEvent (f s) := by
  unfold whenDue; rw [if_pos h]

/-- What a ramp does leaves tables, detectors, lines, time and the ring undisturbed. -/
theorem RampCore.undisturbed {s t : State} (a : RampCore s t) : Undisturbed s t :=
  ⟨a.pending, a.stride, a.freeCount, a.tables, a.det, a.lines, a.time, a.ring⟩

/-! ### Detector channels -/

theorem changeChannel_get (ch : Channel) (f : DetState → DetState) (s : State) :
    (changeChannel ch f s).det.elapsed = s.det.elapsed ∧ (changeChannel ch f s).det.lastElapsed = s.det.lastElapsed
    ∧ (changeChannel ch f s).det.chans[ch] = f s.det.chans[ch]
    ∧ ∀ c : Channel, c ≠ ch → (changeChannel ch f s).det.chans[c] = s.det.chans[c] := by
  rw [changeChannel_det, State.setChan_det]
  refine ⟨rfl, rfl, ?_, fun c hc => ?_⟩
  · dsimp only; rw [vset_get, if_pos rfl]
  · dsimp only; rw [vset_get, if_neg (Ne.symm hc)]

theorem applyDpr_get (st : Nat) (inputs : List Byte) (s : State) :
    (applyDpr st inputs s).det.elapsed = s.det.elapsed ∧ (applyDpr st inputs s).det.lastElapsed = s.det.lastElapsed
    ∧ ∀ ch : Channel, (applyDpr st inputs s).det.chans[ch] = (match s.tables.detMap[ch] with
      | some d =>
        if d.station = st then
          match inputs[d.input]? with
          | some b => applyReport d (b.getLsbD 0) (b.getLsbD 1) s.det.chans[ch]
          | none => s.det.chans[ch]
        else s.det.chans[ch]
      | none => s.det.chans[ch]) := by
  unfold applyDpr
  rw [(announce_side s _).det]
  refine ⟨rfl, rfl, fun ch => ?_⟩
  dsimp only
  rw [vmap_get]
  all_goals rfl

theorem applyDpr_frame (st : Nat) (inputs : List Byte) (s : State) :
    (applyDpr st inputs s).tables = s.tables ∧ (applyDpr st inputs s).time = s.time := by
  unfold applyDpr
  exact ⟨(announce_side s _).tables, (announce_side s _).time⟩

/-- The Detector Unit behind a close: chatter judged, results published, a new window (R17 to R19). -/
theorem windowClose_det (s : State) : (windowClose s).det = {
    chans := vmap (fun ch c => publish s.tables.detMap[ch] (wholeTenths s.det.elapsed) c)
      (vmap (fun ch c => judgeChatter s.tables.detMap[ch] c) s.det.chans)
    elapsed := 0
    lastElapsed := wholeTenths s.det.elapsed } := by
  have a : ∀ t : State, (forRamps rateClose (forRamps selectPlan t)).det = t.det := fun t =>
    ((RampSide.forRamps _ selectPlan_side t).trans (.forRamps _ rateClose_side _)).det
  have b : ∀ t : State, (chatterStep t).det = { t.det with
      chans := vmap (fun ch c => judgeChatter t.tables.detMap[ch] c) t.det.chans }
      ∧ (chatterStep t).tables = t.tables := fun t =>
    ⟨(announce_side t _).det, (announce_side t _).tables⟩
  unfold windowClose
  rw [a]
  unfold rollCounts publishStep
  dsimp only
  rw [(b _).1, (b _).2]

/-! ### Resets -/

theorem runReset_chan (s : State) (ch : OutCh) : (runResetState s).out.chans[ch] = OutChan.reset := by
  unfold runResetState OutUnit.runReset; dsimp only; rw [vmap_get]

theorem runReset_line (s : State) (l : Line) : (runResetState s).lines[l] = LineState.reset (s.lines[l]).input := by
  unfold runResetState; dsimp only; rw [vmap_get]

theorem runReset_auth (s : State) (r : Ramp) : (runResetState s).auth[r] = AuthUnit.reset := by
  unfold runResetState State.reset; dsimp only; rw [replicate_get]

theorem runReset_ramp (s : State) (r : Ramp) : (runResetState s).ramps[r] = RampCtx.reset := by
  unfold runResetState State.reset; dsimp only; rw [replicate_get]

theorem runReset_drivers (s : State) :
    (runResetState s).out.drivers = s.out.drivers.map fun d => ⟨d.station, .stopped, .running 0⟩ := by
  unfold runResetState OutUnit.runReset; rfl

theorem runReset_due (s : State) : (runResetState s).out.sigDue = s.out.drivers.map (·.station) := by
  unfold runResetState OutUnit.runReset; rfl

theorem runReset_frame (s : State) : (runResetState s).det = State.reset.det
    ∧ (runResetState s).vectors = State.reset.vectors ∧ (runResetState s).rate = State.reset.rate
    ∧ (runResetState s).ramps = State.reset.ramps ∧ (runResetState s).lanes = State.reset.lanes
    ∧ (runResetState s).auth = State.reset.auth ∧ (runResetState s).onTimers = State.reset.onTimers
    ∧ (runResetState s).time.corridor = s.time.corridor ∧ (runResetState s).time.locked = false
    ∧ (runResetState s).time.syncTimer = .stopped ∧ (runResetState s).tables = s.tables
    ∧ (runResetState s).pending = s.pending ∧ (runResetState s).ring = s.ring.runReset := by
  unfold runResetState State.reset
  exact ⟨rfl, rfl, rfl, rfl, rfl, rfl, rfl, rfl, rfl, rfl, rfl, rfl, rfl⟩

/-- A part that has run reset is calm. -/
theorem runReset_calm (s : State) : Calm (runResetState s) := by
  refine ⟨by unfold runResetState RingUnit.runReset; rfl, fun ch => ?_, fun d hd => ?_, fun r => ?_⟩
  · rw [runReset_chan]; rfl
  · rw [runReset_drivers] at hd
    obtain ⟨x, _, rfl⟩ := List.mem_map.1 hd
    simp
  · rw [runReset_auth]; rfl

theorem flushSigs_flags (s : State) : rspFlags (flushSigs s) = rspFlags s := by
  rw [(flushSigs_side s).frame]; rfl

theorem runReset_flags (s : State) : rspFlags (runResetState s) = 0 := by
  unfold rspFlags; simp only [runReset_ramp]; unfold runResetState; rfl

/-- The response of a RUN RESET stands behind the SIGs of the reset, with no attention and FREE. -/
theorem runReset_respond (src : Nat) (s : State) : respond src [14] (runResetRequest s)
    = pump (appendRsp src [14, 0, 0] (flushSigs (runResetState s))) := by
  unfold respond runResetRequest answer; dsimp only
  rw [(runReset_calm s).settle]
  unfold rspPayload
  rw [flushSigs_flags, runReset_flags]; rfl

theorem powerOn_line (straps : BitVec 6) (s : State) (l : Line) :
    (powerOn straps s).lines[l] = LineState.reset (s.lines[l]).input := by
  unfold powerOn; dsimp only; rw [vmap_get]

/-! ### Output channels -/

theorem attentionOwner_rest (ch : OutCh) (s : State) :
    (attentionOwner ch s).lanes = s.lanes ∧ (attentionOwner ch s).out = s.out := by
  unfold attentionOwner; split <;> exact ⟨rfl, rfl⟩

theorem latchFault_get (ch : OutCh) (s : State) : (latchFault ch s).lanes = s.lanes
    ∧ (latchFault ch s).out.chans[ch] = { s.out.chans[ch] with fault := true, mismatch := .stopped }
    ∧ ∀ c : OutCh, c ≠ ch → (latchFault ch s).out.chans[c] = s.out.chans[c] := by
  unfold latchFault
  rw [(attentionOwner_rest ch _).1, (attentionOwner_rest ch _).2]
  refine ⟨rfl, ?_, fun c hc => ?_⟩
  · rw [State.setOut_out]; dsimp only; rw [vset_get, if_pos rfl]
  · rw [State.setOut_out]; dsimp only; rw [vset_get, if_neg (Ne.symm hc)]

theorem judgeSilence_get (ch : OutCh) (s : State) : (judgeSilence ch s).lanes = s.lanes
    ∧ (∀ c : OutCh, ((judgeSilence ch s).out.chans[c]).commanded = (s.out.chans[c]).commanded)
    ∧ ∀ c : OutCh, c ≠ ch → (judgeSilence ch s).out.chans[c] = s.out.chans[c] := by
  unfold judgeSilence
  split
  · split
    · have h := latchFault_get ch s
      refine ⟨h.1, fun c => ?_, h.2.2⟩
      by_cases hc : c = ch
      · subst hc; rw [h.2.1]
      · rw [h.2.2 c hc]
    · exact ⟨rfl, fun _ => rfl, fun _ _ => rfl⟩
  · exact ⟨rfl, fun _ => rfl, fun _ _ => rfl⟩

theorem judgeMismatch_get (ch : OutCh) (s : State) : (judgeMismatch ch s).lanes = s.lanes
    ∧ (∀ c : OutCh, ((judgeMismatch ch s).out.chans[c]).commanded = (s.out.chans[c]).commanded)
    ∧ ∀ c : OutCh, c ≠ ch → (judgeMismatch ch s).out.chans[c] = s.out.chans[c] := by
  unfold judgeMismatch
  refine ⟨rfl, fun c => ?_, fun c hc => ?_⟩
  · rw [State.setOut_out]; dsimp only; rw [vset_get]; split
    · next e => subst e; rfl
    · rfl
  · rw [State.setOut_out]; dsimp only; rw [vset_get, if_neg (Ne.symm hc)]

theorem judgeMismatch_fault (ch c : OutCh) (s : State) :
    ((judgeMismatch ch s).out.chans[c]).fault = (s.out.chans[c]).fault := by
  unfold judgeMismatch
  rw [State.setOut_out]; dsimp only; rw [vset_get]; split
  · next e => subst e; rfl
  · rfl

/-- A commanded aspect written: that channel shows it, no lane moves (R129). -/
theorem setAspect_get (ch : OutCh) (a : Aspect) (s : State) : (setAspect ch a s).lanes = s.lanes
    ∧ ((setAspect ch a s).out.chans[ch]).commanded = a
    ∧ ∀ c : OutCh, c ≠ ch → (setAspect ch a s).out.chans[c] = s.out.chans[c] := by
  unfold setAspect
  split
  · next h => exact ⟨rfl, h, fun _ _ => rfl⟩
  · have d : ∀ t : State, (dueSigOf ch t).lanes = t.lanes ∧ (dueSigOf ch t).out.chans = t.out.chans := by
      intro t; unfold dueSigOf; split <;> exact ⟨rfl, rfl⟩
    have j : ∀ (b : Aspect) (t : State), (judgeLit b ch t).lanes = t.lanes
        ∧ (∀ c : OutCh, ((judgeLit b ch t).out.chans[c]).commanded = (t.out.chans[c]).commanded)
        ∧ ∀ c : OutCh, c ≠ ch → (judgeLit b ch t).out.chans[c] = t.out.chans[c] := by
      intro b t; unfold judgeLit; split
      · exact judgeSilence_get ch t
      · exact ⟨rfl, fun _ => rfl, fun _ _ => rfl⟩
    refine ⟨?_, ?_, fun c hc => ?_⟩
    · rw [(j _ _).1, (judgeMismatch_get ch _).1, (d _).1, State.setOut_lanes]
    · rw [(j _ _).2.1, (judgeMismatch_get ch _).2.1, (d _).2, State.setOut_out]; dsimp only; rw [vset_get, if_pos rfl]
    · rw [(j _ _).2.2 c hc, (judgeMismatch_get ch _).2.2 c hc, (d _).2, State.setOut_out]
      dsimp only; rw [vset_get, if_neg (Ne.symm hc)]

/-- A station whose drivers have not expired is not silent. -/
theorem silentStation_false {o : OutUnit} (h : ∀ d ∈ o.drivers, d.silence ≠ .expired) (st : Nat) :
    silentStation o st = false := by
  by_contra hc
  obtain ⟨d, hm, he⟩ := silentStation_spec (by simpa using hc)
  exact h d hm he

theorem clearLatched_get (ch : OutCh) (s : State) (hd : ∀ d ∈ s.out.drivers, d.silence ≠ .expired) :
    (clearLatched ch s).lanes = s.lanes
    ∧ ∀ c : OutCh, ((clearLatched ch s).out.chans[c]).fault = if c = ch then false else (s.out.chans[c]).fault := by
  unfold clearLatched
  split
  · have e1 : (unlatch ch s).out = (s.setOut ch { s.out.chans[ch] with fault := false }).out :=
      (attentionOwner_rest ch _).2
    have e0 : (unlatch ch s).lanes = s.lanes := (attentionOwner_rest ch _).1
    have e2 : judgeSilence ch (judgeMismatch ch (unlatch ch s)) = judgeMismatch ch (unlatch ch s) := by
      unfold judgeSilence; split
      · rw [silentStation_false, Bool.and_false]
        · rfl
        · show ∀ d ∈ (unlatch ch s).out.drivers, _
          rw [e1]; exact hd
      · rfl
    unfold judgeChannel
    rw [e2]
    refine ⟨((judgeMismatch_get ch _).1).trans e0, fun c => ?_⟩
    split
    · next h =>
      subst h
      rw [judgeMismatch_fault, e1, State.setOut_out]; dsimp only
      rw [vset_get, if_pos rfl]
    · next h =>
      rw [(judgeMismatch_get ch _).2.2 c h, e1, State.setOut_out]; dsimp only
      rw [vset_get, if_neg (Ne.symm h)]
  · next h =>
    refine ⟨rfl, fun c => ?_⟩
    split
    · next e => subst e; simpa using h
    · rfl

/-- CLEAR FAULT with no silent driver: the channels listed are not latched after it, and no lane moves (R136). -/
theorem clearFaults_get (l : List OutCh) (s : State) (hd : ∀ d ∈ s.out.drivers, d.silence ≠ .expired) (c : OutCh) :
    ((forEach l clearLatched s).out.chans[c]).fault = if c ∈ l then false else (s.out.chans[c]).fault := by
  induction l generalizing s with
  | nil => rfl
  | cons a l ih =>
    show ((forEach l clearLatched (clearLatched a s)).out.chans[c]).fault = _
    rw [ih _ (by rw [(clearLatched_side a s).drivers]; exact hd), (clearLatched_get a s hd).2 c]
    by_cases h1 : c ∈ l <;> by_cases h2 : c = a <;> simp [h1, h2]

/-! ### Lanes -/

theorem putLane_get (l : Lane) (x : LaneCtx) (s : State) : (putLane l x s).lanes = vset s.lanes l x := by
  unfold putLane; split
  · rw [(setAspect_get _ _ _).1, State.setLane_lanes]
  · rw [State.setLane_lanes]

/-- One lane's order: its record as the order leaves it, its head showing the aspect of its state, no other lane moved. -/
theorem orderLane_get {l : Lane} {c : LaneRec} {s : State} (f : LaneRec → Bool → LaneCtx → LaneCtx)
    (h : s.tables.laneCfg[l] = some c) :
    (orderLane f l s).lanes = vset s.lanes l (f c (effectiveOf s c.demand) s.lanes[l])
    ∧ ((orderLane f l s).out.chans[c.head]).commanded
      = laneAspect (f c (effectiveOf s c.demand) s.lanes[l]).state := by
  unfold orderLane; rw [h]; dsimp only
  refine ⟨putLane_get _ _ _, ?_⟩
  unfold putLane; rw [h]; dsimp only
  rw [(setAspect_get _ _ _).2.1]

theorem orderLane_other {l k : Lane} (hk : k ≠ l) (f : LaneRec → Bool → LaneCtx → LaneCtx) (s : State) :
    (orderLane f l s).lanes[k] = s.lanes[k] := by
  unfold orderLane; split
  · rw [putLane_get, vset_get, if_neg (Ne.symm hk)]
  · rfl

theorem orderLane_frame (f : LaneRec → Bool → LaneCtx → LaneCtx) (l : Lane) (s : State) :
    (orderLane f l s).tables = s.tables ∧ (orderLane f l s).det = s.det := by
  unfold orderLane; split
  · unfold putLane; split
    · exact ⟨(setAspect_side _ _ _).tables, (setAspect_side _ _ _).det⟩
    · exact ⟨rfl, rfl⟩
  · exact ⟨rfl, rfl⟩

/-- An order to a list that holds each lane once: each listed lane carries it out from where it stood, the others stay. -/
theorem forEach_orderLane (f : LaneRec → Bool → LaneCtx → LaneCtx) (l : List Lane) (hn : l.Nodup) (s : State) (k : Lane) :
    (k ∉ l → (forEach l (orderLane f) s).lanes[k] = s.lanes[k])
    ∧ (k ∈ l → ∀ c, s.tables.laneCfg[k] = some c →
      (forEach l (orderLane f) s).lanes[k] = f c (effectiveOf s c.demand) s.lanes[k]) := by
  induction l generalizing s with
  | nil => exact ⟨fun _ => rfl, fun h => by cases h⟩
  | cons a l ih =>
    rw [List.nodup_cons] at hn
    have i := ih hn.2 (orderLane f a s)
    have fr := orderLane_frame f a s
    refine ⟨fun h => ?_, fun h c hc => ?_⟩
    · rw [List.mem_cons, not_or] at h
      show (forEach l (orderLane f) (orderLane f a s)).lanes[k] = _
      rw [i.1 h.2, orderLane_other h.1]
    · show (forEach l (orderLane f) (orderLane f a s)).lanes[k] = _
      by_cases e : k = a
      · subst e
        rw [i.1 hn.1, (orderLane_get f hc).1, vset_get, if_pos rfl]
      · have hm := (List.mem_cons.1 h).resolve_left e
        rw [i.2 hm c (by rw [fr.1]; exact hc), orderLane_other e]
        unfold effectiveOf; rw [fr.1, fr.2]

/-- An order to a ramp's lanes. -/
theorem orderLanes_get {r : Ramp} {s : State} (hn : (lanesOf s.tables r).Nodup)
    (f : LaneRec → Bool → LaneCtx → LaneCtx) {k : Lane} (hk : k ∈ lanesOf s.tables r) {c : LaneRec}
    (hc : s.tables.laneCfg[k] = some c) :
    (orderLanes f r s).lanes[k] = f c (effectiveOf s c.demand) s.lanes[k] :=
  (forEach_orderLane f _ hn s k).2 hk c hc

/-- Entering a state moves no lane. -/
theorem enter_lanes (r : Ramp) (st : RampState) (ph : Option ClearPhase) (tm : Timer) (s : State) :
    (enter r st ph tm s).lanes = s.lanes := by
  have a : (leaveMetering r s).lanes = s.lanes := by unfold leaveMetering; split <;> rfl
  unfold enter commandBeacon
  split
  · rw [(setAspect_get _ _ _).1, State.modRamp_lanes, a]
  · rw [State.modRamp_lanes, a]

/-- Outside METERING, entering a state writes the ramp's state, phase and attention, and the beacon alone. -/
theorem enter_ramp (r : Ramp) (st : RampState) (ph : Option ClearPhase) (tm : Timer) (s : State)
    (h : (s.ramps[r]).state ≠ .metering) : (enter r st ph tm s).ramps[r]
      = { s.ramps[r] with state := st, clearPhase := ph, phaseTimer := tm, attention := true } := by
  unfold enter
  have e : ((leaveMetering r s).modRamp r fun c =>
      { c with state := st, clearPhase := ph, phaseTimer := tm, attention := true }).ramps[r]
      = { s.ramps[r] with state := st, clearPhase := ph, phaseTimer := tm, attention := true } := by
    rw [modRamp_get]; unfold leaveMetering; rw [if_neg h]
  rcases (commandBeacon_side r (beaconAspect st) ((leaveMetering r s).modRamp r fun c =>
      { c with state := st, clearPhase := ph, phaseTimer := tm, attention := true })).ramps r with k | k
  · rw [k, e]
  · rw [k, e]

end Sys2Proof.Machine
end

