-- ==== Sys2Proof/Laws/OneRamp.lean ====
section
/-! SUPPORT. What a decision of one ramp's units can do, said once (`OneRamp`): the other ramps see no more than their
attention SET, METERING is never entered and OFF never left, and the ramp's sources keep what arbitration does not
write (`AuthUnit.Kept`). One lemma for each operation, as in Laws/RampSide.lean. -/

namespace Sys2Proof.Machine

/-! ### What arbitration keeps of a source -/

/-- Asserted, armed and lease are as they were; a source that is not eligible, and stands so, gains no standing and
keeps its spent mark. -/
structure SourceRec.Kept (x y : SourceRec) : Prop where
  asserted : y.asserted = x.asserted
  armed : y.armed = x.armed
  lease : y.lease = x.lease
  resting : x.eligible = false → x.standing = false → y.standing = false ∧ y.spent = x.spent

theorem SourceRec.Kept.refl (x : SourceRec) : x.Kept x := ⟨rfl, rfl, rfl, fun _ h => ⟨h, rfl⟩⟩

theorem SourceRec.Kept.ineligible {x y : SourceRec} (a : x.Kept y) (he : x.eligible = false)
    (hs : x.standing = false) : y.eligible = false := by
  unfold SourceRec.eligible at he ⊢; rw [a.asserted, a.armed, (a.resting he hs).2]; exact he

theorem SourceRec.Kept.trans {x y z : SourceRec} (a : x.Kept y) (b : y.Kept z) : x.Kept z where
  asserted := b.asserted.trans a.asserted
  armed := b.armed.trans a.armed
  lease := b.lease.trans a.lease
  resting he hs := by
    have h := b.resting (a.ineligible he hs) (a.resting he hs).1
    exact ⟨h.1, h.2.trans (a.resting he hs).2⟩

namespace AuthUnit

/-- Every source's record is kept, and the clear timer. -/
structure Kept (a b : AuthUnit) : Prop where
  clearTimer : b.clearTimer = a.clearTimer
  sources : ∀ k : Source, (a.sources[k]).Kept b.sources[k]

namespace Kept

theorem refl (a : AuthUnit) : a.Kept a := ⟨rfl, fun _ => .refl _⟩

theorem trans {a b c : AuthUnit} (x : a.Kept b) (y : b.Kept c) : a.Kept c :=
  ⟨y.clearTimer.trans x.clearTimer, fun k => (x.sources k).trans (y.sources k)⟩

end Kept

theorem setSource_kept {a : AuthUnit} {k : Source} {x : SourceRec} (h : (a.sources[k]).Kept x) :
    a.Kept (a.setSource k x) := by
  refine ⟨rfl, fun j => ?_⟩
  rw [setSource_get]; split
  · next e => subst e; exact h
  · exact .refl _

theorem refresh_kept (a : AuthUnit) (k : Source) : a.Kept (a.refresh k) :=
  setSource_kept ⟨rfl, rfl, rfl, fun h _ => ⟨h, rfl⟩⟩

theorem refreshLower_kept (a : AuthUnit) : a.Kept a.refreshLower :=
  (((refresh_kept a 2).trans (refresh_kept _ 3)).trans (refresh_kept _ 4)).trans (refresh_kept _ 5)

theorem dropHold_kept (a : AuthUnit) (k : Source) : a.Kept (a.dropHold k) :=
  setSource_kept ⟨rfl, rfl, rfl, fun _ h => ⟨h, rfl⟩⟩

theorem dropHolds_kept (l : List Source) (a : AuthUnit) : a.Kept (a.dropHolds l) := by
  induction l generalizing a with
  | nil => exact .refl a
  | cons k l ih => exact (dropHold_kept a k).trans (ih _)

theorem prune_kept (a : AuthUnit) : a.Kept a.prune :=
  ⟨(dropHolds_kept _ a).clearTimer, (dropHolds_kept _ a).sources⟩

theorem vacate_kept (a : AuthUnit) : a.Kept a.vacate :=
  ⟨(dropHolds_kept _ a).clearTimer, (dropHolds_kept _ a).sources⟩

theorem push_kept (a : AuthUnit) (h : Source) : a.Kept (a.push h) := by
  have k : a.Kept (a.setSource h { a.sources[h] with
      hold := match (a.sources[h]).hold with
        | some (.running n) => some (.paused n)
        | o => o }) := setSource_kept ⟨rfl, rfl, rfl, fun _ e => ⟨e, rfl⟩⟩
  exact ⟨k.clearTimer, k.sources⟩

theorem suspend_kept (a : AuthUnit) : a.Kept a.suspend := by
  unfold suspend; split
  · exact .refl a
  · next h _ =>
    split
    · next hs =>
      split
      · refine setSource_kept ⟨rfl, rfl, rfl, fun _ e => ?_⟩
        rw [hs] at e; cases e
      · exact push_kept a h
    · exact dropHold_kept a h

theorem grant_kept (a : AuthUnit) (w : Source) (rec : Option ActionRec) (now : Nat) : a.Kept (a.grant w rec now) := by
  unfold grant; split
  · have k : a.Kept (a.setSource w { a.sources[w] with hold := (a.sources[w]).hold.map Hold.resume }) :=
      setSource_kept ⟨rfl, rfl, rfl, fun _ e => ⟨e, rfl⟩⟩
    exact ⟨k.clearTimer, k.sources⟩
  · have k : a.Kept (a.setSource w { a.sources[w] with hold := some (freshHold w rec) }) :=
      setSource_kept ⟨rfl, rfl, rfl, fun _ e => ⟨e, rfl⟩⟩
    exact ⟨k.clearTimer, k.sources⟩

theorem arbitrate_kept (a : AuthUnit) (rec : Source → Option ActionRec) (now : Nat) :
    a.Kept (a.arbitrate rec now).1 := by
  unfold arbitrate; dsimp only; split
  · exact (prune_kept a).trans (vacate_kept _)
  · split
    · exact prune_kept a
    · exact ((prune_kept a).trans (suspend_kept _)).trans (grant_kept _ _ _ _)

/-- The holder an arbitration leaves is its winner (R105). -/
theorem arbitrate_holder (a : AuthUnit) (rec : Source → Option ActionRec) (now : Nat) :
    (a.arbitrate rec now).1.holder = a.prune.winner := by
  unfold arbitrate; dsimp only; split
  · next h => rw [h]; rfl
  · next w h =>
    rw [h]; split
    · next e => exact e
    · unfold grant; split <;> rfl

/-- A source that is not ELIGIBLE does not hold the ramp behind an arbitration. -/
theorem arbitrate_not_holder {a : AuthUnit} {k : Source} (h : (a.sources[k]).standing = false)
    (rec : Source → Option ActionRec) (now : Nat) : (a.arbitrate rec now).1.holder ≠ some k := by
  intro e
  rw [arbitrate_holder] at e
  have := (winner_spec e).1
  rw [prune_standing, h] at this; cases this

theorem enterOff_kept (a : AuthUnit) : a.Kept a.enterOff := by
  refine ⟨rfl, fun k => ?_⟩
  have e : a.enterOff.sources[k] = { a.sources[k] with standing := false, hold := none } := by
    unfold enterOff; dsimp only; rw [vmap_get]
  rw [e]
  exact ⟨rfl, rfl, rfl, fun _ _ => ⟨rfl, rfl⟩⟩

end AuthUnit

/-! ### What a decision of one ramp leaves -/

/-- The slot of a METERING ramp: everything a boundary fixes. -/
def RampCtx.slot (c : RampCtx) : Option Adopted × Nat × Timer × Option Nat × Option Nat × Bool :=
  (c.adopted, c.patternCount, c.slotClock, c.slotLength, c.lastNominal, c.aligned)

/-- A ramp's selection: its auto plan, its candidate and its PLAN_UNSET mark. -/
def RampCtx.selection (c : RampCtx) : Nat × Option Candidate × Bool := (c.autoPlan, c.candidate, c.planUnset)

/-- An event of one ramp's units: no counting lane, no other ramp, no condition or selection of a ramp that stays in
use, and no slot of one that stays in METERING is touched. -/
structure OneRamp (r : Ramp) (s t : State) : Prop where
  side : RampCore s t
  onTimers : t.onTimers = s.onTimers
  counts : ∀ l : Lane, (t.lanes[l]).counts = (s.lanes[l]).counts ∧ (t.lanes[l]).last = (s.lanes[l]).last
  others : ∀ q : Ramp, q ≠ r → SameRamp s t q ∧ t.auth[q] = s.auth[q] ∧ t.rate[q] = s.rate[q]
    ∧ t.vectors[q] = s.vectors[q]
  slots : (t.ramps[r]).slotCount = (s.ramps[r]).slotCount ∧ (t.ramps[r]).lastSlotCount = (s.ramps[r]).lastSlotCount
  off : (s.ramps[r]).state = .off → (t.ramps[r]).state = .off ∧ (t.ramps[r]).selection = (s.ramps[r]).selection
    ∧ t.vectors[r] = s.vectors[r]
  selection : (t.ramps[r]).state ≠ .off → (s.ramps[r]).state ≠ .off
    ∧ (t.ramps[r]).selection = (s.ramps[r]).selection ∧ t.vectors[r] = s.vectors[r]
  metering : (t.ramps[r]).state = .metering → (s.ramps[r]).state = .metering ∧ (t.ramps[r]).slot = (s.ramps[r]).slot
    ∧ t.rate[r] = s.rate[r]
  left : (s.ramps[r]).state = .metering → (t.ramps[r]).state ≠ .metering → t.rate[r] = RateRec.reset
  rate : (s.ramps[r]).state ≠ .metering → t.rate[r] = s.rate[r]

/-- An arbitration of one ramp and what follows from it: beside the above, its sources are kept, and one that is not
eligible and stands so does not become the holder. -/
structure Decided (r : Ramp) (s t : State) : Prop where
  one : OneRamp r s t
  kept : (s.auth[r]).Kept t.auth[r]
  holder : ∀ k : Source, ((s.auth[r]).sources[k]).eligible = false → ((s.auth[r]).sources[k]).standing = false →
    (t.auth[r]).holder = some k → (s.auth[r]).holder = some k

theorem SameRamp.refl (s : State) (q : Ramp) : SameRamp s s q := Or.inl rfl

theorem SameRamp.trans {s t u : State} {q : Ramp} (a : SameRamp s t q) (b : SameRamp t u q) : SameRamp s u q := by
  rcases a with e | e <;> rcases b with e' | e' <;> unfold SameRamp <;> rw [e', e]
  · exact Or.inl rfl
  · exact Or.inr rfl
  · exact Or.inr rfl
  · exact Or.inr rfl

/-- What `SameRamp` says of every field but attention. -/
theorem SameRamp.field {s t : State} {q : Ramp} (a : SameRamp s t q) {α : Type} (f : RampCtx → α)
    (h : ∀ c : RampCtx, f { c with attention := true } = f c) : f t.ramps[q] = f s.ramps[q] := by
  rcases a with e | e <;> rw [e]
  exact h _

namespace OneRamp

theorem refl (r : Ramp) (s : State) : OneRamp r s s :=
  ⟨.refl s, rfl, fun _ => ⟨rfl, rfl⟩, fun q _ => ⟨.refl s q, rfl, rfl, rfl⟩, ⟨rfl, rfl⟩,
    fun h => ⟨h, rfl, rfl⟩, fun h => ⟨h, rfl, rfl⟩, fun h => ⟨h, rfl, rfl⟩, fun h h' => absurd h h', fun _ => rfl⟩

theorem trans {r : Ramp} {s t u : State} (a : OneRamp r s t) (b : OneRamp r t u) : OneRamp r s u where
  side := a.side.trans b.side
  onTimers := b.onTimers.trans a.onTimers
  counts l := ⟨(b.counts l).1.trans (a.counts l).1, (b.counts l).2.trans (a.counts l).2⟩
  others q h := ⟨(a.others q h).1.trans (b.others q h).1, (b.others q h).2.1.trans (a.others q h).2.1,
    (b.others q h).2.2.1.trans (a.others q h).2.2.1, (b.others q h).2.2.2.trans (a.others q h).2.2.2⟩
  slots := ⟨b.slots.1.trans a.slots.1, b.slots.2.trans a.slots.2⟩
  off h := by
    have x := a.off h
    have y := b.off x.1
    exact ⟨y.1, y.2.1.trans x.2.1, y.2.2.trans x.2.2⟩
  selection h := by
    have y := b.selection h
    have x := a.selection y.1
    exact ⟨x.1, y.2.1.trans x.2.1, y.2.2.trans x.2.2⟩
  metering h := by
    have y := b.metering h
    have x := a.metering y.1
    exact ⟨x.1, y.2.1.trans x.2.1, y.2.2.trans x.2.2⟩
  left h h' := by
    by_cases k : (t.ramps[r]).state = .metering
    · exact b.left k h'
    · rw [b.rate k]; exact a.left h k
  rate h := by
    have k : (t.ramps[r]).state ≠ .metering := fun e => h (a.metering e).1
    rw [b.rate k]; exact a.rate h

end OneRamp

namespace Decided

theorem refl (r : Ramp) (s : State) : Decided r s s := ⟨.refl r s, .refl _, fun _ _ _ h => h⟩

theorem trans {r : Ramp} {s t u : State} (a : Decided r s t) (b : Decided r t u) : Decided r s u :=
  ⟨a.one.trans b.one, a.kept.trans b.kept, fun k he hs h =>
    a.holder k he hs (b.holder k ((a.kept.sources k).ineligible he hs) ((a.kept.sources k).resting he hs).1 h)⟩

end Decided

/-- Lanes and aspects, where no lane counts. -/
theorem LaneSide.decided {r : Ramp} {s t : State} (a : LaneSide s t)
    (c : ∀ l : Lane, (t.lanes[l]).counts = (s.lanes[l]).counts ∧ (t.lanes[l]).last = (s.lanes[l]).last) :
    Decided r s t := by
  have same : ∀ q : Ramp, SameRamp s t q := a.ramps
  have f : ∀ {α : Type} (f : RampCtx → α), (∀ c : RampCtx, f { c with attention := true } = f c) →
      f t.ramps[r] = f s.ramps[r] := fun f h => (same r).field f h
  have st : (t.ramps[r]).state = (s.ramps[r]).state := f (·.state) fun _ => rfl
  refine ⟨⟨a.ramp.toRampCore, a.onTimers, c, fun q _ => ⟨same q, by rw [a.auth], by rw [a.rate], by rw [a.vectors]⟩,
    ⟨f (·.slotCount) fun _ => rfl, f (·.lastSlotCount) fun _ => rfl⟩,
    fun h => ⟨st.trans h, f RampCtx.selection fun _ => rfl, by rw [a.vectors]⟩,
    fun h => ⟨st ▸ h, f RampCtx.selection fun _ => rfl, by rw [a.vectors]⟩,
    fun h => ⟨st ▸ h, f RampCtx.slot fun _ => rfl, by rw [a.rate]⟩, fun h h' => absurd (st.trans h) h',
    fun _ => by rw [a.rate]⟩, ?_, fun _ _ _ h => by rw [a.auth] at h; exact h⟩
  rw [a.auth]; exact .refl _

theorem attentionIf_decided (b : Bool) (q r : Ramp) (s : State) : Decided r s (attentionIf b q s) := by
  refine (attentionIf_side b q s).decided fun l => ?_
  unfold attentionIf; split <;> exact ⟨rfl, rfl⟩

theorem commandBeacon_decided (r : Ramp) (a : Aspect) (s : State) : Decided r s (commandBeacon r a s) := by
  refine (commandBeacon_side r a s).decided fun l => ?_
  unfold commandBeacon; split
  · rw [(setAspect_get _ _ _).1]; exact ⟨rfl, rfl⟩
  · exact ⟨rfl, rfl⟩

/-- An order that counts nothing. -/
def Uncounted (f : LaneRec → Bool → LaneCtx → LaneCtx) : Prop :=
  ∀ c b x, (f c b x).counts = x.counts ∧ (f c b x).last = x.last

theorem orderLane_counts {f : LaneRec → Bool → LaneCtx → LaneCtx} (h : Uncounted f) (a : Lane) (s : State) (l : Lane) :
    ((orderLane f a s).lanes[l]).counts = (s.lanes[l]).counts
    ∧ ((orderLane f a s).lanes[l]).last = (s.lanes[l]).last := by
  unfold orderLane; split
  · rw [putLane_get, vset_get]; split
    · next e => subst e; exact h _ _ _
    · exact ⟨rfl, rfl⟩
  · exact ⟨rfl, rfl⟩

theorem forEach_counts {α : Type} (f : α → State → State)
    (h : ∀ a t (l : Lane), ((f a t).lanes[l]).counts = (t.lanes[l]).counts
      ∧ ((f a t).lanes[l]).last = (t.lanes[l]).last) (l : List α) (s : State) (k : Lane) :
    ((forEach l f s).lanes[k]).counts = (s.lanes[k]).counts ∧ ((forEach l f s).lanes[k]).last = (s.lanes[k]).last := by
  induction l generalizing s with
  | nil => exact ⟨rfl, rfl⟩
  | cons a l ih => exact ⟨(ih _).1.trans (h a s k).1, (ih _).2.trans (h a s k).2⟩

theorem orderLanes_counts {f : LaneRec → Bool → LaneCtx → LaneCtx} (h : Uncounted f) (r : Ramp) (s : State) (l : Lane) :
    ((orderLanes f r s).lanes[l]).counts = (s.lanes[l]).counts
    ∧ ((orderLanes f r s).lanes[l]).last = (s.lanes[l]).last :=
  forEach_counts _ (fun a t k => orderLane_counts h a t k) _ s l

theorem laneFlush_counts : Uncounted fun _ _ x => laneFlush x := by
  intro c b x; unfold laneFlush; dsimp only; split <;> exact ⟨rfl, rfl⟩

theorem laneGreenEnds_counts (v : Interval) (x : LaneCtx) :
    (laneGreenEnds v x).counts = x.counts ∧ (laneGreenEnds v x).last = x.last := ⟨rfl, rfl⟩

theorem laneHold_counts : Uncounted laneHold := by
  intro c b x; unfold laneHold; dsimp only; split
  all_goals try exact ⟨rfl, rfl⟩
  unfold laneCut; split
  · split <;> exact ⟨rfl, rfl⟩
  · exact ⟨rfl, rfl⟩

theorem laneReturn_counts : Uncounted fun c _ x => laneReturn c x := by
  intro c b x; unfold laneReturn; dsimp only; split
  · exact ⟨rfl, rfl⟩
  · exact ⟨rfl, rfl⟩
  · split <;> exact ⟨rfl, rfl⟩

theorem orderFlush_decided (r : Ramp) (s : State) : Decided r s (orderFlush r s) :=
  (orderFlush_side r s).decided (orderLanes_counts laneFlush_counts r s)

theorem orderHold_decided (r : Ramp) (s : State) : Decided r s (orderHold r s) :=
  (orderHold_side r s).decided (orderLanes_counts laneHold_counts r s)

theorem orderReturn_decided (r : Ramp) (s : State) : Decided r s (orderReturn r s) :=
  (orderReturn_side r s).decided (orderLanes_counts laneReturn_counts r s)

theorem orderDark_decided (r : Ramp) (s : State) : Decided r s (orderDark r s) :=
  (orderDark_side r s).decided (orderLanes_counts (f := fun _ _ x => laneDark x) (fun _ _ _ => ⟨rfl, rfl⟩) r s)

/-- A ramp's context written, its state, slot, selection and slot counts as they were. -/
theorem modRamp_decided (r : Ramp) (f : RampCtx → RampCtx) (s : State) (a : RampCore s (s.modRamp r f))
    (hs : (f s.ramps[r]).state = (s.ramps[r]).state) (hl : (f s.ramps[r]).slot = (s.ramps[r]).slot)
    (he : (f s.ramps[r]).selection = (s.ramps[r]).selection)
    (hc : (f s.ramps[r]).slotCount = (s.ramps[r]).slotCount
      ∧ (f s.ramps[r]).lastSlotCount = (s.ramps[r]).lastSlotCount) : Decided r s (s.modRamp r f) := by
  have g : (s.modRamp r f).ramps[r] = f s.ramps[r] := modRamp_get r f s
  refine ⟨⟨a, rfl, fun _ => ⟨rfl, rfl⟩, fun q hq => ⟨Or.inl ?_, rfl, rfl, rfl⟩, ?_, fun h => ?_,
    fun h => ?_, fun h => ?_, fun h h' => ?_, fun _ => rfl⟩, .refl _, fun _ _ _ h => h⟩
  · rw [State.modRamp_ramps, vset_get, if_neg hq.symm]
  · rw [g]; exact hc
  · rw [g]; exact ⟨hs.trans h, he, rfl⟩
  · rw [g] at h ⊢; exact ⟨hs ▸ h, he, rfl⟩
  · rw [g] at h ⊢; exact ⟨hs ▸ h, hl, rfl⟩
  · rw [g, hs] at h'; exact absurd h h'

/-- An authority record written. -/
theorem setAuth_one (r : Ramp) (x : AuthUnit) (s : State) (a : RampCore s (s.setAuth r x)) :
    OneRamp r s (s.setAuth r x) := by
  refine ⟨a, rfl, fun _ => ⟨rfl, rfl⟩, fun q hq => ⟨Or.inl rfl, ?_, rfl, rfl⟩, ⟨rfl, rfl⟩,
    fun h => ⟨h, rfl, rfl⟩, fun h => ⟨h, rfl, rfl⟩, fun h => ⟨h, rfl, rfl⟩, fun h h' => absurd h h', fun _ => rfl⟩
  rw [State.setAuth_auth, vset_get, if_neg hq.symm]

/-- An authority record written, its sources and clear timer kept. -/
theorem setAuth_decided (r : Ramp) (x : AuthUnit) (s : State) (a : RampCore s (s.setAuth r x))
    (k : (s.auth[r]).Kept x) (hh : ∀ k : Source, ((s.auth[r]).sources[k]).standing = false → x.holder = some k →
      (s.auth[r]).holder = some k) : Decided r s (s.setAuth r x) :=
  ⟨setAuth_one r x s a, by rw [State.setAuth_auth, vset_same]; exact k, fun k _ hs h => by
    rw [State.setAuth_auth, vset_same] at h; exact hh k hs h⟩

/-! ### Judgement and arbitration -/

theorem arbitrateRamp_decided (r : Ramp) (s : State) : Decided r s (arbitrateRamp r s).1 :=
  (setAuth_decided r _ s (setAuth_core' r _ s (fun h => AuthUnit.arbitrate_ok h _ _) (AuthUnit.arbitrate_asserted _ _ _ _))
    (AuthUnit.arbitrate_kept _ _ _) fun _ hs e => absurd e (AuthUnit.arbitrate_not_holder hs _ _)).trans (attentionIf_decided _ r r _)

theorem setRefreshLower_decided (r : Ramp) (s : State) : Decided r s (s.setAuth r (s.auth[r]).refreshLower) :=
  setAuth_decided r _ s (setRefreshLower_side r s).toRampCore (AuthUnit.refreshLower_kept _) fun _ _ h => h

theorem judge_decided (r : Ramp) (s : State) : Decided r s (judge r s) :=
  (modRamp_decided r _ s (modRamp_core r _ s (fun h => ⟨h.adopted, h.pattern, h.clock, h.length, h.nominal, h.aligned,
    h.phase, h.slots, h.lastSlots⟩) fun h => h) rfl rfl rfl ⟨rfl, rfl⟩).trans (attentionIf_decided _ r r _)

/-! ### Entering a state -/

/-- A ramp that is not OFF enters a state other than METERING. -/
theorem enter_decided (r : Ramp) (st : RampState) (ph : Option ClearPhase) (tm : Timer) (s : State)
    (hp : ph.isSome = true ↔ st = .startClear) (hm : st ≠ .metering) (ho : (s.ramps[r]).state ≠ .off) :
    Decided r s (enter r st ph tm s) := by
  have a := enter_core r st ph tm s hp
  have b : LaneSide ((leaveMetering r s).modRamp r fun c =>
      { c with state := st, clearPhase := ph, phaseTimer := tm, attention := true }) (enter r st ph tm s) :=
    commandBeacon_side r _ _
  have lm : ∀ q : Ramp, q ≠ r → (leaveMetering r s).ramps[q] = s.ramps[q] ∧ (leaveMetering r s).rate[q] = s.rate[q] := by
    intro q hq; unfold leaveMetering; split
    · refine ⟨?_, ?_⟩
      · show (vset s.ramps r _)[q] = _
        rw [vset_get, if_neg hq.symm]
      · show (vset s.rate r _)[q] = _
        rw [vset_get, if_neg hq.symm]
    · exact ⟨rfl, rfl⟩
  have lv : (leaveMetering r s).vectors = s.vectors ∧ (leaveMetering r s).auth = s.auth
      ∧ (leaveMetering r s).onTimers = s.onTimers := by
    unfold leaveMetering; split <;> exact ⟨rfl, rfl, rfl⟩
  have lr : (leaveMetering r s).rate[r] = if (s.ramps[r]).state = .metering then RateRec.reset else s.rate[r] := by
    unfold leaveMetering; split
    · show (vset s.rate r _)[r] = _
      rw [vset_same]
    · rfl
  have st' : ((enter r st ph tm s).ramps[r]).state = st := enter_state r st ph tm s
  have kp : ((enter r st ph tm s).ramps[r]).slotCount = (s.ramps[r]).slotCount
      ∧ ((enter r st ph tm s).ramps[r]).lastSlotCount = (s.ramps[r]).lastSlotCount
      ∧ ((enter r st ph tm s).ramps[r]).selection = (s.ramps[r]).selection := by
    have f : ∀ {α : Type} (f : RampCtx → α), (∀ c : RampCtx, f { c with attention := true } = f c) →
        f (enter r st ph tm s).ramps[r] = f ((leaveMetering r s).modRamp r fun c =>
          { c with state := st, clearPhase := ph, phaseTimer := tm, attention := true }).ramps[r] :=
      fun f h => SameRamp.field (b.ramps r) f h
    refine ⟨(f (·.slotCount) fun _ => rfl).trans ?_, (f (·.lastSlotCount) fun _ => rfl).trans ?_,
      (f RampCtx.selection fun _ => rfl).trans ?_⟩ <;>
      (rw [modRamp_get, leaveMetering_ramp]; split <;> rfl)
  refine ⟨⟨a, b.onTimers.trans lv.2.2, fun l => ?_, fun q hq => ⟨?_, ?_, ?_, ?_⟩, ⟨kp.1, kp.2.1⟩,
    fun h => absurd h ho, fun _ => ⟨ho, kp.2.2, ?_⟩, fun h => absurd (st'.symm.trans h) hm, fun h _ => ?_, fun h => ?_⟩, ?_,
    fun k _ _ h => ?_⟩
  · rw [enter_lanes]; exact ⟨rfl, rfl⟩
  · have e : ((leaveMetering r s).modRamp r fun c =>
        { c with state := st, clearPhase := ph, phaseTimer := tm, attention := true }).ramps[q] = s.ramps[q] := by
      rw [State.modRamp_ramps, vset_get, if_neg hq.symm]; exact (lm q hq).1
    have := b.ramps q
    rw [e] at this; exact this
  · rw [b.auth, State.modRamp_auth, lv.2.1]
  · rw [b.rate, State.modRamp_rate]; exact (lm q hq).2
  · rw [b.vectors, State.modRamp_vectors, lv.1]
  · rw [b.vectors, State.modRamp_vectors, lv.1]
  · rw [b.rate, State.modRamp_rate, lr, if_pos h]
  · rw [b.rate, State.modRamp_rate, lr, if_neg h]
  · rw [b.auth, State.modRamp_auth, lv.2.1]; exact .refl _
  · rw [b.auth, State.modRamp_auth, lv.2.1] at h; exact h

theorem arbitrateAfterMetering_decided (r : Ramp) (s : State) : Decided r s (arbitrateAfterMetering r s) := by
  unfold arbitrateAfterMetering; split
  · exact .refl r s
  · have a := (setRefreshLower_decided r s).trans (arbitrateRamp_decided r _)
    dsimp only; split
    · exact a.trans (judge_decided r _)
    · exact a

theorem shutClearDone_decided (r : Ramp) (s : State) : Decided r s (shutClearDone r s) := by
  unfold shutClearDone; split
  · next h => exact enter_decided r _ _ _ s (by decide) (by decide) (by rw [h.1]; decide)
  · exact .refl r s

theorem enterShutClear_decided (r : Ramp) (s : State) (h : (s.ramps[r]).state ≠ .off) :
    Decided r s (enterShutClear r s) := by
  have a := ((enter_decided r .shutClear none .stopped s (by decide) (by decide) h).trans (orderFlush_decided r _)).trans
    (shutClearDone_decided r _)
  unfold enterShutClear; dsimp only; split
  · exact a.trans (arbitrateAfterMetering_decided r _)
  · exact a

theorem enterDarkFail_decided (r : Ramp) (s : State) (h : (s.ramps[r]).state ≠ .off) :
    Decided r s (enterDarkFail r s) := by
  have a := (enter_decided r .darkFail none .stopped s (by decide) (by decide) h).trans (orderDark_decided r _)
  unfold enterDarkFail; dsimp only; split
  · exact a.trans (arbitrateAfterMetering_decided r _)
  · exact a

/-- The marks, the vector and the unit's tenure emptied behind a ramp that has just gone OFF. -/
theorem Decided.emptied {r : Ramp} {s t : State} (d : Decided r s t) (h : (s.ramps[r]).state ≠ .off)
    (ht : (t.ramps[r]).state = .off) (u : State) (a : RampCore s u)
    (e : u = ((t.modRamp r RampCtx.enterOff).setVector r vectorFalse).setAuth r (t.auth[r]).enterOff) :
    Decided r s u := by
  have er : u.ramps[r] = (t.ramps[r]).enterOff := by
    rw [e, State.setAuth_ramps, State.setVector_ramps, modRamp_get]
  have st : (u.ramps[r]).state = .off := by rw [er]; exact ht
  have ea : u.auth[r] = (t.auth[r]).enterOff := by rw [e, State.setAuth_auth, vset_same]
  refine ⟨⟨a, ?_, fun l => ?_, fun q hq => ⟨?_, ?_, ?_, ?_⟩, ?_, fun e => absurd e h, fun e => absurd st e,
    fun e => absurd (st.symm.trans e) (by decide), fun hm _ => ?_, fun hm => ?_⟩, ?_, fun k _ _ h => ?_⟩
  · rw [e]; exact d.one.onTimers
  · rw [e]; exact d.one.counts l
  · have x : u.ramps[q] = t.ramps[q] := by
      rw [e, State.setAuth_ramps, State.setVector_ramps, State.modRamp_ramps, vset_get, if_neg hq.symm]
    have := (d.one.others q hq).1
    unfold SameRamp at this ⊢
    rw [x]; exact this
  · rw [e, State.setAuth_auth, vset_get, if_neg hq.symm]; exact (d.one.others q hq).2.1
  · rw [e]; exact (d.one.others q hq).2.2.1
  · have x : u.vectors[q] = t.vectors[q] := by
      rw [e, State.setAuth_vectors, State.setVector_vectors, vset_get, if_neg hq.symm]; rfl
    rw [x]; exact (d.one.others q hq).2.2.2
  · rw [er]; exact d.one.slots
  · rw [e]; exact d.one.left hm (by rw [ht]; decide)
  · rw [e]; exact d.one.rate hm
  · rw [ea]; exact d.kept.trans (AuthUnit.enterOff_kept _)
  · rw [ea] at h; cases h

theorem enterOff_decided (r : Ramp) (s : State) (h : (s.ramps[r]).state ≠ .off) : Decided r s (enterOff r s) := by
  refine ((enter_decided r .off none .stopped s (by decide) (by decide) h).trans (orderDark_decided r _)).emptied h ?_ _
    (enterOff_core r s) rfl
  rw [(orderDark_side r _).state, enter_state]

theorem enterWarn_decided (r : Ramp) (s : State) (h : (s.ramps[r]).state ≠ .off) : Decided r s (enterWarn r s) :=
  enter_decided r _ _ _ s (by decide) (by decide) h

theorem standbyActs_decided (r : Ramp) (s : State) (h : (s.ramps[r]).state ≠ .off) : Decided r s (standbyActs r s) := by
  unfold standbyActs; split
  · exact enterWarn_decided r s h
  · exact .refl r s

theorem enterStandby_decided (r : Ramp) (s : State) (h : (s.ramps[r]).state ≠ .off) :
    Decided r s (enterStandby r s) := by
  unfold enterStandby
  refine (((enter_decided r _ _ _ s (by decide) (by decide) h).trans (orderDark_decided r _)).trans
    (judge_decided r _)).trans (standbyActs_decided r _ ?_)
  rw [judge_state, (orderDark_side r _).state, enter_state]; decide

theorem enterOffOrStandby_decided (r : Ramp) (s : State) (h : (s.ramps[r]).state ≠ .off) :
    Decided r s (enterOffOrStandby r s) := by
  unfold enterOffOrStandby; split
  · exact enterOff_decided r s h
  · exact enterStandby_decided r s h

theorem actOnDemand_decided (r : Ramp) (s : State) : Decided r s (actOnDemand r s) := by
  unfold actOnDemand; split
  · next h => exact standbyActs_decided r s (by rw [h]; decide)
  · next h =>
    split
    · exact enterOffOrStandby_decided r s (by rw [h]; decide)
    · exact .refl r s
  · next h =>
    split
    · exact enter_decided r _ _ _ s (by decide) (by decide) (by rw [h]; decide)
    · exact .refl r s
  all_goals exact .refl r s

theorem meteringTakes_decided (r : Ramp) (old : Effective) (s : State) (h : (s.ramps[r]).state ≠ .off) :
    Decided r s (meteringTakes r old s) := by
  unfold meteringTakes; split
  · exact enterDarkFail_decided r s h
  · exact enterShutClear_decided r s h
  · exact orderFlush_decided r s
  · exact orderHold_decided r s
  · exact orderReturn_decided r s
  · split
    · split
      · exact .refl r s
      · exact enterShutClear_decided r s h
    · exact orderReturn_decided r s

theorem startingTakes_decided (r : Ramp) (s : State) (h : (s.ramps[r]).state ≠ .off) : Decided r s (startingTakes r s) := by
  unfold startingTakes; split
  · exact enterDarkFail_decided r s h
  · exact actOnDemand_decided r s

theorem takeResult_decided (r : Ramp) (old : Effective) (s : State) : Decided r s (takeResult r old s) := by
  unfold takeResult; split
  · exact .refl r s
  · next h => exact standbyActs_decided r s (by rw [h]; decide)
  · next h => exact meteringTakes_decided r old s (by rw [h]; decide)
  · next h =>
    split
    · exact .refl r s
    · exact enterOffOrStandby_decided r s (by rw [h]; decide)
  all_goals next h => exact startingTakes_decided r s (by rw [h]; decide)

theorem decisionPoint_decided (r : Ramp) (s : State) : Decided r s (decisionPoint r s) := by
  unfold decisionPoint; dsimp only; split
  · exact ((arbitrateRamp_decided r s).trans (judge_decided r _)).trans (takeResult_decided r _ _)
  · exact arbitrateRamp_decided r s

/-- A source that is not eligible, and stands so, does not hold the ramp behind a decision point. -/
theorem decisionPoint_not_holder {r : Ramp} {k : Source} {s : State}
    (he : ((s.auth[r]).sources[k]).eligible = false) (hs : ((s.auth[r]).sources[k]).standing = false) :
    ((decisionPoint r s).auth[r]).holder ≠ some k := by
  have a : ((arbitrateRamp r s).1.auth[r]).holder ≠ some k := by
    unfold arbitrateRamp; dsimp only
    rw [(attentionIf_side _ r _).auth, State.setAuth_auth, vset_same]
    exact AuthUnit.arbitrate_not_holder hs _ _
  have d := (arbitrateRamp_decided r s).kept.sources k
  have e := (judge_decided r (arbitrateRamp r s).1).trans (takeResult_decided r (standingAction s r) _)
  unfold decisionPoint; dsimp only; split
  · exact fun h => a (e.holder k (d.ineligible he hs) (d.resting he hs).1 h)
  · exact a

theorem sourceChanged_decided (r : Ramp) (k : Source) (s : State) : Decided r s (sourceChanged r k s) := by
  unfold sourceChanged; split
  · exact .refl r s
  · split
    · exact .refl r s
    · split
      · exact .refl r s
      · exact (setAuth_decided r _ s (setAuth_core' r _ s (fun h => AuthUnit.refresh_ok h k)
          (AuthUnit.refresh_asserted _ _ _)) (AuthUnit.refresh_kept _ k) fun _ _ h => h).trans (decisionPoint_decided r _)

/-! ### The other ramps -/

/-- What an event of the other ramps leaves of a ramp: no more than its attention SET, and no lane counts. -/
structure Elsewhere (r : Ramp) (s t : State) : Prop where
  side : RampCore s t
  onTimers : t.onTimers = s.onTimers
  counts : ∀ l : Lane, (t.lanes[l]).counts = (s.lanes[l]).counts ∧ (t.lanes[l]).last = (s.lanes[l]).last
  same : SameRamp s t r
  auth : t.auth[r] = s.auth[r]
  rate : t.rate[r] = s.rate[r]
  vector : t.vectors[r] = s.vectors[r]

namespace Elsewhere

theorem refl (r : Ramp) (s : State) : Elsewhere r s s :=
  ⟨.refl s, rfl, fun _ => ⟨rfl, rfl⟩, .refl s r, rfl, rfl, rfl⟩

theorem trans {r : Ramp} {s t u : State} (a : Elsewhere r s t) (b : Elsewhere r t u) : Elsewhere r s u where
  side := a.side.trans b.side
  onTimers := b.onTimers.trans a.onTimers
  counts l := ⟨(b.counts l).1.trans (a.counts l).1, (b.counts l).2.trans (a.counts l).2⟩
  same := a.same.trans b.same
  auth := b.auth.trans a.auth
  rate := b.rate.trans a.rate
  vector := b.vector.trans a.vector

end Elsewhere

theorem OneRamp.elsewhere {q r : Ramp} {s t : State} (a : OneRamp q s t) (h : q ≠ r) : Elsewhere r s t :=
  ⟨a.side, a.onTimers, a.counts, (a.others r h.symm).1, (a.others r h.symm).2.1, (a.others r h.symm).2.2.1,
    (a.others r h.symm).2.2.2⟩

/-- An operation done for each ramp, seen from one of them: its own turn, between turns that leave it alone. -/
theorem forRamps_at {f : Ramp → State → State} (h : ∀ (q r : Ramp) (t : State), q ≠ r → Elsewhere r t (f q t))
    (s : State) (r : Ramp) : ∃ x, Elsewhere r s x ∧ Elsewhere r (f r x) (forRamps f s) := by
  have e : forRamps f s = f 3 (f 2 (f 1 (f 0 s))) := rfl
  rw [e]
  match r with
  | 0 => exact ⟨s, .refl 0 s, ((h 1 0 _ (by decide)).trans (h 2 0 _ (by decide))).trans (h 3 0 _ (by decide))⟩
  | 1 => exact ⟨_, h 0 1 s (by decide), (h 2 1 _ (by decide)).trans (h 3 1 _ (by decide))⟩
  | 2 => exact ⟨_, (h 0 2 s (by decide)).trans (h 1 2 _ (by decide)), h 3 2 _ (by decide)⟩
  | 3 => exact ⟨_, ((h 0 3 s (by decide)).trans (h 1 3 _ (by decide))).trans (h 2 3 _ (by decide)), .refl 3 _⟩

end Sys2Proof.Machine
end

