-- ==== Sys2Proof/Laws/Orders.lean ====
section
/-! SUPPORT. What the ramp's orders, offers and announcements leave in each lane and on its head. -/

namespace Sys2Proof.Machine

/-! ### Orders -/

theorem orderLane_head_other {k : Lane} {ch : OutCh} (f : LaneRec → Bool → LaneCtx → LaneCtx) (s : State)
    (h : headOf s.tables k ≠ some ch) : (orderLane f k s).out.chans[ch] = s.out.chans[ch] := by
  unfold orderLane; split
  · next c e =>
    have hc : ch ≠ c.head := by
      intro x; apply h; unfold headOf; rw [e, x]; rfl
    unfold putLane; rw [e]; dsimp only
    rw [(setAspect_get _ _ _).2.2 ch hc, State.setLane_out]
  · rfl

/-- An order to a list that holds each lane once leaves each listed lane's head at the aspect of its state, where no
other listed lane shares the head (R81). -/
theorem forEach_orderLane_head (f : LaneRec → Bool → LaneCtx → LaneCtx) (ls : List Lane) (hn : ls.Nodup) (s : State)
    {l : Lane} {c : LaneRec} (hc : s.tables.laneCfg[l] = some c)
    (hh : ∀ k ∈ ls, k ≠ l → headOf s.tables k ≠ some c.head) :
    (l ∉ ls → (forEach ls (orderLane f) s).out.chans[c.head] = s.out.chans[c.head])
    ∧ (l ∈ ls → ((forEach ls (orderLane f) s).out.chans[c.head]).commanded
      = laneAspect ((forEach ls (orderLane f) s).lanes[l]).state) := by
  induction ls generalizing s with
  | nil => exact ⟨fun _ => rfl, fun h => by cases h⟩
  | cons a ls ih =>
    rw [List.nodup_cons] at hn
    have fr := orderLane_frame f a s
    have i := ih hn.2 (orderLane f a s) (by rw [fr.1]; exact hc)
      (fun k hk hkl => by rw [fr.1]; exact hh k (List.mem_cons_of_mem a hk) hkl)
    refine ⟨fun h => ?_, fun h => ?_⟩
    · rw [List.mem_cons, not_or] at h
      show (forEach ls (orderLane f) (orderLane f a s)).out.chans[c.head] = _
      rw [i.1 h.2]
      exact orderLane_head_other f s (hh a List.mem_cons_self (Ne.symm h.1))
    · show ((forEach ls (orderLane f) (orderLane f a s)).out.chans[c.head]).commanded
        = laneAspect ((forEach ls (orderLane f) (orderLane f a s)).lanes[l]).state
      by_cases e : l = a
      · subst e
        rw [i.1 hn.1, (forEach_orderLane f ls hn.2 _ l).1 hn.1, (orderLane_get f hc).2, (orderLane_get f hc).1,
          vset_same]
      · exact i.2 ((List.mem_cons.1 h).resolve_left e)

/-- Lanes and heads leave tables, detectors, lines, time, the ring and every unit undisturbed. -/
theorem LaneSide.undisturbed {s t : State} (a : LaneSide s t) : Undisturbed s t ∧ UnitsUndisturbed s t :=
  ⟨⟨a.pending, a.stride, a.freeCount, a.tables, a.det, a.lines, a.time, a.ring⟩, ⟨a.vectors, a.auth, a.onTimers, a.rate⟩⟩

/-- An order of a ramp to its lanes, told lane by lane (section 5.7). -/
theorem orderLanes_spec (f : LaneRec → Bool → LaneCtx → LaneCtx) (r : Ramp) (s : State)
    (hn : (lanesOf s.tables r).Nodup) :
    (∀ l : Lane, l ∉ lanesOf s.tables r → (orderLanes f r s).lanes[l] = s.lanes[l])
    ∧ ∀ (l : Lane) (c : LaneRec), l ∈ lanesOf s.tables r → s.tables.laneCfg[l] = some c →
      (orderLanes f r s).lanes[l] = f c (effectiveOf s c.demand) s.lanes[l]
      ∧ ((∀ k ∈ lanesOf s.tables r, k ≠ l → headOf s.tables k ≠ some c.head) →
        ((orderLanes f r s).out.chans[c.head]).commanded = laneAspect ((orderLanes f r s).lanes[l]).state) :=
  ⟨fun l h => (forEach_orderLane f _ hn s l).1 h, fun l c h hc =>
    ⟨(forEach_orderLane f _ hn s l).2 h c hc, fun hh => (forEach_orderLane_head f _ hn s hc hh).2 h⟩⟩

/-- A point of one lane's interval: its record as the point leaves it, its head at the aspect of its state. -/
theorem lanePoint_spec (f : LaneRec → Bool → LaneCtx → LaneCtx) {l : Lane} {c : LaneRec} {s : State}
    (hc : s.tables.laneCfg[l] = some c) (h : ∀ c b, (s.lanes[l]).Ok → (f c b s.lanes[l]).Ok) :
    Undisturbed s (lanePoint f l s) ∧ UnitsUndisturbed s (lanePoint f l s)
    ∧ (∀ q : Ramp, SameRamp s (lanePoint f l s) q) ∧ (∀ k : Lane, k ≠ l → (lanePoint f l s).lanes[k] = s.lanes[k])
    ∧ ((lanePoint f l s).out.chans[c.head]).commanded = laneAspect ((f c (effectiveOf s c.demand) s.lanes[l]).state)
    ∧ (lanePoint f l s).lanes[l] = f c (effectiveOf s c.demand) s.lanes[l] := by
  unfold lanePoint
  have a := orderLane_side f l s h
  refine ⟨a.undisturbed.1, a.undisturbed.2, a.ramps, fun k hk => orderLane_other hk f s, (orderLane_get f hc).2, ?_⟩
  rw [(orderLane_get f hc).1, vset_same]

/-! ### Announcements -/

theorem laneHears_other {l k : Lane} (h : k ≠ l) (before s : State) :
    (laneHears before l s).lanes[k] = s.lanes[k] := by
  unfold laneHears; split
  · rfl
  · rw [putLane_get, vset_get, if_neg (Ne.symm h)]

/-- What a lane hears, and what its head then shows (R85, R92, R81). -/
theorem laneHears_get {l : Lane} {c : LaneRec} {s : State} (before : State) (hc : s.tables.laneCfg[l] = some c)
    (y : LaneCtx)
    (hy : y = if !effectiveOf before c.demand && effectiveOf s c.demand then laneDemand c s.lanes[l] else s.lanes[l]) :
    (laneHears before l s).lanes[l] = (if ∃ p : Channel, c.passage = some p ∧ (before.det.chans[p]).filtered = false
        ∧ (s.det.chans[p]).filtered = true ∧ (s.det.chans[p]).health = .ok then lanePassage y else y)
    ∧ ((laneHears before l s).out.chans[c.head]).commanded = laneAspect ((laneHears before l s).lanes[l]).state := by
  unfold laneHears; rw [hc]; dsimp only; rw [← hy]
  refine ⟨?_, ?_⟩
  · rw [putLane_get, vset_same]
    split
    · next p e =>
      rw [e]
      simp only [Option.some.injEq, exists_eq_left', Bool.and_eq_true, Bool.not_eq_true', decide_eq_true_eq, and_assoc]
    · next e => rw [e]; simp
  · rw [putLane_get, vset_same]
    unfold putLane; rw [hc]; dsimp only
    rw [(setAspect_get _ _ _).2.1]

/-- A lane hears of the detectors and its own record alone. -/
theorem laneHears_congr {s t : State} (before : State) (l : Lane) (ht : t.tables = s.tables) (hd : t.det = s.det)
    (hl : t.lanes[l] = s.lanes[l]) : (laneHears before l t).lanes[l] = (laneHears before l s).lanes[l] := by
  match e : s.tables.laneCfg[l] with
  | none => unfold laneHears; rw [ht, e]; exact hl
  | some c =>
    rw [(laneHears_get before (by rw [ht]; exact e) _ rfl).1, (laneHears_get before e _ rfl).1]
    have : ∀ ch, effectiveOf t ch = effectiveOf s ch := fun ch => by unfold effectiveOf; rw [ht, hd]
    rw [this, hd, hl]

/-- At an announcement every lane hears, each from where it stood (R14). -/
theorem forEach_laneHears (before : State) (ls : List Lane) (hn : ls.Nodup) (s : State) (l : Lane) :
    (forEach ls (laneHears before) s).lanes[l]
      = if l ∈ ls then (laneHears before l s).lanes[l] else s.lanes[l] := by
  induction ls generalizing s with
  | nil => rfl
  | cons a ls ih =>
    rw [List.nodup_cons] at hn
    show (forEach ls (laneHears before) (laneHears before a s)).lanes[l] = _
    rw [ih hn.2]
    have sd := laneHears_side before a s
    by_cases e : l = a
    · subst e; rw [if_neg hn.1, if_pos List.mem_cons_self]
    · have o := laneHears_other e before s
      rw [laneHears_congr before l sd.tables sd.det o, o]
      by_cases m : l ∈ ls
      · rw [if_pos m, if_pos (List.mem_cons_of_mem a m)]
      · rw [if_neg m, if_neg (by rw [List.mem_cons, not_or]; exact ⟨e, m⟩)]

end Sys2Proof.Machine
end

