-- ==== Sys2Proof/Laws/Slots.lean ====
section
/-! SUPPORT. What the steps of a slot boundary leave: the judgement, the plan's slot, the offers, and METERING left. -/

namespace Sys2Proof.Machine

/-! ### Arbitration and judgement move nothing else -/

theorem attentionIf_rest (b : Bool) (r : Ramp) (s : State) : (attentionIf b r s).lanes = s.lanes
    ∧ (attentionIf b r s).out = s.out := by
  unfold attentionIf; split <;> exact ⟨rfl, rfl⟩

theorem attentionIf_ramp (b : Bool) (r : Ramp) (s : State) : (attentionIf b r s).ramps[r] = { s.ramps[r] with
    attention := (s.ramps[r]).attention || b } := by
  cases b
  · show s.ramps[r] = _
    rw [Bool.or_false]
  · show (vset s.ramps r _)[r] = _
    rw [vset_same, Bool.or_true]

theorem judge_rest (r : Ramp) (s : State) : (judge r s).lanes = s.lanes ∧ (judge r s).out = s.out
    ∧ (judge r s).auth = s.auth ∧ (judge r s).rate = s.rate ∧ (judge r s).vectors = s.vectors
    ∧ (judge r s).onTimers = s.onTimers := by
  have a := attentionIf_side (decide (judgedUnset s r ≠ (s.ramps[r]).actionUnset)) r
    (s.modRamp r fun c => { c with actionUnset := judgedUnset s r, stopStands := stopDemand s r })
  have b := attentionIf_rest (decide (judgedUnset s r ≠ (s.ramps[r]).actionUnset)) r
    (s.modRamp r fun c => { c with actionUnset := judgedUnset s r, stopStands := stopDemand s r })
  unfold judge
  exact ⟨b.1, b.2, a.auth, a.rate, a.vectors, a.onTimers⟩

theorem arbitrateRamp_rest (r : Ramp) (s : State) : (arbitrateRamp r s).1.lanes = s.lanes
    ∧ (arbitrateRamp r s).1.out = s.out ∧ (arbitrateRamp r s).1.rate = s.rate
    ∧ (arbitrateRamp r s).1.vectors = s.vectors ∧ (arbitrateRamp r s).1.onTimers = s.onTimers
    ∧ (arbitrateRamp r s).1.auth[r] = ((s.auth[r]).arbitrate (actionRec s.tables r) s.time.corridor).1 := by
  unfold arbitrateRamp; dsimp only
  generalize ((s.auth[r]).arbitrate (actionRec s.tables r) s.time.corridor).1 = x
  have a := attentionIf_side (decide (x.holder ≠ (s.auth[r]).holder)) r (s.setAuth r x)
  have b := attentionIf_rest (decide (x.holder ≠ (s.auth[r]).holder)) r (s.setAuth r x)
  refine ⟨b.1, b.2, a.rate, a.vectors, a.onTimers, ?_⟩
  rw [a.auth, State.setAuth_auth, vset_same]

/-- After METERING has been left, a further arbitration moves no lane and no aspect. -/
theorem arbitrateAfterMetering_rest (r : Ramp) (s : State) : (arbitrateAfterMetering r s).lanes = s.lanes
    ∧ (arbitrateAfterMetering r s).out = s.out ∧ (arbitrateAfterMetering r s).rate = s.rate
    ∧ (arbitrateAfterMetering r s).vectors = s.vectors := by
  have a := arbitrateRamp_rest r (s.setAuth r (s.auth[r]).refreshLower)
  unfold arbitrateAfterMetering; split
  · exact ⟨rfl, rfl, rfl, rfl⟩
  · dsimp only; split
    · have b := judge_rest r (arbitrateRamp r (s.setAuth r (s.auth[r]).refreshLower)).1
      exact ⟨b.1.trans a.1, b.2.1.trans a.2.1, b.2.2.2.1.trans a.2.2.1, b.2.2.2.2.1.trans a.2.2.2.1⟩
    · exact ⟨a.1, a.2.1, a.2.2.1, a.2.2.2.1⟩

/-- A ramp's context, what a judgement writes (R60, R61) and attention apart. -/
def RampCtx.plain (c : RampCtx) : RampCtx := { c with actionUnset := false, stopStands := false, attention := false }

theorem SameRamp.plain {s t : State} {q : Ramp} (a : SameRamp s t q) :
    (t.ramps[q]).plain = (s.ramps[q]).plain := a.field RampCtx.plain fun _ => rfl

theorem judge_plain (r : Ramp) (s : State) : ((judge r s).ramps[r]).plain = (s.ramps[r]).plain := by
  have a : SameRamp _ (judge r s) r := (attentionIf_side (decide (judgedUnset s r ≠ (s.ramps[r]).actionUnset)) r
    (s.modRamp r fun c => { c with actionUnset := judgedUnset s r, stopStands := stopDemand s r })).ramps r
  rw [a.plain, modRamp_get]; rfl

theorem arbitrateRamp_plain (r : Ramp) (s : State) : ((arbitrateRamp r s).1.ramps[r]).plain = (s.ramps[r]).plain := by
  have a : SameRamp _ (arbitrateRamp r s).1 r := (attentionIf_side
    (decide (((s.auth[r]).arbitrate (actionRec s.tables r) s.time.corridor).1.holder ≠ (s.auth[r]).holder)) r
    (s.setAuth r ((s.auth[r]).arbitrate (actionRec s.tables r) s.time.corridor).1)).ramps r
  exact a.plain

theorem arbitrateAfterMetering_plain (r : Ramp) (s : State) :
    ((arbitrateAfterMetering r s).ramps[r]).plain = (s.ramps[r]).plain := by
  have a := arbitrateRamp_plain r (s.setAuth r (s.auth[r]).refreshLower)
  unfold arbitrateAfterMetering; split
  · rfl
  · dsimp only; split
    · exact (judge_plain r _).trans a
    · exact a

/-! ### METERING left -/

/-- Orders to a list depend on the lanes, the tables and the detectors alone. -/
theorem forEach_orderLane_congr (f : LaneRec → Bool → LaneCtx → LaneCtx) (ls : List Lane) {s t : State}
    (hl : t.lanes = s.lanes) (ht : t.tables = s.tables) (hd : t.det = s.det) :
    (forEach ls (orderLane f) t).lanes = (forEach ls (orderLane f) s).lanes := by
  induction ls generalizing s t with
  | nil => exact hl
  | cons a ls ih =>
    have x : (orderLane f a t).lanes = (orderLane f a s).lanes := by
      match e : s.tables.laneCfg[a] with
      | none => unfold orderLane; rw [ht, e]; exact hl
      | some c =>
        rw [(orderLane_get f (by rw [ht]; exact e)).1, (orderLane_get f e).1, hl]
        have : effectiveOf t c.demand = effectiveOf s c.demand := by unfold effectiveOf; rw [ht, hd]
        rw [this]
    have es := orderLane_frame f a s
    have et := orderLane_frame f a t
    exact ih x (et.1.trans (ht.trans es.1.symm)) (et.2.trans (hd.trans es.2.symm))

theorem orderLanes_congr (f : LaneRec → Bool → LaneCtx → LaneCtx) (r : Ramp) {s t : State}
    (hl : t.lanes = s.lanes) (ht : t.tables = s.tables) (hd : t.det = s.det) :
    (orderLanes f r t).lanes = (orderLanes f r s).lanes := by
  unfold orderLanes; rw [ht]; exact forEach_orderLane_congr f _ hl ht hd

/-- Entering a state from METERING empties the slot (R59). -/
theorem enter_ramp_left (r : Ramp) (st : RampState) (ph : Option ClearPhase) (tm : Timer) (s : State)
    (h : (s.ramps[r]).state = .metering) : (enter r st ph tm s).ramps[r]
      = { (s.ramps[r]).leaveMetering with state := st, clearPhase := ph, phaseTimer := tm, attention := true } := by
  unfold enter
  have e : ((leaveMetering r s).modRamp r fun c =>
      { c with state := st, clearPhase := ph, phaseTimer := tm, attention := true }).ramps[r]
      = { (s.ramps[r]).leaveMetering with state := st, clearPhase := ph, phaseTimer := tm, attention := true } := by
    rw [modRamp_get, leaveMetering_ramp, if_pos h]
  rcases (commandBeacon_side r (beaconAspect st) ((leaveMetering r s).modRamp r fun c =>
      { c with state := st, clearPhase := ph, phaseTimer := tm, attention := true })).ramps r with k | k
  · rw [k, e]
  · rw [k, e]

/-- Entering a state moves no vector, no on-timer and no unit. -/
theorem enter_rest (r : Ramp) (st : RampState) (ph : Option ClearPhase) (tm : Timer) (s : State) :
    (enter r st ph tm s).vectors = s.vectors ∧ (enter r st ph tm s).auth = s.auth
    ∧ (enter r st ph tm s).onTimers = s.onTimers := by
  have b := commandBeacon_side r (beaconAspect st) ((leaveMetering r s).modRamp r fun c =>
      { c with state := st, clearPhase := ph, phaseTimer := tm, attention := true })
  have lv : (leaveMetering r s).vectors = s.vectors ∧ (leaveMetering r s).auth = s.auth
      ∧ (leaveMetering r s).onTimers = s.onTimers := by
    unfold leaveMetering; split <;> exact ⟨rfl, rfl, rfl⟩
  unfold enter
  exact ⟨b.vectors.trans lv.1, b.auth.trans lv.2.1, b.onTimers.trans lv.2.2⟩

/-- The last step of leaving METERING: the ramp's context keeps all but its mark, its lanes stay. -/
theorem enterShutClear_eq (r : Ramp) (s : State) (h : (s.ramps[r]).state = .metering) : enterShutClear r s
    = arbitrateAfterMetering r (shutClearDone r (orderFlush r (enter r .shutClear none .stopped s))) := by
  have e : decide ((s.ramps[r]).state = .metering) = true := decide_eq_true h
  unfold enterShutClear; dsimp only; rw [e, if_pos rfl]

/-- What a ramp leaving METERING for the shutdown is left with (R59, R71). -/
theorem enterShutClear_left (r : Ramp) (s : State) (h : (s.ramps[r]).state = .metering) :
    ((enterShutClear r s).ramps[r]).slot = (none, 0, .stopped, none, none, false)
    ∧ (enterShutClear r s).rate[r] = RateRec.reset ∧ ((enterShutClear r s).ramps[r]).attention = true
    ∧ (enterShutClear r s).lanes = (orderFlush r s).lanes ∧ (enterShutClear r s).vectors = s.vectors
    ∧ ((∀ l ∈ lanesOf s.tables r, ((orderFlush r s).lanes[l]).state = .greenRest) →
        ((enterShutClear r s).ramps[r]).state = .shutFlush ∧ ((enterShutClear r s).ramps[r]).phaseTimer = .running 0)
    ∧ ((∃ l ∈ lanesOf s.tables r, ((orderFlush r s).lanes[l]).state ≠ .greenRest) →
        ((enterShutClear r s).ramps[r]).state = .shutClear ∧ ((enterShutClear r s).ramps[r]).phaseTimer = .stopped) := by
  have ho : (s.ramps[r]).state ≠ .off := by rw [h]; decide
  have one := (enterShutClear_decided r s ho).one
  rw [enterShutClear_eq r s h] at one ⊢
  have ex := enter_ramp_left r .shutClear none .stopped s h
  have xr := enter_rest r .shutClear none .stopped s
  have xs := enter_core r .shutClear none .stopped s (by decide)
  have xl := enter_lanes r .shutClear none .stopped s
  generalize enter r .shutClear none .stopped s = x at *
  have ys := orderFlush_side r x
  have yl : (orderFlush r x).lanes = (orderFlush r s).lanes := by
    unfold orderFlush; exact orderLanes_congr _ r xl xs.tables xs.det
  generalize orderFlush r x = y at *
  have yp : (y.ramps[r]).plain = (x.ramps[r]).plain := SameRamp.plain (ys.ramps r)
  have ya : (y.ramps[r]).attention = true := by
    rcases ys.ramps r with e | e <;> rw [e]; rw [ex]
  have yst : (y.ramps[r]).state = .shutClear := by
    have : (y.ramps[r]).plain.state = (x.ramps[r]).plain.state := by rw [yp]
    exact this.trans (by rw [ex]; rfl)
  have yt : y.tables = s.tables := ys.tables.trans xs.tables
  have zr := arbitrateAfterMetering_rest r (shutClearDone r y)
  have zp := arbitrateAfterMetering_plain r (shutClearDone r y)
  have za := (arbitrateAfterMetering_core r (shutClearDone r y)).attention r
  have zf : ∀ {α : Type} (f : RampCtx → α), (∀ c : RampCtx, f c.plain = f c) →
      f (arbitrateAfterMetering r (shutClearDone r y)).ramps[r] = f (shutClearDone r y).ramps[r] := fun f hf => by
    rw [← hf, zp, hf]
  have left : (shutClearDone r y).ramps[r] = if ∀ l ∈ lanesOf s.tables r, (y.lanes[l]).state = .greenRest then
      { y.ramps[r] with state := .shutFlush, clearPhase := none, phaseTimer := .running 0, attention := true }
      else y.ramps[r] := by
    have al : allGreenRest y r = true ↔ ∀ l ∈ lanesOf s.tables r, (y.lanes[l]).state = .greenRest := by
      unfold allGreenRest; rw [yt, List.all_eq_true]; simp only [decide_eq_true_eq]
    unfold shutClearDone enterShutFlush
    by_cases e : ∀ l ∈ lanesOf s.tables r, (y.lanes[l]).state = .greenRest
    · rw [if_pos ⟨yst, al.2 e⟩, if_pos e, enter_ramp r _ _ _ y (by rw [yst]; decide)]
    · rw [if_neg (fun x => e (al.1 x.2)), if_neg e]
  have zl : (shutClearDone r y).lanes = y.lanes ∧ (shutClearDone r y).vectors = y.vectors := by
    unfold shutClearDone enterShutFlush; split
    · exact ⟨enter_lanes _ _ _ _ _, (enter_rest _ _ _ _ _).1⟩
    · exact ⟨rfl, rfl⟩
  have yslot : (y.ramps[r]).slot = (none, 0, .stopped, none, none, false) := by
    have : (y.ramps[r]).plain.slot = (x.ramps[r]).plain.slot := by rw [yp]
    exact this.trans (by rw [ex]; rfl)
  have yph : (y.ramps[r]).phaseTimer = .stopped := by
    have : (y.ramps[r]).plain.phaseTimer = (x.ramps[r]).plain.phaseTimer := by rw [yp]
    exact this.trans (by rw [ex]; rfl)
  have st : ((shutClearDone r y).ramps[r]).state ≠ .metering := by
    rw [left]; split
    · intro x; cases x
    · rw [yst]; decide
  refine ⟨?_, one.left h ?_, za ?_, zr.1.trans (zl.1.trans yl), zr.2.2.2.trans (zl.2.trans (ys.vectors.trans xr.1)),
    fun hg => ?_, fun ⟨l, hl, hg⟩ => ?_⟩
  · rw [zf RampCtx.slot fun _ => rfl, left]; split <;> exact yslot
  · rw [zf (·.state) fun _ => rfl]; exact st
  · rw [left]; split
    · rfl
    · exact ya
  · rw [zf (·.state) fun _ => rfl, zf (·.phaseTimer) fun _ => rfl, left, if_pos (by rw [yl]; exact hg)]
    exact ⟨rfl, rfl⟩
  · rw [zf (·.state) fun _ => rfl, zf (·.phaseTimer) fun _ => rfl, left,
      if_neg (fun x => hg (by rw [← yl]; exact x l hl))]
    exact ⟨yst, yph⟩

/-- What a ramp leaving METERING for DARK_FAIL is left with (R59, R74). -/
theorem enterDarkFail_left (r : Ramp) (s : State) (h : (s.ramps[r]).state = .metering) :
    ((enterDarkFail r s).ramps[r]).slot = (none, 0, .stopped, none, none, false)
    ∧ (enterDarkFail r s).rate[r] = RateRec.reset ∧ ((enterDarkFail r s).ramps[r]).attention = true
    ∧ (enterDarkFail r s).lanes = (orderDark r s).lanes ∧ (enterDarkFail r s).vectors = s.vectors
    ∧ ((enterDarkFail r s).ramps[r]).state = .darkFail := by
  have ho : (s.ramps[r]).state ≠ .off := by rw [h]; decide
  have one := (enterDarkFail_decided r s ho).one
  have e : enterDarkFail r s = arbitrateAfterMetering r (orderDark r (enter r .darkFail none .stopped s)) := by
    have e : decide ((s.ramps[r]).state = .metering) = true := decide_eq_true h
    unfold enterDarkFail; dsimp only; rw [e, if_pos rfl]
  rw [e] at one ⊢
  have ex := enter_ramp_left r .darkFail none .stopped s h
  have xr := enter_rest r .darkFail none .stopped s
  have xs := enter_core r .darkFail none .stopped s (by decide)
  have xl := enter_lanes r .darkFail none .stopped s
  generalize enter r .darkFail none .stopped s = x at *
  have ys := orderDark_side r x
  have yl : (orderDark r x).lanes = (orderDark r s).lanes := by
    unfold orderDark; exact orderLanes_congr _ r xl xs.tables xs.det
  generalize orderDark r x = y at *
  have yp : (y.ramps[r]).plain = (x.ramps[r]).plain := SameRamp.plain (ys.ramps r)
  have ya : (y.ramps[r]).attention = true := by
    rcases ys.ramps r with e | e <;> rw [e]; rw [ex]
  have zr := arbitrateAfterMetering_rest r y
  have zp := arbitrateAfterMetering_plain r y
  have za := (arbitrateAfterMetering_core r y).attention r ya
  have zf : ∀ {α : Type} (f : RampCtx → α), (∀ c : RampCtx, f c.plain = f c) →
      f (arbitrateAfterMetering r y).ramps[r] = f x.ramps[r] := fun f hf => by
    rw [← hf, zp, yp, hf]
  refine ⟨?_, one.left h ?_, za, zr.1.trans yl, zr.2.2.2.trans (ys.vectors.trans xr.1), ?_⟩
  · rw [zf RampCtx.slot fun _ => rfl, ex]; rfl
  · rw [zf (·.state) fun _ => rfl, ex]; intro x; cases x
  · rw [zf (·.state) fun _ => rfl, ex]

/-! ### The next slot -/

/-- Nothing of another ramp moves but its attention, which may be SET; no condition and no on-timer moves. -/
structure OnlyRamp (r : Ramp) (s t : State) : Prop where
  others : ∀ q : Ramp, q ≠ r → SameRamp s t q ∧ t.auth[q] = s.auth[q] ∧ t.rate[q] = s.rate[q]
  vectors : t.vectors = s.vectors
  onTimers : t.onTimers = s.onTimers

theorem OnlyRamp.trans {r : Ramp} {s t u : State} (a : OnlyRamp r s t) (b : OnlyRamp r t u) : OnlyRamp r s u :=
  ⟨fun q h => ⟨(a.others q h).1.trans (b.others q h).1, (b.others q h).2.1.trans (a.others q h).2.1,
    (b.others q h).2.2.trans (a.others q h).2.2⟩, b.vectors.trans a.vectors, b.onTimers.trans a.onTimers⟩

theorem OneRamp.only {r : Ramp} {s t : State} (a : OneRamp r s t) (h : t.vectors = s.vectors) : OnlyRamp r s t :=
  ⟨fun q hq => ⟨(a.others q hq).1, (a.others q hq).2.1, (a.others q hq).2.2.1⟩, h, a.onTimers⟩

theorem LaneSide.only {s t : State} (a : LaneSide s t) (r : Ramp) : OnlyRamp r s t :=
  ⟨fun q _ => ⟨a.ramps q, by rw [a.auth], by rw [a.rate]⟩, a.vectors, a.onTimers⟩

theorem modRamp_only (r : Ramp) (f : RampCtx → RampCtx) (s : State) : OnlyRamp r s (s.modRamp r f) := by
  refine ⟨fun q hq => ⟨Or.inl ?_, rfl, rfl⟩, rfl, rfl⟩
  rw [State.modRamp_ramps, vset_get, if_neg hq.symm]

theorem setRate_only (r : Ramp) (x : RateRec) (s : State) : OnlyRamp r s (s.setRate r x) := by
  refine ⟨fun q hq => ⟨.refl s q, rfl, ?_⟩, rfl, rfl⟩
  rw [State.setRate_rate, vset_get, if_neg hq.symm]

/-- A boundary's slot counted, its arbitration and its judgement (R67, R100). -/
def boundaryJudged (r : Ramp) (s : State) : State :=
  judge r (boundaryArbitration r (s.modRamp r fun c => { c with slotCount := satInc c.slotCount }))

theorem boundaryJudged_rest (r : Ramp) (s : State) : (boundaryJudged r s).lanes = s.lanes
    ∧ (boundaryJudged r s).out = s.out ∧ (boundaryJudged r s).rate = s.rate
    ∧ (boundaryJudged r s).auth[r] = ((s.auth[r]).refreshLower.arbitrate (actionRec s.tables r) s.time.corridor).1
    ∧ ((boundaryJudged r s).ramps[r]).plain
      = ({ s.ramps[r] with slotCount := satInc (s.ramps[r]).slotCount } : RampCtx).plain
    ∧ OnlyRamp r s (boundaryJudged r s) := by
  unfold boundaryJudged boundaryArbitration
  have o0 := modRamp_only r (fun c => { c with slotCount := satInc c.slotCount }) s
  have g0 := modRamp_get r (fun c => { c with slotCount := satInc c.slotCount }) s
  have f0 : ∀ t, t = (s.modRamp r fun c => { c with slotCount := satInc c.slotCount }) → t.lanes = s.lanes
      ∧ t.out = s.out ∧ t.rate = s.rate ∧ t.auth = s.auth ∧ t.tables = s.tables ∧ t.time = s.time :=
    fun t e => by rw [e]; exact ⟨rfl, rfl, rfl, rfl, rfl, rfl⟩
  have f0 := f0 _ rfl
  generalize (s.modRamp r fun c => { c with slotCount := satInc c.slotCount }) = a at *
  have d1 := (setRefreshLower_decided r a).one
  have g1 : (a.setAuth r (a.auth[r]).refreshLower).auth[r] = (a.auth[r]).refreshLower := by
    rw [State.setAuth_auth, vset_same]
  have f1 : ∀ t, t = a.setAuth r (a.auth[r]).refreshLower → t.lanes = a.lanes ∧ t.out = a.out ∧ t.rate = a.rate
      ∧ t.tables = a.tables ∧ t.time = a.time ∧ t.ramps = a.ramps ∧ t.vectors = a.vectors :=
    fun t e => by rw [e]; exact ⟨rfl, rfl, rfl, rfl, rfl, rfl, rfl⟩
  have f1 := f1 _ rfl
  generalize a.setAuth r (a.auth[r]).refreshLower = b at *
  have d2 := (arbitrateRamp_decided r b).one
  have r2 := arbitrateRamp_rest r b
  have p2 := arbitrateRamp_plain r b
  generalize (arbitrateRamp r b).1 = c at *
  have d3 := (judge_decided r c).one
  have r3 := judge_rest r c
  refine ⟨(r3.1.trans r2.1).trans (f1.1.trans f0.1), (r3.2.1.trans r2.2.1).trans (f1.2.1.trans f0.2.1),
    (r3.2.2.2.1.trans r2.2.2.1).trans (f1.2.2.1.trans f0.2.2.1), ?_, ?_,
    o0.trans ((d1.only f1.2.2.2.2.2.2).trans ((d2.only r2.2.2.2.1).trans (d3.only r3.2.2.2.2.1)))⟩
  · rw [r3.2.2.1, r2.2.2.2.2.2, g1, f0.2.2.2.1, f1.2.2.2.1, f0.2.2.2.2.1, f1.2.2.2.2.1, f0.2.2.2.2.2]
  · rw [judge_plain, p2, f1.2.2.2.2.2.1, g0]

/-- The slot started from a nominal length (R68, R69, R146). -/
theorem startSlot_get (r : Ramp) (len : Nat) (s : State) : (startSlot r len s).ramps[r] = { s.ramps[r] with
      slotLength := some (alignedSlot (aligns s s.ramps[r]) s.time.corridor (offsetOf s.tables r) len).1,
      aligned := (alignedSlot (aligns s s.ramps[r]) s.time.corridor (offsetOf s.tables r) len).2,
      slotClock := .running 0 }
    ∧ (startSlot r len s).lanes = s.lanes ∧ (startSlot r len s).out = s.out ∧ (startSlot r len s).auth = s.auth
    ∧ (startSlot r len s).rate = s.rate ∧ OnlyRamp r s (startSlot r len s) := by
  unfold startSlot; exact ⟨modRamp_get _ _ _, rfl, rfl, rfl, rfl, modRamp_only _ _ _⟩

/-- Steps 3 and 4 under a plan: what is adopted, and the slot and the record of the Rate Unit (R43, R50, R69, R83). -/
theorem meterPlan_get (r : Ramp) (n : Nat) (p : PlanRec) (s : State) (q : Nat × RateRec)
    (hq : q = nominalSlot p (if adoptedNumber s.ramps[r] ≠ some n then rateAdopted p else s.rate[r])) :
    (meterPlan r n p s).ramps[r] = { s.ramps[r] with
      adopted := some (adoptedOf n p)
      patternCount := nextPatternCount s.ramps[r] n p
      lastNominal := some q.1
      slotLength := some (alignedSlot (s.time.locked && p.coordinated) s.time.corridor (offsetOf s.tables r) q.1).1
      aligned := (alignedSlot (s.time.locked && p.coordinated) s.time.corridor (offsetOf s.tables r) q.1).2
      slotClock := .running 0
      attention := (s.ramps[r]).attention || decide (adoptedNumber s.ramps[r] ≠ some n) }
    ∧ (meterPlan r n p s).rate[r] = q.2 ∧ (meterPlan r n p s).lanes = s.lanes ∧ (meterPlan r n p s).out = s.out
    ∧ (meterPlan r n p s).auth = s.auth ∧ OnlyRamp r s (meterPlan r n p s) := by
  have hq' : q = nominalSlot p (if decide (adoptedNumber s.ramps[r] ≠ some n) = true then rateAdopted p else s.rate[r]) := by
    rw [hq]; by_cases h : adoptedNumber s.ramps[r] ≠ some n
    · rw [if_pos h, if_pos (decide_eq_true h)]
    · rw [if_neg h, if_neg (by rw [decide_eq_true_iff]; exact h)]
  unfold meterPlan; dsimp only
  rw [← hq']
  have a := attentionIf_side (decide (adoptedNumber s.ramps[r] ≠ some n)) r s
  have b := attentionIf_rest (decide (adoptedNumber s.ramps[r] ≠ some n)) r s
  have e := attentionIf_ramp (decide (adoptedNumber s.ramps[r] ≠ some n)) r s
  generalize decide (adoptedNumber s.ramps[r] ≠ some n) = d at *
  generalize attentionIf d r s = x at *
  have y1 := setRate_only r q.2 x
  have y2 : (x.setRate r q.2).rate[r] = q.2 := by rw [State.setRate_rate, vset_same]
  have y3 := modRamp_only r (fun d =>
    { d with adopted := some (adoptedOf n p), patternCount := nextPatternCount s.ramps[r] n p, lastNominal := some q.1 })
    (x.setRate r q.2)
  have y4 := modRamp_get r (fun d =>
    { d with adopted := some (adoptedOf n p), patternCount := nextPatternCount s.ramps[r] n p, lastNominal := some q.1 })
    (x.setRate r q.2)
  have y5 : ∀ t, t = ((x.setRate r q.2).modRamp r fun d =>
      { d with adopted := some (adoptedOf n p), patternCount := nextPatternCount s.ramps[r] n p,
               lastNominal := some q.1 }) → t.rate = (x.setRate r q.2).rate ∧ t.lanes = x.lanes ∧ t.out = x.out
      ∧ t.auth = x.auth ∧ t.time = x.time ∧ t.tables = x.tables := fun t h => by
    rw [h]; exact ⟨rfl, rfl, rfl, rfl, rfl, rfl⟩
  have y5 := y5 _ rfl
  generalize ((x.setRate r q.2).modRamp r fun d =>
      { d with adopted := some (adoptedOf n p), patternCount := nextPatternCount s.ramps[r] n p,
               lastNominal := some q.1 }) = y at *
  rw [State.setRate_ramps, e] at y4
  have z := startSlot_get r q.1 y
  refine ⟨?_, ?_, z.2.1.trans (y5.2.1.trans b.1), z.2.2.1.trans (y5.2.2.1.trans b.2),
    z.2.2.2.1.trans (y5.2.2.2.1.trans a.auth), (a.only r).trans (y1.trans (y3.trans z.2.2.2.2.2))⟩
  · have al : aligns y y.ramps[r] = (s.time.locked && p.coordinated) := by
      unfold aligns; rw [y4, y5.2.2.2.2.1, a.time]; rfl
    rw [z.1, al, y4, y5.2.2.2.2.1, y5.2.2.2.2.2, a.time, a.tables]
  · rw [z.2.2.2.2.1, y5.1, y2]

/-! ### Offers -/

theorem forEach_map {α β : Type} (g : α → β) (f : β → State → State) (l : List α) (s : State) :
    forEach (l.map g) f s = forEach l (fun a => f (g a)) s := by
  induction l generalizing s with
  | nil => rfl
  | cons a l ih => exact ih _

/-- The lanes of a list whose positions pass a test. -/
def picked (f : Nat → Bool) (ls : List Lane) : List Lane := (ls.zipIdx.filter fun p => f p.2).map (·.1)

theorem picked_nodup (f : Nat → Bool) {ls : List Lane} (h : ls.Nodup) : (picked f ls).Nodup := by
  have : (picked f ls).Sublist (ls.zipIdx.map (·.1)) := List.Sublist.map _ List.filter_sublist
  rw [List.zipIdx_map_fst] at this
  exact this.nodup h

/-- With each lane listed once, a lane is picked where its own position passes. -/
theorem picked_mem (f : Nat → Bool) {ls : List Lane} (h : ls.Nodup) {i : Nat} {l : Lane} (hi : ls[i]? = some l) :
    l ∈ picked f ls ↔ f i = true := by
  unfold picked
  simp only [List.mem_map, List.mem_filter, Prod.exists, exists_and_right, exists_eq_right,
    List.mem_zipIdx_iff_getElem?]
  constructor
  · rintro ⟨j, hj, hf⟩
    have : i = j := by
      rw [List.getElem?_eq_some_iff] at hi hj
      obtain ⟨a, ha⟩ := hi
      obtain ⟨b, hb⟩ := hj
      exact (List.Nodup.getElem_inj_iff h).1 (ha.trans hb.symm)
    rw [this]; exact hf
  · intro hf; exact ⟨i, hi, hf⟩

theorem picked_listed (f : Nat → Bool) {ls : List Lane} {l : Lane} (h : l ∈ picked f ls) : l ∈ ls := by
  unfold picked at h
  simp only [List.mem_map, List.mem_filter, Prod.exists, exists_and_right, exists_eq_right,
    List.mem_zipIdx_iff_getElem?] at h
  obtain ⟨j, hj, _⟩ := h
  exact List.mem_of_getElem? hj

theorem makeOffers_eq (r : Ramp) (s : State) : makeOffers r s
    = forEach (picked (offersAt s.ramps[r]) (lanesOf s.tables r)) (orderLane laneOffer) s :=
  (forEach_map _ _ _ _).symm

end Sys2Proof.Machine
end

