-- ==== Sys2Proof/Laws/Places.lean ====
section
/-! SUPPORT. Where an event of one ramp's units reaches (`Reach`): the ramp's own lanes and channels, and no latched fault
is unlatched. One lemma for each operation, as in Laws/OneRamp.lean; then what belonging says, and the ramps apart. -/

namespace Sys2Proof.Machine

/-- Only listed lanes and channels of the ramp move, a latched fault stays, and none latches where no driver is silent. -/
structure Reach (r : Ramp) (s t : State) : Prop where
  tables : t.tables = s.tables
  lanes : ∀ l : Lane, l ∉ lanesOf s.tables r → t.lanes[l] = s.lanes[l]
  chans : ∀ ch : OutCh, belongs s.tables r ch = false → t.out.chans[ch] = s.out.chans[ch]
  faults : ∀ ch : OutCh, (s.out.chans[ch]).fault = true → (t.out.chans[ch]).fault = true
  sound : (∀ d ∈ s.out.drivers, d.silence ≠ .expired) → t.out.drivers = s.out.drivers
    ∧ ∀ ch : OutCh, (s.out.chans[ch]).fault = false → (t.out.chans[ch]).fault = false

namespace Reach

theorem refl (r : Ramp) (s : State) : Reach r s s :=
  ⟨rfl, fun _ _ => rfl, fun _ _ => rfl, fun _ h => h, fun _ => ⟨rfl, fun _ h => h⟩⟩

theorem trans {r : Ramp} {s t u : State} (a : Reach r s t) (b : Reach r t u) : Reach r s u where
  tables := b.tables.trans a.tables
  lanes l h := (b.lanes l (by rw [a.tables]; exact h)).trans (a.lanes l h)
  chans ch h := (b.chans ch (by rw [a.tables]; exact h)).trans (a.chans ch h)
  faults ch h := b.faults ch (a.faults ch h)
  sound hd := by
    have x := a.sound hd
    have y := b.sound (by rw [x.1]; exact hd)
    exact ⟨y.1.trans x.1, fun ch h => y.2 ch (x.2 ch h)⟩

/-- Neither lanes nor channels move. -/
theorem still {s t : State} (r : Ramp) (ht : t.tables = s.tables) (hl : t.lanes = s.lanes) (ho : t.out = s.out) :
    Reach r s t := ⟨ht, fun _ _ => by rw [hl], fun _ _ => by rw [ho], fun _ h => by rw [ho]; exact h,
    fun _ => ⟨by rw [ho], fun _ h => by rw [ho]; exact h⟩⟩

end Reach

/-! ### What belongs to a ramp -/

theorem belongs_iff (t : Tables) (r : Ramp) (ch : OutCh) :
    belongs t r ch = true ↔ beaconOf t r = some ch ∨ ∃ l ∈ lanesOf t r, headOf t l = some ch := by
  unfold belongs
  rw [Bool.or_eq_true, List.any_eq_true]
  simp

theorem failsafeCause_iff (s : State) (r : Ramp) : failsafeCause s r = true
    ↔ s.ring.quiet = true ∨ ∃ ch : OutCh, belongs s.tables r ch = true ∧ (s.out.chans[ch]).fault = true := by
  unfold failsafeCause faultedChannels
  rw [Bool.or_eq_true, Bool.not_eq_true']
  refine or_congr_right ⟨fun h => ?_, fun ⟨ch, hb, hf⟩ => ?_⟩
  · by_contra hc
    have e : ((List.finRange 16).filter fun ch => belongs s.tables r ch && (s.out.chans[ch]).fault) = [] := by
      rw [List.filter_eq_nil_iff]
      intro ch _ hx
      rw [Bool.and_eq_true] at hx
      exact hc ⟨ch, hx⟩
    rw [e] at h; cases h
  · rw [List.isEmpty_eq_false_iff, ← List.length_pos_iff, List.length_filter_pos_iff]
    exact ⟨ch, List.mem_finRange ch, by rw [hb, hf]; rfl⟩

/-- Ramps apart share no channel. -/
theorem Tables.Apart.channels {t : Tables} (h : t.Apart) {q r : Ramp} (hq : q ≠ r) {ch : OutCh}
    (hb : belongs t r ch = true) : belongs t q ch = false := by
  rw [← Bool.not_eq_true, belongs_iff]
  rw [belongs_iff] at hb
  rintro (e | ⟨l, hl, e⟩) <;> rcases hb with f | ⟨k, hk, f⟩
  · exact h.beacons r q ch hq f e
  · exact h.beaconHead q k ch e f
  · exact h.beaconHead r l ch f e
  · have : l ≠ k := by rintro rfl; exact h.lanes r q hq l hk hl
    exact h.heads k l ch this f e

/-! ### One channel, one lane -/

theorem judgeSilence_fault (ch c : OutCh) (s : State) (h : (s.out.chans[c]).fault = true) :
    ((judgeSilence ch s).out.chans[c]).fault = true := by
  by_cases hc : c = ch
  · subst hc
    unfold judgeSilence; split
    · split
      · rw [(latchFault_get _ _).2.1]
      · exact h
    · exact h
  · rw [(judgeSilence_get ch s).2.2 c hc]; exact h

theorem setAspect_fault (ch c : OutCh) (a : Aspect) (s : State) (h : (s.out.chans[c]).fault = true) :
    ((setAspect ch a s).out.chans[c]).fault = true := by
  have d : ∀ t : State, (dueSigOf ch t).out.chans = t.out.chans := by
    intro t; unfold dueSigOf; split <;> rfl
  unfold setAspect; split
  · exact h
  · have m : ((judgeMismatch ch (dueSigOf ch (s.setOut ch { s.out.chans[ch] with commanded := a }))).out.chans[c]).fault
        = true := by
      rw [judgeMismatch_fault, d, State.setOut_out]; dsimp only; rw [vset_get]; split
      · next e => subst e; exact h
      · exact h
    unfold judgeLit; split
    · exact judgeSilence_fault _ _ _ m
    · exact m

theorem setAspect_reach {r : Ramp} {ch : OutCh} {a : Aspect} {s : State} (h : belongs s.tables r ch = true) :
    Reach r s (setAspect ch a s) :=
  ⟨(setAspect_side ch a s).tables, fun _ _ => by rw [(setAspect_get ch a s).1],
    fun c hc => (setAspect_get ch a s).2.2 c (by rintro rfl; rw [h] at hc; cases hc),
    fun c hc => setAspect_fault ch c a s hc,
    fun hd => ⟨(setAspect_side ch a s).drivers, (setAspect_side ch a s).sound hd⟩⟩

theorem commandBeacon_reach (r : Ramp) (a : Aspect) (s : State) : Reach r s (commandBeacon r a s) := by
  unfold commandBeacon; split
  · next ch e => exact setAspect_reach ((belongs_iff _ _ _).2 (Or.inl e))
  · exact .refl r s

theorem orderLane_reach {r : Ramp} {l : Lane} (f : LaneRec → Bool → LaneCtx → LaneCtx) {s : State}
    (h : l ∈ lanesOf s.tables r) : Reach r s (orderLane f l s) := by
  unfold orderLane; split
  · next c e =>
    have k : ∀ x, Reach r s (s.setLane l x) := fun x =>
      ⟨rfl, fun k hk => by rw [State.setLane_lanes, vset_get, if_neg (by rintro rfl; exact hk h)], fun _ _ => rfl,
        fun _ x => x, fun _ => ⟨rfl, fun _ x => x⟩⟩
    unfold putLane; rw [e]; dsimp only
    refine (k _).trans (setAspect_reach ((belongs_iff _ _ _).2 (Or.inr ⟨l, h, ?_⟩)))
    unfold headOf; rw [State.setLane_tables, e]; rfl
  · exact .refl r s

theorem forEach_orderLane_reach {r : Ramp} (f : LaneRec → Bool → LaneCtx → LaneCtx) (ls : List Lane) (s : State)
    (h : ∀ l ∈ ls, l ∈ lanesOf s.tables r) : Reach r s (forEach ls (orderLane f) s) := by
  induction ls generalizing s with
  | nil => exact .refl r s
  | cons a ls ih =>
    have o := orderLane_reach f (h a List.mem_cons_self)
    exact o.trans (ih _ fun l hl => by rw [o.tables]; exact h l (List.mem_cons_of_mem a hl))

theorem orderLanes_reach (f : LaneRec → Bool → LaneCtx → LaneCtx) (r : Ramp) (s : State) : Reach r s (orderLanes f r s) :=
  forEach_orderLane_reach f _ s fun _ h => h

/-! ### The ramp's operations -/

theorem attentionIf_reach (b : Bool) (q r : Ramp) (s : State) : Reach r s (attentionIf b q s) :=
  .still r (attentionIf_side b q s).tables (attentionIf_rest b q s).1 (attentionIf_rest b q s).2

theorem judge_reach (r : Ramp) (s : State) : Reach r s (judge r s) :=
  .still r (judge_side r s).tables (judge_rest r s).1 (judge_rest r s).2.1

theorem arbitrateRamp_reach (r : Ramp) (s : State) : Reach r s (arbitrateRamp r s).1 :=
  .still r (arbitrateRamp_core r s).tables (arbitrateRamp_rest r s).1 (arbitrateRamp_rest r s).2.1

theorem enter_reach (r : Ramp) (st : RampState) (ph : Option ClearPhase) (tm : Timer) (s : State) :
    Reach r s (enter r st ph tm s) := by
  have e : Reach r s ((leaveMetering r s).modRamp r fun c =>
      { c with state := st, clearPhase := ph, phaseTimer := tm, attention := true }) := by
    unfold leaveMetering; split <;> exact .still r rfl rfl rfl
  exact e.trans (commandBeacon_reach r _ _)

theorem arbitrateAfterMetering_reach (r : Ramp) (s : State) : Reach r s (arbitrateAfterMetering r s) :=
  .still r (arbitrateAfterMetering_core r s).tables (arbitrateAfterMetering_rest r s).1
    (arbitrateAfterMetering_rest r s).2.1

theorem shutClearDone_reach (r : Ramp) (s : State) : Reach r s (shutClearDone r s) := by
  unfold shutClearDone; split
  · exact enter_reach r _ _ _ s
  · exact .refl r s

theorem enterShutClear_reach (r : Ramp) (s : State) : Reach r s (enterShutClear r s) := by
  have a := ((enter_reach r .shutClear none .stopped s).trans (orderLanes_reach (fun _ _ x => laneFlush x) r _)).trans
    (shutClearDone_reach r _)
  unfold enterShutClear; dsimp only; split
  · exact a.trans (arbitrateAfterMetering_reach r _)
  · exact a

theorem enterDarkFail_reach (r : Ramp) (s : State) : Reach r s (enterDarkFail r s) := by
  have a := (enter_reach r .darkFail none .stopped s).trans (orderLanes_reach (fun _ _ x => laneDark x) r _)
  unfold enterDarkFail; dsimp only; split
  · exact a.trans (arbitrateAfterMetering_reach r _)
  · exact a

theorem enterOff_reach (r : Ramp) (s : State) : Reach r s (enterOff r s) := by
  have a : Reach r s (orderDark r (enter r .off none .stopped s)) :=
    (enter_reach r .off none .stopped s).trans (orderLanes_reach (fun _ _ x => laneDark x) r _)
  unfold enterOff; dsimp only
  generalize orderDark r (enter r .off none .stopped s) = x at *
  exact a.trans (.still r rfl rfl rfl)

theorem standbyActs_reach (r : Ramp) (s : State) : Reach r s (standbyActs r s) := by
  unfold standbyActs; split
  · exact enter_reach r _ _ _ s
  · exact .refl r s

theorem enterStandby_reach (r : Ramp) (s : State) : Reach r s (enterStandby r s) :=
  (((enter_reach r .standby none .stopped s).trans (orderLanes_reach (fun _ _ x => laneDark x) r _)).trans
    (judge_reach r _)).trans (standbyActs_reach r _)

theorem enterOffOrStandby_reach (r : Ramp) (s : State) : Reach r s (enterOffOrStandby r s) := by
  unfold enterOffOrStandby; split
  · exact enterOff_reach r s
  · exact enterStandby_reach r s

theorem actOnDemand_reach (r : Ramp) (s : State) : Reach r s (actOnDemand r s) := by
  unfold actOnDemand; split
  · exact standbyActs_reach r s
  · split
    · exact enterOffOrStandby_reach r s
    · exact .refl r s
  · split
    · exact enter_reach r _ _ _ s
    · exact .refl r s
  all_goals exact .refl r s

theorem startingTakes_reach (r : Ramp) (s : State) : Reach r s (startingTakes r s) := by
  unfold startingTakes; split
  · exact enterDarkFail_reach r s
  · exact actOnDemand_reach r s

theorem meteringTakes_reach (r : Ramp) (old : Effective) (s : State) : Reach r s (meteringTakes r old s) := by
  unfold meteringTakes; split
  · exact enterDarkFail_reach r s
  · exact enterShutClear_reach r s
  · exact orderLanes_reach _ r s
  · exact orderLanes_reach _ r s
  · exact orderLanes_reach _ r s
  · split
    · split
      · exact .refl r s
      · exact enterShutClear_reach r s
    · exact orderLanes_reach _ r s

theorem takeResult_reach (r : Ramp) (old : Effective) (s : State) : Reach r s (takeResult r old s) := by
  unfold takeResult; split
  · exact .refl r s
  · exact standbyActs_reach r s
  · exact meteringTakes_reach r old s
  · split
    · exact .refl r s
    · exact enterOffOrStandby_reach r s
  all_goals exact startingTakes_reach r s

theorem decisionPoint_reach (r : Ramp) (s : State) : Reach r s (decisionPoint r s) := by
  unfold decisionPoint; dsimp only; split
  · exact ((arbitrateRamp_reach r s).trans (judge_reach r _)).trans (takeResult_reach r _ _)
  · exact arbitrateRamp_reach r s

theorem setAuth_reach (r : Ramp) (x : AuthUnit) (s : State) : Reach r s (s.setAuth r x) := .still r rfl rfl rfl

theorem sourceChanged_reach (r : Ramp) (k : Source) (s : State) : Reach r s (sourceChanged r k s) := by
  unfold sourceChanged; split
  · exact .refl r s
  · split
    · exact .refl r s
    · split
      · exact .refl r s
      · exact (setAuth_reach r _ s).trans (decisionPoint_reach r _)

theorem expireFirst_reach (r : Ramp) (k : Source) (v : Bool) (s : State) : Reach r s (expireFirst r k v s) := by
  unfold expireFirst; split
  · unfold holdExpired; split
    · exact (setAuth_reach r _ s).trans (decisionPoint_reach r _)
    · exact .refl r s
  · exact .refl r s

theorem setAsserted_reach (r : Ramp) (k : Source) (v : Bool) (s : State) : Reach r s (setAsserted r k v s) := by
  unfold setAsserted; split
  · exact .refl r s
  · exact ((expireFirst_reach r k v s).trans (setAuth_reach r _ _)).trans (sourceChanged_reach r k _)

theorem judgeFailsafe_reach (r : Ramp) (s : State) : Reach r s (judgeFailsafe r s) := setAsserted_reach r 0 _ s

end Sys2Proof.Machine
end

