-- ==== Sys2Proof/Laws/Decisions.lean ====
section
/-! SUPPORT. What the Ramp Controller does at a decision point: the state a ramp is brought to (`Entered`), its lanes and
heads, its slot and its unit, one lemma for each way a result is taken. -/

namespace Sys2Proof.Machine

/-! ### An arbitration, source by source (R105) -/

namespace AuthUnit

theorem dropHolds_source (l : List Source) (a : AuthUnit) (j : Source) :
    (a.dropHolds l).sources[j] = if j ∈ l then { a.sources[j] with hold := none } else a.sources[j] := by
  induction l generalizing a with
  | nil => simp [dropHolds]
  | cons k l ih =>
    have e : a.dropHolds (k :: l) = (a.dropHold k).dropHolds l := rfl
    rw [e, ih, dropHold, setSource_get]
    by_cases h : k = j
    · subst h; simp
    · have h' : ¬ j = k := fun x => h x.symm
      rw [if_neg h]; simp [h']

/-- Step 1 of R105, source by source. -/
theorem prune_source (a : AuthUnit) (j : Source) : a.prune.sources[j]
    = if j ∈ a.stack ∧ (a.sources[j]).standing = false then { a.sources[j] with hold := none } else a.sources[j] := by
  have e : a.prune.sources[j] = (a.dropHolds (a.stack.filter fun k => !(a.sources[k]).standing)).sources[j] := rfl
  rw [e, dropHolds_source]; simp

theorem dropHolds_lastGrant (l : List Source) (a : AuthUnit) : (a.dropHolds l).lastGrant = a.lastGrant := by
  induction l generalizing a with
  | nil => rfl
  | cons k l ih => exact ih (a.dropHold k)

theorem prune_lastGrant (a : AuthUnit) : a.prune.lastGrant = a.lastGrant := dropHolds_lastGrant _ a

theorem vacate_lastGrant (a : AuthUnit) : a.vacate.lastGrant = a.lastGrant := dropHolds_lastGrant _ a

theorem winner_of {a : AuthUnit} {w : Source} (h : (a.sources[w]).standing = true)
    (hl : ∀ k : Source, k < w → (a.sources[k]).standing = false) : a.winner = some w := by
  cases e : a.winner with
  | none =>
    have := (List.find?_eq_none.1 e) w (List.mem_finRange w)
    rw [h] at this; exact absurd rfl this
  | some j =>
    have q := winner_spec e
    have le := q.2 w h
    by_contra n
    have := hl j (lt_of_le_of_ne le fun x => n (by rw [x]))
    rw [q.1] at this; cases this

theorem winner_none {a : AuthUnit} (h : ∀ k : Source, (a.sources[k]).standing = false) : a.winner = none := by
  unfold winner; rw [List.find?_eq_none]; intro k _; rw [h k]; decide

/-- Step 4 of R105, source by source. -/
theorem suspend_source (a : AuthUnit) (j : Source) :
    (a.holder ≠ some j → a.suspend.sources[j] = a.sources[j])
    ∧ (a.holder = some j → (a.sources[j]).standing = false → a.suspend.sources[j] = { a.sources[j] with hold := none })
    ∧ (a.holder = some j → (a.sources[j]).standing = true → (a.sources[j]).hold = some (.running 0) →
        a.suspend.sources[j] = { a.sources[j] with spent := true, standing := false, hold := none })
    ∧ (a.holder = some j → (a.sources[j]).standing = true → (a.sources[j]).hold ≠ some (.running 0) →
        (∀ n, (a.sources[j]).hold = some (.running n) → a.suspend.sources[j] = { a.sources[j] with hold := some (.paused n) })
        ∧ ((∀ n, (a.sources[j]).hold ≠ some (.running n)) → a.suspend.sources[j] = a.sources[j])) := by
  unfold suspend
  refine ⟨fun n => ?_, fun e s => ?_, fun e s z => ?_, fun e s z => ?_⟩
  · split
    · rfl
    · next h e =>
      have n' : h ≠ j := by rintro rfl; exact n e
      have f : ∀ x, ((a.setSource h x).sources[j]) = a.sources[j] := fun x => by rw [setSource_get, if_neg n']
      split
      · split
        · exact f _
        · exact f _
      · exact f _
  all_goals rw [e]; dsimp only
  · rw [if_neg (by rw [s]; decide)]; exact setSource_same _ _ _
  · rw [if_pos s, if_pos z]; exact setSource_same _ _ _
  · rw [if_pos s, if_neg z]
    have f : ∀ x, ((a.setSource j x).sources[j]) = x := fun x => setSource_same a j x
    refine ⟨fun n k => (f _).trans (by rw [k]), fun n => (f _).trans ?_⟩
    generalize a.sources[j] = y at *
    cases y with | mk a1 a2 a3 a4 a5 hd =>
    dsimp only at n ⊢
    rcases hd with _ | hd
    · rfl
    · cases hd with
      | running m => exact absurd rfl (n m)
      | paused m => rfl
      | uncapped => rfl

theorem suspend_stack (a : AuthUnit) :
    (a.holder = none → a.suspend.stack = a.stack)
    ∧ ∀ h : Source, a.holder = some h →
      ((a.sources[h]).standing = false → a.suspend.stack = a.stack)
      ∧ ((a.sources[h]).standing = true → (a.sources[h]).hold = some (.running 0) → a.suspend.stack = a.stack)
      ∧ ((a.sources[h]).standing = true → (a.sources[h]).hold ≠ some (.running 0) → a.suspend.stack = h :: a.stack) := by
  unfold suspend
  refine ⟨fun e => by rw [e], fun h e => ⟨fun s => ?_, fun s z => ?_, fun s z => ?_⟩⟩ <;> rw [e] <;> dsimp only
  · rw [if_neg (by rw [s]; decide)]; rfl
  · rw [if_pos s, if_pos z]; rfl
  · rw [if_pos s, if_neg z]; rfl

/-- Step 5 of R105, field by field. -/
theorem grant_spec (a : AuthUnit) (w : Source) (rec : Option ActionRec) (now : Nat) :
    (a.grant w rec now).holder = some w ∧ (a.grant w rec now).granted = some (grantedAction w rec)
    ∧ (∀ k : Source, k ≠ w → (a.grant w rec now).sources[k] = a.sources[k])
    ∧ (w ∉ a.stack → (a.grant w rec now).lastGrant = some ⟨w, now, .fresh⟩ ∧ (a.grant w rec now).stack = a.stack
      ∧ (a.grant w rec now).sources[w] = { a.sources[w] with hold := some (freshHold w rec) })
    ∧ (w ∈ a.stack → (a.grant w rec now).lastGrant = some ⟨w, now, .resumed⟩
      ∧ (a.grant w rec now).stack = a.stack.filter (· ≠ w)
      ∧ (a.grant w rec now).sources[w] = { a.sources[w] with hold := (a.sources[w]).hold.map Hold.resume }) := by
  have f : ∀ (x : SourceRec) (k : Source), k ≠ w → (a.setSource w x).sources[k] = a.sources[k] := fun x k n => by
    rw [setSource_get, if_neg n.symm]
  unfold grant; split
  · next m => exact ⟨rfl, rfl, f _, fun n => absurd m n, fun _ => ⟨rfl, rfl, setSource_same _ _ _⟩⟩
  · next m => exact ⟨rfl, rfl, f _, fun _ => ⟨rfl, rfl, setSource_same _ _ _⟩, fun n => absurd n m⟩

end AuthUnit

/-! ### Demands -/

/-- The effective action and the demands depend on the tables, the granted action, the mode and the auto plan (R60, R61). -/
theorem demand_congr {r : Ramp} {s t : State} (ht : t.tables = s.tables)
    (hg : (t.auth[r]).granted = (s.auth[r]).granted) (hm : (t.ramps[r]).mode = (s.ramps[r]).mode)
    (ha : (t.ramps[r]).autoPlan = (s.ramps[r]).autoPlan) : effectiveAction t r = effectiveAction s r
    ∧ startDemand t r = startDemand s r ∧ stopDemand t r = stopDemand s r := by
  have e : effectiveAction t r = effectiveAction s r := by
    unfold effectiveAction autoJudged planSet; rw [hg, ht, ha]
  have p : stopDemand t r = stopDemand s r := by unfold stopDemand; rw [e, hm]
  exact ⟨e, by unfold startDemand; rw [e, p], p⟩

theorem startDemand_stop {s : State} {r : Ramp} (h : stopDemand s r = true) : startDemand s r = false := by
  unfold startDemand; rw [h]; simp

theorem judge_autoPlan (r : Ramp) (s : State) : ((judge r s).ramps[r]).autoPlan = (s.ramps[r]).autoPlan := by
  have e : ((judge r s).ramps[r]).plain.autoPlan = (s.ramps[r]).plain.autoPlan := by rw [judge_plain]
  exact e

/-- A judgement finds the same again. -/
theorem judge_demand (r : Ramp) (s : State) : effectiveAction (judge r s) r = effectiveAction s r
    ∧ startDemand (judge r s) r = startDemand s r ∧ stopDemand (judge r s) r = stopDemand s r :=
  demand_congr (judge_side r s).tables (by rw [(judge_rest r s).2.2.1]) (judge_mode r s) (judge_autoPlan r s)

/-- The demand that stands behind a judgement is the one it finds (R61). -/
theorem judge_stopStands (r : Ramp) (s : State) : ((judge r s).ramps[r]).stopStands = stopDemand (judge r s) r := by
  rw [(judge_demand r s).2.2]
  unfold judge; rw [attentionIf_ramp, modRamp_get]

/-- An order to the lanes changes no demand. -/
theorem LaneSide.demand {s t : State} (a : LaneSide s t) (r : Ramp) : effectiveAction t r = effectiveAction s r
    ∧ startDemand t r = startDemand s r ∧ stopDemand t r = stopDemand s r :=
  demand_congr a.tables (by rw [a.auth]) (a.mode r) (SameRamp.field (a.ramps r) (·.autoPlan) fun _ => rfl)

/-! ### A state entered -/

theorem enter_plain (r : Ramp) (st : RampState) (ph : Option ClearPhase) (tm : Timer) (s : State) :
    (enter r st ph tm s).ramps[r] = { (if (s.ramps[r]).state = .metering then (s.ramps[r]).leaveMetering
      else s.ramps[r]) with state := st, clearPhase := ph, phaseTimer := tm, attention := true } := by
  by_cases h : (s.ramps[r]).state = .metering
  · rw [if_pos h, enter_ramp_left r st ph tm s h]
  · rw [if_neg h, enter_ramp r st ph tm s h]

theorem enter_autoPlan (r : Ramp) (st : RampState) (ph : Option ClearPhase) (tm : Timer) (s : State) :
    ((enter r st ph tm s).ramps[r]).autoPlan = (s.ramps[r]).autoPlan := by
  rw [enter_plain]; split <;> rfl

/-- Entering a state leaves the demands as they stood. -/
theorem enter_demand (r : Ramp) (st : RampState) (ph : Option ClearPhase) (tm : Timer) (s : State)
    (hp : ph.isSome = true ↔ st = .startClear) :
    effectiveAction (enter r st ph tm s) r = effectiveAction s r
    ∧ startDemand (enter r st ph tm s) r = startDemand s r ∧ stopDemand (enter r st ph tm s) r = stopDemand s r :=
  demand_congr (enter_core r st ph tm s hp).tables (by rw [(enter_rest r st ph tm s).2.1]) (enter_mode r st ph tm s)
    (enter_autoPlan r st ph tm s)

theorem commandBeacon_get {r : Ramp} {ch : OutCh} {s : State} (a : Aspect) (h : beaconOf s.tables r = some ch) :
    ((commandBeacon r a s).out.chans[ch]).commanded = a := by
  unfold commandBeacon; rw [h]; exact (setAspect_get ch a s).2.1

theorem enter_beacon {r : Ramp} {ch : OutCh} (st : RampState) (ph : Option ClearPhase) (tm : Timer) (s : State)
    (h : beaconOf s.tables r = some ch) : ((enter r st ph tm s).out.chans[ch]).commanded = beaconAspect st := by
  have ht : (leaveMetering r s).tables = s.tables := by unfold leaveMetering; split <;> rfl
  unfold enter
  refine commandBeacon_get (beaconAspect st) ?_
  rw [State.modRamp_tables, ht]; exact h

theorem enter_entered (r : Ramp) (st : RampState) (tm : Timer) (s : State) (hp : st ≠ .startClear) :
    Entered r st tm (enter r st none tm s) := by
  have e := enter_plain r st none tm s
  refine ⟨by rw [e], by rw [e], by rw [e], by rw [e], fun ch h => ?_⟩
  have ht : (leaveMetering r s).tables = s.tables := by unfold leaveMetering; split <;> rfl
  rw [(enter_core r st none tm s (by simp [hp])).tables] at h
  unfold enter
  refine commandBeacon_get (beaconAspect st) ?_
  rw [State.modRamp_tables, ht]; exact h

/-- What follows an entry and leaves the ramp's state and its beacon. -/
theorem Entered.kept {r : Ramp} {st : RampState} {tm : Timer} {s t : State} (a : Entered r st tm s)
    (ht : t.tables = s.tables) (hr : ((t.ramps[r]).plain) = (s.ramps[r]).plain)
    (hn : (s.ramps[r]).attention = true → (t.ramps[r]).attention = true)
    (hb : ∀ ch : OutCh, beaconOf s.tables r = some ch →
      (s.out.chans[ch]).commanded = beaconAspect st → (t.out.chans[ch]).commanded = beaconAspect st) :
    Entered r st tm t := by
  have f : ∀ {α : Type} (f : RampCtx → α), (∀ c : RampCtx, f c.plain = f c) → f t.ramps[r] = f s.ramps[r] :=
    fun f hf => by rw [← hf, hr, hf]
  exact ⟨(f (·.state) fun _ => rfl).trans a.state, (f (·.clearPhase) fun _ => rfl).trans a.phase,
    (f (·.phaseTimer) fun _ => rfl).trans a.timer, hn a.attention,
    fun ch h => hb ch (ht ▸ h) (a.beacon ch (ht ▸ h))⟩

theorem Entered.judged {r : Ramp} {st : RampState} {tm : Timer} {s : State} (a : Entered r st tm s) :
    Entered r st tm (judge r s) :=
  a.kept (judge_side r s).tables (judge_plain r s) ((judge_side r s).attention r)
    fun ch _ h => by rw [(judge_rest r s).2.1]; exact h

theorem Entered.arbitrated {r : Ramp} {st : RampState} {tm : Timer} {s : State} (a : Entered r st tm s) :
    Entered r st tm (arbitrateRamp r s).1 :=
  a.kept (arbitrateRamp_core r s).tables (arbitrateRamp_plain r s) ((arbitrateRamp_core r s).attention r)
    fun ch _ h => by rw [(arbitrateRamp_rest r s).2.1]; exact h

theorem Entered.after {r : Ramp} {st : RampState} {tm : Timer} {s : State} (a : Entered r st tm s) :
    Entered r st tm (arbitrateAfterMetering r s) :=
  a.kept (arbitrateAfterMetering_core r s).tables (arbitrateAfterMetering_plain r s)
    ((arbitrateAfterMetering_core r s).attention r)
    fun ch _ h => by rw [(arbitrateAfterMetering_rest r s).2.1]; exact h

/-- An order to the lanes leaves a beacon that is no head, and a DARK one where the order is DARK. -/
theorem orderLanes_beacon (f : LaneRec → Bool → LaneCtx → LaneCtx) (ls : List Lane) (ch : OutCh) (s : State)
    (h : (∀ l : Lane, headOf s.tables l ≠ some ch)
      ∨ (s.out.chans[ch]).commanded = .dark ∧ ∀ c b x, laneAspect (f c b x).state = .dark) :
    ((forEach ls (orderLane f) s).out.chans[ch]).commanded = (s.out.chans[ch]).commanded := by
  induction ls generalizing s with
  | nil => rfl
  | cons a ls ih =>
    have ft := (orderLane_frame f a s).1
    have k : ((orderLane f a s).out.chans[ch]).commanded = (s.out.chans[ch]).commanded := by
      by_cases e : headOf s.tables a = some ch
      · rcases h with h | ⟨hd, ha⟩
        · exact absurd e (h a)
        · cases ec : s.tables.laneCfg[a] with
          | none => unfold headOf at e; rw [ec] at e; cases e
          | some c =>
            have : ch = c.head := by unfold headOf at e; rw [ec] at e; cases e; rfl
            rw [this, (orderLane_get f ec).2, ha, ← this, hd]
      · rw [orderLane_head_other f s e]
    show ((forEach ls (orderLane f) (orderLane f a s)).out.chans[ch]).commanded = _
    rw [ih (orderLane f a s) (by rw [ft, k]; exact h), k]

theorem Entered.ordered {r : Ramp} {st : RampState} {tm : Timer} {s : State} (a : Entered r st tm s)
    (f : LaneRec → Bool → LaneCtx → LaneCtx) (sd : LaneSide s (orderLanes f r s))
    (h : s.tables.Apart ∨ beaconAspect st = .dark ∧ ∀ c b x, laneAspect (f c b x).state = .dark) :
    Entered r st tm (orderLanes f r s) :=
  a.kept sd.tables (SameRamp.plain (sd.ramps r)) (sd.ramp.attention r) fun ch hb e => by
    unfold orderLanes
    rw [orderLanes_beacon f _ ch s ?_, e]
    rcases h with h | ⟨hd, ha⟩
    · exact Or.inl fun l => h.beaconHead r l ch hb
    · exact Or.inr ⟨e.trans hd, ha⟩

/-! ### Heads -/

theorem orderLanes_heads (f : LaneRec → Bool → LaneCtx → LaneCtx) (r : Ramp) (s : State) (h : s.tables.Apart)
    (ht : (orderLanes f r s).tables = s.tables) : HeadsShow r (orderLanes f r s) := by
  intro l hl ch hc
  rw [ht] at hl hc
  cases ec : s.tables.laneCfg[l] with
  | none => unfold headOf at hc; rw [ec] at hc; cases hc
  | some c =>
    have e : c.head = ch := by unfold headOf at hc; rw [ec] at hc; cases hc; rfl
    subst e
    exact ((orderLanes_spec f r s (h.once r)).2 l c hl ec).2 fun k _ hk => h.heads l k c.head hk hc

/-- An order behind something that moves no lane: each lane's record, the heads and the beacon. -/
theorem ordered_spec (f : LaneRec → Bool → LaneCtx → LaneCtx) (r : Ramp) (s t : State) (hn : (lanesOf s.tables r).Nodup)
    (ht : t.tables = s.tables) (hl : t.lanes = s.lanes) (sd : ∀ s, LaneSide s (orderLanes f r s)) :
    (∀ l : Lane, l ∉ lanesOf s.tables r → (orderLanes f r t).lanes[l] = s.lanes[l])
    ∧ (∀ (l : Lane) (c : LaneRec), l ∈ lanesOf s.tables r → s.tables.laneCfg[l] = some c →
        (orderLanes f r t).lanes[l] = f c (effectiveOf t c.demand) s.lanes[l])
    ∧ (s.tables.Apart → HeadsShow r (orderLanes f r t) ∧ ∀ ch : OutCh, beaconOf s.tables r = some ch →
        ((orderLanes f r t).out.chans[ch]).commanded = (t.out.chans[ch]).commanded) := by
  have x := orderLanes_spec f r t (by rw [ht]; exact hn)
  rw [ht, hl] at x
  refine ⟨x.1, fun l c h e => (x.2 l c h e).1, fun a => ⟨orderLanes_heads f r t (by rw [ht]; exact a) (sd t).tables, fun ch hb => ?_⟩⟩
  exact orderLanes_beacon f _ ch t (Or.inl fun l => by rw [ht]; exact a.beaconHead r l ch hb)

theorem HeadsShow.kept {r : Ramp} {s t : State} (a : HeadsShow r s) (ht : t.tables = s.tables)
    (hl : t.lanes = s.lanes) (ho : ∀ ch : OutCh, (∃ l ∈ lanesOf s.tables r, headOf s.tables l = some ch) →
      (t.out.chans[ch]).commanded = (s.out.chans[ch]).commanded) : HeadsShow r t := by
  intro l h ch hc
  rw [ht] at h hc
  rw [hl, ho ch ⟨l, h, hc⟩]
  exact a l h ch hc

theorem HeadsShow.entered {r : Ramp} {s : State} (a : HeadsShow r s) (h : s.tables.Apart) (st : RampState)
    (ph : Option ClearPhase) (tm : Timer) (hp : ph.isSome = true ↔ st = .startClear) :
    HeadsShow r (enter r st ph tm s) := by
  refine a.kept (enter_core r st ph tm s hp).tables (enter_lanes r st ph tm s) fun ch ⟨l, _, hc⟩ => ?_
  have lt : (leaveMetering r s).tables = s.tables ∧ (leaveMetering r s).out = s.out := by
    unfold leaveMetering; split <;> exact ⟨rfl, rfl⟩
  unfold enter commandBeacon; split
  · next b hb =>
    rw [State.modRamp_tables, lt.1] at hb
    rw [(setAspect_get b _ _).2.2 ch (by rintro rfl; exact h.beaconHead r l ch hb hc), State.modRamp_out, lt.2]
  · rw [State.modRamp_out, lt.2]

/-! ### The states left and entered -/

theorem orderDark_again (r : Ramp) (st : RampState) (tm : Timer) (s : State) (hp : st ≠ .startClear) :
    (orderDark r (enter r st none tm s)).lanes = (orderDark r s).lanes := by
  have xs := enter_core r st none tm s (by simp [hp])
  unfold orderDark; exact orderLanes_congr _ r (enter_lanes r st none tm s) xs.tables xs.det

theorem darkened_entered (r : Ramp) (st : RampState) (s : State) (hp : st ≠ .startClear)
    (hd : beaconAspect st = .dark) : Entered r st .stopped (orderDark r (enter r st none .stopped s)) :=
  (enter_entered r st .stopped s hp).ordered _ (orderDark_side r _) (Or.inr ⟨hd, fun _ _ _ => rfl⟩)

theorem standbyActs_spec (r : Ramp) (s : State) : effectiveAction (standbyActs r s) r = effectiveAction s r
    ∧ startDemand (standbyActs r s) r = startDemand s r ∧ (standbyActs r s).lanes = s.lanes
    ∧ (standbyActs r s).auth = s.auth ∧ (standbyActs r s).vectors = s.vectors
    ∧ (startDemand s r = true → Entered r .warn (.running 0) (standbyActs r s))
    ∧ (startDemand s r = false → standbyActs r s = s) := by
  unfold standbyActs; split
  · next h =>
    have d := enter_demand r .warn none (.running 0) s (by decide)
    have e := enter_rest r .warn none (.running 0) s
    exact ⟨d.1, d.2.1, enter_lanes r _ _ _ s, e.2.1, e.1, fun _ => enter_entered r .warn _ s (by decide),
      fun h' => by rw [h'] at h; cases h⟩
  · next h =>
    exact ⟨rfl, rfl, rfl, rfl, rfl, fun h' => absurd h' h, fun _ => rfl⟩

/-- STANDBY entered, whence a start demand leads to WARN by the same event (R61, R62). -/
theorem enterStandby_spec (r : Ramp) (s : State) : (enterStandby r s).lanes = (orderDark r s).lanes
    ∧ (enterStandby r s).auth = s.auth ∧ startDemand (enterStandby r s) r = startDemand s r
    ∧ (startDemand s r = true → Entered r .warn (.running 0) (enterStandby r s))
    ∧ (startDemand s r = false → Entered r .standby .stopped (enterStandby r s)) := by
  have a := darkened_entered r .standby s (by decide) rfl
  have d := enter_demand r .standby none .stopped s (by decide)
  have l := orderDark_again r .standby .stopped s (by decide)
  have e := (enter_rest r .standby none .stopped s).2.1
  have o := orderDark_side r (enter r .standby none .stopped s)
  have od := (o.demand r).2.1.trans d.2.1
  have oa := o.auth.trans e
  unfold enterStandby
  generalize orderDark r (enter r .standby none .stopped s) = y at *
  have j := judge_rest r y
  have zd := (judge_demand r y).2.1.trans od
  have b := a.judged
  generalize judge r y = z at *
  have q := standbyActs_spec r z
  refine ⟨q.2.2.1.trans (j.1.trans l), q.2.2.2.1.trans (j.2.2.1.trans oa), q.2.1.trans zd,
    fun h => q.2.2.2.2.2.1 (zd.trans h), fun h => ?_⟩
  rw [q.2.2.2.2.2.2 (zd.trans h)]; exact b

/-- OFF entered (R73). -/
theorem enterOff_spec (r : Ramp) (s : State) : Entered r .off .stopped (enterOff r s)
    ∧ (enterOff r s).lanes = (orderDark r s).lanes ∧ (enterOff r s).auth[r] = (s.auth[r]).enterOff
    ∧ (∀ c : Fin 16, ((enterOff r s).vectors[r])[c] = false) ∧ ((enterOff r s).ramps[r]).autoPlan = 0
    ∧ ((enterOff r s).ramps[r]).candidate = none ∧ ((enterOff r s).ramps[r]).planUnset = false
    ∧ ((enterOff r s).ramps[r]).actionUnset = false := by
  have a := darkened_entered r .off s (by decide) rfl
  have l := orderDark_again r .off .stopped s (by decide)
  have e := enter_rest r .off none .stopped s
  have o := orderDark_side r (enter r .off none .stopped s)
  have ea : (orderDark r (enter r .off none .stopped s)).auth[r] = s.auth[r] := by rw [o.auth, e.2.1]
  unfold enterOff; dsimp only
  generalize orderDark r (enter r .off none .stopped s) = x at *
  have g : (((x.modRamp r RampCtx.enterOff).setVector r vectorFalse).setAuth r
      ((x.modRamp r RampCtx.enterOff).auth[r]).enterOff).ramps[r] = (x.ramps[r]).enterOff := by
    rw [State.setAuth_ramps, State.setVector_ramps, modRamp_get]
  refine ⟨⟨?_, ?_, ?_, ?_, a.beacon⟩, l, ?_, fun c => ?_, ?_, ?_, ?_, ?_⟩
  · rw [g]; exact a.state
  · rw [g]; exact a.phase
  · rw [g]; exact a.timer
  · rw [g]; exact a.attention
  · rw [State.setAuth_auth, vset_same, State.modRamp_auth, ea]
  · rw [State.setAuth_vectors, State.setVector_vectors, vset_same]
    revert c; decide
  all_goals rw [g]; rfl

/-- DARK_FAIL entered (R74). -/
theorem enterDarkFail_spec (r : Ramp) (s : State) : Entered r .darkFail .stopped (enterDarkFail r s)
    ∧ (enterDarkFail r s).lanes = (orderDark r s).lanes ∧ (s.tables.Apart → HeadsShow r (enterDarkFail r s)) := by
  have a := darkened_entered r .darkFail s (by decide) rfl
  have l := orderDark_again r .darkFail .stopped s (by decide)
  have t := (enter_core r .darkFail none .stopped s (by decide)).tables
  have o := (orderDark_side r (enter r .darkFail none .stopped s)).tables
  have h : s.tables.Apart → HeadsShow r (orderDark r (enter r .darkFail none .stopped s)) := fun k =>
    orderLanes_heads _ r _ (by rw [t]; exact k) o
  unfold enterDarkFail; dsimp only
  generalize orderDark r (enter r .darkFail none .stopped s) = x at *
  split
  · have z := arbitrateAfterMetering_rest r x
    exact ⟨a.after, z.1.trans l, fun k => (h k).kept (arbitrateAfterMetering_core r x).tables z.1
      fun ch _ => by rw [z.2.1]⟩
  · exact ⟨a, l, h⟩

/-- The shutdown entered: SHUT_CLEAR, or SHUT_FLUSH where every lane rests in GREEN_REST (R71). -/
theorem enterShutClear_spec (r : Ramp) (s : State) (hA : s.tables.Apart) :
    (enterShutClear r s).lanes = (orderFlush r s).lanes ∧ HeadsShow r (enterShutClear r s)
    ∧ ((∀ l ∈ lanesOf s.tables r, ((orderFlush r s).lanes[l]).state = .greenRest) →
        Entered r .shutFlush (.running 0) (enterShutClear r s))
    ∧ ((∃ l ∈ lanesOf s.tables r, ((orderFlush r s).lanes[l]).state ≠ .greenRest) →
        Entered r .shutClear .stopped (enterShutClear r s)) := by
  have xs := enter_core r .shutClear none .stopped s (by decide)
  have a0 := enter_entered r .shutClear .stopped s (by decide)
  have yl : (orderFlush r (enter r .shutClear none .stopped s)).lanes = (orderFlush r s).lanes := by
    unfold orderFlush; exact orderLanes_congr _ r (enter_lanes r .shutClear none .stopped s) xs.tables xs.det
  have ys := orderFlush_side r (enter r .shutClear none .stopped s)
  have a : Entered r .shutClear .stopped (orderFlush r (enter r .shutClear none .stopped s)) :=
    a0.ordered _ ys (Or.inl (by rw [xs.tables]; exact hA))
  have hh : HeadsShow r (orderFlush r (enter r .shutClear none .stopped s)) :=
    orderLanes_heads _ r _ (by rw [xs.tables]; exact hA) ys.tables
  have yt := ys.tables.trans xs.tables
  unfold enterShutClear; dsimp only
  generalize orderFlush r (enter r .shutClear none .stopped s) = y at *
  have al : allGreenRest y r = true ↔ ∀ l ∈ lanesOf s.tables r, (y.lanes[l]).state = .greenRest := by
    unfold allGreenRest; rw [yt, List.all_eq_true]; simp only [decide_eq_true_eq]
  have z : (shutClearDone r y).lanes = y.lanes ∧ (shutClearDone r y).tables = y.tables
      ∧ HeadsShow r (shutClearDone r y)
      ∧ ((∀ l ∈ lanesOf s.tables r, (y.lanes[l]).state = .greenRest) → Entered r .shutFlush (.running 0) (shutClearDone r y))
      ∧ ((∃ l ∈ lanesOf s.tables r, (y.lanes[l]).state ≠ .greenRest) → Entered r .shutClear .stopped (shutClearDone r y)) := by
    unfold shutClearDone enterShutFlush; split
    · next h =>
      exact ⟨enter_lanes _ _ _ _ _, (enter_core r _ _ _ y (by decide)).tables,
        hh.entered (by rw [yt]; exact hA) _ _ _ (by decide), fun _ => enter_entered r .shutFlush _ y (by decide),
        fun ⟨l, hl, e⟩ => absurd (al.1 h.2 l hl) e⟩
    · next h => exact ⟨rfl, rfl, hh, fun k => absurd ⟨a.state, al.2 k⟩ h, fun _ => a⟩
  have zl := z.1.trans yl
  generalize shutClearDone r y = w at *
  rw [yl] at z
  split
  · have v := arbitrateAfterMetering_rest r w
    exact ⟨v.1.trans zl, z.2.2.1.kept (arbitrateAfterMetering_core r w).tables v.1 fun ch _ => by rw [v.2.1],
      fun k => (z.2.2.2.1 k).after, fun k => (z.2.2.2.2 k).after⟩
  · exact ⟨zl, z.2.2.1, z.2.2.2.1, z.2.2.2.2⟩

/-! ### METERING left -/

theorem lowerCurrent_iff (a : AuthUnit) : a.lowerCurrent = true
    ↔ ∀ k : Source, 2 ≤ k.val → (a.sources[k]).standing
      = ((a.sources[k]).asserted && (a.sources[k]).armed && !(a.sources[k]).spent) := by
  unfold AuthUnit.lowerCurrent
  rw [List.all_eq_true]
  simp only [beq_iff_eq]
  refine ⟨fun h k hk => h k ?_, fun h k hk => h k ?_⟩
  · revert k; decide
  · revert k; decide

/-- The unit of a ramp that has just left METERING (R103). -/
theorem arbitrateAfterMetering_auth (r : Ramp) (s : State) (a : AuthUnit) (h : a = s.auth[r]) :
    ((∀ k : Source, 2 ≤ k.val → (a.sources[k]).standing
        = ((a.sources[k]).asserted && (a.sources[k]).armed && !(a.sources[k]).spent)) →
      (arbitrateAfterMetering r s).auth[r] = a)
    ∧ ((∃ k : Source, 2 ≤ k.val ∧ (a.sources[k]).standing
        ≠ ((a.sources[k]).asserted && (a.sources[k]).armed && !(a.sources[k]).spent)) →
      (arbitrateAfterMetering r s).auth[r] = (a.refreshLower.arbitrate (actionRec s.tables r) s.time.corridor).1) := by
  subst h
  refine ⟨fun h => ?_, fun ⟨k, hk, e⟩ => ?_⟩
  · unfold arbitrateAfterMetering; rw [if_pos ((lowerCurrent_iff _).2 h)]
  · unfold arbitrateAfterMetering; rw [if_neg (fun x => e ((lowerCurrent_iff _).1 x k hk))]
    have b := (arbitrateRamp_rest r (s.setAuth r (s.auth[r]).refreshLower)).2.2.2.2.2
    rw [State.setAuth_auth, vset_same, State.setAuth_tables, State.setAuth_time] at b
    dsimp only
    generalize arbitrateRamp r (s.setAuth r (s.auth[r]).refreshLower) = y at b
    split
    · exact (congrArg (fun m => m[r]) (judge_rest r y.1).2.2.1).trans b
    · exact b

theorem noSlot_of {r : Ramp} {s : State} (h : (s.ramps[r]).slot = (none, 0, .stopped, none, none, false))
    (hr : s.rate[r] = RateRec.reset) : NoSlot r s := by
  unfold RampCtx.slot at h
  simp only [Prod.mk.injEq] at h
  exact ⟨h.1, h.2.1, h.2.2.1, h.2.2.2.1, h.2.2.2.2.1, h.2.2.2.2.2, hr⟩

/-- A ramp leaves METERING for DARK_FAIL: its slot empties, and its unit may be arbitrated once more (R59, R103). -/
theorem enterDarkFail_unit (r : Ramp) (s : State) (h : (s.ramps[r]).state = .metering) (a : AuthUnit)
    (ha : a = s.auth[r]) : NoSlot r (enterDarkFail r s) ∧ ∃ x : State, x.auth[r] = a ∧ x.tables = s.tables
      ∧ x.time = s.time ∧ (enterDarkFail r s).auth[r] = (arbitrateAfterMetering r x).auth[r] := by
  have l := enterDarkFail_left r s h
  refine ⟨noSlot_of l.1 l.2.1, orderDark r (enter r .darkFail none .stopped s), ?_⟩
  have xs := enter_core r .darkFail none .stopped s (by decide)
  have ys := orderDark_side r (enter r .darkFail none .stopped s)
  have xa := (enter_rest r .darkFail none .stopped s).2.1
  refine ⟨by rw [ys.auth, xa, ha], ys.tables.trans xs.tables, ys.time.trans xs.time, ?_⟩
  unfold enterDarkFail; dsimp only; rw [if_pos (decide_eq_true h)]

/-- A ramp leaves METERING for the shutdown (R59, R71, R103). -/
theorem enterShutClear_unit (r : Ramp) (s : State) (h : (s.ramps[r]).state = .metering) (a : AuthUnit)
    (ha : a = s.auth[r]) : NoSlot r (enterShutClear r s) ∧ ∃ x : State, x.auth[r] = a ∧ x.tables = s.tables
      ∧ x.time = s.time ∧ (enterShutClear r s).auth[r] = (arbitrateAfterMetering r x).auth[r] := by
  have l := enterShutClear_left r s h
  refine ⟨noSlot_of l.1 l.2.1, shutClearDone r (orderFlush r (enter r .shutClear none .stopped s)), ?_⟩
  have xs := enter_core r .shutClear none .stopped s (by decide)
  have ys := orderFlush_side r (enter r .shutClear none .stopped s)
  have xa := (enter_rest r .shutClear none .stopped s).2.1
  have zs := shutClearDone_side r (orderFlush r (enter r .shutClear none .stopped s))
  have za : (shutClearDone r (orderFlush r (enter r .shutClear none .stopped s))).auth
      = (orderFlush r (enter r .shutClear none .stopped s)).auth := by
    unfold shutClearDone enterShutFlush; split
    · exact (enter_rest r .shutFlush none (.running 0) _).2.1
    · rfl
  refine ⟨by rw [za, ys.auth, xa, ha], zs.tables.trans (ys.tables.trans xs.tables), zs.time.trans (ys.time.trans xs.time), ?_⟩
  unfold enterShutClear; dsimp only; rw [if_pos (decide_eq_true h)]

/-! ### A result taken (R107) -/

theorem takes_standby {r : Ramp} {old : Effective} {v : State} (h : (v.ramps[r]).state = .standby) :
    takeResult r old v = standbyActs r v := by unfold takeResult; rw [h]

/-- A result other than FAILSAFE in METERING (R70). -/

theorem takes_metering {r : Ramp} {old : Effective} {v : State} (h : (v.ramps[r]).state = .metering) :
    takeResult r old v = meteringTakes r old v := by unfold takeResult; rw [h]

theorem takes_off {r : Ramp} {old : Effective} {v : State} (h : (v.ramps[r]).state = .off) :
    takeResult r old v = v := by unfold takeResult; rw [h]

theorem takes_dark {r : Ramp} {old : Effective} {v : State} (h : (v.ramps[r]).state = .darkFail) :
    takeResult r old v = if effectiveAction v r = .failsafe then v else enterOffOrStandby r v := by unfold takeResult; rw [h]

/-- FAILSAFE takes every state but three to DARK_FAIL (R70, R74). -/
theorem takes_failsafe {r : Ramp} {old : Effective} {v : State} (h : effectiveAction v r = .failsafe)
    (ho : (v.ramps[r]).state ≠ .off) (hs : (v.ramps[r]).state ≠ .standby) (hd : (v.ramps[r]).state ≠ .darkFail) :
    takeResult r old v = enterDarkFail r v := by
  unfold takeResult; split <;> first | contradiction | (unfold startingTakes; rw [if_pos h]) | (unfold meteringTakes; rw [h])

/-- A result other than FAILSAFE outside METERING (R63, R64, R71, R74). -/
theorem takes_starting {r : Ramp} {old : Effective} {v : State} (h : effectiveAction v r ≠ .failsafe) :
    ((v.ramps[r]).state = .startClear ∨ (v.ramps[r]).state = .shutClear ∨ (v.ramps[r]).state = .shutFlush →
      takeResult r old v = v)
    ∧ ((v.ramps[r]).state = .warn ∨ (v.ramps[r]).state = .startGreen → stopDemand v r = false → takeResult r old v = v)
    ∧ ((v.ramps[r]).state = .startGreen → stopDemand v r = true → takeResult r old v = enterShutFlush r v)
    ∧ ((v.ramps[r]).state = .darkFail ∨ (v.ramps[r]).state = .warn ∧ stopDemand v r = true →
      takeResult r old v = enterOffOrStandby r v) := by
  have st : ∀ x, takeResult r old v = x ↔ (match (v.ramps[r]).state with
    | .off => v = x | .standby => standbyActs r v = x | .metering => meteringTakes r old v = x
    | .darkFail => enterOffOrStandby r v = x | _ => actOnDemand r v = x) := by
    intro x
    unfold takeResult startingTakes; rw [if_neg h, if_neg h]
    cases (v.ramps[r]).state <;> rfl
  refine ⟨fun k => ?_, fun k n => ?_, fun k n => ?_, fun k => ?_⟩
  · rw [st]; rcases k with k | k | k <;> rw [k] <;> (unfold actOnDemand; rw [k])
  · rw [st]; rcases k with k | k <;> rw [k] <;> (unfold actOnDemand; rw [k]; dsimp only; rw [n]; rfl)
  · rw [st, k]; unfold actOnDemand; rw [k]; dsimp only; rw [if_pos n]
  · rw [st]; rcases k with k | ⟨k, n⟩
    · rw [k]
    · rw [k]; unfold actOnDemand; rw [k]; dsimp only; rw [if_pos n]

/-- A result other than FAILSAFE in METERING (R70). -/
theorem takes_meter {r : Ramp} {old : Effective} {v : State} (h : (v.ramps[r]).state = .metering) :
    (effectiveAction v r = .dark ∨ effectiveAction v r = .auto 0 ∧ old ≠ .auto 0 → takeResult r old v = enterShutClear r v)
    ∧ (effectiveAction v r = .auto 0 → old = .auto 0 → takeResult r old v = v)
    ∧ (effectiveAction v r = .flush → takeResult r old v = orderFlush r v)
    ∧ (effectiveAction v r = .hold → takeResult r old v = orderHold r v)
    ∧ (∀ n : Nat, effectiveAction v r = .plan n ∨ n ≠ 0 ∧ effectiveAction v r = .auto n →
        takeResult r old v = orderReturn r v) := by
  rw [takes_metering h]; unfold meteringTakes
  refine ⟨fun k => ?_, fun k n => ?_, fun k => ?_, fun k => ?_, fun n k => ?_⟩
  · rcases k with k | ⟨k, n⟩ <;> rw [k]; dsimp only; rw [if_pos rfl, if_neg n]
  · rw [k]; dsimp only; rw [if_pos rfl, if_pos n]
  · rw [k]
  · rw [k]
  · rcases k with k | ⟨m, k⟩ <;> rw [k]; dsimp only; rw [if_neg m]

/-- A result that leaves the ramp in its state moves its lanes at most. -/
theorem takeResult_stays {r : Ramp} {old : Effective} {v : State} (hA : v.tables.Apart)
    (h : ((takeResult r old v).ramps[r]).state = (v.ramps[r]).state) : LaneSide v (takeResult r old v) := by
  by_cases f : effectiveAction v r = .failsafe
  · cases st : (v.ramps[r]).state with
    | off => rw [takes_off st]; exact .refl v
    | standby =>
      by_cases d : startDemand v r = true
      · rw [takes_standby st, st] at h; have := ((standbyActs_spec r v).2.2.2.2.2.1 d).state; rw [this] at h; cases h
      · rw [takes_standby st, (standbyActs_spec r v).2.2.2.2.2.2 (by simpa using d)]; exact .refl v
    | darkFail => rw [takes_dark st, if_pos f]; exact .refl v
    | _ =>
      rw [takes_failsafe f (by rw [st]; decide) (by rw [st]; decide) (by rw [st]; decide)] at h
      rw [(enterDarkFail_spec r v).1.state, st] at h; cases h
  · have S := takes_starting (old := old) f
    have out : ∀ st, (v.ramps[r]).state = st → st = .darkFail ∨ st = .warn → stopDemand v r = true ∨ st = .darkFail → ((enterOffOrStandby r v).ramps[r]).state ≠ st := by
      intro st _ k n x
      have q := enterStandby_spec r v
      have o := (enterOff_spec r v).1.state
      unfold enterOffOrStandby at x
      split at x
      · rw [o] at x; subst x; rcases k with k | k <;> cases k
      · by_cases d : startDemand v r = true
        · rw [(q.2.2.2.1 d).state] at x; subst x
          rcases n with n | n
          · rw [startDemand_stop n] at d; cases d
          · cases n
        · rw [(q.2.2.2.2 (by simpa using d)).state] at x; subst x; rcases k with k | k <;> cases k
    cases st : (v.ramps[r]).state with
    | off => rw [takes_off st]; exact .refl v
    | standby =>
      by_cases d : startDemand v r = true
      · rw [takes_standby st, st] at h; have := ((standbyActs_spec r v).2.2.2.2.2.1 d).state; rw [this] at h; cases h
      · rw [takes_standby st, (standbyActs_spec r v).2.2.2.2.2.2 (by simpa using d)]; exact .refl v
    | darkFail => rw [S.2.2.2 (Or.inl st)] at h; exact absurd h (out _ rfl (Or.inl st) (Or.inr st))
    | warn =>
      by_cases n : stopDemand v r = true
      · rw [S.2.2.2 (Or.inr ⟨st, n⟩)] at h; exact absurd h (out _ rfl (Or.inr st) (Or.inl n))
      · rw [S.2.1 (Or.inl st) (by simpa using n)]; exact .refl v
    | startGreen =>
      by_cases n : stopDemand v r = true
      · rw [S.2.2.1 st n, st, enterShutFlush, (enter_entered r .shutFlush _ v (by decide)).state] at h; cases h
      · rw [S.2.1 (Or.inr st) (by simpa using n)]; exact .refl v
    | metering =>
      have M := takes_meter (r := r) (old := old) st
      have left : takeResult r old v = enterShutClear r v → LaneSide v (takeResult r old v) := fun e => by
        have z := enterShutClear_spec r v hA
        rw [e, st] at h
        by_cases g : ∀ l ∈ lanesOf v.tables r, ((orderFlush r v).lanes[l]).state = .greenRest
        · rw [(z.2.2.1 g).state] at h; cases h
        · rw [(z.2.2.2 (by simpa using g)).state] at h; cases h
      cases e : effectiveAction v r with
      | failsafe => exact absurd e f
      | dark => exact left (M.1 (Or.inl e))
      | flush => rw [M.2.2.1 e]; exact orderFlush_side r v
      | hold => rw [M.2.2.2.1 e]; exact orderHold_side r v
      | plan m => rw [M.2.2.2.2 m (Or.inl e)]; exact orderReturn_side r v
      | auto m =>
        by_cases hm : m = 0
        · subst hm
          by_cases ho : old = .auto 0
          · rw [M.2.1 e ho]; exact .refl v
          · exact left (M.1 (Or.inr ⟨e, ho⟩))
        · rw [M.2.2.2.2 m (Or.inr ⟨hm, e⟩)]; exact orderReturn_side r v
    | startClear => rw [S.1 (Or.inl st)]; exact .refl v
    | shutClear => rw [S.1 (Or.inr (Or.inl st))]; exact .refl v
    | shutFlush => rw [S.1 (Or.inr (Or.inr st))]; exact .refl v

/-! ### A decision point -/

/-- There is a result to hand over where there is no holder or another (R107). -/
theorem arbitrate_flag (a : AuthUnit) (rec : Source → Option ActionRec) (now : Nat) :
    (a.arbitrate rec now).2 = true
      ↔ (a.arbitrate rec now).1.holder = none ∨ (a.arbitrate rec now).1.holder ≠ a.holder := by
  rw [AuthUnit.arbitrate_holder]
  unfold AuthUnit.arbitrate; dsimp only
  have p : a.prune.holder = a.holder := (AuthUnit.dropHolds_rest _ a).2.1
  split
  · next e => exact ⟨fun _ => Or.inl e, fun _ => rfl⟩
  · next w e =>
    rw [p]; split
    · next h => rw [e, h]; simp
    · next h => rw [e]; exact ⟨fun _ => Or.inr fun x => h x.symm, fun _ => rfl⟩

/-- Nothing is handed over: the unit alone is written (R107). -/
theorem decisionPoint_same {r : Ramp} {s : State} {a : AuthUnit}
    (ha : a = ((s.auth[r]).arbitrate (actionRec s.tables r) s.time.corridor).1) (hn : a.holder ≠ none)
    (hs : a.holder = (s.auth[r]).holder) : decisionPoint r s = s.setAuth r a := by
  have f := arbitrate_flag (s.auth[r]) (actionRec s.tables r) s.time.corridor
  unfold decisionPoint arbitrateRamp; dsimp only
  rw [if_neg (fun x => ?_)]
  · rw [← ha, hs, decide_eq_false (not_not.2 rfl)]; rfl
  · rw [← ha] at f
    rcases f.1 x with e | e
    · exact hn e
    · exact e hs

/-- A result is handed over (R107). -/
theorem decisionPoint_handed {r : Ramp} {s : State} {a : AuthUnit}
    (ha : a = ((s.auth[r]).arbitrate (actionRec s.tables r) s.time.corridor).1)
    (h : a.holder = none ∨ a.holder ≠ (s.auth[r]).holder) :
    decisionPoint r s = takeResult r (standingAction s r) (judge r (arbitrateRamp r s).1) := by
  have f := arbitrate_flag (s.auth[r]) (actionRec s.tables r) s.time.corridor
  unfold decisionPoint; dsimp only
  rw [if_pos]
  unfold arbitrateRamp; dsimp only
  rw [f, ← ha]; exact h

/-- The judged result of an arbitration: the unit, the ACTION_UNSET mark, the demand and attention apart, all stays (R60,
R61, R105). -/
theorem judgedResult_spec (r : Ramp) (s : State) (a : AuthUnit) (v : State)
    (ha : a = ((s.auth[r]).arbitrate (actionRec s.tables r) s.time.corridor).1) (hv : v = judge r (arbitrateRamp r s).1) :
    v.auth[r] = a ∧ v.lanes = s.lanes ∧ v.out = s.out ∧ v.rate = s.rate ∧ v.vectors = s.vectors ∧ v.tables = s.tables
    ∧ v.det = s.det ∧ v.time = s.time
    ∧ v.ramps[r] = { s.ramps[r] with
        actionUnset := (v.ramps[r]).actionUnset, stopStands := stopDemand v r, attention := (v.ramps[r]).attention }
    ∧ (a.holder ≠ (s.auth[r]).holder → (v.ramps[r]).attention = true) := by
  have x := arbitrateRamp_rest r s
  have xs := arbitrateRamp_core r s
  have xp := arbitrateRamp_plain r s
  have xh : a.holder ≠ (s.auth[r]).holder → ((arbitrateRamp r s).1.ramps[r]).attention = true := fun h => by
    unfold arbitrateRamp; dsimp only
    rw [attentionIf_ramp, ← ha, decide_eq_true h, Bool.or_true]
  generalize (arbitrateRamp r s).1 = y at *
  have j := judge_rest r y
  have js := judge_side r y
  have jp := (judge_plain r y).trans xp
  have jd := judge_stopStands r y
  rw [← hv] at j js jp jd
  refine ⟨by rw [j.2.2.1, x.2.2.2.2.2, ha], j.1.trans x.1, j.2.1.trans x.2.1, j.2.2.2.1.trans x.2.2.1,
    j.2.2.2.2.1.trans x.2.2.2.1, js.tables.trans xs.tables, js.det.trans xs.det, js.time.trans xs.time, ?_,
    fun h => js.attention r (xh h)⟩
  unfold RampCtx.plain at jp
  generalize stopDemand v r = b at *
  generalize v.ramps[r] = c at *
  generalize s.ramps[r] = d at *
  cases c; cases d
  simp only [RampCtx.mk.injEq] at jp jd ⊢
  simp [jp, jd]

/-! ### A mode set and a demand acted on -/

/-- STANDBY entered leaves the demands as they stood. -/
theorem enterStandby_stop (r : Ramp) (s : State) : stopDemand (enterStandby r s) r = stopDemand s r := by
  have a := (enter_demand r .standby none .stopped s (by decide)).2.2
  have o := ((orderDark_side r (enter r .standby none .stopped s)).demand r).2.2
  have j := (judge_demand r (orderDark r (enter r .standby none .stopped s))).2.2
  unfold enterStandby
  generalize judge r (orderDark r (enter r .standby none .stopped s)) = z at *
  have e := (standbyActs_spec r z).1
  have m := standbyActs_mode r z
  have k : stopDemand (standbyActs r z) r = stopDemand z r := by unfold stopDemand; rw [e, m]
  rw [k, j, o, a]

/-- Entering a state keeps the stop demand as it was last judged (R61). -/
theorem enter_stands (r : Ramp) (st : RampState) (ph : Option ClearPhase) (tm : Timer) (s : State) :
    ((enter r st ph tm s).ramps[r]).stopStands = (s.ramps[r]).stopStands := by
  rw [enter_plain]; split <;> rfl

theorem standbyActs_stands (r : Ramp) (s : State) :
    ((standbyActs r s).ramps[r]).stopStands = (s.ramps[r]).stopStands := by
  unfold standbyActs enterWarn; split
  · exact enter_stands r _ _ _ s
  · rfl

/-- STANDBY entered judges the demand (R61). -/
theorem enterStandby_stands (r : Ramp) (s : State) : ((enterStandby r s).ramps[r]).stopStands = stopDemand s r := by
  unfold enterStandby
  rw [standbyActs_stands, judge_stopStands, (judge_demand r _).2.2, ((orderDark_side r _).demand r).2.2,
    (enter_demand r .standby none .stopped s (by decide)).2.2]

theorem enterOff_stands (r : Ramp) (s : State) :
    ((enterOff r s).ramps[r]).stopStands = (s.ramps[r]).stopStands := by
  rw [enterOff_ramp]
  exact (SameRamp.field ((orderDark_side r _).ramps r) (·.stopStands) fun _ => rfl).trans (enter_stands r _ _ _ s)

/-- What acts on a judged demand leaves it standing as judged (R61). -/
theorem actOnDemand_stands (r : Ramp) (s : State) (h : (s.ramps[r]).stopStands = stopDemand s r) :
    ((actOnDemand r s).ramps[r]).stopStands = stopDemand (actOnDemand r s) r := by
  unfold actOnDemand
  cases st : (s.ramps[r]).state
  case standby =>
    dsimp only
    have k : stopDemand (standbyActs r s) r = stopDemand s r := by
      unfold stopDemand; rw [(standbyActs_spec r s).1, standbyActs_mode]
    rw [standbyActs_stands, h, k]
  case startGreen =>
    dsimp only; split
    · unfold enterShutFlush
      rw [enter_stands, h, (enter_demand r .shutFlush none (.running 0) s (by decide)).2.2]
    · exact h
  case warn =>
    dsimp only; split
    · next d =>
      unfold enterOffOrStandby; split
      · next m => rw [enterOff_stands, h, d]; unfold stopDemand; rw [enterOff_mode, m]; rfl
      · rw [enterStandby_stands, enterStandby_stop]
    · exact h
  all_goals exact h

/-- A ramp in STANDBY acts on its demand (R62). -/
theorem standbyActs_entered {r : Ramp} {s : State} (h : Entered r .standby .stopped s) :
    (startDemand (standbyActs r s) r = true → Entered r .warn (.running 0) (standbyActs r s))
    ∧ (startDemand (standbyActs r s) r = false → Entered r .standby .stopped (standbyActs r s)) := by
  have q := standbyActs_spec r s
  rw [q.2.1]
  exact ⟨q.2.2.2.2.2.1, fun d => by rw [q.2.2.2.2.2.2 d]; exact h⟩

/-- OFF left (R58, R62, R103). -/
theorem leaveOff_spec (r : Ramp) (s u : State) (hu : u = leaveOff r s) :
    (u.ramps[r]).mode = .auto ∧ (u.ramps[r]).attention = true
    ∧ u.auth[r] = ((s.auth[r]).refreshAll.arbitrate (actionRec s.tables r) s.time.corridor).1
    ∧ u.lanes = (orderDark r s).lanes
    ∧ (startDemand u r = true → Entered r .warn (.running 0) u)
    ∧ (startDemand u r = false → Entered r .standby .stopped u) := by
  obtain ⟨m, hm⟩ : ∃ m, m = s.modRamp r fun c => { c with mode := .auto } := ⟨_, rfl⟩
  have a := darkened_entered r .standby m (by decide) rfl
  have l := orderDark_again r .standby .stopped m (by decide)
  have ml : (orderDark r m).lanes = (orderDark r s).lanes := by rw [hm]; unfold orderDark; exact orderLanes_congr _ r rfl rfl rfl
  have es := enter_core r .standby none .stopped m (by decide)
  have os := orderDark_side r (enter r .standby none .stopped m)
  have oa : (orderDark r (enter r .standby none .stopped m)).auth = s.auth := by
    rw [os.auth, (enter_rest r .standby none .stopped m).2.1, hm]; rfl
  have om : ((orderDark r (enter r .standby none .stopped m)).ramps[r]).mode = .auto := by
    rw [os.mode r, enter_mode, hm, modRamp_get]
  have ot : (orderDark r (enter r .standby none .stopped m)).tables = s.tables := (os.tables.trans es.tables).trans (by rw [hm]; rfl)
  have oc : (orderDark r (enter r .standby none .stopped m)).time = s.time := (os.time.trans es.time).trans (by rw [hm]; rfl)
  have e : leaveOff r s = (fun t : State => standbyActs r (judge r (arbitrateRamp r (t.setAuth r (t.auth[r]).refreshAll)).1))
      (orderDark r (enter r .standby none .stopped m)) := by rw [hm]; rfl
  rw [e] at hu
  generalize orderDark r (enter r .standby none .stopped m) = t at *
  dsimp only at hu
  have b : Entered r .standby .stopped (t.setAuth r (t.auth[r]).refreshAll) := ⟨a.state, a.phase, a.timer, a.attention, a.beacon⟩
  have xa := (arbitrateRamp_rest r (t.setAuth r (t.auth[r]).refreshAll))
  have xm := congrArg RampCtx.mode (arbitrateRamp_plain r (t.setAuth r (t.auth[r]).refreshAll))
  have c := b.arbitrated
  generalize (arbitrateRamp r (t.setAuth r (t.auth[r]).refreshAll)).1 = y at *
  have ym : (y.ramps[r]).mode = .auto := xm.trans om
  have ya : y.auth[r] = ((s.auth[r]).refreshAll.arbitrate (actionRec s.tables r) s.time.corridor).1 := by
    rw [xa.2.2.2.2.2, State.setAuth_auth, vset_same, State.setAuth_tables, State.setAuth_time, ot, oc, oa]
  have j := judge_rest r y
  have jm := judge_mode r y
  have d := c.judged
  generalize judge r y = z at *
  have q := standbyActs_spec r z
  have S := standbyActs_entered d
  have qm := standbyActs_mode r z
  have qa := (standbyActs_side r z).attention r d.attention
  rw [← hu] at q S qm qa
  refine ⟨qm.trans (jm.trans ym), qa, ?_, ?_, S⟩
  · exact ((congrArg (·[r]) q.2.2.2.1).trans (congrArg (·[r]) j.2.2.1)).trans ya
  · rw [q.2.2.1, j.1, xa.1]; exact l.trans ml

/-- A demand acted on outside METERING and DARK_FAIL (R61 to R64). -/
theorem actOnDemand_spec (r : Ramp) (s u : State) (hu : u = actOnDemand r s) :
    (((s.ramps[r]).state = .standby →
          (startDemand u r = true → Entered r .warn (.running 0) u)
          ∧ (startDemand u r = false → u = s))
      ∧ ((s.ramps[r]).state = .warn → (s.ramps[r]).mode = .auto →
          (stopDemand u r = true → Entered r .standby .stopped u)
          ∧ (stopDemand u r = false → u = s))
      ∧ ((s.ramps[r]).state = .startGreen →
          (stopDemand u r = true → Entered r .shutFlush (.running 0) u)
          ∧ (stopDemand u r = false → u = s))
      ∧ ((s.ramps[r]).state ≠ .standby → (s.ramps[r]).state ≠ .warn →
          (s.ramps[r]).state ≠ .startGreen → u = s)) := by
  unfold actOnDemand at hu
  refine ⟨fun h => ?_, fun h m => ?_, fun h => ?_, fun h1 h2 h3 => ?_⟩
  · rw [h] at hu
    have q := standbyActs_spec r s
    rw [hu, q.2.1]; exact q.2.2.2.2.2
  · rw [h] at hu; dsimp only at hu
    cases d : stopDemand s r with
    | false => rw [d, if_neg (by decide)] at hu; rw [hu, d]; exact ⟨fun k => (by cases k), fun _ => rfl⟩
    | true =>
      rw [d, if_pos rfl] at hu
      unfold enterOffOrStandby at hu; rw [m, if_neg (by decide)] at hu
      have q := enterStandby_spec r s
      have E : Entered r .standby .stopped u := by rw [hu]; exact q.2.2.2.2 (startDemand_stop d)
      have sd : stopDemand u r = true := by rw [hu, enterStandby_stop]; exact d
      exact ⟨fun _ => E, fun k => by rw [sd] at k; cases k⟩
  · rw [h] at hu; dsimp only at hu
    cases d : stopDemand s r with
    | false => rw [d, if_neg (by decide)] at hu; rw [hu, d]; exact ⟨fun k => (by cases k), fun _ => rfl⟩
    | true =>
      rw [d, if_pos rfl] at hu
      have sd : stopDemand u r = true := by rw [hu]; unfold enterShutFlush; rw [(enter_demand r .shutFlush none (.running 0) s (by decide)).2.2]; exact d
      exact ⟨fun _ => by rw [hu]; exact enter_entered r .shutFlush _ s (by decide), fun k => by rw [sd] at k; cases k⟩
  · rw [hu]; split <;> first | rfl | contradiction

end Sys2Proof.Machine
end

