-- ==== Sys2Proof/Laws/Reports.lean ====
section
/-! SUPPORT. What a report leaves: a DPR in a detector channel and in its own verdicts, an LMP in the output channels;
and what an Output Map record's write leaves of the drivers. -/

namespace Sys2Proof.Machine

/-! ### A detector's report -/

/-- A report meets the filter, which at most brings STUCK back to OK (R7, R11). -/
theorem applyFilter_health (d : DetRec) (v : Bool) (c : DetState) :
    (applyFilter d v c).health = c.health ∨ (applyFilter d v c).health = .ok := by
  have f : (c.setFiltered v).health = c.health ∨ (c.setFiltered v).health = .ok := by
    unfold DetState.setFiltered DetState.setHealth; dsimp only
    repeat' split
    all_goals first | exact Or.inl rfl | exact Or.inr rfl
  unfold applyFilter
  repeat' split
  all_goals first | exact f | exact Or.inl rfl

/-- Step 3 of R5 for a channel in service, and for one that comes into service (R6). -/
theorem serveReport_cases (d : DetRec) (v : Bool) (c : DetState) :
    (c.health = .unseen ∨ c.health = .silent → serveReport d v c = (c.setHealth .ok).setFiltered v)
    ∧ (c.health ≠ .unseen → c.health ≠ .silent → serveReport d v c = applyFilter d v c) := by
  unfold serveReport
  cases c.health <;> simp

/-- A verdict written takes bits 4 to 6 and leaves the rest (R187). -/
theorem setVerdict_spec (b : Byte) (v : BitVec 3) : (∀ k : Nat, k < 4 ∨ k = 7 → (setVerdict b v).getLsbD k = b.getLsbD k)
    ∧ (setVerdict b v).toNat / 16 % 8 = v.toNat := by
  have e : ∀ (b : BitVec 8) (v : BitVec 3), (∀ k : Fin 8, k.val < 4 ∨ k.val = 7 → (setVerdict b v).getLsbD k.val = b.getLsbD k.val)
      ∧ (setVerdict b v).toNat / 16 % 8 = v.toNat := by decide +kernel
  exact ⟨fun k hk => (e b v).1 ⟨k, by omega⟩ hk, (e b v).2⟩

/-! ### A lamp report -/

/-- A channel's report stored and judged (R132, R133). -/
def reported (t : Tables) (ch : OutCh) (b : Option Byte) (c : OutChan) : OutChan :=
  { reportFrom b c with
    mismatch := if inMismatch t ch (reportFrom b c) then (reportFrom b c).mismatch.keepRunning else .stopped }

theorem setOut_get (s : State) (ch c : OutCh) (x : OutChan) :
    (s.setOut ch x).out.chans[c] = if ch = c then x else s.out.chans[c] := vset_get _ _ _ _

theorem judgeMismatch_at (ch : OutCh) (s : State) : (judgeMismatch ch s).out.chans[ch] = { s.out.chans[ch] with
    mismatch := if inMismatch s.tables ch s.out.chans[ch] then (s.out.chans[ch]).mismatch.keepRunning else .stopped } :=
  (setOut_get s ch ch _).trans (if_pos rfl)

theorem lampReportChannel_get (st : Nat) (outs : List Byte) (ch : OutCh) (s : State) :
    (∀ c : OutCh, c ≠ ch → (lampReportChannel st outs ch s).out.chans[c] = s.out.chans[c])
    ∧ (∀ o : OutRec, s.tables.outMap[ch] = some o → (lampReportChannel st outs ch s).out.chans[ch]
        = if o.station = st then reported s.tables ch outs[o.output.val]? s.out.chans[ch] else s.out.chans[ch])
    ∧ (s.tables.outMap[ch] = none → (lampReportChannel st outs ch s).out.chans[ch] = s.out.chans[ch]) := by
  unfold lampReportChannel
  refine ⟨fun c hc => ?_, fun o e => ?_, fun e => by rw [e]⟩
  · split
    · split
      · exact ((judgeMismatch_get ch _).2.2 c hc).trans ((setOut_get _ _ _ _).trans (if_neg hc.symm))
      · rfl
    · rfl
  · rw [e]; dsimp only; split
    · have e : (s.setOut ch (reportFrom outs[o.output.val]? s.out.chans[ch])).out.chans[ch]
          = reportFrom outs[o.output.val]? s.out.chans[ch] := (setOut_get _ _ _ _).trans (if_pos rfl)
      rw [judgeMismatch_at, e]; rfl
    · rfl

theorem forEach_lampReport (st : Nat) (outs : List Byte) (ls : List OutCh) (hn : ls.Nodup) (s : State) (ch : OutCh) :
    (ch ∉ ls → (forEach ls (lampReportChannel st outs) s).out.chans[ch] = s.out.chans[ch])
    ∧ (ch ∈ ls → (forEach ls (lampReportChannel st outs) s).out.chans[ch]
        = (lampReportChannel st outs ch s).out.chans[ch]) := by
  induction ls generalizing s with
  | nil => exact ⟨fun _ => rfl, fun h => by cases h⟩
  | cons a ls ih =>
    rw [List.nodup_cons] at hn
    have e : forEach (a :: ls) (lampReportChannel st outs) s = forEach ls (lampReportChannel st outs) (lampReportChannel st outs a s) := rfl
    have g := lampReportChannel_get st outs a s
    have t := (lampReportChannel_side st outs a s).tables
    have i := ih hn.2 (lampReportChannel st outs a s)
    rw [e]
    by_cases h : ch = a
    · subst h; exact ⟨fun x => absurd List.mem_cons_self x, fun _ => i.1 hn.1⟩
    · refine ⟨fun x => (i.1 fun y => x (List.mem_cons_of_mem _ y)).trans (g.1 ch h), fun x => ?_⟩
      rw [i.2 ((List.mem_cons.1 x).resolve_left h)]
      have p := lampReportChannel_get st outs ch (lampReportChannel st outs a s)
      have q := lampReportChannel_get st outs ch s
      cases eo : s.tables.outMap[ch] with
      | none => rw [p.2.2 (by rw [t]; exact eo), q.2.2 eo, g.1 ch h]
      | some o => rw [p.2.1 o (by rw [t]; exact eo), q.2.1 o eo, g.1 ch h, t]

/-- What an LMP leaves of the channels (R132, R133). -/
theorem lampReport_get {st : Nat} {outs : List Byte} {s : State} (hd : driverOf s.out st ≠ none) (ch : OutCh) :
    (∀ o : OutRec, s.tables.outMap[ch] = some o → o.station = st →
      (lampReport st outs s).out.chans[ch] = reported s.tables ch outs[o.output.val]? s.out.chans[ch])
    ∧ ((∀ o : OutRec, s.tables.outMap[ch] = some o → o.station ≠ st) →
      (lampReport st outs s).out.chans[ch] = s.out.chans[ch]) := by
  unfold lampReport
  split
  · next e => exact absurd e hd
  · have f := (forEach_lampReport st outs (List.finRange 16) (List.nodup_finRange 16) { s with out := { s.out with
      drivers := modDriver st (fun d => { d with silence := .running 0 }) s.out.drivers } } ch).2 (List.mem_finRange ch)
    have g := lampReportChannel_get st outs ch { s with out := { s.out with
      drivers := modDriver st (fun d => { d with silence := .running 0 }) s.out.drivers } }
    refine ⟨fun o e h => ?_, fun h => ?_⟩
    · rw [f, g.2.1 o e, if_pos h]
    · rw [f]
      cases e : s.tables.outMap[ch] with
      | none => exact g.2.2 e
      | some o => rw [g.2.1 o e, if_neg (h o e)]

/-- An LMP touches the drivers, the channels and attention alone. -/
theorem lampReport_frame (st : Nat) (outs : List Byte) (s : State) : Undisturbed s (lampReport st outs s) := by
  unfold lampReport; split
  · exact ⟨rfl, rfl, rfl, rfl, rfl, rfl, rfl, rfl⟩
  · have a := LaneSide.forEach (List.finRange 16) _ (lampReportChannel_side st outs)
      { s with out := { s.out with drivers := modDriver st (fun d => { d with silence := .running 0 }) s.out.drivers } }
    generalize forEach (List.finRange 16) (lampReportChannel st outs) _ = u at *
    exact ⟨a.pending, a.stride, a.freeCount, a.tables, a.det, a.lines, a.time, a.ring⟩

theorem lampReport_drivers {st : Nat} {outs : List Byte} {s : State} (hd : driverOf s.out st ≠ none) :
    (lampReport st outs s).out.drivers = modDriver st (fun d => { d with silence := .running 0 }) s.out.drivers := by
  unfold lampReport; split
  · next k => exact absurd k hd
  · exact (LaneSide.forEach (List.finRange 16) _ (lampReportChannel_side st outs) _).drivers

/-! ### An Output Map record's stations (R127) -/
theorem find_insertDriver (x : DriverRec) (l : List DriverRec) (st : Nat)
    (h : l.find? (fun d => d.station == x.station) = none) :
    (insertDriver x l).find? (fun d => d.station == st)
      = if x.station = st then some x else l.find? fun d => d.station == st := by
  induction l with
  | nil => simp [insertDriver, List.find?_cons]; split <;> simp_all
  | cons d l ih =>
    rw [List.find?_cons] at h
    have hd : (d.station == x.station) = false := by
      cases e : d.station == x.station
      · rfl
      · rw [e] at h; cases h
    rw [hd] at h
    unfold insertDriver; split
    · rw [List.find?_cons]
      by_cases e : x.station = st
      · simp [e]
      · have : (x.station == st) = false := by simpa using e
        rw [this, if_neg e]
    · rw [List.find?_cons, ih h, List.find?_cons]
      by_cases e : x.station = st
      · subst e; rw [hd]
      · rw [if_neg e, if_neg e]

theorem namesStation_iff (t : Tables) (st : Nat) :
    namesStation t st = true ↔ ∃ (ch : OutCh) (o : OutRec), t.outMap[ch] = some o ∧ o.station = st := by
  unfold namesStation; rw [List.any_eq_true]
  refine exists_congr fun ch => ?_
  cases t.outMap[ch] <;> simp

/-- A station touched has a driver record exactly when the map names it. -/
theorem reviewDriver_spec (st : Nat) (s : State) :
    (reviewDriver st s).tables = s.tables ∧ (reviewDriver st s).out.chans = s.out.chans
    ∧ (reviewDriver st s).out.sigDue = s.out.sigDue
    ∧ (∀ x : Nat, x ≠ st → driverOf (reviewDriver st s).out x = driverOf s.out x)
    ∧ (namesStation s.tables st = true →
        driverOf (reviewDriver st s).out st = some ((driverOf s.out st).getD ⟨st, .stopped, .running 0⟩))
    ∧ (namesStation s.tables st = false → driverOf (reviewDriver st s).out st = none)
    ∧ ((∀ d ∈ s.out.drivers, d.silence ≠ .expired) → ∀ d ∈ (reviewDriver st s).out.drivers, d.silence ≠ .expired) := by
  unfold reviewDriver
  cases n : namesStation s.tables st with
  | false =>
    rw [if_neg (by decide)]
    refine ⟨rfl, rfl, rfl, fun x hx => ?_, fun h => (by cases h), fun _ => ?_, fun h d hd => h d (List.mem_filter.1 hd).1⟩
    · show (s.out.drivers.filter fun d => d.station != st).find? (fun d => d.station == x) = s.out.drivers.find? fun d => d.station == x
      rw [List.find?_filter]
      congr 1; funext d
      by_cases e : d.station = x
      · subst e; simp [hx]
      · simp [e]
    · show (s.out.drivers.filter fun d => d.station != st).find? (fun d => d.station == st) = none
      rw [List.find?_eq_none]; intro d hd
      have := (List.mem_filter.1 hd).2
      simpa using this
  | true =>
    rw [if_pos rfl]
    cases e : driverOf s.out st with
    | some d => exact ⟨rfl, rfl, rfl, fun _ _ => rfl, fun _ => e, fun h => (by cases h), fun h => h⟩
    | none =>
      have f := fun x => find_insertDriver ⟨st, .stopped, .running 0⟩ s.out.drivers x e
      refine ⟨rfl, rfl, rfl, fun x hx => (f x).trans (if_neg hx.symm), fun _ => (f st).trans (if_pos rfl), fun h => (by cases h), fun h d hd => ?_⟩
      have m : ∀ l : List DriverRec, d ∈ insertDriver ⟨st, .stopped, .running 0⟩ l → d = ⟨st, .stopped, .running 0⟩ ∨ d ∈ l := by
        intro l
        induction l with
        | nil => intro h; simpa [insertDriver] using h
        | cons a l ih =>
          intro h
          unfold insertDriver at h; split at h
          · simpa using h
          · rcases List.mem_cons.1 h with h | h
            · exact Or.inr (h ▸ List.mem_cons_self)
            · exact (ih h).imp_right (List.mem_cons_of_mem _)
      rcases m _ hd with h' | h'
      · subst h'; exact fun h => by cases h
      · exact h d h'

/-- The drivers and the SIGs due after the stations of an Output Map write are touched. -/
structure Touched (P : Nat → Prop) (s t : State) : Prop where
  frame : t = { s with out := { s.out with drivers := t.out.drivers, sigDue := t.out.sigDue } }
  due : ∀ x : Nat, x ∈ t.out.sigDue ↔ x ∈ s.out.sigDue ∨ P x
  others : ∀ x : Nat, ¬ P x → driverOf t.out x = driverOf s.out x
  left : ∀ x : Nat, P x → namesStation s.tables x = false → driverOf t.out x = none
  entered : ∀ x : Nat, P x → namesStation s.tables x = true →
    driverOf t.out x = some ((driverOf s.out x).getD ⟨x, .stopped, .running 0⟩)
  present : (∀ d ∈ s.out.drivers, d.silence ≠ .expired) → ∀ d ∈ t.out.drivers, d.silence ≠ .expired

theorem touchStation_touched (st : Option Nat) (s : State) : Touched (fun x => st = some x) s (touchStation st s) := by
  unfold touchStation
  cases st with
  | none => exact ⟨rfl, fun x => by simp, fun _ _ => rfl, fun _ h => (by cases h), fun _ h => (by cases h), fun h => h⟩
  | some y =>
    have a := reviewDriver_spec y s
    have f : reviewDriver y s = { s with out := { s.out with drivers := (reviewDriver y s).out.drivers } } := by
      unfold reviewDriver; split
      · split <;> rfl
      · rfl
    have e : ∀ x, driverOf (dueSig y (reviewDriver y s)).out x = driverOf (reviewDriver y s).out x := fun _ => rfl
    dsimp only
    refine ⟨?_, fun x => ?_, fun x h => ?_, fun x h n => ?_, fun x h n => ?_, fun h => a.2.2.2.2.2.2 h⟩
    · unfold dueSig; rw [f]
    · show x ∈ insertStation y (reviewDriver y s).out.sigDue ↔ _
      rw [mem_insertStation, a.2.2.1]
      simp only [Option.some.injEq]
      constructor <;> rintro (h | h) <;> simp [h]
    · rw [e]; exact a.2.2.2.1 x fun k => h (by rw [k])
    · cases h; exact a.2.2.2.2.2.1 n
    · cases h; exact a.2.2.2.2.1 n

theorem Touched.trans {P Q : Nat → Prop} {s t u : State} (a : Touched P s t) (b : Touched Q t u) :
    Touched (fun x => P x ∨ Q x) s u := by
  have ht : t.tables = s.tables := by rw [a.frame]
  have bl := b.left
  have be := b.entered
  rw [ht] at bl be
  refine ⟨by rw [b.frame, a.frame], fun x => by rw [b.due, a.due, or_assoc], fun x h => ?_, fun x h n => ?_, fun x h n => ?_,
    fun h => b.present (a.present h)⟩
  · rw [not_or] at h; exact (b.others x h.2).trans (a.others x h.1)
  · by_cases q : Q x
    · exact bl x q n
    · exact (b.others x q).trans (a.left x (h.resolve_right q) n)
  · by_cases q : Q x
    · rw [be x q n]
      by_cases p : P x
      · rw [a.entered x p n]; rfl
      · rw [a.others x p]
    · exact (b.others x q).trans (a.entered x (h.resolve_right q) n)

theorem judgeSilence_at (ch : OutCh) (s : State) : (judgeSilence ch s).out.sigDue = s.out.sigDue
    ∧ ((judgeSilence ch s).out.chans[ch] = s.out.chans[ch]
      ∨ (s.out.chans[ch]).commanded ≠ .dark
        ∧ (judgeSilence ch s).out.chans[ch] = { s.out.chans[ch] with fault := true, mismatch := .stopped }) := by
  unfold judgeSilence
  split
  · split
    · next h =>
      rw [Bool.and_eq_true, Bool.and_eq_true] at h
      refine ⟨?_, Or.inr ⟨of_decide_eq_true h.1.2, (latchFault_get ch s).2.1⟩⟩
      unfold latchFault; rw [(attentionOwner_rest ch _).2]; rfl
    · exact ⟨rfl, Or.inl rfl⟩
  · exact ⟨rfl, Or.inl rfl⟩

end Sys2Proof.Machine
end

