-- ==== Sys2Proof/Laws/Lamps.lean ====
section
/-! SUPPORT. What the lamp check leaves of one output channel (`MismatchJudged`, `JudgedAtOnce`), and what the operations
that go channel by channel leave: a change of aspect, CLEAR FAULT, and a write that moves the checked channels. -/

namespace Sys2Proof.Machine

/-! ### One channel -/

/-- One channel's record, the SIGs due and attention alone have moved; attention is only SET, and only the channel's
owner's. -/
structure OneChan (P : Ramp → Prop) (ch : OutCh) (s t : State) : Prop where
  frame : t = { s with ramps := t.ramps, out := { s.out with chans := t.out.chans, sigDue := t.out.sigDue } }
  others : ∀ c : OutCh, c ≠ ch → t.out.chans[c] = s.out.chans[c]
  ramps : ∀ q : Ramp, SameRamp s t q
  still : ∀ q : Ramp, ¬ P q → t.ramps[q] = s.ramps[q]

namespace OneChan

theorem refl (P : Ramp → Prop) (ch : OutCh) (s : State) : OneChan P ch s s :=
  ⟨rfl, fun _ _ => rfl, fun _ => Or.inl rfl, fun _ _ => rfl⟩

theorem trans {P Q : Ramp → Prop} {ch : OutCh} {s t u : State} (a : OneChan P ch s t) (b : OneChan Q ch t u) :
    OneChan (fun q => P q ∨ Q q) ch s u :=
  ⟨by rw [b.frame, a.frame], fun c h => (b.others c h).trans (a.others c h),
    fun q => SameRamp.trans (a.ramps q) (b.ramps q),
    fun q h => (b.still q fun x => h (Or.inr x)).trans (a.still q fun x => h (Or.inl x))⟩

theorem weaken {P Q : Ramp → Prop} {ch : OutCh} {s t : State} (a : OneChan P ch s t) (h : ∀ q, P q → Q q) :
    OneChan Q ch s t := ⟨a.frame, a.others, a.ramps, fun q n => a.still q fun x => n (h q x)⟩

theorem tables {P : Ramp → Prop} {ch : OutCh} {s t : State} (a : OneChan P ch s t) : t.tables = s.tables := by
  rw [a.frame]

theorem drivers {P : Ramp → Prop} {ch : OutCh} {s t : State} (a : OneChan P ch s t) :
    t.out.drivers = s.out.drivers := by rw [a.frame]

/-- Attention stays SET. -/
theorem attention {P : Ramp → Prop} {ch : OutCh} {s t : State} (a : OneChan P ch s t) {q : Ramp}
    (h : (s.ramps[q]).attention = true) : (t.ramps[q]).attention = true := by
  rcases a.ramps q with e | e <;> rw [e]
  exact h

end OneChan

theorem setOut_one (ch : OutCh) (x : OutChan) (s : State) : OneChan (fun _ => False) ch s (s.setOut ch x) :=
  ⟨rfl, fun c h => (setOut_get s ch c x).trans (if_neg h.symm), fun _ => Or.inl rfl, fun _ _ => rfl⟩

theorem setAttention_get (r : Ramp) (s : State) (q : Ramp) :
    (setAttention r s).ramps[q] = if r = q then { s.ramps[r] with attention := true } else s.ramps[q] := by
  show (vset s.ramps r _)[q] = _
  rw [vset_get]

theorem attentionOwner_one (ch c : OutCh) (s : State) :
    OneChan (fun q => ownerOf s.tables ch = some q) c s (attentionOwner ch s)
    ∧ ∀ q : Ramp, ownerOf s.tables ch = some q → ((attentionOwner ch s).ramps[q]).attention = true := by
  unfold attentionOwner
  split
  · next r e =>
    refine ⟨⟨rfl, fun _ _ => rfl, fun q => ?_, fun q n => ?_⟩, fun q h => ?_⟩
    · rw [SameRamp, setAttention_get]; split
      · next k => subst k; exact Or.inr rfl
      · exact Or.inl rfl
    · rw [setAttention_get, if_neg fun k => n (by rw [← k]; exact e)]
    · have k : r = q := Option.some.inj (e.symm.trans h)
      rw [setAttention_get, if_pos k]
  · next e => exact ⟨.refl _ c s, fun q h => by rw [e] at h; cases h⟩

/-! ### The judgements -/

theorem inMismatch_iff (s : State) (ch : OutCh) (c : OutChan) : inMismatch s.tables ch c = true ↔ Mismatched s ch c := by
  unfold inMismatch disagrees Mismatched
  cases isChecked s.tables ch <;> cases c.fault <;> cases c.reported <;> simp

theorem keepRunning_eq (t : Timer) : t.keepRunning = if t = .stopped then .running 0 else t := by cases t <;> rfl

/-- What `Mismatched` and `LitOnSilent` read of the state: the tables and the drivers. -/
theorem Mismatched.congr {s t : State} (ht : t.tables = s.tables) (ch : OutCh) (c : OutChan) :
    Mismatched t ch c ↔ Mismatched s ch c := by unfold Mismatched; rw [ht]

theorem LitOnSilent.congr {s t : State} (ht : t.tables = s.tables) (hd : t.out.drivers = s.out.drivers) (ch : OutCh)
    (c : OutChan) : LitOnSilent t ch c ↔ LitOnSilent s ch c := by unfold LitOnSilent driverOf; rw [ht, hd]

theorem MismatchJudged.congr {s t : State} (ht : t.tables = s.tables) (ch : OutCh) (c d : OutChan) :
    MismatchJudged t ch c d ↔ MismatchJudged s ch c d := by unfold MismatchJudged; rw [Mismatched.congr ht]

theorem JudgedAtOnce.congr {s t : State} (ht : t.tables = s.tables) (hd : t.out.drivers = s.out.drivers) (ch : OutCh)
    (c d : OutChan) : JudgedAtOnce t ch c d ↔ JudgedAtOnce s ch c d := by
  unfold JudgedAtOnce; rw [LitOnSilent.congr ht hd, MismatchJudged.congr ht]

theorem judgeMismatch_one (ch : OutCh) (s : State) : OneChan (fun _ => False) ch s (judgeMismatch ch s) := setOut_one _ _ _

theorem judgeMismatch_judged (ch : OutCh) (s : State) :
    MismatchJudged s ch s.out.chans[ch] (judgeMismatch ch s).out.chans[ch] := by
  rw [judgeMismatch_at]
  refine ⟨fun h => ?_, fun h => ?_⟩
  · rw [if_pos ((inMismatch_iff s ch _).2 h), keepRunning_eq]
  · rw [if_neg fun x => h ((inMismatch_iff s ch _).1 x)]

theorem silentStation_iff (o : OutUnit) (st : Nat) :
    silentStation o st = true ↔ ∃ d, driverOf o st = some d ∧ d.silence = .expired := by
  unfold silentStation; split
  · next d e => simp [e]
  · next e => simp [e]

theorem litOnSilent_iff (s : State) (ch : OutCh) (c : OutChan) : LitOnSilent s ch c ↔ ∃ o : OutRec,
    s.tables.outMap[ch] = some o
      ∧ (isChecked s.tables ch && !c.fault && decide (c.commanded ≠ .dark) && silentStation s.out o.station) = true := by
  unfold LitOnSilent
  simp only [Bool.and_eq_true, Bool.not_eq_true', decide_eq_true_eq, silentStation_iff]
  constructor
  · rintro ⟨a, b, e, o, d, h⟩; exact ⟨o, h.1, ⟨⟨a, b⟩, e⟩, d, h.2⟩
  · rintro ⟨o, h, ⟨⟨a, b⟩, e⟩, d, k⟩; exact ⟨a, b, e, o, d, h, k⟩

/-- The silence judgement of a channel (R135). -/
theorem judgeSilence_spec (ch : OutCh) (s : State) :
    OneChan (fun q => ownerOf s.tables ch = some q ∧ LitOnSilent s ch s.out.chans[ch]) ch s (judgeSilence ch s)
    ∧ (judgeSilence ch s).out.sigDue = s.out.sigDue
    ∧ (LitOnSilent s ch s.out.chans[ch] →
        (judgeSilence ch s).out.chans[ch] = { s.out.chans[ch] with fault := true, mismatch := .stopped }
        ∧ ∀ q : Ramp, ownerOf s.tables ch = some q → ((judgeSilence ch s).ramps[q]).attention = true)
    ∧ (¬ LitOnSilent s ch s.out.chans[ch] → judgeSilence ch s = s) := by
  have i := litOnSilent_iff s ch s.out.chans[ch]
  unfold judgeSilence
  cases e : s.tables.outMap[ch] with
  | none =>
    have n : ¬ LitOnSilent s ch s.out.chans[ch] := fun h => by obtain ⟨o, h, _⟩ := i.1 h; rw [e] at h; cases h
    exact ⟨.refl _ ch s, rfl, fun h => absurd h n, fun _ => rfl⟩
  | some o =>
    rw [e] at i
    dsimp only; split
    · next h =>
      have y := i.2 ⟨o, rfl, h⟩
      have a := attentionOwner_one ch ch (s.setOut ch { s.out.chans[ch] with fault := true, mismatch := .stopped })
      refine ⟨((setOut_one _ _ s).trans a.1).weaken fun q h => ⟨h.resolve_left id, y⟩, ?_,
        fun _ => ⟨(latchFault_get ch s).2.1, a.2⟩, fun n => absurd y n⟩
      unfold latchFault; rw [(attentionOwner_rest ch _).2]; rfl
    · next h =>
      have n : ¬ LitOnSilent s ch s.out.chans[ch] := fun y => by
        obtain ⟨o', e', h'⟩ := i.1 y; cases e'; exact h h'
      exact ⟨.refl _ ch s, rfl, fun y => absurd y n, fun _ => rfl⟩

/-- The mismatch judgement moves nothing that the silence judgement reads. -/
theorem MismatchJudged.lit {s : State} {ch : OutCh} {c d : OutChan} (h : MismatchJudged s ch c d) :
    LitOnSilent s ch d ↔ LitOnSilent s ch c := by
  by_cases m : Mismatched s ch c
  · rw [h.1 m]; rfl
  · rw [h.2 m]; rfl

/-- A channel judged at once (R130, R136). -/
theorem judgeChannel_spec (ch : OutCh) (s : State) :
    OneChan (fun q => ownerOf s.tables ch = some q ∧ LitOnSilent s ch s.out.chans[ch]) ch s (judgeChannel ch s)
    ∧ (judgeChannel ch s).out.sigDue = s.out.sigDue
    ∧ JudgedAtOnce s ch s.out.chans[ch] (judgeChannel ch s).out.chans[ch]
    ∧ (LitOnSilent s ch s.out.chans[ch] →
        ∀ q : Ramp, ownerOf s.tables ch = some q → ((judgeChannel ch s).ramps[q]).attention = true) := by
  have a := judgeMismatch_one ch s
  have j := judgeMismatch_judged ch s
  have d : (judgeMismatch ch s).out.sigDue = s.out.sigDue := rfl
  unfold judgeChannel
  generalize judgeMismatch ch s = t at *
  have b := judgeSilence_spec ch t
  have l : LitOnSilent t ch t.out.chans[ch] ↔ LitOnSilent s ch s.out.chans[ch] :=
    (LitOnSilent.congr a.tables a.drivers ch _).trans j.lit
  rw [l, a.tables] at b
  refine ⟨(a.trans b.1).weaken fun q h => h.resolve_left id, b.2.1.trans d, ⟨fun h => ?_, fun h => ?_⟩,
    fun h => (b.2.2.1 h).2⟩
  · rw [(b.2.2.1 h).1]
    by_cases m : Mismatched s ch s.out.chans[ch]
    · rw [j.1 m]
    · rw [j.2 m]
  · rw [b.2.2.2 h]; exact j

theorem dueSigOf_one (ch c : OutCh) (s : State) : OneChan (fun _ => False) c s (dueSigOf ch s)
    ∧ (dueSigOf ch s).out.chans = s.out.chans
    ∧ ∀ st : Nat, st ∈ (dueSigOf ch s).out.sigDue
      ↔ st ∈ s.out.sigDue ∨ ∃ o : OutRec, s.tables.outMap[ch] = some o ∧ o.station = st := by
  unfold dueSigOf; split
  · next o e =>
    refine ⟨⟨rfl, fun _ _ => rfl, fun _ => Or.inl rfl, fun _ _ => rfl⟩, rfl, fun st => ?_⟩
    show st ∈ insertStation o.station s.out.sigDue ↔ _
    rw [mem_insertStation, e]
    simp only [Option.some.injEq, exists_eq_left']
    exact or_comm.trans (or_congr_right eq_comm)
  · next e => exact ⟨.refl _ c s, rfl, fun st => by rw [e]; simp⟩

/-- A change of commanded aspect (R129, R131, R133, R135). -/
theorem setAspect_spec (ch : OutCh) (a : Aspect) (s u : State) (c : OutChan) (hu : u = setAspect ch a s)
    (hc : c = { s.out.chans[ch] with commanded := a }) (hn : (s.out.chans[ch]).commanded ≠ a) :
    OneChan (fun q => ownerOf s.tables ch = some q ∧ (s.out.chans[ch]).commanded = .dark ∧ LitOnSilent s ch c) ch s u
    ∧ (∀ st : Nat, st ∈ u.out.sigDue ↔ st ∈ s.out.sigDue ∨ ∃ o : OutRec, s.tables.outMap[ch] = some o ∧ o.station = st)
    ∧ ((s.out.chans[ch]).commanded = .dark → JudgedAtOnce s ch c u.out.chans[ch]
        ∧ (LitOnSilent s ch c → ∀ q : Ramp, ownerOf s.tables ch = some q → (u.ramps[q]).attention = true))
    ∧ ((s.out.chans[ch]).commanded ≠ .dark → MismatchJudged s ch c u.out.chans[ch]) := by
  have x := setOut_one ch c s
  have g : (s.setOut ch c).out.chans[ch] = c := (setOut_get _ _ _ _).trans (if_pos rfl)
  have y := dueSigOf_one ch ch (s.setOut ch c)
  unfold setAspect at hu; rw [if_neg hn, ← hc] at hu
  have e : (s.setOut ch c).out.sigDue = s.out.sigDue := rfl
  have f : (s.setOut ch c).tables = s.tables := rfl
  rw [e, f] at y
  have z := x.trans y.1
  have g' : (dueSigOf ch (s.setOut ch c)).out.chans[ch] = c := (congrArg (·[ch]) y.2.1).trans g
  have d := y.2.2
  clear y x
  generalize dueSigOf ch (s.setOut ch c) = t at *
  by_cases h : (s.out.chans[ch]).commanded = .dark
  · have k : u = judgeChannel ch t := by rw [hu]; unfold judgeLit; rw [if_pos h]; rfl
    have b := judgeChannel_spec ch t
    rw [← k, g', LitOnSilent.congr z.tables z.drivers, z.tables, JudgedAtOnce.congr z.tables z.drivers] at b
    refine ⟨(z.trans b.1).weaken fun q w => ?_, fun st => by rw [b.2.1]; exact d st, fun _ => ⟨b.2.2.1, b.2.2.2⟩,
      fun n => absurd h n⟩
    rcases w with w | w
    · exact (or_self_iff.1 w).elim
    · exact ⟨w.1, h, w.2⟩
  · have k : u = judgeMismatch ch t := by rw [hu]; unfold judgeLit; rw [if_neg h]
    have b := judgeMismatch_one ch t
    have j := judgeMismatch_judged ch t
    rw [← k] at b j
    rw [g', MismatchJudged.congr z.tables] at j
    refine ⟨(z.trans b).weaken fun q w => ?_, fun st => ?_, fun n => absurd n h, fun _ => j⟩
    · simp at w
    · rw [show u.out.sigDue = t.out.sigDue by rw [k]; rfl]; exact d st

/-! ### Channel by channel -/

/-- An operation done for each channel of a list once leaves each of them as it leaves that channel alone, and no other. -/
theorem forEach_chan (f : OutCh → State → State) (P : OutCh → State → Ramp → Prop)
    (R : OutCh → State → OutChan → OutChan → Prop) (h : ∀ ch s, OneChan (P ch s) ch s (f ch s))
    (hR : ∀ ch s, R ch s s.out.chans[ch] (f ch s).out.chans[ch])
    (hc : ∀ ch (s t : State) c d, t.tables = s.tables → t.out.drivers = s.out.drivers → (R ch t c d ↔ R ch s c d))
    (ls : List OutCh) (hn : ls.Nodup) (s : State) :
    (∀ ch, ch ∉ ls → (forEach ls f s).out.chans[ch] = s.out.chans[ch])
    ∧ (∀ ch ∈ ls, R ch s s.out.chans[ch] (forEach ls f s).out.chans[ch]) := by
  induction ls generalizing s with
  | nil => exact ⟨fun _ _ => rfl, fun _ x => by cases x⟩
  | cons a ls ih =>
    rw [List.nodup_cons] at hn
    have e : forEach (a :: ls) f s = forEach ls f (f a s) := rfl
    have o := h a s
    have i := ih hn.2 (f a s)
    rw [e]
    refine ⟨fun ch x => ?_, fun ch x => ?_⟩
    · rw [List.mem_cons, not_or] at x
      exact (i.1 ch x.2).trans (o.others ch x.1)
    · by_cases k : ch = a
      · subst k; rw [i.1 _ hn.1]; exact hR _ s
      · have m := i.2 ch ((List.mem_cons.1 x).resolve_left k)
        rw [o.others ch k] at m
        exact (hc ch s _ _ _ o.tables o.drivers).1 m

/-- What the whole list leaves beside the channels. -/
theorem forEach_frame (f : OutCh → State → State) (P : OutCh → Tables → Ramp → Prop)
    (h : ∀ ch s, OneChan (P ch s.tables) ch s (f ch s)) (ls : List OutCh) (s : State) :
    (forEach ls f s = { s with
      ramps := (forEach ls f s).ramps
      out := { s.out with chans := (forEach ls f s).out.chans, sigDue := (forEach ls f s).out.sigDue } })
    ∧ (∀ q : Ramp, SameRamp s (forEach ls f s) q)
    ∧ (∀ q : Ramp, (∀ ch ∈ ls, ¬ P ch s.tables q) → (forEach ls f s).ramps[q] = s.ramps[q]) := by
  induction ls generalizing s with
  | nil => exact ⟨rfl, fun _ => Or.inl rfl, fun _ _ => rfl⟩
  | cons a ls ih =>
    have e : forEach (a :: ls) f s = forEach ls f (f a s) := rfl
    have o := h a s
    have i := ih (f a s)
    rw [e]
    generalize forEach ls f (f a s) = u at *
    refine ⟨by rw [i.1, o.frame], fun q => SameRamp.trans (o.ramps q) (i.2.1 q), fun q n => ?_⟩
    rw [o.tables] at i
    exact (i.2.2 q fun ch m => n ch (List.mem_cons_of_mem a m)).trans (o.still q (n a List.mem_cons_self))

theorem SameRamp.attention {s t : State} {q : Ramp} (a : SameRamp s t q) (h : (s.ramps[q]).attention = true) :
    (t.ramps[q]).attention = true := by
  rcases a with e | e <;> rw [e]
  exact h

/-- The attention that one channel's turn sets stays set. -/
theorem forEach_attention (f : OutCh → State → State) (P : OutCh → State → Ramp → Prop)
    (A : OutCh → Tables → OutUnit → Ramp → Prop) (h : ∀ ch s, OneChan (P ch s) ch s (f ch s))
    (hA : ∀ ch s q, A ch s.tables s.out q → ((f ch s).ramps[q]).attention = true)
    (hc : ∀ ch (s t : State) q, t.out.drivers = s.out.drivers → t.out.chans[ch] = s.out.chans[ch] →
      A ch s.tables s.out q → A ch s.tables t.out q)
    (ls : List OutCh) (hn : ls.Nodup) (s : State) :
    ∀ ch ∈ ls, ∀ q : Ramp, A ch s.tables s.out q → ((forEach ls f s).ramps[q]).attention = true := by
  have same : ∀ (ls : List OutCh) (s : State) (q : Ramp), SameRamp s (forEach ls f s) q := by
    intro ls
    induction ls with
    | nil => exact fun _ _ => Or.inl rfl
    | cons a ls ih => exact fun s q => SameRamp.trans ((h a s).ramps q) (ih (f a s) q)
  induction ls generalizing s with
  | nil => intro ch x; cases x
  | cons a ls ih =>
    intro ch x q m
    rw [List.nodup_cons] at hn
    show ((forEach ls f (f a s)).ramps[q]).attention = true
    by_cases e : ch = a
    · subst e; exact SameRamp.attention (same ls _ q) (hA ch s q m)
    · have o := h a s
      refine ih hn.2 (f a s) ch ((List.mem_cons.1 x).resolve_left e) q ?_
      rw [o.tables]
      exact hc ch s _ q o.drivers (o.others ch e) m

theorem forEach_due (f : OutCh → State → State) (h : ∀ ch s, (f ch s).out.sigDue = s.out.sigDue) (ls : List OutCh)
    (s : State) : (forEach ls f s).out.sigDue = s.out.sigDue := by
  induction ls generalizing s with
  | nil => rfl
  | cons a ls ih => exact (ih (f a s)).trans (h a s)

/-! ### CLEAR FAULT (R136) -/

theorem clearLatched_one (ch : OutCh) (s : State) :
    OneChan (fun q => ownerOf s.tables ch = some q) ch s (clearLatched ch s)
    ∧ (clearLatched ch s).out.sigDue = s.out.sigDue
    ∧ ((s.out.chans[ch]).fault = false → clearLatched ch s = s)
    ∧ ((s.out.chans[ch]).fault = true →
        JudgedAtOnce s ch { s.out.chans[ch] with fault := false } (clearLatched ch s).out.chans[ch]
        ∧ ∀ q : Ramp, ownerOf s.tables ch = some q → ((clearLatched ch s).ramps[q]).attention = true) := by
  unfold clearLatched
  cases e : (s.out.chans[ch]).fault with
  | false => exact ⟨.refl _ ch s, rfl, fun _ => rfl, fun h => by cases h⟩
  | true =>
    rw [if_pos rfl]
    have x := setOut_one ch { s.out.chans[ch] with fault := false } s
    have y := attentionOwner_one ch ch (s.setOut ch { s.out.chans[ch] with fault := false })
    have g : (unlatch ch s).out.chans[ch] = { s.out.chans[ch] with fault := false } := by
      unfold unlatch; rw [(attentionOwner_rest ch _).2]; exact (setOut_get _ _ _ _).trans (if_pos rfl)
    have z := x.trans y.1
    have w := y.2
    change OneChan _ ch s (unlatch ch s) at z
    change ∀ q : Ramp, ownerOf s.tables ch = some q → ((unlatch ch s).ramps[q]).attention = true at w
    have d : (unlatch ch s).out.sigDue = s.out.sigDue := by unfold unlatch; rw [(attentionOwner_rest ch _).2]; rfl
    clear x y
    generalize unlatch ch s = t at *
    have b := judgeChannel_spec ch t
    rw [g, z.tables, JudgedAtOnce.congr z.tables z.drivers] at b
    refine ⟨(z.trans b.1).weaken fun q h => ?_, b.2.1.trans d, fun h => (by cases h),
      fun _ => ⟨b.2.2.1, fun q h => b.1.attention (w q h)⟩⟩
    rcases h with h | h
    · exact h.resolve_left id
    · exact h.1

/-- CLEAR FAULT, channel by channel. -/
theorem clearFaults_spec (r : Ramp) (s u : State) (hu : u = clearFaults r s) :
    (∀ ch : OutCh, belongs s.tables r ch = true → (s.out.chans[ch]).fault = true →
      JudgedAtOnce s ch { s.out.chans[ch] with fault := false } u.out.chans[ch]
      ∧ ∀ q : Ramp, ownerOf s.tables ch = some q → (u.ramps[q]).attention = true)
    ∧ (∀ ch : OutCh, belongs s.tables r ch = false ∨ (s.out.chans[ch]).fault = false → u.out.chans[ch] = s.out.chans[ch])
    ∧ (∀ q : Ramp, SameRamp s u q)
    ∧ (∀ q : Ramp, (∀ ch : OutCh, belongs s.tables r ch = true → (s.out.chans[ch]).fault = true →
        ownerOf s.tables ch ≠ some q) → u.ramps[q] = s.ramps[q])
    ∧ u = { s with ramps := u.ramps, out := { s.out with chans := u.out.chans } } := by
  have m : ∀ ch, ch ∈ faultedChannels s r ↔ belongs s.tables r ch = true ∧ (s.out.chans[ch]).fault = true := fun ch => by
    unfold faultedChannels; simp [List.mem_filter]
  have n : (faultedChannels s r).Nodup := (List.nodup_finRange 16).filter _
  have one := fun ch s => (clearLatched_one ch s).1
  have a := forEach_chan clearLatched (fun ch s q => ownerOf s.tables ch = some q)
    (fun ch s c d => c.fault = true → JudgedAtOnce s ch { c with fault := false } d) one
    (fun ch s h => ((clearLatched_one ch s).2.2.2 h).1)
    (fun ch s t c d ht hd => imp_congr_right fun _ => JudgedAtOnce.congr ht hd ch _ d) _ n s
  have b := forEach_frame clearLatched (fun ch t q => ownerOf t ch = some q) one (faultedChannels s r) s
  have c := forEach_attention clearLatched (fun ch s q => ownerOf s.tables ch = some q)
    (fun ch t o q => (o.chans[ch]).fault = true ∧ ownerOf t ch = some q) one
    (fun ch s q h => ((clearLatched_one ch s).2.2.2 h.1).2 q h.2) (fun ch s t q _ e h => ⟨by rw [e]; exact h.1, h.2⟩) _ n s
  have d := forEach_due clearLatched (fun ch s => (clearLatched_one ch s).2.1) (faultedChannels s r) s
  change u = forEach (faultedChannels s r) clearLatched s at hu
  rw [← hu] at a b c d
  refine ⟨fun ch hb hf => ⟨a.2 ch ((m ch).2 ⟨hb, hf⟩) hf, fun q h => c ch ((m ch).2 ⟨hb, hf⟩) q ⟨hf, h⟩⟩,
    fun ch h => a.1 ch fun x => ?_, b.2.1, fun q h => b.2.2 q fun ch x => h ch ((m ch).1 x).1 ((m ch).1 x).2, ?_⟩
  · have y := (m ch).1 x
    rcases h with h | h
    · rw [y.1] at h; cases h
    · rw [y.2] at h; cases h
  · have e := b.1
    rw [d] at e; exact e

/-! ### Belonging reviewed (R130) -/

theorem reviewCheckedChannel_spec (before : Tables) (ch : OutCh) (s : State) :
    OneChan (fun q => ownerOf before ch = some q ∨ ownerOf s.tables ch = some q) ch s (reviewCheckedChannel before ch s)
    ∧ (isChecked before ch = true → isChecked s.tables ch = false →
        (reviewCheckedChannel before ch s).out.chans[ch] = { s.out.chans[ch] with mismatch := .stopped, fault := false }
        ∧ ((s.out.chans[ch]).fault = true → ∀ q : Ramp, ownerOf before ch = some q →
            ((reviewCheckedChannel before ch s).ramps[q]).attention = true))
    ∧ (isChecked before ch = false → isChecked s.tables ch = true →
        JudgedAtOnce s ch s.out.chans[ch] (reviewCheckedChannel before ch s).out.chans[ch]
        ∧ (LitOnSilent s ch s.out.chans[ch] → ∀ q : Ramp, ownerOf s.tables ch = some q →
            ((reviewCheckedChannel before ch s).ramps[q]).attention = true))
    ∧ (isChecked before ch = isChecked s.tables ch → reviewCheckedChannel before ch s = s)
    ∧ (reviewCheckedChannel before ch s).out.sigDue = s.out.sigDue := by
  unfold reviewCheckedChannel
  have x := setOut_one ch { s.out.chans[ch] with mismatch := .stopped, fault := false } s
  have g : (s.setOut ch { s.out.chans[ch] with mismatch := .stopped, fault := false }).out.chans[ch]
      = { s.out.chans[ch] with mismatch := .stopped, fault := false } := (setOut_get _ _ _ _).trans (if_pos rfl)
  cases hb : isChecked before ch <;> cases ha : isChecked s.tables ch
  · exact ⟨.refl _ ch s, fun h => (by cases h), fun _ h => (by cases h), fun _ => rfl, rfl⟩
  · have j := judgeChannel_spec ch s
    exact ⟨j.1.weaken fun q h => Or.inr h.1, fun h => (by cases h), fun _ _ => ⟨j.2.2.1, j.2.2.2⟩, fun h => (by cases h),
      j.2.1⟩
  · have due : (s.setOut ch { s.out.chans[ch] with mismatch := .stopped, fault := false }).out.sigDue = s.out.sigDue := rfl
    generalize s.setOut ch { s.out.chans[ch] with mismatch := .stopped, fault := false } = t at *
    refine ⟨?_, fun _ _ => ?_, fun h => (by cases h), fun h => (by cases h), ?_⟩ <;>
      rw [if_pos (show (true && !false) = true from rfl)]
    · cases e : ownerOf before ch with
      | none => exact x.weaken fun _ h => h.elim
      | some r =>
        dsimp only
        unfold attentionIf; split
        · refine (x.trans (Q := fun q => r = q) (u := setAttention r t) (⟨rfl, fun _ _ => rfl, fun q => ?_, fun q n => ?_⟩)).weaken ?_
          · rw [SameRamp, setAttention_get]; split
            · next k => subst k; exact Or.inr rfl
            · exact Or.inl rfl
          · rw [setAttention_get, if_neg n]
          · rintro q (h | h)
            · exact h.elim
            · exact Or.inl (by rw [h])
        · exact x.weaken fun _ h => h.elim
    · cases e : ownerOf before ch with
      | none => exact ⟨g, fun _ q h => by cases h⟩
      | some r =>
        dsimp only
        refine ⟨?_, fun f q h => ?_⟩
        · unfold attentionIf; split <;> exact g
        · rw [f]; cases h; unfold attentionIf; rw [if_pos rfl, setAttention_get, if_pos rfl]
    · cases ownerOf before ch with
      | none => exact due
      | some r => dsimp only; unfold attentionIf; split <;> exact due
  · exact ⟨.refl _ ch s, fun _ h => (by cases h), fun h => (by cases h), fun _ => rfl, rfl⟩

/-- The channels after a write or clear of a Lane Config or Ramp Config record that makes the tables `t` (R130). -/
theorem reviewChecked_spec (t : Tables) (s u : State) (hu : u = reviewChecked s.tables { s with tables := t }) :
    (∀ ch : OutCh, Reviewed s u ch) ∧ (∀ q : Ramp, SameRamp s u q)
    ∧ u = { s with tables := t, ramps := u.ramps, out := { s.out with chans := u.out.chans } } := by
  have o := reviewCheckedChannel_spec s.tables
  have one := fun ch x => (o ch x).1
  have n := List.nodup_finRange 16
  have a := forEach_chan (reviewCheckedChannel s.tables)
    (fun ch x q => ownerOf s.tables ch = some q ∨ ownerOf x.tables ch = some q)
    (fun ch x c d => (isChecked s.tables ch = true → isChecked x.tables ch = false →
        d = { c with mismatch := .stopped, fault := false })
      ∧ (isChecked s.tables ch = false → isChecked x.tables ch = true → JudgedAtOnce x ch c d)
      ∧ (isChecked s.tables ch = isChecked x.tables ch → d = c))
    one (fun ch x => ⟨fun h k => ((o ch x).2.1 h k).1, fun h k => ((o ch x).2.2.1 h k).1,
      fun h => by rw [(o ch x).2.2.2.1 h]⟩)
    (fun ch x y c d ht hd => by rw [ht, JudgedAtOnce.congr ht hd]) _ n { s with tables := t }
  have b := forEach_frame (reviewCheckedChannel s.tables)
    (fun ch x q => ownerOf s.tables ch = some q ∨ ownerOf x ch = some q) one (List.finRange 16) { s with tables := t }
  have c := forEach_attention (reviewCheckedChannel s.tables)
    (fun ch x q => ownerOf s.tables ch = some q ∨ ownerOf x.tables ch = some q)
    (fun ch x v q => isChecked s.tables ch = true ∧ isChecked x ch = false ∧ (v.chans[ch]).fault = true
      ∧ ownerOf s.tables ch = some q) one
    (fun ch x q h => ((o ch x).2.1 h.1 h.2.1).2 h.2.2.1 q h.2.2.2)
    (fun ch x y q _ e h => ⟨h.1, h.2.1, by rw [e]; exact h.2.2.1, h.2.2.2⟩) _ n { s with tables := t }
  have d := forEach_attention (reviewCheckedChannel s.tables)
    (fun ch x q => ownerOf s.tables ch = some q ∨ ownerOf x.tables ch = some q)
    (fun ch x v q => isChecked s.tables ch = false ∧ isChecked x ch = true
      ∧ LitOnSilent { s with tables := x, out := v } ch v.chans[ch] ∧ ownerOf x ch = some q) one
    (fun ch x q h => ((o ch x).2.2.1 h.1 h.2.1).2 ((LitOnSilent.congr (s := x) rfl rfl ch _).1 h.2.2.1) q h.2.2.2)
    (fun ch x y q hd e h => ⟨h.1, h.2.1, by
      rw [e]
      exact (LitOnSilent.congr (s := { s with tables := x.tables, out := x.out })
        (t := { s with tables := x.tables, out := y.out }) rfl hd ch _).2 h.2.2.1, h.2.2.2⟩) _ n
    { s with tables := t }
  have f := forEach_due (reviewCheckedChannel s.tables) (fun ch x => (o ch x).2.2.2.2) (List.finRange 16)
    { s with tables := t }
  change u = forEach (List.finRange 16) (reviewCheckedChannel s.tables) { s with tables := t } at hu
  rw [← hu] at a b c d f
  have e := b.1
  rw [f] at e
  have ht : u.tables = t := by rw [e]
  have hd : u.out.drivers = s.out.drivers := by rw [e]
  refine ⟨fun ch => ?_, b.2.1, e⟩
  have a := a.2 ch (List.mem_finRange ch)
  have c := c ch (List.mem_finRange ch)
  have d := d ch (List.mem_finRange ch)
  unfold Reviewed
  rw [ht, JudgedAtOnce.congr (s := { s with tables := t }) ht hd, LitOnSilent.congr (s := { s with tables := t }) ht hd]
  exact ⟨fun h k => ⟨a.1 h k, fun g q w => c q ⟨h, k, g, w⟩⟩, fun h k => ⟨a.2.1 h k, fun l q w => d q ⟨h, k, l, w⟩⟩, a.2.2⟩

/-- `Reviewed` reads the tables, the Output Unit and the ramps of the state behind it. -/
theorem Reviewed.congr {s t u : State} {ch : OutCh} (h : Reviewed s t ch) (h1 : u.tables = t.tables) (h2 : u.out = t.out)
    (h3 : u.ramps = t.ramps) : Reviewed s u ch := by
  unfold Reviewed
  rw [JudgedAtOnce.congr h1 (by rw [h2]), LitOnSilent.congr h1 (by rw [h2]), h1, h2, h3]
  exact h

/-! ### Owners -/

/-- A channel belongs to one ramp at most. -/
theorem belongs_once {t : Tables} (a : t.Apart) {r q : Ramp} {ch : OutCh} (h : belongs t r ch = true)
    (k : belongs t q ch = true) : q = r := by
  by_contra n
  rw [belongs_iff] at h k
  rcases h with h | ⟨l, hl, hh⟩ <;> rcases k with k | ⟨m, hm, hk⟩
  · exact a.beacons r q ch n h k
  · exact a.beaconHead r m ch h hk
  · exact a.beaconHead q l ch k hh
  · by_cases e : m = l
    · subst e; exact a.lanes r q n m hl hm
    · exact a.heads l m ch e hh hk

theorem ownerOf_iff {t : Tables} (a : t.Apart) (ch : OutCh) (r : Ramp) : ownerOf t ch = some r ↔ belongs t r ch = true := by
  unfold ownerOf
  constructor
  · exact fun h => List.find?_some (p := fun r => belongs t r ch) h
  · intro h
    cases e : (List.finRange 4).find? fun r => belongs t r ch with
    | none => exact absurd h (List.find?_eq_none.1 e r (List.mem_finRange r))
    | some q => rw [belongs_once a h (List.find?_some (p := fun r => belongs t r ch) e)]

/-! ### Images (R131) -/

theorem channelAt_some {t : Tables} {st : Nat} {k : Fin 8} {ch : OutCh} (h : channelAt t st k = some ch) :
    ∃ o, t.outMap[ch] = some o ∧ o.station = st ∧ o.output = k := by
  have := List.find?_some h
  split at this
  · next o e => exact ⟨o, e, by simpa using this⟩
  · cases this

theorem channelAt_none {t : Tables} {st : Nat} {k : Fin 8} (h : channelAt t st k = none) (ch : OutCh) (o : OutRec)
    (e : t.outMap[ch] = some o) (hs : o.station = st) : o.output ≠ k := by
  have := List.find?_eq_none.1 h ch (List.mem_finRange ch)
  rw [e] at this
  simpa [hs] using this

/-- Where no output is mapped twice, the channel at an output is the one that names it. -/
theorem channelAt_named {t : Tables} (a : t.Apart) {ch : OutCh} {o : OutRec} (e : t.outMap[ch] = some o) :
    channelAt t o.station o.output = some ch := by
  cases h : channelAt t o.station o.output with
  | none => exact absurd rfl (channelAt_none h ch o e rfl)
  | some c =>
    obtain ⟨x, ex, hs, ho⟩ := channelAt_some h
    by_cases k : c = ch
    · rw [k]
    · rcases a.outputs c ch x o k ex e with n | n
      · exact absurd hs n
      · exact absurd ho n

theorem foldl_max (l : List (Fin 8)) (m : Nat) :
    m ≤ l.foldl (fun m k => max m (k.val + 1)) m ∧ (∀ k ∈ l, k.val + 1 ≤ l.foldl (fun m k => max m (k.val + 1)) m)
    ∧ (∀ n, m ≤ n → (∀ k ∈ l, k.val + 1 ≤ n) → l.foldl (fun m k => max m (k.val + 1)) m ≤ n) := by
  induction l generalizing m with
  | nil => exact ⟨le_refl m, fun k h => (by cases h), fun n h _ => h⟩
  | cons a l ih =>
    have i := ih (max m (a.val + 1))
    refine ⟨le_trans (le_max_left _ _) i.1, fun k h => ?_, fun n h g => i.2.2 n (max_le h (g a List.mem_cons_self)) fun k m => g k (List.mem_cons_of_mem a m)⟩
    rcases List.mem_cons.1 h with rfl | h
    · exact le_trans (le_max_right _ _) i.1
    · exact i.2.1 k h

theorem outputCount_eq {t : Tables} {st n : Nat} 
    (h1 : ∃ (ch : OutCh) (o : OutRec), t.outMap[ch] = some o ∧ o.station = st ∧ o.output.val + 1 = n)
    (h2 : ∀ (ch : OutCh) (o : OutRec), t.outMap[ch] = some o → o.station = st → o.output.val + 1 ≤ n) : outputCount t st = n := by
  unfold outputCount
  have f := foldl_max ((List.finRange 8).filter fun k => (channelAt t st k).isSome) 0
  refine Nat.le_antisymm (f.2.2 n (Nat.zero_le n) fun k h => ?_) ?_
  · obtain ⟨c, hc⟩ := Option.isSome_iff_exists.1 (List.mem_filter.1 h).2
    obtain ⟨o, e, s, k'⟩ := channelAt_some hc
    rw [← k']; exact h2 c o e s
  · obtain ⟨ch, o, e, rfl, rfl⟩ := h1
    refine f.2.1 o.output (List.mem_filter.2 ⟨List.mem_finRange _, ?_⟩)
    cases h : channelAt t o.station o.output with
    | none => exact absurd rfl (channelAt_none h ch o e rfl)
    | some c => rfl

/-- The image of a station that the map names: one output more than the highest named, each from the channel that names
it. -/
theorem sigImage_spec (s : State) (st n : Nat)
    (h1 : ∃ (ch : OutCh) (o : OutRec), s.tables.outMap[ch] = some o ∧ o.station = st ∧ o.output.val + 1 = n)
    (h2 : ∀ (ch : OutCh) (o : OutRec), s.tables.outMap[ch] = some o → o.station = st → o.output.val + 1 ≤ n) :
    (sigImage s st).length = n ∧ ∀ k : Fin 8, k.val < n → (sigImage s st)[k.val]? = some (match channelAt s.tables st k with
      | some ch => (s.out.chans[ch]).commanded
      | none => .dark) := by
  have hn : n ≤ 8 := by obtain ⟨ch, o, e, _, rfl⟩ := h1; have := o.output.isLt; omega
  have nm : namesStation s.tables st = true := (namesStation_iff _ _).2 (by obtain ⟨ch, o, e, hs, _⟩ := h1; exact ⟨ch, o, e, hs⟩)
  unfold sigImage; rw [if_pos nm, outputCount_eq h1 h2]
  refine ⟨by simp [hn], fun k h => ?_⟩
  have at' : ∀ k : Fin 8, (List.finRange 8)[k.val]? = some k := by decide
  rw [List.getElem?_map, List.getElem?_take_of_lt h, at' k]
  rfl

end Sys2Proof.Machine
end

