-- ==== Sys2Proof/Laws/OthersStand.lean ====
section
/-! SUPPORT. What the operations of one ramp leave alone (`OthersStand`), one lemma for each. -/

namespace Sys2Proof.Machine

namespace OthersStand

theorem refl (r : Ramp) (s : State) : OthersStand r s s :=
  ⟨rfl, fun _ _ => Or.inl rfl, fun _ _ _ => rfl, fun _ _ => rfl, fun _ _ => rfl, fun _ _ => rfl, rfl, fun _ _ => rfl,
    fun _ _ => rfl, rfl⟩

theorem trans {r : Ramp} {s t u : State} (a : OthersStand r s t) (b : OthersStand r t u) : OthersStand r s u where
  tables := b.tables.trans a.tables
  same q h := SameRamp.trans (a.same q h) (b.same q h)
  ramps k q h := (b.ramps (a.tables ▸ k) q h).trans (a.ramps k q h)
  auth q h := (b.auth q h).trans (a.auth q h)
  vectors q h := (b.vectors q h).trans (a.vectors q h)
  rate q h := (b.rate q h).trans (a.rate q h)
  onTimers := b.onTimers.trans a.onTimers
  lanes l h := (b.lanes l (by rw [a.tables]; exact h)).trans (a.lanes l h)
  chans ch h := (b.chans ch (by rw [a.tables]; exact h)).trans (a.chans ch h)
  drivers := b.drivers.trans a.drivers

end OthersStand

/-! ### One write -/

theorem modRamp_others (r : Ramp) (f : RampCtx → RampCtx) (s : State) : OthersStand r s (s.modRamp r f) := by
  have e : ∀ q : Ramp, q ≠ r → (s.modRamp r f).ramps[q] = s.ramps[q] := fun q h => by
    rw [State.modRamp_ramps, vset_get, if_neg h.symm]
  exact ⟨rfl, fun q h => Or.inl (e q h), fun _ => e, fun _ _ => rfl, fun _ _ => rfl, fun _ _ => rfl, rfl,
    fun _ _ => rfl, fun _ _ => rfl, rfl⟩

theorem setAuth_others (r : Ramp) (x : AuthUnit) (s : State) : OthersStand r s (s.setAuth r x) :=
  ⟨rfl, fun _ _ => Or.inl rfl, fun _ _ _ => rfl, fun q h => by rw [State.setAuth_auth, vset_get, if_neg h.symm],
    fun _ _ => rfl, fun _ _ => rfl, rfl, fun _ _ => rfl, fun _ _ => rfl, rfl⟩

theorem setVector_others (r : Ramp) (x : Vector Bool 16) (s : State) : OthersStand r s (s.setVector r x) :=
  ⟨rfl, fun _ _ => Or.inl rfl, fun _ _ _ => rfl, fun _ _ => rfl,
    fun q h => by rw [State.setVector_vectors, vset_get, if_neg h.symm], fun _ _ => rfl, rfl, fun _ _ => rfl,
    fun _ _ => rfl, rfl⟩

theorem setRate_others (r : Ramp) (x : RateRec) (s : State) : OthersStand r s (s.setRate r x) :=
  ⟨rfl, fun _ _ => Or.inl rfl, fun _ _ _ => rfl, fun _ _ => rfl, fun _ _ => rfl,
    fun q h => by rw [State.setRate_rate, vset_get, if_neg h.symm], rfl, fun _ _ => rfl, fun _ _ => rfl, rfl⟩

theorem setLane_others {r : Ramp} {l : Lane} (x : LaneCtx) {s : State} (h : l ∈ lanesOf s.tables r) :
    OthersStand r s (s.setLane l x) :=
  ⟨rfl, fun _ _ => Or.inl rfl, fun _ _ _ => rfl, fun _ _ => rfl, fun _ _ => rfl, fun _ _ => rfl, rfl,
    fun k n => by
      rw [State.setLane_lanes, vset_get, if_neg]
      rintro rfl; exact n h,
    fun _ _ => rfl, rfl⟩

theorem attentionIf_others (b : Bool) (r : Ramp) (s : State) : OthersStand r s (attentionIf b r s) := by
  unfold attentionIf; split
  · exact modRamp_others r _ s
  · exact .refl r s

theorem setAspect_others {r : Ramp} {ch : OutCh} (a : Aspect) {s : State} (h : belongs s.tables r ch = true) :
    OthersStand r s (setAspect ch a s) := by
  by_cases e : (s.out.chans[ch]).commanded = a
  · unfold setAspect; rw [if_pos e]; exact .refl r s
  · have x := (setAspect_spec ch a s _ _ rfl rfl e).1
    have l := setAspect_side ch a s
    exact ⟨l.tables, fun q _ => l.ramps q, fun k q n => x.still q fun p => n (Option.some.inj
        (p.1.symm.trans ((ownerOf_iff k ch r).2 h))), fun q _ => by rw [l.auth], fun q _ => by rw [l.vectors],
      fun q _ => by rw [l.rate], l.onTimers, fun k _ => by rw [(setAspect_get ch a s).1],
      fun c n => x.others c (by rintro rfl; rw [h] at n; cases n), l.drivers⟩

/-! ### A ramp's own operations -/

theorem belongs_head {t : Tables} {r : Ramp} {l : Lane} {ch : OutCh} (hl : l ∈ lanesOf t r) (h : headOf t l = some ch) :
    belongs t r ch = true := by
  unfold belongs; rw [Bool.or_eq_true]; right
  rw [List.any_eq_true]; exact ⟨l, hl, by rw [h]; exact beq_self_eq_true _⟩

theorem belongs_beacon {t : Tables} {r : Ramp} {ch : OutCh} (h : beaconOf t r = some ch) : belongs t r ch = true := by
  unfold belongs; rw [h]; simp

theorem orderLane_others {r : Ramp} {l : Lane} (f : LaneRec → Bool → LaneCtx → LaneCtx) {s : State}
    (h : l ∈ lanesOf s.tables r) : OthersStand r s (orderLane f l s) := by
  unfold orderLane; split
  · next c e =>
    unfold putLane; rw [e]; dsimp only
    refine (setLane_others _ h).trans (setAspect_others _ ?_)
    exact belongs_head (t := s.tables) h (by unfold headOf; rw [e]; rfl)
  · exact .refl r s

theorem forEach_orderLane_others {r : Ramp} (f : LaneRec → Bool → LaneCtx → LaneCtx) (ls : List Lane) (s : State)
    (h : ∀ l ∈ ls, l ∈ lanesOf s.tables r) : OthersStand r s (forEach ls (orderLane f) s) := by
  induction ls generalizing s with
  | nil => exact .refl r s
  | cons a ls ih =>
    have x := orderLane_others f (h a List.mem_cons_self)
    exact x.trans (ih _ fun l hl => by rw [x.tables]; exact h l (List.mem_cons_of_mem _ hl))

theorem orderLanes_others (f : LaneRec → Bool → LaneCtx → LaneCtx) (r : Ramp) (s : State) :
    OthersStand r s (orderLanes f r s) := forEach_orderLane_others f _ s fun _ h => h

theorem commandBeacon_others (r : Ramp) (a : Aspect) (s : State) : OthersStand r s (commandBeacon r a s) := by
  unfold commandBeacon; split
  · next e => exact setAspect_others a (belongs_beacon e)
  · exact .refl r s

theorem enter_others (r : Ramp) (st : RampState) (ph : Option ClearPhase) (tm : Timer) (s : State) :
    OthersStand r s (enter r st ph tm s) := by
  have l : OthersStand r s (leaveMetering r s) := by
    unfold leaveMetering; split
    · exact (modRamp_others r _ s).trans (setRate_others r _ _)
    · exact .refl r s
  unfold enter
  exact (l.trans (modRamp_others r _ _)).trans (commandBeacon_others r _ _)

theorem judge_others (r : Ramp) (s : State) : OthersStand r s (judge r s) := by
  unfold judge; exact (modRamp_others r _ s).trans (attentionIf_others _ r _)

theorem arbitrateRamp_others (r : Ramp) (s : State) : OthersStand r s (arbitrateRamp r s).1 := by
  unfold arbitrateRamp; exact (setAuth_others r _ s).trans (attentionIf_others _ r _)

theorem arbitrateAfterMetering_others (r : Ramp) (s : State) : OthersStand r s (arbitrateAfterMetering r s) := by
  unfold arbitrateAfterMetering; split
  · exact .refl r s
  · have a := (setAuth_others r (s.auth[r]).refreshLower s).trans (arbitrateRamp_others r _)
    dsimp only; split
    · exact a.trans (judge_others r _)
    · exact a

theorem shutClearDone_others (r : Ramp) (s : State) : OthersStand r s (shutClearDone r s) := by
  unfold shutClearDone; split
  · exact enter_others r _ _ _ s
  · exact .refl r s

theorem enterShutClear_others (r : Ramp) (s : State) : OthersStand r s (enterShutClear r s) := by
  have a := ((enter_others r .shutClear none .stopped s).trans (orderLanes_others (fun _ _ x => laneFlush x) r _)).trans
    (shutClearDone_others r _)
  unfold enterShutClear; dsimp only; split
  · exact a.trans (arbitrateAfterMetering_others r _)
  · exact a

theorem enterOff_others (r : Ramp) (s : State) : OthersStand r s (enterOff r s) := by
  unfold enterOff
  exact ((((enter_others r .off none .stopped s).trans (orderLanes_others (fun _ _ x => laneDark x) r _)).trans
    (modRamp_others r _ _)).trans (setVector_others r _ _)).trans (setAuth_others r _ _)

theorem standbyActs_others (r : Ramp) (s : State) : OthersStand r s (standbyActs r s) := by
  unfold standbyActs; split
  · exact enter_others r _ _ _ s
  · exact .refl r s

theorem enterStandby_others (r : Ramp) (s : State) : OthersStand r s (enterStandby r s) := by
  unfold enterStandby
  exact (((enter_others r .standby none .stopped s).trans (orderLanes_others (fun _ _ x => laneDark x) r _)).trans
    (judge_others r _)).trans (standbyActs_others r _)

theorem enterOffOrStandby_others (r : Ramp) (s : State) : OthersStand r s (enterOffOrStandby r s) := by
  unfold enterOffOrStandby; split
  · exact enterOff_others r s
  · exact enterStandby_others r s

theorem actOnDemand_others (r : Ramp) (s : State) : OthersStand r s (actOnDemand r s) := by
  unfold actOnDemand; split
  · exact standbyActs_others r s
  · split
    · exact enterOffOrStandby_others r s
    · exact .refl r s
  · split
    · exact enter_others r _ _ _ s
    · exact .refl r s
  all_goals exact .refl r s

theorem modeOff_others (r : Ramp) (s : State) : OthersStand r s (modeOff r s) := by
  have m := modRamp_others r (fun c => { c with mode := .off }) s
  have j := m.trans (judge_others r _)
  unfold modeOff; dsimp only; split
  · exact m
  · exact j.trans (enterOff_others r _)
  · exact j.trans (enterOff_others r _)
  · exact j.trans (enterOff_others r _)
  · exact j.trans (enter_others r _ _ _ _)
  all_goals exact j

end Sys2Proof.Machine
end

