-- ==== Sys2Proof/Laws/Entering.lean ====
section
/-! SUPPORT. A ramp's whole record, its unit, its lanes and its heads behind a judgement, an entry into OFF, STANDBY or the
shutdown from a state other than METERING, and RAMP MODE OFF. -/

namespace Sys2Proof.Machine

/-- A judgement gives the mark and the stop demand their values (R60, R61). -/
theorem judge_eq (r : Ramp) (s : State) : (judge r s).ramps[r] = { s.ramps[r] with
    actionUnset := judgedUnset s r
    stopStands := stopDemand s r
    attention := (s.ramps[r]).attention || decide (judgedUnset s r ≠ (s.ramps[r]).actionUnset) } := by
  unfold judge attentionIf
  by_cases h : judgedUnset s r = (s.ramps[r]).actionUnset
  · rw [decide_eq_false (not_not_intro h), if_neg (by decide), modRamp_get, Bool.or_false]
  · rw [decide_eq_true h, if_pos rfl]; unfold setAttention; rw [modRamp_get, modRamp_get, Bool.or_true]

theorem judgedUnset_iff (s : State) (r : Ramp) : judgedUnset s r = true ↔
    ∃ n, (s.auth[r]).granted = some (.plan n) ∧ planRec s.tables n = none := by
  unfold judgedUnset planSet
  cases e : (s.auth[r]).granted with
  | none => simp
  | some g => cases g <;> simp

theorem commandBeacon_rate (r : Ramp) (a : Aspect) (s : State) : (commandBeacon r a s).rate = s.rate :=
  (commandBeacon_side r a s).rate

theorem enter_rate (r : Ramp) (st : RampState) (ph : Option ClearPhase) (tm : Timer) (s : State)
    (h : (s.ramps[r]).state ≠ .metering) : (enter r st ph tm s).rate = s.rate := by
  unfold enter leaveMetering
  rw [if_neg h, commandBeacon_rate, State.modRamp_rate]

/-- OFF entered from a state other than METERING: the ramp, its lanes and its heads (R73). -/
theorem enterOff_all (r : Ramp) (s : State) (h : (s.ramps[r]).state ≠ .metering) :
    (enterOff r s).ramps[r] = { s.ramps[r] with
          state := .off, clearPhase := none, phaseTimer := .stopped, autoPlan := 0, candidate := none
          planUnset := false, actionUnset := false, attention := true }
    ∧ (enterOff r s).rate = s.rate
    ∧ (s.tables.Apart → HeadsShow r (enterOff r s) ∧ ∀ l ∈ lanesOf s.tables r, s.tables.laneCfg[l] ≠ none →
          (enterOff r s).lanes[l] = laneDark s.lanes[l]) := by
  have t := (enter_others r .off none .stopped s).tables
  have e := enter_plain r .off none .stopped s
  rw [if_neg h] at e
  have n := enter_lanes r .off none .stopped s
  have q := enter_rate r .off none .stopped s h
  rw [enterOff_ramp]
  unfold enterOff
  generalize enter r .off none .stopped s = y at *
  have o := orderDark_side r y
  have k : SameRamp y (orderDark r y) r := o.ramps r
  have p := fun a : s.tables.Apart => ordered_spec (fun _ _ x => laneDark x) r s y (a.once r) t n
      (fun s => orderDark_side r s)
  have od : orderLanes (fun _ _ x => laneDark x) r y = orderDark r y := rfl
  rw [od] at p
  generalize orderDark r y = z at *
  dsimp only
  refine ⟨?_, ?_, fun a => ?_⟩
  · unfold SameRamp at k; rw [e] at k
    rcases k with k | k <;> rw [k] <;> rfl
  · rw [State.setAuth_rate, State.setVector_rate, State.modRamp_rate, o.rate, q]
  · refine ⟨((p a).2.2 a).1.kept rfl rfl fun _ _ => rfl, fun l hl hc => ?_⟩
    cases e : s.tables.laneCfg[l] with
    | none => exact absurd e hc
    | some c => exact (p a).2.1 l c hl e

theorem AuthUnit.enterOff_eq (a : AuthUnit) : a.enterOff = { a with
      holder := none, granted := none, stack := [], sources := a.enterOff.sources }
    ∧ ∀ k : Source, a.enterOff.sources[k] = { a.sources[k] with standing := false, hold := none } :=
  ⟨rfl, fun k => by unfold AuthUnit.enterOff; rw [vmap_get]⟩

/-- The mode set to OFF, ahead of what each state makes of it. -/
theorem modeOff_judged (r : Ramp) (s : State) (x : RampCtx) (hx : x = s.ramps[r])
    (t : State) (ht : t = judge r (s.modRamp r fun c => { c with mode := .off })) (j : Bool)
    (hj : j = true ↔ ∃ n, (s.auth[r]).granted = some (.plan n) ∧ planRec s.tables n = none) :
    t.ramps[r] = { x with
      mode := .off, actionUnset := j, stopStands := true, attention := x.attention || decide (j ≠ x.actionUnset) }
    ∧ t.lanes = s.lanes ∧ t.out = s.out ∧ t.auth = s.auth ∧ t.vectors = s.vectors ∧ t.rate = s.rate
    ∧ t.tables = s.tables := by
  have e : judgedUnset (s.modRamp r fun c => { c with mode := .off }) r = j := by
    rw [Bool.eq_iff_iff, hj]; exact judgedUnset_iff _ r
  have d : stopDemand (s.modRamp r fun c => { c with mode := .off }) r = true := by
    unfold stopDemand; rw [modRamp_get]; rfl
  have k := judge_rest r (s.modRamp r fun c => { c with mode := .off })
  subst ht hx
  refine ⟨?_, k.1, k.2.1, k.2.2.1, k.2.2.2.2.1, k.2.2.2.1, (judge_others r _).tables⟩
  rw [judge_eq, e, d, modRamp_get]

/-- A state entered from one other than METERING moves no condition, no unit and no rate record. -/
theorem enter_units (r : Ramp) (st : RampState) (ph : Option ClearPhase) (tm : Timer) (s : State)
    (h : (s.ramps[r]).state ≠ .metering) : UnitsUndisturbed s (enter r st ph tm s) := by
  have e := enter_rest r st ph tm s
  exact ⟨e.1, e.2.1, e.2.2, enter_rate r st ph tm s h⟩

theorem judge_units (r : Ramp) (s : State) : UnitsUndisturbed s (judge r s) := by
  have k := judge_rest r s
  exact ⟨k.2.2.2.2.1, k.2.2.1, k.2.2.2.2.2, k.2.2.2.1⟩

theorem UnitsUndisturbed.trans {s t u : State} (a : UnitsUndisturbed s t) (b : UnitsUndisturbed t u) :
    UnitsUndisturbed s u :=
  ⟨b.vectors.trans a.vectors, b.auth.trans a.auth, b.onTimers.trans a.onTimers, b.rate.trans a.rate⟩

/-- A ramp whose attention is SET is not moved by an order to its lanes. -/
theorem SameRamp.set {s t : State} {q : Ramp} (a : SameRamp s t q) (h : (s.ramps[q]).attention = true) :
    t.ramps[q] = s.ramps[q] := by
  rcases a with a | a
  · exact a
  · rw [a]; generalize s.ramps[q] = x at *; cases x; dsimp only at h; rw [h]

theorem shutClearDone_eq (r : Ramp) (s : State) (h : (s.ramps[r]).state = .shutClear) :
    ((∀ l ∈ lanesOf s.tables r, (s.lanes[l]).state = .greenRest) →
        shutClearDone r s = enter r .shutFlush none (.running 0) s)
    ∧ ((∃ l ∈ lanesOf s.tables r, (s.lanes[l]).state ≠ .greenRest) → shutClearDone r s = s) := by
  have al : allGreenRest s r = true ↔ ∀ l ∈ lanesOf s.tables r, (s.lanes[l]).state = .greenRest := by
    unfold allGreenRest; rw [List.all_eq_true]; simp only [decide_eq_true_eq]
  unfold shutClearDone enterShutFlush
  refine ⟨fun k => if_pos ⟨h, al.2 k⟩, fun ⟨l, hl, e⟩ => if_neg fun k => e (al.1 k.2 l hl)⟩

/-- The shutdown entered from a state other than METERING (R65, R71). -/
theorem enterShutClear_calm (r : Ramp) (s : State) (h : (s.ramps[r]).state ≠ .metering) :
    UnitsUndisturbed s (enterShutClear r s) ∧ (enterShutClear r s).lanes = (orderFlush r s).lanes
    ∧ (enterShutClear r s).ramps[r] = { s.ramps[r] with
        state := ((enterShutClear r s).ramps[r]).state, clearPhase := none
        phaseTimer := ((enterShutClear r s).ramps[r]).phaseTimer, attention := true }
    ∧ ((∀ l ∈ lanesOf s.tables r, ((orderFlush r s).lanes[l]).state = .greenRest) →
        ((enterShutClear r s).ramps[r]).state = .shutFlush ∧ ((enterShutClear r s).ramps[r]).phaseTimer = .running 0)
    ∧ ((∃ l ∈ lanesOf s.tables r, ((orderFlush r s).lanes[l]).state ≠ .greenRest) →
        ((enterShutClear r s).ramps[r]).state = .shutClear ∧ ((enterShutClear r s).ramps[r]).phaseTimer = .stopped)
    ∧ (s.tables.Apart → HeadsShow r (enterShutClear r s) ∧ ∀ ch : OutCh, beaconOf s.tables r = some ch →
        ((enterShutClear r s).out.chans[ch]).commanded = .flash) := by
  have H := enterShutClear_spec r s
  have T := (enterShutClear_others r s).tables
  have al : (∀ l ∈ lanesOf s.tables r, ((orderFlush r s).lanes[l]).state = .greenRest)
      ∨ ∃ l ∈ lanesOf s.tables r, ((orderFlush r s).lanes[l]).state ≠ .greenRest := by
    by_cases k : ∀ l ∈ lanesOf s.tables r, ((orderFlush r s).lanes[l]).state = .greenRest
    · exact Or.inl k
    · push Not at k; exact Or.inr k
  have last : s.tables.Apart → HeadsShow r (enterShutClear r s) ∧ ∀ ch : OutCh, beaconOf s.tables r = some ch →
        ((enterShutClear r s).out.chans[ch]).commanded = .flash := fun a =>
    ⟨(H a).2.1, fun ch hc => al.elim (fun k => ((H a).2.2.1 k).beacon ch (by rw [T]; exact hc))
      fun k => ((H a).2.2.2 k).beacon ch (by rw [T]; exact hc)⟩
  clear H
  have D : enterShutClear r s = shutClearDone r (orderFlush r (enter r .shutClear none .stopped s)) := by
    unfold enterShutClear; dsimp only; rw [decide_eq_false h, if_neg (by decide)]
  rw [D] at last ⊢
  have t := (enter_others r .shutClear none .stopped s).tables
  have e := enter_plain r .shutClear none .stopped s
  rw [if_neg h] at e
  have n : (orderFlush r (enter r .shutClear none .stopped s)).lanes = (orderFlush r s).lanes := by
    unfold orderFlush; exact orderLanes_congr _ r (enter_lanes r _ _ _ s) t (enter_core r .shutClear none .stopped s (by decide)).det
  have q := enter_units r .shutClear none .stopped s h
  generalize enter r .shutClear none .stopped s = y at *
  have o := orderFlush_side r y
  have k : SameRamp y (orderFlush r y) r := o.ramps r
  have zr := k.set (by rw [e])
  have zt := o.tables
  have zu := q.trans o.undisturbed.2
  generalize orderFlush r y = z at *
  have zs : (z.ramps[r]).state = .shutClear := by rw [zr, e]
  have sc := shutClearDone_eq r z zs
  rw [zt, t, n] at sc
  rcases al with a | a
  · rw [sc.1 a] at last ⊢
    have p := enter_plain r .shutFlush none (.running 0) z
    rw [if_neg (by rw [zs]; decide), zr, e] at p
    refine ⟨zu.trans (enter_units r _ _ _ z (by rw [zs]; decide)), (enter_lanes r _ _ _ z).trans n, ?_, fun _ => ?_, fun ⟨l, hl, x⟩ => absurd (a l hl) x, last⟩
    · rw [p]
    · rw [p]; exact ⟨rfl, rfl⟩
  · rw [sc.2 a] at last ⊢
    obtain ⟨l, hl, x⟩ := a
    refine ⟨zu, n, ?_, fun k => absurd (k l hl) x, fun _ => ?_, last⟩
    · rw [zr, e]
    · rw [zr, e]; exact ⟨rfl, rfl⟩

/-- STANDBY entered from a state other than METERING (R61, R62, R71). -/
theorem enterStandby_calm (r : Ramp) (s : State) (h : (s.ramps[r]).state ≠ .metering) :
    UnitsUndisturbed s (enterStandby r s) ∧ (enterStandby r s).ramps[r] = { s.ramps[r] with
        state := ((enterStandby r s).ramps[r]).state, clearPhase := none
        phaseTimer := ((enterStandby r s).ramps[r]).phaseTimer, actionUnset := judgedUnset s r
        stopStands := stopDemand s r, attention := true }
    ∧ (s.tables.Apart → HeadsShow r (enterStandby r s)) := by
  have t := (enter_others r .standby none .stopped s).tables
  have e := enter_plain r .standby none .stopped s
  rw [if_neg h] at e
  have q := enter_units r .standby none .stopped s h
  have d := ((orderDark_side r _).demand r).2.2.trans (enter_demand r .standby none .stopped s (by decide)).2.2
  unfold enterStandby
  generalize enter r .standby none .stopped s = y at *
  have o := orderDark_side r y
  have k : SameRamp y (orderDark r y) r := o.ramps r
  have zr := k.set (by rw [e])
  have zt := o.tables
  have zu := q.trans o.undisturbed.2
  have zh : s.tables.Apart → HeadsShow r (orderDark r y) := fun a => orderLanes_heads _ r y (by rw [t]; exact a) zt
  generalize orderDark r y = z at *
  have je := judge_eq r z
  have ju : judgedUnset z r = judgedUnset s r := by unfold judgedUnset planSet; rw [zu.auth, zt, t]
  rw [zr, e, ju, d] at je
  have wu := zu.trans (judge_units r z)
  have jt := (judge_others r z).tables
  have wh : s.tables.Apart → HeadsShow r (judge r z) := fun a => (zh a).kept jt (judge_rest r z).1
    fun ch _ => by rw [(judge_rest r z).2.1]
  generalize judge r z = w at *
  have ws : (w.ramps[r]).state ≠ .metering := by rw [je]; simp
  unfold standbyActs; split
  · have p := enter_plain r .warn none (.running 0) w
    rw [if_neg ws, je] at p
    unfold enterWarn
    refine ⟨wu.trans (enter_units r _ _ _ w ws), by rw [p], fun a => (wh a).entered (by rw [jt, zt, t]; exact a) _ _ _ (by decide)⟩
  · exact ⟨wu, by rw [je]; simp, wh⟩

end Sys2Proof.Machine
end

