-- ==== Sys2Proof/Laws/Spillback.lean ====
section
/-! SUPPORT. What a source's assertion, a hold's expiry and the spillback logic leave in the units they touch. -/

namespace Sys2Proof.Machine

/-! ### Assertions -/

theorem holdExpired_one (r : Ramp) (s : State) : OneRamp r s (holdExpired r s) := by
  unfold holdExpired; split
  · exact (setAuth_one r _ s (setAuth_core' r _ s (fun h => AuthUnit.expireHold_ok h _)
      (AuthUnit.expireHold_asserted _ _ _))).trans (decisionPoint_decided r _).one
  · exact .refl r s

/-- A hold's expiry leaves its source spent, NOT and off the ramp, whatever the arbitration that follows brings
(R110). -/
theorem holdExpired_source {r : Ramp} {k : Source} {s : State} (h : (s.auth[r]).holder = some k) :
    (((holdExpired r s).auth[r]).sources[k]).spent = true ∧ (((holdExpired r s).auth[r]).sources[k]).standing = false
    ∧ ((holdExpired r s).auth[r]).holder ≠ some k := by
  unfold holdExpired; rw [h]; dsimp only
  have e : (((s.setAuth r ((s.auth[r]).expireHold k)).auth[r]).sources[k])
      = { (s.auth[r]).sources[k] with spent := true, standing := false, hold := none } := by
    rw [State.setAuth_auth, vset_same, AuthUnit.expireHold, setSource_same]
  have he : (((s.setAuth r ((s.auth[r]).expireHold k)).auth[r]).sources[k]).eligible = false := by
    rw [e]; unfold SourceRec.eligible; simp
  have hs : (((s.setAuth r ((s.auth[r]).expireHold k)).auth[r]).sources[k]).standing = false := by rw [e]
  have d := ((decisionPoint_decided r (s.setAuth r ((s.auth[r]).expireHold k))).kept.sources k).resting he hs
  exact ⟨d.2.trans (by rw [e]), d.1, decisionPoint_not_holder he hs⟩

theorem expireFirst_one (r : Ramp) (k : Source) (v : Bool) (s : State) : OneRamp r s (expireFirst r k v s) := by
  unfold expireFirst; split
  · exact holdExpired_one r s
  · exact .refl r s

/-- A source other than FAILSAFE given a value. -/
theorem setAsserted_one (r : Ramp) (k : Source) (v : Bool) (s : State) (hk : k ≠ 0) :
    OneRamp r s (setAsserted r k v s) := by
  unfold setAsserted; split
  · exact .refl r s
  · refine (expireFirst_one r k v s).trans ?_
    generalize expireFirst r k v s = t
    refine (setAuth_one r _ t (setAuth_core r _ t (fun h => AuthUnit.setAsserted_ok h k v) fun c => ?_)).trans
      (sourceChanged_decided r k _).one
    rw [AuthUnit.setAsserted_asserted, if_neg hk]; exact c.free r

/-- What a unit is left with when source `k`'s asserted field has been given a value: the other fields of R102 that
arbitration does not write are as they were, and a deassertion has cleared the spent mark (R110). -/
structure AuthUnit.Given (k : Source) (v : Bool) (a b : AuthUnit) : Prop where
  clearTimer : b.clearTimer = a.clearTimer
  asserted : (b.sources[k]).asserted = v
  others : ∀ j : Source, j ≠ k → (b.sources[j]).asserted = (a.sources[j]).asserted
  armed : ∀ j : Source, (b.sources[j]).armed = (a.sources[j]).armed
  lease : ∀ j : Source, (b.sources[j]).lease = (a.sources[j]).lease
  spent : (a.sources[k]).asserted = true → v = false → (b.sources[k]).spent = false

/-- The fields of a unit that neither a hold's expiry nor arbitration writes. -/
theorem expireFirst_unit (r : Ramp) (k : Source) (v : Bool) (s : State) :
    ((expireFirst r k v s).auth[r]).clearTimer = (s.auth[r]).clearTimer
    ∧ ∀ j : Source, (((expireFirst r k v s).auth[r]).sources[j]).asserted = ((s.auth[r]).sources[j]).asserted
      ∧ (((expireFirst r k v s).auth[r]).sources[j]).armed = ((s.auth[r]).sources[j]).armed
      ∧ (((expireFirst r k v s).auth[r]).sources[j]).lease = ((s.auth[r]).sources[j]).lease := by
  unfold expireFirst; split
  · unfold holdExpired; split
    · next h _ =>
      have d := (decisionPoint_decided r (s.setAuth r ((s.auth[r]).expireHold h))).kept
      rw [State.setAuth_auth, vset_same] at d
      refine ⟨d.clearTimer, fun j => ?_⟩
      have e : (((s.auth[r]).expireHold h).sources[j]).asserted = ((s.auth[r]).sources[j]).asserted
          ∧ (((s.auth[r]).expireHold h).sources[j]).armed = ((s.auth[r]).sources[j]).armed
          ∧ (((s.auth[r]).expireHold h).sources[j]).lease = ((s.auth[r]).sources[j]).lease := by
        unfold AuthUnit.expireHold; rw [AuthUnit.setSource_get]; split
        · next e => subst e; exact ⟨rfl, rfl, rfl⟩
        · exact ⟨rfl, rfl, rfl⟩
      exact ⟨(d.sources j).asserted.trans e.1, (d.sources j).armed.trans e.2.1, (d.sources j).lease.trans e.2.2⟩
    · exact ⟨rfl, fun _ => ⟨rfl, rfl, rfl⟩⟩
  · exact ⟨rfl, fun _ => ⟨rfl, rfl, rfl⟩⟩

theorem eligible_deasserted {x : SourceRec} (h : x.asserted = false) : x.eligible = false := by
  unfold SourceRec.eligible; rw [h]; rfl

/-- A deasserted source that has just been presented is not spent, whatever the presentation brings. -/
theorem sourceChanged_spent (r : Ramp) (k : Source) (s : State) (ha : ((s.auth[r]).sources[k]).asserted = false)
    (hs : ((s.auth[r]).sources[k]).spent = false) : (((sourceChanged r k s).auth[r]).sources[k]).spent = false := by
  unfold sourceChanged; split
  · exact hs
  · split
    · exact hs
    · split
      · exact hs
      · have d := (decisionPoint_decided r (s.setAuth r ((s.auth[r]).refresh k))).kept.sources k
        have e : (((s.setAuth r ((s.auth[r]).refresh k)).auth[r]).sources[k])
            = { (s.auth[r]).sources[k] with standing := false } := by
          rw [State.setAuth_auth, vset_same, AuthUnit.refresh, setSource_same, eligible_deasserted ha]
        rw [e] at d
        exact (d.resting (eligible_deasserted ha) rfl).2.trans hs

theorem setAsserted_unit (r : Ramp) (k : Source) (v : Bool) (s : State) :
    (s.auth[r]).Given k v (setAsserted r k v s).auth[r] := by
  unfold setAsserted; split
  · next h => exact ⟨rfl, h, fun _ _ => rfl, fun _ => rfl, fun _ => rfl, fun a b => by rw [h, b] at a; cases a⟩
  · next h =>
    have x := expireFirst_unit r k v s
    generalize expireFirst r k v s = t at x
    unfold changeAsserted
    have d := (sourceChanged_decided r k (t.setAuth r ((t.auth[r]).setAsserted k v))).kept
    have g : ∀ j : Source, (((t.setAuth r ((t.auth[r]).setAsserted k v)).auth[r]).sources[j])
        = if k = j then { (t.auth[r]).sources[k] with asserted := v, spent := ((t.auth[r]).sources[k]).spent && v }
          else (t.auth[r]).sources[j] := by
      intro j; rw [State.setAuth_auth, vset_same, AuthUnit.setAsserted, AuthUnit.setSource_get]
    refine ⟨d.clearTimer.trans ?_, (d.sources k).asserted.trans ?_, fun j hj => (d.sources j).asserted.trans ?_,
      fun j => (d.sources j).armed.trans ?_, fun j => (d.sources j).lease.trans ?_, fun _ hv => ?_⟩
    · rw [State.setAuth_auth, vset_same]; exact x.1
    · rw [g, if_pos rfl]
    · rw [g, if_neg hj.symm]; exact (x.2 j).1
    · rw [g]; split
      · next e => subst e; exact (x.2 k).2.1
      · exact (x.2 j).2.1
    · rw [g]; split
      · next e => subst e; exact (x.2 k).2.2
      · exact (x.2 j).2.2
    · subst hv
      apply sourceChanged_spent
      · rw [g, if_pos rfl]
      · rw [g, if_pos rfl]; simp

/-- A deassertion at the moment of the source's own expiry leaves it off the ramp (R111). -/
theorem setAsserted_atZero {r : Ramp} {k : Source} {s : State} (ha : ((s.auth[r]).sources[k]).asserted = true)
    (hz : (s.auth[r]).holdAtZero k = true) : ((setAsserted r k false s).auth[r]).holder ≠ some k := by
  have hh : (s.auth[r]).holder = some k := by
    unfold AuthUnit.holdAtZero at hz; rw [Bool.and_eq_true] at hz; exact of_decide_eq_true hz.1
  have x := holdExpired_source hh
  unfold setAsserted expireFirst
  rw [if_neg (by rw [ha]; decide), hz, if_pos (by rfl)]
  generalize holdExpired r s = t at x
  have g : ((t.setAuth r ((t.auth[r]).setAsserted k false)).auth[r]).sources[k]
      = { (t.auth[r]).sources[k] with asserted := false, spent := ((t.auth[r]).sources[k]).spent && false } := by
    rw [State.setAuth_auth, vset_same, AuthUnit.setAsserted, setSource_same]
  unfold changeAsserted
  intro h
  have he := eligible_deasserted (x := ((t.setAuth r ((t.auth[r]).setAsserted k false)).auth[r]).sources[k])
    (by rw [g])
  have := (sourceChanged_decided r k (t.setAuth r ((t.auth[r]).setAsserted k false))).holder k he (by rw [g]; exact x.2.1) h
  rw [State.setAuth_auth, vset_same] at this
  exact x.2.2 this

/-- What the end of a lease leaves (R110, R111, R122). -/
theorem endLease_spec (r : Ramp) (c : Central) (k : Source) (s u : State) (hk : k = centralSource c)
    (hu : u = endLease r k s) :
    Undisturbed s u ∧ (∀ q : Ramp, q ≠ r → u.auth[q] = s.auth[q])
      ∧ ((u.auth[r]).sources[k]).lease = none ∧ ((u.auth[r]).sources[k]).asserted = false
      ∧ (((s.auth[r]).sources[k]).asserted = true → ((u.auth[r]).sources[k]).spent = false)
      ∧ (((s.auth[r]).sources[k]).asserted = true →
          ¬ ((s.auth[r]).holder = some k ∧ ((s.auth[r]).sources[k]).hold = some (.running 0)) →
          u = sourceChanged r k (s.setAuth r ((s.auth[r]).setSource k
            { (s.auth[r]).sources[k] with lease := none, asserted := false, spent := false })))
      ∧ (((s.auth[r]).sources[k]).asserted = true → (s.auth[r]).holder = some k →
          ((s.auth[r]).sources[k]).hold = some (.running 0) → (u.auth[r]).holder ≠ some k)
      ∧ (((s.auth[r]).sources[k]).asserted = false →
          u = s.setAuth r ((s.auth[r]).setSource k { (s.auth[r]).sources[k] with lease := none })) := by
  have k0 : k ≠ 0 := by rw [hk]; exact centralSource_ne c
  have a := setAsserted_unit r k false (setLease r k none s)
  have b := setAsserted_one r k false (setLease r k none s) k0
  have e : ((setLease r k none s).auth[r]).sources[k] = { (s.auth[r]).sources[k] with lease := none } := by
    rw [setLease_auth, setSource_same]
  have hu' : u = setAsserted r k false (setLease r k none s) := hu
  subst hu'
  refine ⟨((setLease_side r k none s).toRampCore.trans b.side).undisturbed, fun q hq => ?_, ?_, a.asserted,
    fun h => a.spent ?_ rfl, fun h hz => ?_, fun h h1 h2 => ?_, fun h => ?_⟩
  · rw [(b.others q hq).2.1]; unfold setLease; rw [State.setAuth_auth, vset_get, if_neg hq.symm]
  · rw [a.lease, e]
  · rw [e]; exact h
  · have z : (s.auth[r]).holdAtZero k = false := by
      unfold AuthUnit.holdAtZero
      rw [Bool.eq_false_iff]; intro hh; simp at hh; exact hz hh
    rw [setAsserted_setLease r k none false s (Or.inr z), if_neg (by rw [h]; decide)]
    simp
  · apply setAsserted_atZero
    · rw [e]; exact h
    · unfold AuthUnit.holdAtZero; rw [e, setLease_auth, AuthUnit.setSource_holder, h1]; dsimp only; rw [h2]; simp
  · unfold setAsserted; rw [e, if_pos h]; rfl

/-! ### Spillback -/

theorem setClearTimer_one (r : Ramp) (t : Timer) (s : State) : OneRamp r s (setClearTimer r t s) :=
  setAuth_one r _ s (setClearTimer_side r t s).toRampCore

theorem setClearTimer_auth (r : Ramp) (t : Timer) (s : State) :
    (setClearTimer r t s).auth[r] = { s.auth[r] with clearTimer := t } := by
  unfold setClearTimer; rw [State.setAuth_auth, vset_same]

/-- The clear timer stopped and the source deasserted. -/
theorem clearTimerExpired_unit (r : Ramp) (s : State) :
    (((clearTimerExpired r s).auth[r]).sources[(2 : Source)]).asserted = false
    ∧ ((clearTimerExpired r s).auth[r]).clearTimer = .stopped
    ∧ (((s.auth[r]).sources[(2 : Source)]).asserted = true →
        (((clearTimerExpired r s).auth[r]).sources[(2 : Source)]).spent = false) := by
  have x := setAsserted_unit r 2 false (setClearTimer r .stopped s)
  rw [setClearTimer_auth] at x
  exact ⟨x.asserted, x.clearTimer, fun h => x.spent h rfl⟩

theorem clearTimerExpired_one (r : Ramp) (s : State) : OneRamp r s (clearTimerExpired r s) :=
  (setClearTimer_one r .stopped s).trans (setAsserted_one r 2 false _ (by decide))

/-- The review of the clear timer in terms of the expiry's two effects (R119). -/
theorem reviewClear_eq (r : Ramp) (s : State) : reviewClear r s =
    if (s.tables.rampCfg[r]).isSome = false then clearTimerExpired r s
    else if ((s.auth[r]).sources[(2 : Source)]).asserted = false then setClearTimer r .stopped s
    else if (spillChannels s r).filter (usable s) = [] then clearTimerExpired r s
    else if ∀ ch ∈ (spillChannels s r).filter (usable s), (s.det.chans[ch]).filtered = false then
      setClearTimer r (s.auth[r]).clearTimer.keepRunning s
    else setClearTimer r .stopped s := by
  unfold reviewClear clearTimerExpired
  simp only [Bool.not_eq_true', List.isEmpty_iff, List.all_eq_true]

theorem reviewClear_one (r : Ramp) (s : State) : OneRamp r s (reviewClear r s) := by
  rw [reviewClear_eq]
  repeat' split
  all_goals first | exact clearTimerExpired_one r s | exact setClearTimer_one r _ s

/-- A channel among a ramp's usable spillback channels (R117). -/
theorem mem_usable {s : State} {r : Ramp} {ch : Channel} :
    ch ∈ (spillChannels s r).filter (usable s) ↔ spillRamp s.tables ch = some r ∧ usable s ch = true := by
  unfold spillChannels
  simp only [List.mem_filter, List.mem_finRange, true_and, beq_iff_eq]

/-- What the review of one ramp leaves of its SPILLBACK source and its clear timer (R119, R120). -/
theorem reviewClear_unit (r : Ramp) (s : State) :
    (s.tables.rampCfg[r] = none → (((reviewClear r s).auth[r]).sources[(2 : Source)]).asserted = false
      ∧ ((reviewClear r s).auth[r]).clearTimer = .stopped)
    ∧ (((s.auth[r]).sources[(2 : Source)]).asserted = false →
      (((reviewClear r s).auth[r]).sources[(2 : Source)]).asserted = false
      ∧ ((reviewClear r s).auth[r]).clearTimer = .stopped)
    ∧ (((s.auth[r]).sources[(2 : Source)]).asserted = true → s.tables.rampCfg[r] ≠ none →
      ((∀ ch : Channel, spillRamp s.tables ch = some r → usable s ch = false) →
        (((reviewClear r s).auth[r]).sources[(2 : Source)]).asserted = false
        ∧ (((reviewClear r s).auth[r]).sources[(2 : Source)]).spent = false
        ∧ ((reviewClear r s).auth[r]).clearTimer = .stopped)
      ∧ (∀ ch : Channel, spillRamp s.tables ch = some r → usable s ch = true → (s.det.chans[ch]).filtered = true →
        (((reviewClear r s).auth[r]).sources[(2 : Source)]).asserted = true
        ∧ ((reviewClear r s).auth[r]).clearTimer = .stopped)
      ∧ ((∃ ch : Channel, spillRamp s.tables ch = some r ∧ usable s ch = true) →
        (∀ ch : Channel, spillRamp s.tables ch = some r → usable s ch = true → (s.det.chans[ch]).filtered = false) →
        (((reviewClear r s).auth[r]).sources[(2 : Source)]).asserted = true
        ∧ ((reviewClear r s).auth[r]).clearTimer
          = if (s.auth[r]).clearTimer = .stopped then .running 0 else (s.auth[r]).clearTimer)) := by
  have off := clearTimerExpired_unit r s
  rw [reviewClear_eq]
  refine ⟨fun h => ?_, fun h => ?_, fun h hc => ?_⟩
  · rw [if_pos (by rw [h]; rfl)]; exact ⟨off.1, off.2.1⟩
  · by_cases hc : (s.tables.rampCfg[r]).isSome = false
    · rw [if_pos hc]; exact ⟨off.1, off.2.1⟩
    · rw [if_neg hc, if_pos h, setClearTimer_auth]; exact ⟨h, rfl⟩
  · rw [if_neg (by simpa [Option.isSome_iff_ne_none] using hc), if_neg (by rw [h]; decide)]
    refine ⟨fun none => ?_, fun ch hr hu hf => ?_, fun some all => ?_⟩
    · rw [if_pos]
      · exact ⟨off.1, off.2.2 h, off.2.1⟩
      · rw [List.eq_nil_iff_forall_not_mem]
        intro ch hm
        rw [mem_usable] at hm
        rw [none ch hm.1] at hm; cases hm.2
    · have hm : ch ∈ (spillChannels s r).filter (usable s) := mem_usable.2 ⟨hr, hu⟩
      rw [if_neg (List.ne_nil_of_mem hm), if_neg, setClearTimer_auth]
      · exact ⟨h, rfl⟩
      · intro hall; rw [hall ch hm] at hf; cases hf
    · obtain ⟨ch, hc⟩ := some
      rw [if_neg (List.ne_nil_of_mem (mem_usable.2 hc)), if_pos, setClearTimer_auth]
      · refine ⟨h, ?_⟩
        dsimp only; unfold Timer.keepRunning
        split
        · next e => rw [if_pos e]
        · next e => rw [if_neg e]
      · intro x hm; rw [mem_usable] at hm; exact all x hm.1 hm.2

/-! ### Announcements -/

/-- An announcement is the spillback review of a state whose lanes alone have heard (R14). -/
theorem announce_eq (before s : State) : ∃ t, LaneSide s t ∧ announce before s = reviewSpillback t := by
  unfold announce
  exact ⟨_, LaneSide.forEach _ _ (laneHears_side before) s, rfl⟩

theorem reviewOnTimers_get (s : State) (ch : Channel) : (reviewOnTimers s).onTimers[ch]
    = if onTimerRuns s ch then (s.onTimers[ch]).keepRunning else .stopped := by
  unfold reviewOnTimers; dsimp only; rw [vmap_get]

theorem reviewOnTimers_rest (s : State) : (reviewOnTimers s).auth = s.auth ∧ (reviewOnTimers s).tables = s.tables
    ∧ (reviewOnTimers s).det = s.det := by
  unfold reviewOnTimers; exact ⟨rfl, rfl, rfl⟩

theorem reviewSpillback_onTimers (s : State) : (reviewSpillback s).onTimers = (reviewOnTimers s).onTimers := by
  obtain ⟨x, a, b⟩ := forRamps_at (f := reviewClear) (fun q r t h => (reviewClear_one q t).elsewhere h)
    (reviewOnTimers s) 0
  exact b.onTimers.trans ((reviewClear_one 0 x).onTimers.trans a.onTimers)

/-- One ramp's unit behind a review of all of them is its own review's. -/
theorem reviewSpillback_auth (s : State) (r : Ramp) : ∃ x, x.auth[r] = s.auth[r] ∧ x.tables = s.tables ∧ x.det = s.det
    ∧ (reviewSpillback s).auth[r] = (reviewClear r x).auth[r] := by
  unfold reviewSpillback
  have e := reviewOnTimers_rest s
  generalize reviewOnTimers s = t at e
  obtain ⟨x, a, b⟩ := forRamps_at (f := reviewClear) (fun q r t h => (reviewClear_one q t).elsewhere h) t r
  exact ⟨x, by rw [a.auth, e.1], a.side.tables.trans e.2.1, a.side.det.trans e.2.2, b.auth⟩

theorem onTimerRuns_iff (s : State) (ch : Channel) : onTimerRuns s ch = true ↔
    ∃ r, spillRamp s.tables ch = some r ∧ s.tables.rampCfg[r] ≠ none ∧ usable s ch = true
      ∧ (s.det.chans[ch]).filtered = true := by
  unfold onTimerRuns
  split
  · next r h => rw [h]; simp [Option.isSome_iff_ne_none, and_assoc]
  · next h => rw [h]; simp

/-- What a reader of tables and detectors sees does not hang on the rest of the state. -/
theorem usable_congr {s t : State} (h : t.tables = s.tables) (hd : t.det = s.det) (ch : Channel) :
    usable t ch = usable s ch := by unfold usable; rw [h, hd]

/-! ### A Ramp Config written or cleared (R120) -/

theorem judgeLines_one (r : Ramp) (s : State) : OneRamp r s (judgeLines r s) :=
  (setAsserted_one r 1 _ s (by decide)).trans (setAsserted_one r 4 _ _ (by decide))

/-- The lines' sources are not SPILLBACK. -/
theorem judgeLines_unit (r : Ramp) (s : State) :
    (((judgeLines r s).auth[r]).sources[(2 : Source)]).asserted = ((s.auth[r]).sources[(2 : Source)]).asserted
    ∧ ((judgeLines r s).auth[r]).clearTimer = (s.auth[r]).clearTimer := by
  have h : ∀ (k : Source) (v : Bool) (t : State), k ≠ 2 →
      (((setAsserted r k v t).auth[r]).sources[(2 : Source)]).asserted = ((t.auth[r]).sources[(2 : Source)]).asserted
      ∧ ((setAsserted r k v t).auth[r]).clearTimer = (t.auth[r]).clearTimer := fun k v t hk =>
    ⟨(setAsserted_unit r k v t).others 2 hk.symm, (setAsserted_unit r k v t).clearTimer⟩
  unfold judgeLines; dsimp only
  rw [(h 4 _ _ (by decide)).1, (h 4 _ _ (by decide)).2]
  exact h 1 _ s (by decide)

theorem restartSpillback_unit (r : Ramp) (s : State) :
    (((restartSpillback r s).auth[r]).sources[(2 : Source)]).asserted = false
    ∧ ((restartSpillback r s).auth[r]).clearTimer = .stopped := by
  unfold restartSpillback; dsimp only
  generalize setClearTimer r .stopped _ = t
  have e := (reviewOnTimers_rest (setAsserted r 2 false t)).1
  refine (reviewClear_unit r _).2.1 ?_
  rw [e]
  exact (setAsserted_unit r 2 false t).asserted

/-- Behind a restart the on-timers of the ramp's channels have started afresh, or are stopped. -/
theorem restartSpillback_onTimers (r : Ramp) (s : State) (ch : Channel) (h : spillRamp s.tables ch = some r) :
    (restartSpillback r s).onTimers[ch] = if onTimerRuns s ch then .running 0 else .stopped := by
  unfold restartSpillback; dsimp only
  rw [(reviewClear_one r _).onTimers, reviewOnTimers_get]
  have a := (setClearTimer_one r .stopped { s with
    onTimers := vmap (fun ch x => if spillRamp s.tables ch = some r then .stopped else x) s.onTimers }).trans
    (setAsserted_one r 2 false _ (by decide))
  generalize setAsserted r 2 false (setClearTimer r .stopped { s with
    onTimers := vmap (fun ch x => if spillRamp s.tables ch = some r then .stopped else x) s.onTimers }) = t at a
  have e : t.onTimers[ch] = .stopped := by
    rw [a.onTimers]; dsimp only; rw [vmap_get, if_pos h]
  have g : onTimerRuns t ch = onTimerRuns s ch := by
    have ht : t.tables = s.tables := a.side.tables
    have hd : t.det = s.det := a.side.det
    unfold onTimerRuns; rw [ht, hd]
    split
    · rw [usable_congr ht hd]
    · rfl
  rw [e, g]; rfl

/-! ### Lines (R115) -/

theorem lineAsserts_congr {s t : State} (ht : t.tables = s.tables) (hl : t.lines = s.lines) (r : Ramp) (k : Source) :
    lineAsserts t r k = lineAsserts s r k := by unfold lineAsserts; rw [ht, hl]

/-- The line of a PREEMPT or PANEL source (R115). -/
theorem lineAsserts_iff (s : State) (r : Ramp) :
    (lineAsserts s r 1 = true ↔ ∃ (c : RampRec) (n : Fin 4) (k : Line),
      s.tables.rampCfg[r] = some c ∧ c.preLine = some n ∧ k.val = n.val ∧ (s.lines[k]).active = true)
    ∧ (lineAsserts s r 4 = true ↔ ∃ (c : RampRec) (n : Fin 4) (k : Line),
      s.tables.rampCfg[r] = some c ∧ c.panelLine = some n ∧ k.val = n.val + 4 ∧ (s.lines[k]).active = true) := by
  unfold lineAsserts lineOfSource
  cases s.tables.rampCfg[r] with
  | none => simp
  | some c =>
    constructor
    · show (match c.preLine.map fun n => (⟨n.val, by omega⟩ : Line) with
        | some l => (s.lines[l]).active | none => false) = true ↔ _
      cases h : c.preLine with
      | none => simp [h]
      | some n =>
        dsimp only [Option.map_some]
        constructor
        · intro a; exact ⟨c, n, _, rfl, h, rfl, a⟩
        · rintro ⟨d, m, k, e, e', e'', a⟩
          cases e; rw [h] at e'; cases e'
          have : k = ⟨n.val, by omega⟩ := Fin.ext e''
          rw [this] at a; exact a
    · show (match c.panelLine.map fun n => (⟨n.val + 4, by omega⟩ : Line) with
        | some l => (s.lines[l]).active | none => false) = true ↔ _
      cases h : c.panelLine with
      | none => simp [h]
      | some n =>
        dsimp only [Option.map_some]
        constructor
        · intro a; exact ⟨c, n, _, rfl, h, rfl, a⟩
        · rintro ⟨d, m, k, e, e', e'', a⟩
          cases e; rw [h] at e'; cases e'
          have : k = ⟨n.val + 4, by omega⟩ := Fin.ext e''
          rw [this] at a; exact a

/-- Judged against their lines, PREEMPT and PANEL are asserted exactly while those are ACTIVE (R115). -/
theorem judgeLines_lines (r : Ramp) (s : State) :
    (((judgeLines r s).auth[r]).sources[(1 : Source)]).asserted = lineAsserts s r 1
    ∧ (((judgeLines r s).auth[r]).sources[(4 : Source)]).asserted = lineAsserts s r 4 := by
  have a := setAsserted_side r 1 (lineAsserts s r 1) s (by decide)
  have x := setAsserted_unit r 1 (lineAsserts s r 1) s
  unfold judgeLines; dsimp only
  generalize setAsserted r 1 (lineAsserts s r 1) s = t at *
  have y := setAsserted_unit r 4 (lineAsserts t r 4) t
  exact ⟨(y.others 1 (by decide)).trans x.asserted, y.asserted.trans (lineAsserts_congr a.tables a.lines r 4)⟩

/-- After every ramp has judged its lines. -/
theorem forRamps_judgeLines (s : State) (r : Ramp) :
    (((forRamps judgeLines s).auth[r]).sources[(1 : Source)]).asserted = lineAsserts s r 1
    ∧ (((forRamps judgeLines s).auth[r]).sources[(4 : Source)]).asserted = lineAsserts s r 4 := by
  obtain ⟨x, a, b⟩ := forRamps_at (fun q r t h => (judgeLines_one q t).elsewhere h) s r
  have c := judgeLines_lines r x
  rw [lineAsserts_congr a.side.tables a.side.lines, lineAsserts_congr a.side.tables a.side.lines] at c
  rw [b.auth]; exact c

/-! ### In OFF -/

/-- A ramp in OFF with no holder is given a source's value in its unit alone (R103). -/
structure InUnit (r : Ramp) (s t : State) : Prop where
  frame : t = { s with auth := t.auth, onTimers := t.onTimers }
  others : ∀ q : Ramp, q ≠ r → t.auth[q] = s.auth[q]
  holder : (t.auth[r]).holder = (s.auth[r]).holder

namespace InUnit

theorem refl (r : Ramp) (s : State) : InUnit r s s := ⟨rfl, fun _ _ => rfl, rfl⟩

theorem trans {r : Ramp} {s t u : State} (a : InUnit r s t) (b : InUnit r t u) : InUnit r s u :=
  ⟨by rw [b.frame, a.frame], fun q h => (b.others q h).trans (a.others q h), b.holder.trans a.holder⟩

theorem ramps {r : Ramp} {s t : State} (a : InUnit r s t) : t.ramps = s.ramps := by rw [a.frame]

end InUnit

theorem setAuth_unit {r : Ramp} {x : AuthUnit} {s : State} (h : x.holder = (s.auth[r]).holder) : InUnit r s (s.setAuth r x) :=
  ⟨rfl, fun q hq => by rw [State.setAuth_auth, vset_get, if_neg hq.symm], by rw [State.setAuth_auth, vset_same]; exact h⟩

theorem onTimers_unit (r : Ramp) (x : Vector Timer 64) (s : State) : InUnit r s { s with onTimers := x } :=
  ⟨rfl, fun _ _ => rfl, rfl⟩

theorem setAsserted_off {r : Ramp} {k : Source} {v : Bool} {s : State} (ho : (s.ramps[r]).state = .off)
    (hh : (s.auth[r]).holder = none) : InUnit r s (setAsserted r k v s) := by
  unfold setAsserted; split
  · exact .refl r s
  · have z : expireFirst r k v s = s := by
      unfold expireFirst AuthUnit.holdAtZero; rw [hh, if_neg]; simp
    rw [z]
    unfold changeAsserted sourceChanged
    rw [if_pos (by exact ho)]
    exact setAuth_unit rfl

theorem setClearTimer_off (r : Ramp) (t : Timer) (s : State) : InUnit r s (setClearTimer r t s) := setAuth_unit rfl

theorem reviewClear_off {r : Ramp} {s : State} (ho : (s.ramps[r]).state = .off) (hh : (s.auth[r]).holder = none) :
    InUnit r s (reviewClear r s) := by
  have c := setClearTimer_off r .stopped s
  have off := c.trans (setAsserted_off (k := 2) (v := false) (by rw [c.ramps]; exact ho) (c.holder.trans hh))
  unfold reviewClear; dsimp only
  split
  · exact off
  · split
    · exact c
    · split
      · exact off
      · split
        · exact setClearTimer_off r _ s
        · exact c

theorem restartSpillback_off {r : Ramp} {s : State} (ho : (s.ramps[r]).state = .off) (hh : (s.auth[r]).holder = none) :
    InUnit r s (restartSpillback r s) := by
  unfold restartSpillback; dsimp only
  have a := (onTimers_unit r (vmap (fun ch x => if spillRamp s.tables ch = some r then .stopped else x) s.onTimers) s).trans
    (setClearTimer_off r .stopped _)
  have b := a.trans (setAsserted_off (k := 2) (v := false) (by rw [a.ramps]; exact ho) (a.holder.trans hh))
  have c := b.trans (u := reviewOnTimers _) (onTimers_unit r _ _)
  exact c.trans (reviewClear_off (by rw [c.ramps]; exact ho) (c.holder.trans hh))

theorem judgeLines_off {r : Ramp} {s : State} (ho : (s.ramps[r]).state = .off) (hh : (s.auth[r]).holder = none) :
    InUnit r s (judgeLines r s) := by
  have a := setAsserted_off (k := 1) (v := lineAsserts s r 1) ho hh
  exact a.trans (setAsserted_off (by rw [a.ramps]; exact ho) (a.holder.trans hh))

end Sys2Proof.Machine
end

