-- ==== Sys2Proof/Laws/Failsafe.lean ====
section
/-! SUPPORT. What the end of an event does to a ramp: the other ramps' turns leave it alone (`Beside`), its own judges
FAILSAFE twice, and the source that is then asserted or deasserted is arbitrated. -/

namespace Sys2Proof.Machine

/-! ### A ramp beside another -/

/-- FAILSAFE given a value, in a part that is not calm or with no value to assert. -/
theorem setAsserted_one' (r : Ramp) (k : Source) (v : Bool) (s : State) (h : Calm s → k ≠ 0 ∨ v = false) :
    OneRamp r s (setAsserted r k v s) := by
  unfold setAsserted; split
  · exact .refl r s
  · have e : Calm (expireFirst r k v s) → k ≠ 0 ∨ v = false := by
      cases v
      · exact fun _ => Or.inr rfl
      · rw [expireFirst_true]; exact h
    refine (expireFirst_one r k v s).trans ?_
    generalize expireFirst r k v s = t at *
    refine (setAuth_one r _ t (setAuth_core r _ t (fun h => AuthUnit.setAsserted_ok h k v) fun c => ?_)).trans
      (sourceChanged_decided r k _).one
    rw [AuthUnit.setAsserted_asserted]; split
    · next x => exact (e c).elim (absurd x) id
    · exact c.free r

theorem judgeFailsafe_one (r : Ramp) (s : State) : OneRamp r s (judgeFailsafe r s) :=
  setAsserted_one' r 0 _ s fun c => Or.inr (c.noCause r)

/-- What the events of the other ramps leave of a ramp: its records, no latched fault of the part, and, where the ramps
are apart, its lanes and channels. -/
structure Beside (r : Ramp) (s t : State) : Prop where
  away : Elsewhere r s t
  lanes : s.tables.Apart → ∀ l ∈ lanesOf s.tables r, t.lanes[l] = s.lanes[l]
  chans : s.tables.Apart → ∀ ch : OutCh, belongs s.tables r ch = true → t.out.chans[ch] = s.out.chans[ch]
  faults : ∀ ch : OutCh, (s.out.chans[ch]).fault = true → (t.out.chans[ch]).fault = true
  sound : (∀ d ∈ s.out.drivers, d.silence ≠ .expired) → t.out.drivers = s.out.drivers
    ∧ ∀ ch : OutCh, (s.out.chans[ch]).fault = false → (t.out.chans[ch]).fault = false

namespace Beside

theorem refl (r : Ramp) (s : State) : Beside r s s :=
  ⟨.refl r s, fun _ _ _ => rfl, fun _ _ _ => rfl, fun _ h => h, fun _ => ⟨rfl, fun _ h => h⟩⟩

theorem trans {r : Ramp} {s t u : State} (a : Beside r s t) (b : Beside r t u) : Beside r s u where
  away := a.away.trans b.away
  lanes h l hl := by
    have e := a.away.side.tables
    exact (b.lanes (by rw [e]; exact h) l (by rw [e]; exact hl)).trans (a.lanes h l hl)
  chans h ch hb := by
    have e := a.away.side.tables
    exact (b.chans (by rw [e]; exact h) ch (by rw [e]; exact hb)).trans (a.chans h ch hb)
  faults ch h := b.faults ch (a.faults ch h)
  sound hd := by
    have x := a.sound hd
    have y := b.sound (by rw [x.1]; exact hd)
    exact ⟨y.1.trans x.1, fun ch h => y.2 ch (x.2 ch h)⟩

/-- The cause of FAILSAFE stays where the ramps are apart (R112). -/
theorem cause {r : Ramp} {s t : State} (a : Beside r s t) (h : s.tables.Apart) : failsafeCause t r = failsafeCause s r := by
  rw [Bool.eq_iff_iff, failsafeCause_iff, failsafeCause_iff, a.away.side.ring, a.away.side.tables]
  refine or_congr_right (exists_congr fun ch => and_congr_right fun hb => ?_)
  rw [a.chans h ch hb]

theorem demand {r : Ramp} {s t : State} (a : Beside r s t) : effectiveAction t r = effectiveAction s r
    ∧ startDemand t r = startDemand s r ∧ stopDemand t r = stopDemand s r :=
  demand_congr a.away.side.tables (by rw [a.away.auth]) (a.away.same.field (·.mode) fun _ => rfl)
    (a.away.same.field (·.autoPlan) fun _ => rfl)

theorem entered {r : Ramp} {st : RampState} {tm : Timer} {s t : State} (a : Beside r s t) (h : s.tables.Apart)
    (e : Entered r st tm s) : Entered r st tm t :=
  e.kept a.away.side.tables (a.away.same.field RampCtx.plain fun _ => rfl) (a.away.side.attention r)
    fun ch hb x => by rw [a.chans h ch ((belongs_iff _ _ _).2 (Or.inl hb))]; exact x

theorem heads {r : Ramp} {s t : State} (a : Beside r s t) (h : s.tables.Apart) (e : HeadsShow r s) : HeadsShow r t := by
  intro l hl ch hc
  have x := a.away.side.tables
  rw [x] at hl hc
  rw [a.lanes h l hl, a.chans h ch ((belongs_iff _ _ _).2 (Or.inr ⟨l, hl, hc⟩))]
  exact e l hl ch hc

end Beside

/-- An event of one ramp's units, seen from another. -/
theorem Reach.beside {q r : Ramp} {s t : State} (a : Reach q s t) (o : OneRamp q s t) (h : q ≠ r) : Beside r s t :=
  ⟨o.elsewhere h, fun k l hl => a.lanes l (fun x => k.lanes r q h l hl x),
    fun k ch hb => a.chans ch (k.channels h hb), a.faults, a.sound⟩

/-- An operation done for each ramp, seen from one of them. -/
theorem forRamps_beside {f : Ramp → State → State} (h : ∀ (q r : Ramp) (t : State), q ≠ r → Beside r t (f q t))
    (s : State) (r : Ramp) : ∃ x, Beside r s x ∧ Beside r (f r x) (forRamps f s) := by
  have e : forRamps f s = f 3 (f 2 (f 1 (f 0 s))) := rfl
  rw [e]
  match r with
  | 0 => exact ⟨s, .refl 0 s, ((h 1 0 _ (by decide)).trans (h 2 0 _ (by decide))).trans (h 3 0 _ (by decide))⟩
  | 1 => exact ⟨_, h 0 1 s (by decide), (h 2 1 _ (by decide)).trans (h 3 1 _ (by decide))⟩
  | 2 => exact ⟨_, (h 0 2 s (by decide)).trans (h 1 2 _ (by decide)), h 3 2 _ (by decide)⟩
  | 3 => exact ⟨_, ((h 0 3 s (by decide)).trans (h 1 3 _ (by decide))).trans (h 2 3 _ (by decide)), .refl 3 _⟩

theorem judgeFailsafe_beside {q r : Ramp} (s : State) (h : q ≠ r) : Beside r s (judgeFailsafe q s) :=
  (judgeFailsafe_reach q s).beside (judgeFailsafe_one q s) h

/-- A ramp's own turn at the end of an event, between turns that leave it alone (R112). -/
theorem settle_at (s : State) (r : Ramp) :
    ∃ x, Beside r s x ∧ Beside r (judgeFailsafe r (judgeFailsafe r x)) (settle s) :=
  forRamps_beside (f := fun r t => judgeFailsafe r (judgeFailsafe r t))
    (fun _ _ t h => (judgeFailsafe_beside t h).trans (judgeFailsafe_beside _ h)) s r

/-- What the SIGs and the port's take leave of the units. -/
theorem endEvent_settled (s : State) : (endEvent s).ramps = (settle s).ramps ∧ (endEvent s).lanes = (settle s).lanes
    ∧ (endEvent s).auth = (settle s).auth ∧ (endEvent s).rate = (settle s).rate
    ∧ (endEvent s).vectors = (settle s).vectors ∧ (endEvent s).tables = (settle s).tables
    ∧ (endEvent s).onTimers = (settle s).onTimers
    ∧ (endEvent s).out.chans = (settle s).out.chans ∧ (endEvent s).ring.quiet = (settle s).ring.quiet := by
  have a := flushSigs_side (settle s)
  have p : ∀ t : State, (pump t).ring.quiet = t.ring.quiet := fun t => by
    rw [pump_ring_eq]; unfold portTake takeInsert; simp only [promoteWaiting_eq]; repeat' split
    all_goals rfl
  unfold endEvent
  rw [p]
  generalize settle s = y at *
  generalize flushSigs y = x at *
  have f := a.frame
  have q := congrArg RingUnit.quiet a.ring
  have k : ∀ {α : Type} (g : State → α), g (pump x) = g x → g x = g { y with ring := x.ring, out := x.out } →
      g { y with ring := x.ring, out := x.out } = g y → g (pump x) = g y := fun _ a b c => (a.trans b).trans c
  exact ⟨k (·.ramps) rfl (by rw [← f]) rfl, k (·.lanes) rfl (by rw [← f]) rfl, k (·.auth) rfl (by rw [← f]) rfl,
    k (·.rate) rfl (by rw [← f]) rfl, k (·.vectors) rfl (by rw [← f]) rfl, k (·.tables) rfl (by rw [← f]) rfl,
    k (·.onTimers) rfl (by rw [← f]) rfl, a.chans, q⟩

/-! ### The FAILSAFE source judged -/

theorem judgeFailsafe_asserted (r : Ramp) (s : State) :
    (((judgeFailsafe r s).auth[r]).sources[(0 : Source)]).asserted = failsafeCause s r :=
  (setAsserted_unit r 0 _ s).asserted

theorem judgeFailsafe_agreed {r : Ramp} {s : State}
    (h : ((s.auth[r]).sources[(0 : Source)]).asserted = failsafeCause s r) : judgeFailsafe r s = s := by
  unfold judgeFailsafe setAsserted; rw [if_pos h]

/-- Where every FAILSAFE source agrees with its cause the end of an event has none to judge. -/
theorem settle_agreed {s : State} (h : ∀ r : Ramp, ((s.auth[r]).sources[(0 : Source)]).asserted = failsafeCause s r) :
    settle s = s := by
  have e : ∀ r : Ramp, judgeFailsafe r s = s := fun r => judgeFailsafe_agreed (h r)
  unfold settle forRamps; simp only [e]

/-- A cause stays until the event is over. -/
theorem cause_kept {r : Ramp} {s t : State} (ht : t.tables = s.tables) (hr : t.ring = s.ring)
    (hf : ∀ ch : OutCh, (s.out.chans[ch]).fault = true → (t.out.chans[ch]).fault = true)
    (h : failsafeCause s r = true) : failsafeCause t r = true := by
  rw [failsafeCause_iff] at h ⊢
  rw [hr, ht]
  exact h.imp_right fun ⟨ch, hb, x⟩ => ⟨ch, hb, hf ch x⟩

/-- Where no driver is silent nothing latches, so a cause stays as it is. -/
theorem cause_same {r : Ramp} {s t : State} (ht : t.tables = s.tables) (hr : t.ring = s.ring)
    (hf : ∀ ch : OutCh, (s.out.chans[ch]).fault = true → (t.out.chans[ch]).fault = true)
    (hs : ∀ ch : OutCh, (s.out.chans[ch]).fault = false → (t.out.chans[ch]).fault = false) :
    failsafeCause t r = failsafeCause s r := by
  have e : ∀ ch : OutCh, (t.out.chans[ch]).fault = (s.out.chans[ch]).fault := fun ch => by
    cases h : (s.out.chans[ch]).fault
    · exact hs ch h
    · exact hf ch h
  rw [Bool.eq_iff_iff, failsafeCause_iff, failsafeCause_iff, hr, ht]
  simp only [e]

theorem failsafeCause_of {r : Ramp} {s t : State} (ht : t.tables = s.tables) (hr : t.ring.quiet = s.ring.quiet)
    (ho : t.out.chans = s.out.chans) : failsafeCause t r = failsafeCause s r := by
  rw [Bool.eq_iff_iff, failsafeCause_iff, failsafeCause_iff, hr, ht, ho]

/-- What a ramp's own turn leaves (R112): a source asserted where its cause stood, and in agreement with the cause. -/
theorem judgeTwice_asserted (r : Ramp) (s : State) :
    (failsafeCause s r = true →
      (((judgeFailsafe r (judgeFailsafe r s)).auth[r]).sources[(0 : Source)]).asserted = true)
    ∧ (((judgeFailsafe r (judgeFailsafe r s)).auth[r]).sources[(0 : Source)]).asserted
      = failsafeCause (judgeFailsafe r (judgeFailsafe r s)) r := by
  have k : ∀ t : State, failsafeCause t r = true → failsafeCause (judgeFailsafe r t) r = true := fun t =>
    cause_kept (judgeFailsafe_reach r t).tables (judgeFailsafe_one r t).side.ring (judgeFailsafe_reach r t).faults
  rw [judgeFailsafe_asserted]
  refine ⟨k s, ?_⟩
  have a := judgeFailsafe_asserted r s
  have ks := k s
  generalize judgeFailsafe r s = y at *
  cases c : failsafeCause y r
  · have : failsafeCause s r = false := by
      cases e : failsafeCause s r
      · rfl
      · rw [ks e] at c; cases c
    rw [judgeFailsafe_agreed (by rw [a, c, this]), c]
  · rw [k y c]

/-! ### FAILSAFE taken and released -/

theorem AuthUnit.refreshLower_upper (a : AuthUnit) (k : Source) (h : k.val < 2) :
    a.refreshLower.sources[k] = a.sources[k] := by
  have f : ∀ (b : AuthUnit) (j : Source), 2 ≤ j.val → (b.refresh j).sources[k] = b.sources[k] := fun b j hj => by
    unfold AuthUnit.refresh; rw [AuthUnit.setSource_get, if_neg]
    rintro rfl; omega
  unfold AuthUnit.refreshLower
  rw [f _ _ (by decide), f _ _ (by decide), f _ _ (by decide), f _ _ (by decide)]

/-- A unit whose FAILSAFE source stands grants it, whatever held before (R105, R109). -/
theorem AuthUnit.arbitrate_failsafe {a : AuthUnit} (rec : Source → Option ActionRec) (now : Nat)
    (h : (a.sources[(0 : Source)]).standing = true) (hg : a.holder = some 0 → a.granted = some .failsafe) :
    (a.arbitrate rec now).1.holder = some 0 ∧ (a.arbitrate rec now).1.granted = some .failsafe
    ∧ ((a.arbitrate rec now).1.sources[(0 : Source)]).standing = true := by
  have w : a.prune.winner = some 0 := AuthUnit.winner_of (by rw [AuthUnit.prune_standing]; exact h) fun k x => absurd x (Nat.not_lt_zero _)
  have p : a.prune.holder = a.holder ∧ a.prune.granted = a.granted := (AuthUnit.dropHolds_rest _ a).2
  unfold AuthUnit.arbitrate; dsimp only; rw [w]; dsimp only
  split
  · next e => rw [p.1] at e; exact ⟨p.1.trans e, p.2.trans (hg e), by rw [AuthUnit.prune_standing]; exact h⟩
  · next e =>
    have q : (a.prune.suspend.sources[(0 : Source)]).standing = true := by
      rw [(AuthUnit.suspend_source _ 0).1 e, AuthUnit.prune_standing]; exact h
    generalize a.prune.suspend = b at *
    unfold AuthUnit.grant; split <;> exact ⟨rfl, rfl, by rw [setSource_same]; exact q⟩

/-- A unit whose holder stands no more: the highest source that stands holds it, or none does (R105, R109). -/
theorem AuthUnit.arbitrate_released {a : AuthUnit} (rec : Source → Option ActionRec) (now : Nat) {h : Source}
    (hh : a.holder = some h) (hs : (a.sources[h]).standing = false) :
    (a.prune.winner = none ∧ (a.arbitrate rec now).1.holder = none ∧ (a.arbitrate rec now).1.granted = none)
    ∨ ∃ w : Source, w ≠ h ∧ a.prune.winner = some w ∧ (a.arbitrate rec now).1.holder = some w
      ∧ (a.arbitrate rec now).1.granted = some (grantedAction w (rec w)) := by
  have p : a.prune.holder = a.holder := (AuthUnit.dropHolds_rest _ a).2.1
  unfold AuthUnit.arbitrate; dsimp only
  cases w : a.prune.winner with
  | none => exact Or.inl ⟨rfl, rfl, rfl⟩
  | some w' =>
    have n : w' ≠ h := by
      rintro rfl
      have := (AuthUnit.winner_spec w).1
      rw [AuthUnit.prune_standing, hs] at this; cases this
    refine Or.inr ⟨w', n, rfl, ?_⟩
    dsimp only; rw [if_neg (by rw [p, hh]; simpa using n.symm)]
    unfold AuthUnit.grant; split <;> exact ⟨rfl, rfl⟩

theorem grantedAction_failsafe {k : Source} {rec : Option ActionRec} (h : k ≠ 0) : grantedAction k rec ≠ .failsafe := by
  unfold grantedAction; rw [if_neg h]
  rcases rec with _ | a
  · dsimp only; split <;> decide
  · dsimp only; cases a.kind <;> simp

theorem effectiveAction_failsafe {s : State} {r : Ramp} :
    effectiveAction s r = .failsafe ↔ (s.auth[r]).granted = some .failsafe := by
  unfold effectiveAction
  generalize (s.auth[r]).granted = g
  rcases g with _ | g
  · simp
  · cases g <;> simp
    split <;> simp

/-- A standing that changes is a decision point (R103, R104). -/
theorem sourceChanged_of {r : Ramp} {k : Source} {s : State} (ho : (s.ramps[r]).state ≠ .off)
    (hm : (s.ramps[r]).state ≠ .metering ∨ k.val < 2)
    (h : ((s.auth[r]).sources[k]).standing ≠ ((s.auth[r]).sources[k]).eligible) :
    sourceChanged r k s = decisionPoint r (s.setAuth r ((s.auth[r]).refresh k)) := by
  unfold sourceChanged
  rw [if_neg ho, if_neg (fun x => hm.elim (absurd x.1) fun y => absurd x.2 (by omega)), if_neg h]

/-- FAILSAFE takes a ramp that stands apart (R74, R112). -/
theorem failsafe_takes (r : Ramp) (x u : State) (hA : x.tables.Apart) (hc : failsafeCause x r = true)
    (hn : ((x.auth[r]).sources[(0 : Source)]).asserted = false) (ha : ((x.auth[r]).sources[(0 : Source)]).armed = true)
    (hp : ((x.auth[r]).sources[(0 : Source)]).spent = false) (hs : ((x.auth[r]).sources[(0 : Source)]).standing = false)
    (hh : (x.auth[r]).holder ≠ some 0) (ho : (x.ramps[r]).state ≠ .off) (hu : u = judgeFailsafe r x) :
    (u.auth[r]).holder = some 0 ∧ (u.auth[r]).granted = some .failsafe ∧ (u.ramps[r]).attention = true
    ∧ ((x.ramps[r]).state = .standby ∨ (x.ramps[r]).state = .darkFail → (u.ramps[r]).state = (x.ramps[r]).state)
    ∧ ((x.ramps[r]).state ≠ .standby → (x.ramps[r]).state ≠ .darkFail →
        Entered r .darkFail .stopped u ∧ u.lanes = (orderDark r x).lanes ∧ HeadsShow r u
        ∧ ((x.ramps[r]).state = .metering → NoSlot r u)) := by
  have e0 : (((x.auth[r]).setAsserted 0 true).sources[(0 : Source)]).eligible = true
      ∧ (((x.auth[r]).setAsserted 0 true).sources[(0 : Source)]).standing = false := by
    unfold AuthUnit.setAsserted; rw [setSource_same]
    unfold SourceRec.eligible
    generalize (x.auth[r]).sources[(0 : Source)] = y at *
    cases y; simp_all
  have g : ∃ A : AuthUnit, (A.sources[(0 : Source)]).standing = true ∧ A.holder = (x.auth[r]).holder
      ∧ judgeFailsafe r x = decisionPoint r (x.setAuth r A) := by
    refine ⟨((x.auth[r]).setAsserted 0 true).refresh 0, ?_, rfl, ?_⟩
    · unfold AuthUnit.refresh; rw [setSource_same]; exact e0.1
    · unfold judgeFailsafe setAsserted
      rw [hc, if_neg (by rw [hn]; decide), expireFirst_true]
      unfold changeAsserted
      have ya : (x.setAuth r ((x.auth[r]).setAsserted 0 true)).auth[r] = (x.auth[r]).setAsserted 0 true := by
        rw [State.setAuth_auth, vset_same]
      rw [sourceChanged_of (by exact ho) (Or.inr (by decide)) (by rw [ya, e0.1, e0.2]; decide), ya, setAuth_setAuth]
  obtain ⟨A, hA1, hA2, hu'⟩ := g
  rw [hu'] at hu
  clear hu' e0 hc hn ha hp hs
  have hf := AuthUnit.arbitrate_failsafe (a := A) (actionRec x.tables r) x.time.corridor hA1 (fun e => absurd (hA2 ▸ e) hh)
  have ya : (x.setAuth r A).auth[r] = A := by rw [State.setAuth_auth, vset_same]
  have yl : (orderDark r (x.setAuth r A)).lanes = (orderDark r x).lanes := by
    unfold orderDark; exact orderLanes_congr _ r rfl rfl rfl
  have yA : (x.setAuth r A).tables.Apart := hA
  have ys : (x.setAuth r A).ramps[r] = x.ramps[r] := rfl
  have yt : (x.setAuth r A).tables = x.tables := rfl
  have yc : (x.setAuth r A).time = x.time := rfl
  rw [← ya, ← yt, ← yc] at hf
  rw [← ys, ← yl]
  rw [← ys] at ho
  have yh : ((x.setAuth r A).auth[r]).holder ≠ some 0 := by rw [ya, hA2]; exact hh
  clear ys yl yt yc ya hA1 hA2 hh hA
  generalize x.setAuth r A = y at *
  have hd := decisionPoint_handed (r := r) (s := y) rfl (Or.inr (by rw [hf.1]; exact yh.symm))
  have J := judgedResult_spec r y _ _ rfl rfl
  have at' := J.2.2.2.2.2.2.2.2.2 (by rw [hf.1]; exact yh.symm)
  rw [hd] at hu
  generalize judge r (arbitrateRamp r y).1 = v at *
  obtain ⟨ja, jl, jo, jr, jv, jt, jd, jc, jm, _⟩ := J
  have vs : (v.ramps[r]).state = (y.ramps[r]).state := by rw [jm]
  have ve : effectiveAction v r = .failsafe := effectiveAction_failsafe.2 (by rw [ja]; exact hf.2.1)
  have vl : (orderDark r v).lanes = (orderDark r y).lanes := by unfold orderDark; exact orderLanes_congr _ r jl jt jd
  rw [← ja] at hf
  rw [← vs, ← vl]
  rw [← vs] at ho
  have vA : v.tables.Apart := by rw [jt]; exact yA
  clear vl vs jm jt jd jc jl jo jr jv ja hd yh yA
  have att : (u.ramps[r]).attention = true := by rw [hu]; exact (takeResult_side r _ v).attention r at'
  by_cases hs : (v.ramps[r]).state = .standby
  · rw [takes_standby hs, (standbyActs_spec r v).2.2.2.2.2.2 (by unfold startDemand; rw [ve]; rfl)] at hu
    subst hu
    exact ⟨hf.1, hf.2.1, att, fun _ => rfl, fun n => absurd hs n⟩
  · by_cases hd : (v.ramps[r]).state = .darkFail
    · rw [takes_dark hd, if_pos ve] at hu
      subst hu
      exact ⟨hf.1, hf.2.1, att, fun _ => rfl, fun _ n => absurd hd n⟩
    · rw [takes_failsafe ve ho hs hd] at hu
      have D := enterDarkFail_spec r v
      have H : (u.auth[r]).holder = some 0 ∧ (u.auth[r]).granted = some .failsafe := by
        by_cases m : (v.ramps[r]).state = .metering
        · obtain ⟨_, w, wa, wt, wc, wu⟩ := enterDarkFail_unit r v m _ rfl
          have z := arbitrateAfterMetering_auth r w _ wa.symm
          rw [hu, wu]
          by_cases c : ∀ k : Source, 2 ≤ k.val → ((v.auth[r]).sources[k]).standing = (((v.auth[r]).sources[k]).asserted
              && ((v.auth[r]).sources[k]).armed && !((v.auth[r]).sources[k]).spent)
          · rw [z.1 c]; exact ⟨hf.1, hf.2.1⟩
          · rw [z.2 (by simpa using c)]
            have q := AuthUnit.arbitrate_failsafe (a := (v.auth[r]).refreshLower) (actionRec w.tables r) w.time.corridor
              (by rw [AuthUnit.refreshLower_upper _ _ (by decide)]; exact hf.2.2) fun _ => hf.2.1
            exact ⟨q.1, q.2.1⟩
        · have q : u.auth = v.auth := by
            rw [hu]; unfold enterDarkFail; dsimp only; rw [if_neg (by simpa using m)]
            rw [(orderDark_side r _).auth, (enter_rest r .darkFail none .stopped v).2.1]
          exact ⟨(congrArg (fun m => (m[r]).holder) q).trans hf.1, (congrArg (fun m => (m[r]).granted) q).trans hf.2.1⟩
      subst hu
      exact ⟨H.1, H.2, att, fun k => (k.elim hs hd).elim, fun _ _ => ⟨D.1, D.2.1, D.2.2 vA, fun m => (enterDarkFail_unit r v m _ rfl).1⟩⟩

/-- What a ramp is left with when its FAILSAFE source has ceased to stand. -/
structure Released (r : Ramp) (x u : State) : Prop where
  unit : (u.auth[r]).holder ≠ some 0
  vacant : ((x.ramps[r]).mode = .auto ∨ (x.ramps[r]).state = .standby) →
    (∀ k : Source, k ≠ 0 → ((x.auth[r]).sources[k]).standing = false) →
    (u.auth[r]).holder = none ∧ (u.auth[r]).granted = none
  next : ((x.ramps[r]).mode = .auto ∨ (x.ramps[r]).state = .standby) →
    ∀ w : Source, w ≠ 0 → ((x.auth[r]).sources[w]).standing = true →
      (∀ k : Source, k ≠ 0 → k < w → ((x.auth[r]).sources[k]).standing = false) →
      (u.auth[r]).holder = some w ∧ (u.auth[r]).granted = some (grantedAction w (actionRec x.tables r w))
  off : (x.ramps[r]).state = .darkFail → (x.ramps[r]).mode = .off →
    Entered r .off .stopped u ∧ (u.auth[r]).holder = none ∧ (u.auth[r]).stack = []
  auto : ((x.ramps[r]).mode = .auto ∨ (x.ramps[r]).state = .standby) →
    (startDemand u r = true → Entered r .warn (.running 0) u)
    ∧ (startDemand u r = false → (u.ramps[r]).state = .standby)
    ∧ ((x.ramps[r]).state = .darkFail → startDemand u r = false → Entered r .standby .stopped u)

/-- A decision point of a ramp in STANDBY or DARK_FAIL whose holder FAILSAFE stands no more (R74, R105). -/
theorem failsafe_released (r : Ramp) (x : State) (A : AuthUnit)
    (hs : (A.sources[(0 : Source)]).standing = false) (hk : ∀ k : Source, k ≠ 0 → A.sources[k] = (x.auth[r]).sources[k])
    (hh : A.holder = some 0) (hst : (x.ramps[r]).state = .darkFail ∨ (x.ramps[r]).state = .standby) :
    Released r x (decisionPoint r (x.setAuth r A)) := by
  have R := AuthUnit.arbitrate_released (actionRec x.tables r) x.time.corridor hh hs
  have ya : (x.setAuth r A).auth[r] = A := by rw [State.setAuth_auth, vset_same]
  obtain ⟨a, ha⟩ : ∃ a, a = (A.arbitrate (actionRec x.tables r) x.time.corridor).1 := ⟨_, rfl⟩
  rw [← ha] at R
  have hne : a.holder = none
      ∨ a.holder ≠ A.holder := by
    rcases R with ⟨_, e, _⟩ | ⟨w, n, _, e, _⟩
    · exact Or.inl e
    · exact Or.inr (by rw [e, hh]; simpa using n)
  have hne0 : a.holder ≠ some 0 := by
    rcases R with ⟨_, e, _⟩ | ⟨w, n, _, e, _⟩
    · rw [e]; decide
    · rw [e]; simpa using n
  have hgf : a.granted ≠ some .failsafe := by
    rcases R with ⟨_, _, e⟩ | ⟨w, n, _, _, e⟩
    · rw [e]; decide
    · rw [e]; simpa using grantedAction_failsafe n
  have vac : (∀ k : Source, k ≠ 0 → ((x.auth[r]).sources[k]).standing = false) →
      a.holder = none
      ∧ a.granted = none := by
    intro v
    rcases R with ⟨_, e, g⟩ | ⟨w, n, p, _, _⟩
    · exact ⟨e, g⟩
    · have := (AuthUnit.winner_spec p).1
      rw [AuthUnit.prune_standing, hk w n, v w n] at this; cases this
  have nxt : ∀ w : Source, w ≠ 0 → ((x.auth[r]).sources[w]).standing = true →
      (∀ k : Source, k ≠ 0 → k < w → ((x.auth[r]).sources[k]).standing = false) →
      a.holder = some w
      ∧ a.granted = some (grantedAction w (actionRec x.tables r w)) := by
    intro w n hw hl
    rcases R with ⟨p, _, _⟩ | ⟨j, nj, p, e, g⟩
    · have := (List.find?_eq_none.1 p) w (List.mem_finRange w)
      rw [AuthUnit.prune_standing, hk w n, hw] at this; exact absurd rfl this
    · have q := AuthUnit.winner_spec p
      have le : j ≤ w := q.2 w (by rw [AuthUnit.prune_standing, hk w n]; exact hw)
      have : j = w := by
        by_contra ne
        have := hl j nj (lt_of_le_of_ne le ne)
        have q1 := q.1
        rw [AuthUnit.prune_standing, hk j nj, this] at q1; cases q1
      subst this; exact ⟨e, g⟩
  have ha' : a = (((x.setAuth r A).auth[r]).arbitrate (actionRec (x.setAuth r A).tables r)
      (x.setAuth r A).time.corridor).1 := by rw [ya]; exact ha
  have hd := decisionPoint_handed ha' (by rw [ya]; exact hne)
  have J := judgedResult_spec r (x.setAuth r A) a _ ha' rfl
  generalize judge r (arbitrateRamp r (x.setAuth r A)).1 = v at *
  obtain ⟨ja, jl, jo, jr, jv, jt, jd, jc, jm, _⟩ := J
  rw [hd]
  have vs : (v.ramps[r]).state = (x.ramps[r]).state := (congrArg RampCtx.state jm).trans rfl
  have vm : (v.ramps[r]).mode = (x.ramps[r]).mode := (congrArg RampCtx.mode jm).trans rfl
  have ve : effectiveAction v r ≠ .failsafe := fun e => hgf (by rw [← ja]; exact effectiveAction_failsafe.1 e)
  rw [← ja] at hne0 vac nxt
  generalize standingAction (x.setAuth r A) r = old
  clear hne hd R ya ha ha' hgf jm jd jc jl jo jr jv ja jt hs hk hh
  by_cases h : (x.ramps[r]).state = .standby
  · have q := standbyActs_spec r v
    rw [takes_standby (vs.trans h)]
    generalize standbyActs r v = u at *
    refine ⟨by rw [q.2.2.2.1]; exact hne0, fun _ => by rw [q.2.2.2.1]; exact vac, fun _ => by rw [q.2.2.2.1]; exact nxt,
      fun k => absurd (h ▸ k) (by decide), fun _ => ⟨fun d => ?_, fun d => ?_, fun k => absurd (h ▸ k) (by decide)⟩⟩
    · exact q.2.2.2.2.2.1 (by rw [← q.2.1]; exact d)
    · rw [q.2.2.2.2.2.2 (by rw [← q.2.1]; exact d)]; exact vs.trans h
  · have hk := hst.resolve_right h
    rw [(takes_starting ve).2.2.2 (Or.inl (vs.trans hk))]
    unfold enterOffOrStandby; rw [vm]
    cases m : (x.ramps[r]).mode with
    | off =>
      have q := enterOff_spec r v
      rw [if_pos rfl]
      generalize enterOff r v = u at *
      have e : (u.auth[r]).holder = none ∧ (u.auth[r]).stack = [] := by rw [q.2.2.1]; exact ⟨rfl, rfl⟩
      have no : ¬((x.ramps[r]).mode = .auto ∨ (x.ramps[r]).state = .standby) := by rw [m, hk]; decide
      exact ⟨by rw [e.1]; decide, fun k => absurd k no, fun k => absurd k no, fun _ _ => ⟨q.1, e⟩, fun k => absurd k no⟩
    | auto =>
      have q := enterStandby_spec r v
      rw [if_neg (by decide)]
      generalize enterStandby r v = u at *
      refine ⟨by rw [q.2.1]; exact hne0, fun _ => by rw [q.2.1]; exact vac, fun _ => by rw [q.2.1]; exact nxt,
        fun _ k => absurd (m ▸ k) (by decide), fun _ => ⟨fun d => ?_, fun d => ?_, fun _ d => ?_⟩⟩
      · exact q.2.2.2.1 (by rw [← q.2.2.1]; exact d)
      · exact (q.2.2.2.2 (by rw [← q.2.2.1]; exact d)).state
      · exact q.2.2.2.2 (by rw [← q.2.2.1]; exact d)

/-- What follows and leaves the ramp. -/
theorem Released.kept {r : Ramp} {x u t : State} (a : Released r x u) (ha : t.auth[r] = u.auth[r])
    (hs : (t.ramps[r]).state = (u.ramps[r]).state) (hd : startDemand t r = startDemand u r)
    (he : ∀ st tm, Entered r st tm u → Entered r st tm t) : Released r x t := by
  have ax := a.auto
  rw [← hd, ← hs] at ax
  exact ⟨ha ▸ a.unit, ha ▸ a.vacant, ha ▸ a.next, fun h m => ⟨he _ _ (a.off h m).1, ha ▸ (a.off h m).2⟩,
    fun m => ⟨fun k => he _ _ ((ax m).1 k), (ax m).2.1, fun k n => he _ _ ((ax m).2.2 k n)⟩⟩

/-- What went before and left the ramp. -/
theorem Released.after {r : Ramp} {s x u : State} (a : Released r x u) (b : Beside r s x) : Released r s u := by
  have hs : (x.ramps[r]).state = (s.ramps[r]).state := b.away.same.field (·.state) fun _ => rfl
  have hm : (x.ramps[r]).mode = (s.ramps[r]).mode := b.away.same.field (·.mode) fun _ => rfl
  refine ⟨a.unit, ?_, ?_, ?_, ?_⟩ <;> rw [← hs, ← hm]
  · rw [← b.away.auth]; exact a.vacant
  · rw [← b.away.auth, ← b.away.side.tables]; exact a.next
  · exact a.off
  · exact a.auto

/-- The end of an event leaves what the ramp was brought to. -/
theorem endEvent_entered {r : Ramp} {st : RampState} {tm : Timer} {s : State} (h : Entered r st tm (settle s)) :
    Entered r st tm (endEvent s) := by
  have e := endEvent_settled s
  exact h.kept e.2.2.2.2.2.1 (by rw [e.1]) (by rw [e.1]; exact id) fun ch _ k => by rw [e.2.2.2.2.2.2.2.1]; exact k

theorem endEvent_demand (r : Ramp) (s : State) : effectiveAction (endEvent s) r = effectiveAction (settle s) r
    ∧ startDemand (endEvent s) r = startDemand (settle s) r ∧ stopDemand (endEvent s) r = stopDemand (settle s) r := by
  have e := endEvent_settled s
  exact demand_congr e.2.2.2.2.2.1 (by rw [e.2.2.1]) (by rw [e.1]) (by rw [e.1])

theorem endEvent_heads {r : Ramp} {s : State} (h : HeadsShow r (settle s)) : HeadsShow r (endEvent s) := by
  have e := endEvent_settled s
  exact h.kept e.2.2.2.2.2.1 e.2.1 fun ch _ => by rw [e.2.2.2.2.2.2.2.1]

theorem Beside.noSlot {r : Ramp} {s t : State} (a : Beside r s t) (h : NoSlot r s) : NoSlot r t := by
  unfold NoSlot at *
  have e : (t.ramps[r]).slot = (s.ramps[r]).slot := a.away.same.field RampCtx.slot fun _ => rfl
  unfold RampCtx.slot at e
  simp only [Prod.mk.injEq] at e
  rw [e.1, e.2.1, e.2.2.1, e.2.2.2.1, e.2.2.2.2.1, e.2.2.2.2.2, a.away.rate]; exact h

theorem endEvent_noSlot {r : Ramp} {s : State} (h : NoSlot r (settle s)) : NoSlot r (endEvent s) := by
  have e := endEvent_settled s
  unfold NoSlot at *
  rw [e.1, e.2.2.2.1]; exact h

/-- A mark of the released source itself changes nothing of this. -/
theorem Released.marked {r : Ramp} {x u : State} (a : Released r x u) (y : SourceRec) :
    Released r x (u.setAuth r ((u.auth[r]).setSource 0 y)) := by
  have g : (u.setAuth r ((u.auth[r]).setSource 0 y)).auth[r] = (u.auth[r]).setSource 0 y := by
    rw [State.setAuth_auth, vset_same]
  have d := demand_congr (r := r) (s := u) (t := u.setAuth r ((u.auth[r]).setSource 0 y)) rfl
    (by rw [g]; rfl) rfl rfl
  have e : ∀ st tm, Entered r st tm u → Entered r st tm (u.setAuth r ((u.auth[r]).setSource 0 y)) := fun st tm h =>
    ⟨h.state, h.phase, h.timer, h.attention, h.beacon⟩
  have ax := a.auto
  rw [← d.2.1] at ax
  refine ⟨?_, ?_, ?_, fun h m => ⟨e _ _ (a.off h m).1, ?_⟩,
    fun m => ⟨fun k => e _ _ ((ax m).1 k), (ax m).2.1, fun k n => e _ _ ((ax m).2.2 k n)⟩⟩
  all_goals rw [g]
  · exact a.unit
  · exact a.vacant
  · exact a.next
  · exact (a.off h m).2

/-- FAILSAFE lets go of a ramp (R74, R112). -/
theorem failsafe_releases (r : Ramp) (x : State) (hc : failsafeCause x r = false)
    (hn : ((x.auth[r]).sources[(0 : Source)]).asserted = true) (hs : ((x.auth[r]).sources[(0 : Source)]).standing = true)
    (hh : (x.auth[r]).holder = some 0) (hst : (x.ramps[r]).state = .darkFail ∨ (x.ramps[r]).state = .standby) :
    Released r x (judgeFailsafe r x) := by
  have ho : (x.ramps[r]).state ≠ .off ∧ (x.ramps[r]).state ≠ .metering := by
    rcases hst with h | h <;> rw [h] <;> decide
  have ot : ∀ (y : SourceRec) (k : Source), k ≠ 0 → ((x.auth[r]).setSource 0 y).sources[k] = (x.auth[r]).sources[k] :=
    fun y k n => by rw [AuthUnit.setSource_get, if_neg n.symm]
  unfold judgeFailsafe setAsserted
  rw [hc, if_neg (by rw [hn]; decide)]
  unfold expireFirst
  cases z : (x.auth[r]).holdAtZero 0 with
  | false =>
    rw [if_neg (by simp)]
    unfold changeAsserted
    have ya : (x.setAuth r ((x.auth[r]).setAsserted 0 false)).auth[r] = (x.auth[r]).setAsserted 0 false := by
      rw [State.setAuth_auth, vset_same]
    have e0 : ((((x.auth[r]).setAsserted 0 false).sources[(0 : Source)]).standing = true)
        ∧ ((((x.auth[r]).setAsserted 0 false).sources[(0 : Source)]).eligible = false) := by
      unfold AuthUnit.setAsserted; rw [setSource_same]; exact ⟨hs, rfl⟩
    rw [sourceChanged_of (by exact ho.1) (Or.inl (by exact ho.2)) (by rw [ya, e0.1, e0.2]; decide), ya, setAuth_setAuth]
    refine failsafe_released r x _ ?_ (fun k n => ?_) hh hst
    · unfold AuthUnit.refresh; rw [setSource_same]; exact e0.2
    · unfold AuthUnit.refresh AuthUnit.setAsserted; rw [setSource_setSource]; exact ot _ k n
  | true =>
    rw [if_pos (by rfl)]
    have w := holdExpired_source hh
    have R : Released r x (holdExpired r x) := by
      unfold holdExpired; rw [hh]; dsimp only
      refine failsafe_released r x _ ?_ (fun k n => ?_) hh hst
      · unfold AuthUnit.expireHold; rw [setSource_same]
      · unfold AuthUnit.expireHold; exact ot _ k n
    generalize holdExpired r x = u at *
    have e : changeAsserted r 0 false u = u.setAuth r ((u.auth[r]).setAsserted 0 false) := by
      unfold changeAsserted sourceChanged; split
      · rfl
      · split
        · rfl
        · rw [if_pos]
          rw [State.setAuth_auth, vset_same]
          unfold AuthUnit.setAsserted; rw [setSource_same]; exact w.2.1
    rw [e]; exact R.marked _

end Sys2Proof.Machine
end

