-- ==== Sys2Proof/Laws/Window.lean ====
section
/-! SUPPORT. What a window close leaves: the counts rolled over, each ramp's selection and its Rate Unit's record. -/

namespace Sys2Proof.Machine

/-! ### One ramp's selection and record, carried past what does not concern them -/

/-- Across an event that is none of a ramp's own close: its slot counts and a standing attention stay; OFF stays OFF with
its selection; a ramp left in use was in use, its selection and its conditions as they were; one left METERING was
METERING, with its slot and the Rate Unit's record as they were, and one that has left METERING has that record reset. -/
structure Carried (r : Ramp) (s t : State) : Prop where
  attention : (s.ramps[r]).attention = true → (t.ramps[r]).attention = true
  slots : (t.ramps[r]).slotCount = (s.ramps[r]).slotCount ∧ (t.ramps[r]).lastSlotCount = (s.ramps[r]).lastSlotCount
  off : (s.ramps[r]).state = .off → (t.ramps[r]).state = .off ∧ (t.ramps[r]).selection = (s.ramps[r]).selection
    ∧ t.vectors[r] = s.vectors[r]
  selection : (t.ramps[r]).state ≠ .off → (s.ramps[r]).state ≠ .off
    ∧ (t.ramps[r]).selection = (s.ramps[r]).selection ∧ t.vectors[r] = s.vectors[r]
  metering : (t.ramps[r]).state = .metering → (s.ramps[r]).state = .metering ∧ (t.ramps[r]).slot = (s.ramps[r]).slot
    ∧ t.rate[r] = s.rate[r]
  left : (s.ramps[r]).state = .metering → (t.ramps[r]).state ≠ .metering → t.rate[r] = RateRec.reset
  rate : (s.ramps[r]).state ≠ .metering → t.rate[r] = s.rate[r]

theorem OneRamp.carried {r : Ramp} {s t : State} (a : OneRamp r s t) : Carried r s t :=
  ⟨a.side.attention r, a.slots, a.off, a.selection, a.metering, a.left, a.rate⟩

theorem slot_adopted {c d : RampCtx} (h : c.slot = d.slot) : c.adopted = d.adopted := congrArg (·.1) h

namespace Carried

theorem trans {r : Ramp} {s t u : State} (a : Carried r s t) (b : Carried r t u) : Carried r s u where
  attention h := b.attention (a.attention h)
  slots := ⟨b.slots.1.trans a.slots.1, b.slots.2.trans a.slots.2⟩
  off h := by
    have x := a.off h
    have y := b.off x.1
    exact ⟨y.1, y.2.1.trans x.2.1, y.2.2.trans x.2.2⟩
  selection h := by
    have y := b.selection h
    have x := a.selection y.1
    exact ⟨x.1, y.2.1.trans x.2.1, y.2.2.trans x.2.2⟩
  metering h := by
    have y := b.metering h
    have x := a.metering y.1
    exact ⟨x.1, y.2.1.trans x.2.1, y.2.2.trans x.2.2⟩
  left h h' := by
    by_cases k : (t.ramps[r]).state = .metering
    · exact b.left k h'
    · rw [b.rate k]; exact a.left h k
  rate h := by
    have k : (t.ramps[r]).state ≠ .metering := fun e => h (a.metering e).1
    rw [b.rate k]; exact a.rate h

/-- A ramp's context at most marked for attention, its conditions and its Rate Unit's record as they were. -/
theorem of {r : Ramp} {s t : State} (a : SameRamp s t r) (v : t.vectors[r] = s.vectors[r]) (x : t.rate[r] = s.rate[r]) :
    Carried r s t := by
  have st : (t.ramps[r]).state = (s.ramps[r]).state := a.field (·.state) fun _ => rfl
  refine ⟨fun h => ?_, ⟨a.field (·.slotCount) fun _ => rfl, a.field (·.lastSlotCount) fun _ => rfl⟩,
    fun h => ⟨st.trans h, a.field RampCtx.selection fun _ => rfl, v⟩,
    fun h => ⟨st ▸ h, a.field RampCtx.selection fun _ => rfl, v⟩,
    fun h => ⟨st ▸ h, a.field RampCtx.slot fun _ => rfl, x⟩, fun h h' => absurd (st.trans h) h', fun _ => x⟩
  rcases a with e | e <;> rw [e]
  exact h

end Carried

theorem Elsewhere.carried {r : Ramp} {s t : State} (a : Elsewhere r s t) : Carried r s t := .of a.same a.vector a.rate

theorem LaneSide.carried {s t : State} (a : LaneSide s t) (r : Ramp) : Carried r s t :=
  .of (a.ramps r) (by rw [a.vectors]) (by rw [a.rate])

/-! ### The chatter judgement announced -/

theorem judgeChatter_filtered (d : Option DetRec) (c : DetState) : (judgeChatter d c).filtered = c.filtered := by
  unfold judgeChatter
  split
  · rfl
  · split
    · split <;> rfl
    · split <;> rfl
    all_goals rfl

/-- Where no filtered presence has changed, a lane hears no passage and counts nothing. -/
theorem laneHears_counts (before : State) (l : Lane) (s : State)
    (h : ∀ ch : Channel, (s.det.chans[ch]).filtered = (before.det.chans[ch]).filtered) (k : Lane) :
    ((laneHears before l s).lanes[k]).counts = (s.lanes[k]).counts
    ∧ ((laneHears before l s).lanes[k]).last = (s.lanes[k]).last := by
  by_cases e : k = l
  · subst e
    match hc : s.tables.laneCfg[k] with
    | none => unfold laneHears; rw [hc]; exact ⟨rfl, rfl⟩
    | some c =>
      rw [(laneHears_get before hc _ rfl).1, if_neg]
      · unfold laneDemand; repeat' split
        all_goals exact ⟨rfl, rfl⟩
      · rintro ⟨p, _, h1, h2, _⟩
        rw [h p, h1] at h2; cases h2
  · rw [laneHears_other e]; exact ⟨rfl, rfl⟩

/-- An announcement of changed healths: no lane counts, and each ramp's selection and record are carried. -/
theorem announce_carried (before s : State)
    (h : ∀ ch : Channel, (s.det.chans[ch]).filtered = (before.det.chans[ch]).filtered) :
    (∀ k : Lane, ((announce before s).lanes[k]).counts = (s.lanes[k]).counts
      ∧ ((announce before s).lanes[k]).last = (s.lanes[k]).last)
    ∧ ∀ r : Ramp, Carried r s (announce before s) := by
  have counts : ∀ (ls : List Lane) (t : State), t.det = s.det → ∀ k : Lane,
      ((forEach ls (laneHears before) t).lanes[k]).counts = (t.lanes[k]).counts
      ∧ ((forEach ls (laneHears before) t).lanes[k]).last = (t.lanes[k]).last := by
    intro ls
    induction ls with
    | nil => exact fun t _ k => ⟨rfl, rfl⟩
    | cons a ls ih =>
      intro t ht k
      have i := ih (laneHears before a t) ((laneHears_side before a t).det.trans ht) k
      have c := laneHears_counts before a t (fun ch => by rw [ht]; exact h ch) k
      exact ⟨i.1.trans c.1, i.2.trans c.2⟩
  have x := counts (List.finRange 12) s rfl
  have sd : LaneSide s (forEach (List.finRange 12) (laneHears before) s) := .forEach _ _ (laneHears_side before) s
  unfold announce reviewSpillback
  generalize forEach (List.finRange 12) (laneHears before) s = t at *
  have y : (reviewOnTimers t).lanes = t.lanes ∧ (reviewOnTimers t).ramps = t.ramps
      ∧ (reviewOnTimers t).vectors = t.vectors ∧ (reviewOnTimers t).rate = t.rate := by
    unfold reviewOnTimers; exact ⟨rfl, rfl, rfl, rfl⟩
  generalize reviewOnTimers t = o at *
  have z := forRamps_at (f := reviewClear) (fun q r t h => (reviewClear_one q t).elsewhere h) o
  refine ⟨fun k => ?_, fun r => ?_⟩
  · obtain ⟨w, a, b⟩ := z 0
    have c := (reviewClear_one 0 w).counts k
    rw [(b.counts k).1, (b.counts k).2, c.1, c.2, (a.counts k).1, (a.counts k).2, y.1]
    exact x k
  · obtain ⟨w, a, b⟩ := z r
    refine (sd.carried r).trans (Carried.trans ?_ (a.carried.trans ((reviewClear_one r w).carried.trans b.carried)))
    exact .of (Or.inl (by rw [y.2.1])) (by rw [y.2.2.1]) (by rw [y.2.2.2])

/-- The Detector Unit's record written: nothing of a ramp moves. -/
theorem setDet_carried (r : Ramp) (s : State) (d : DetUnit) : Carried r s { s with det := d } :=
  .of (.refl s r) rfl rfl

/-- The chatter judgement counts nothing and carries each ramp's selection and record. -/
theorem chatterStep_carried (s : State) : (∀ k : Lane, ((chatterStep s).lanes[k]).counts = (s.lanes[k]).counts
      ∧ ((chatterStep s).lanes[k]).last = (s.lanes[k]).last)
    ∧ (∀ r : Ramp, Carried r s (chatterStep s)) ∧ (chatterStep s).tables = s.tables := by
  unfold chatterStep
  have e : ∀ ch : Channel, ((vmap (fun ch c => judgeChatter s.tables.detMap[ch] c) s.det.chans)[ch]).filtered
      = (s.det.chans[ch]).filtered := fun ch => by rw [vmap_get, judgeChatter_filtered]
  generalize vmap (fun ch c => judgeChatter s.tables.detMap[ch] c) s.det.chans = v at *
  have y := (announce_side s { s with det := { s.det with chans := v } }).tables
  have z := fun r : Ramp => setDet_carried r s { s.det with chans := v }
  have x := announce_carried s { s with det := { s.det with chans := v } } e
  generalize announce s { s with det := { s.det with chans := v } } = t at *
  exact ⟨x.1, fun r => (z r).trans (x.2 r), y⟩

/-- The publication and the roll-over: nothing of a ramp moves but its slot counts (R19, R75, R100). -/
theorem rollCounts_spec (s : State) : (rollCounts (publishStep s)).tables = s.tables
    ∧ (rollCounts (publishStep s)).vectors = s.vectors ∧ (rollCounts (publishStep s)).rate = s.rate
    ∧ (∀ r : Ramp, (rollCounts (publishStep s)).ramps[r]
      = { s.ramps[r] with lastSlotCount := (s.ramps[r]).slotCount, slotCount := 0 })
    ∧ ∀ l : Lane, (rollCounts (publishStep s)).lanes[l] = rollLane s.lanes[l] := by
  unfold rollCounts publishStep; dsimp only
  refine ⟨rfl, rfl, rfl, fun r => ?_, fun l => ?_⟩ <;> rw [vmap_get]

/-! ### Conditions and the Match Table -/

/-- A condition's value is read from the published results alone. -/
theorem conditionValue_congr {s t : State} (h : t.det = s.det) (rec : Option CondRec) (prev : Bool) :
    conditionValue t rec prev = conditionValue s rec prev := by
  unfold conditionValue measure validListed; rw [h]

/-- A set entry matches when every condition it cares for has its match value (R32). -/
theorem entryMatches_iff (m : MatchRec) (v : Vector Bool 16) : entryMatches m v = true ↔
    ∀ c : Fin 16, m.care.getLsbD c.val = true → m.value.getLsbD c.val = v[c] := by
  unfold entryMatches
  simp only [List.all_eq_true, List.mem_finRange, forall_const, Bool.or_eq_true, Bool.not_eq_true', beq_iff_eq]
  refine forall_congr' fun c => ⟨fun h h' => ?_, fun h => ?_⟩
  · rcases h with h | h
    · rw [h] at h'; cases h'
    · exact h
  · cases e : m.care.getLsbD c.val with
    | false => exact Or.inl rfl
    | true => exact Or.inr (h e)

/-- The first position whose set entry passes a test. -/
theorem findSome_first {n : Nat} {α : Type} (g : Fin n → Option α) (i : Fin n) (a : α) (h : g i = some a)
    (hn : ∀ j < i, g j = none) : (List.finRange n).findSome? g = some a := by
  rw [List.findSome?_eq_some_iff]
  refine ⟨(List.finRange n).take i.val, i, (List.finRange n).drop (i.val + 1), ?_, h, fun j hj => ?_⟩
  · have e := List.take_append_drop i.val (List.finRange n)
    have hi : i.val < (List.finRange n).length := by rw [List.length_finRange]; exact i.isLt
    rw [List.drop_eq_getElem_cons hi, List.getElem_finRange] at e
    exact e.symm
  · obtain ⟨k, hk, rfl⟩ := List.mem_take_iff_getElem.1 hj
    refine hn _ ?_
    rw [List.getElem_finRange]
    exact Nat.lt_of_lt_of_le hk (Nat.min_le_left _ _)

/-- The winning entry is the first set entry that matches (R32). -/
theorem winningEntry_first {t : Tables} {r : Ramp} {v : Vector Bool 16} {i : Fin 12} {m : MatchRec}
    (h : matchRec t r i = some m) (hm : entryMatches m v = true)
    (hn : ∀ (j : Fin 12) (o : MatchRec), j < i → matchRec t r j = some o → ¬ entryMatches o v = true) :
    winningEntry t r v = some m := by
  refine findSome_first _ i m (by rw [h]; exact if_pos hm) fun j hj => ?_
  cases e : matchRec t r j with
  | none => rfl
  | some o => exact if_neg (hn j o hj e)

theorem winningEntry_none {t : Tables} {r : Ramp} {v : Vector Bool 16}
    (hn : ∀ (j : Fin 12) (o : MatchRec), matchRec t r j = some o → ¬ entryMatches o v = true) :
    winningEntry t r v = none := by
  unfold winningEntry
  rw [List.findSome?_eq_none_iff]
  intro j _
  cases e : matchRec t r j with
  | none => rfl
  | some o => exact if_neg (hn j o e)

/-! ### Selection -/

theorem actOnDemand_elsewhere {q r : Ramp} (s : State) (h : q ≠ r) : Elsewhere r s (actOnDemand q s) :=
  (actOnDemand_decided q s).one.elsewhere h

/-- A vector and a selection written, told of the ramp and of every other. -/
theorem selected_spec (r : Ramp) (s : State) (v : Vector Bool 16) (f : RampCtx → RampCtx) (b : Bool) (t : State)
    (ht : t = attentionIf b r ((s.setVector r v).modRamp r f)) :
    t.ramps[r] = { f s.ramps[r] with attention := (f s.ramps[r]).attention || b } ∧ t.vectors[r] = v
    ∧ t.lanes = s.lanes ∧ t.rate = s.rate ∧ t.onTimers = s.onTimers
    ∧ ∀ q : Ramp, q ≠ r → SameRamp s t q ∧ t.vectors[q] = s.vectors[q] ∧ t.auth = s.auth := by
  subst ht
  have a := attentionIf_side b r ((s.setVector r v).modRamp r f)
  refine ⟨?_, ?_, (attentionIf_rest _ _ _).1, a.rate, a.onTimers, fun q hq => ⟨?_, ?_, a.auth⟩⟩
  · rw [attentionIf_ramp, modRamp_get]; rfl
  · rw [a.vectors, State.modRamp_vectors, State.setVector_vectors, vset_same]
  · have e : ((s.setVector r v).modRamp r f).ramps[q] = s.ramps[q] := by
      rw [State.modRamp_ramps, vset_get, if_neg hq.symm]; rfl
    have := a.ramps q
    rw [e] at this; exact this
  · rw [a.vectors, State.modRamp_vectors, State.setVector_vectors, vset_get, if_neg hq.symm]

/-- The persistence step writes the auto plan and the candidate alone. -/
theorem persist_rest (p : Proposal) (c : RampCtx) : (persist p c).attention = c.attention ∧ (persist p c).state = c.state
    ∧ (persist p c).slot = c.slot ∧ (persist p c).slotCount = c.slotCount
    ∧ (persist p c).lastSlotCount = c.lastSlotCount := by
  unfold persist; split
  · exact ⟨rfl, rfl, rfl, rfl, rfl⟩
  · dsimp only; split <;> exact ⟨rfl, rfl, rfl, rfl, rfl⟩

/-- The persistence step by its cases (R36). -/
theorem persist_spec (p : Proposal) (c : RampCtx) (k : Candidate) (hk : k = nextCandidate c.candidate p.plan) :
    (p.plan = c.autoPlan → (persist p c).autoPlan = c.autoPlan ∧ (persist p c).candidate = none)
    ∧ (p.plan ≠ c.autoPlan → p.persistence ≤ k.count →
      (persist p c).autoPlan = p.plan ∧ (persist p c).candidate = none)
    ∧ (p.plan ≠ c.autoPlan → k.count < p.persistence →
      (persist p c).autoPlan = c.autoPlan ∧ (persist p c).candidate = some k) := by
  have kp : k.plan = p.plan := by
    rw [hk]; unfold nextCandidate; split
    · split
      · next h => exact h
      · rfl
    · rfl
  refine ⟨fun h => ?_, fun h h' => ?_, fun h h' => ?_⟩ <;> unfold persist
  · rw [if_pos h]; exact ⟨rfl, rfl⟩
  · rw [if_neg h]; dsimp only; rw [← hk, if_pos h']; exact ⟨kp, rfl⟩
  · rw [if_neg h]; dsimp only; rw [← hk, if_neg (by omega)]; exact ⟨rfl, rfl⟩

/-- What the close leaves of a ramp's selection: its vector, its mark and its persistence step, and what the demand of a
changed auto plan carries on (R25, R34, R36, R37). -/
theorem selectPlan_spec (r : Ramp) (s : State) (h : (s.ramps[r]).state ≠ .off) (v : Vector Bool 16) (p : Proposal)
    (hv : v = newVector s r) (hp : p = propose s.tables r v) :
    ∃ t, t.ramps[r] = { persist p s.ramps[r] with
        planUnset := p.unset
        attention := (s.ramps[r]).attention || decide (p.unset ≠ (s.ramps[r]).planUnset) }
      ∧ t.vectors[r] = v ∧ t.rate = s.rate ∧ OneRamp r t (selectPlan r s) := by
  have at' := (persist_rest p s.ramps[r]).1
  have e := selected_spec r s v (fun c => { persist p c with planUnset := p.unset })
    (decide (p.unset ≠ (s.ramps[r]).planUnset)) _ rfl
  unfold selectPlan; rw [if_neg h]; dsimp only
  rw [← hv, ← hp]
  generalize attentionIf (decide (p.unset ≠ (s.ramps[r]).planUnset)) r
    ((s.setVector r v).modRamp r fun c => { persist p c with planUnset := p.unset }) = t at *
  refine ⟨t, ?_, e.2.1, e.2.2.2.1, ?_⟩
  · rw [e.1]; dsimp only; rw [at']
  · split
    · exact .refl r t
    · exact ((judge_decided r t).trans (actOnDemand_decided r _)).one

/-- The selection of a close leaves the slot counts of its ramp, and the slot and the record of one that meters. -/
theorem selectPlan_carries (r : Ramp) (s : State) :
    ((selectPlan r s).ramps[r]).slotCount = (s.ramps[r]).slotCount
    ∧ ((selectPlan r s).ramps[r]).lastSlotCount = (s.ramps[r]).lastSlotCount
    ∧ ((s.ramps[r]).state = .off → ((selectPlan r s).ramps[r]).state = .off)
    ∧ (((selectPlan r s).ramps[r]).state = .metering → (s.ramps[r]).state = .metering
      ∧ ((selectPlan r s).ramps[r]).slot = (s.ramps[r]).slot ∧ (selectPlan r s).rate[r] = s.rate[r])
    ∧ ((s.ramps[r]).state = .metering → ((selectPlan r s).ramps[r]).state ≠ .metering →
      (selectPlan r s).rate[r] = RateRec.reset)
    ∧ ((s.ramps[r]).state ≠ .metering → (selectPlan r s).rate[r] = s.rate[r]) := by
  by_cases h : (s.ramps[r]).state = .off
  · have e : selectPlan r s = s := by unfold selectPlan; rw [if_pos h]
    rw [e]
    exact ⟨rfl, rfl, fun h => h, fun h => ⟨h, rfl, rfl⟩, fun h h' => absurd h h', fun _ => rfl⟩
  · obtain ⟨t, e, _, tr, o⟩ := selectPlan_spec r s h _ _ rfl rfl
    have p := persist_rest (propose s.tables r (newVector s r)) s.ramps[r]
    have st : (t.ramps[r]).state = (s.ramps[r]).state := by rw [e]; exact p.2.1
    have sl : (t.ramps[r]).slot = (s.ramps[r]).slot := by rw [e]; exact p.2.2.1
    have c1 : (t.ramps[r]).slotCount = (s.ramps[r]).slotCount := by rw [e]; exact p.2.2.2.1
    have c2 : (t.ramps[r]).lastSlotCount = (s.ramps[r]).lastSlotCount := by rw [e]; exact p.2.2.2.2
    generalize selectPlan r s = u at *
    exact ⟨o.slots.1.trans c1, o.slots.2.trans c2, fun x => absurd x h,
      fun x => ⟨st ▸ (o.metering x).1, (o.metering x).2.1.trans sl, (o.metering x).2.2.trans (by rw [tr])⟩,
      fun x x' => o.left (st.trans x) x', fun x => (o.rate (by rw [st]; exact x)).trans (by rw [tr])⟩

theorem selectPlan_elsewhere (q r : Ramp) (s : State) (h : q ≠ r) : Elsewhere r s (selectPlan q s) := by
  by_cases ho : (s.ramps[q]).state = .off
  · unfold selectPlan; rw [if_pos ho]; exact .refl r s
  · have sd := (selectPlan_side q s).toRampCore
    unfold selectPlan at sd ⊢; rw [if_neg ho] at sd ⊢; dsimp only at sd ⊢
    have e := selected_spec q s (newVector s q)
      (fun c => { persist (propose s.tables q (newVector s q)) c with
        planUnset := (propose s.tables q (newVector s q)).unset })
      (decide ((propose s.tables q (newVector s q)).unset ≠ (s.ramps[q]).planUnset)) _ rfl
    generalize attentionIf _ q _ = t at *
    have x : ∀ {w : State}, OneRamp q t w → RampCore s w → Elsewhere r s w := fun a sd =>
      ⟨sd, a.onTimers.trans e.2.2.2.2.1, fun l => by rw [(a.counts l).1, (a.counts l).2, e.2.2.1]; exact ⟨rfl, rfl⟩,
        (e.2.2.2.2.2 r h.symm).1.trans (a.others r h.symm).1,
        (a.others r h.symm).2.1.trans (by rw [(e.2.2.2.2.2 r h.symm).2.2]),
        (a.others r h.symm).2.2.1.trans (by rw [e.2.2.2.1]),
        (a.others r h.symm).2.2.2.trans (e.2.2.2.2.2 r h.symm).2.1⟩
    split at sd <;> split
    · exact x (.refl q t) sd
    · contradiction
    · contradiction
    · exact x ((judge_decided q t).trans (actOnDemand_decided q _)).one sd

/-! ### The Rate Unit -/

theorem rateClose_elsewhere (q r : Ramp) (s : State) (h : q ≠ r) : Elsewhere r s (rateClose q s) := by
  have sd := (rateClose_side q s).toRampCore
  unfold rateClose at sd ⊢; split at sd
  · refine ⟨sd, rfl, fun _ => ⟨rfl, rfl⟩, .refl s r, rfl, ?_, rfl⟩
    rw [State.setRate_rate, vset_get, if_neg h]
  · exact .refl r s

theorem rateClose_spec (r : Ramp) (s : State) : (rateClose r s).ramps = s.ramps ∧ (rateClose r s).vectors = s.vectors
    ∧ (rateClose r s).lanes = s.lanes ∧ (rateClose r s).rate[r] = (match adoptedAdaptive s r with
      | some (p, a) => rateAtClose s r p a s.rate[r]
      | none => s.rate[r]) := by
  unfold rateClose
  cases adoptedAdaptive s r with
  | none => exact ⟨rfl, rfl, rfl, rfl⟩
  | some x => exact ⟨rfl, rfl, rfl, vset_same _ _ _⟩

/-- The channels of a role that a close counts for a ramp (R45, R47). -/
theorem roleOccupancies_eq (s : State) (role : Role) (r : Ramp) (L : List Channel) (hn : L.Nodup)
    (hm : ∀ ch, ch ∈ L ↔ ∃ d, s.tables.detMap[ch] = some d ∧ d.role = role ∧ d.ramps.getLsbD r.val = true
      ∧ (s.det.chans[ch]).lastValid = true) :
    meanOf (roleOccupancies s role r)
      = if L = [] then none else some ((L.map fun ch => (s.det.chans[ch]).lastOcc).sum / L.length) := by
  have e : roleOccupancies s role r = ((List.finRange 64).filter fun ch => decide (ch ∈ L)).map
      fun ch => (s.det.chans[ch]).lastOcc := by
    unfold roleOccupancies
    rw [← List.filterMap_eq_map, List.filterMap_filter]
    refine List.filterMap_congr fun ch _ => ?_
    have := hm ch
    cases x : s.tables.detMap[ch] with
    | none =>
      rw [x] at this
      have no : ch ∉ L := fun h => by obtain ⟨d, h, _⟩ := this.1 h; cases h
      simp [no]
    | some d =>
      rw [x] at this
      simp only [Option.some.injEq, exists_eq_left'] at this
      dsimp only
      by_cases y : d.role = role ∧ d.ramps.getLsbD r.val = true ∧ (s.det.chans[ch]).lastValid = true
      · rw [if_pos y, decide_eq_true (this.2 y)]; rfl
      · rw [if_neg y, decide_eq_false (fun h => y (this.1 h))]; rfl
  have p : ((List.finRange 64).filter fun ch => decide (ch ∈ L)).Perm L := by
    refine (List.perm_ext_iff_of_nodup ((List.nodup_finRange 64).filter _) hn).2 fun ch => ?_
    simp
  have q := p.map fun ch => (s.det.chans[ch]).lastOcc
  rw [← e] at q
  unfold meanOf
  rw [q.sum_eq, q.length_eq, List.length_map]
  by_cases z : L = []
  · rw [if_pos z]
    subst z
    have : roleOccupancies s role r = [] := List.perm_nil.1 q
    rw [this]; rfl
  · rw [if_neg z, if_neg]
    rw [List.isEmpty_iff]
    intro w; rw [w] at q
    exact z (List.map_eq_nil_iff.1 (List.nil_perm.1 q).symm.symm)

/-- The curve value is the slot length of the last point at or below the occupancy (R46). -/
theorem curveValue_last {c : CurveRec} {m i b v : Nat} (h : c.points[i]? = some (b, v)) (hb : b ≤ m)
    (hl : ∀ j b' v' : Nat, i < j → c.points[j]? = some (b', v') → m < b') : curveValue c m = some v := by
  unfold curveValue
  obtain ⟨hi, e⟩ := List.getElem?_eq_some_iff.1 h
  have d : c.points = c.points.take i ++ (b, v) :: c.points.drop (i + 1) := by
    have x := List.take_append_drop i c.points
    rw [List.drop_eq_getElem_cons hi, e] at x
    exact x.symm
  rw [d, List.filter_append, List.filter_cons_of_pos (by exact decide_eq_true hb)]
  have n : (c.points.drop (i + 1)).filter (fun p => decide (p.1 ≤ m)) = [] := by
    rw [List.filter_eq_nil_iff]
    intro p hp
    obtain ⟨k, hk⟩ := List.mem_iff_getElem?.1 hp
    rw [List.getElem?_drop] at hk
    have := hl (i + 1 + k) p.1 p.2 (by omega) hk
    rw [decide_eq_true_eq]; omega
  rw [n, List.getLast?_append_cons]; rfl

/-! ### One ramp's way through the close -/

/-- As `Carried`, past the roll-over: the slot count has become the last slot count and stands at 0 (R75). -/
structure Rolled (r : Ramp) (s t : State) : Prop where
  counts : (t.ramps[r]).lastSlotCount = (s.ramps[r]).slotCount ∧ (t.ramps[r]).slotCount = 0
  off : (s.ramps[r]).state = .off → (t.ramps[r]).state = .off ∧ (t.ramps[r]).selection = (s.ramps[r]).selection
    ∧ t.vectors[r] = s.vectors[r]
  selection : (t.ramps[r]).state ≠ .off → (s.ramps[r]).state ≠ .off
    ∧ (t.ramps[r]).selection = (s.ramps[r]).selection ∧ t.vectors[r] = s.vectors[r]
  metering : (t.ramps[r]).state = .metering → (s.ramps[r]).state = .metering ∧ (t.ramps[r]).slot = (s.ramps[r]).slot
    ∧ t.rate[r] = s.rate[r]
  left : (s.ramps[r]).state = .metering → (t.ramps[r]).state ≠ .metering → t.rate[r] = RateRec.reset
  rate : (s.ramps[r]).state ≠ .metering → t.rate[r] = s.rate[r]

theorem Carried.rolled {r : Ramp} {s t u w : State} (a : Carried r s t) (c : u.ramps[r] = { t.ramps[r] with
      lastSlotCount := (t.ramps[r]).slotCount, slotCount := 0 }) (v : u.vectors[r] = t.vectors[r])
    (x : u.rate[r] = t.rate[r]) (b : Carried r u w) : Rolled r s w := by
  have st : (u.ramps[r]).state = (t.ramps[r]).state := by rw [c]
  have se : (u.ramps[r]).selection = (t.ramps[r]).selection := by rw [c]; rfl
  have sl : (u.ramps[r]).slot = (t.ramps[r]).slot := by rw [c]; rfl
  refine ⟨⟨b.slots.2.trans ?_, b.slots.1.trans (by rw [c])⟩, fun h => ?_, fun h => ?_, fun h => ?_, fun h h' => ?_,
    fun h => ?_⟩
  · rw [c]; exact a.slots.1
  · have k := a.off h
    have l := b.off (st.trans k.1)
    exact ⟨l.1, l.2.1.trans (se.trans k.2.1), l.2.2.trans (v.trans k.2.2)⟩
  · have l := b.selection h
    have k := a.selection (st ▸ l.1)
    exact ⟨k.1, l.2.1.trans (se.trans k.2.1), l.2.2.trans (v.trans k.2.2)⟩
  · have l := b.metering h
    have k := a.metering (st ▸ l.1)
    exact ⟨k.1, l.2.1.trans (sl.trans k.2.1), l.2.2.trans (x.trans k.2.2)⟩
  · by_cases e : (t.ramps[r]).state = .metering
    · exact b.left (st.trans e) h'
    · rw [b.rate (by rw [st]; exact e), x]; exact a.left h e
  · have e : (t.ramps[r]).state ≠ .metering := fun e => h (a.metering e).1
    rw [b.rate (by rw [st]; exact e), x]; exact a.rate h

/-- A ramp's way through the close: carried to its own selection by way of the roll-over, carried from it to its own Rate
Unit's computation, and carried from there to the end; the published results and the tables are in place throughout. -/
theorem windowClose_way (s : State) (r : Ramp) : ∃ x y : State, Rolled r s x ∧ x.tables = s.tables
    ∧ x.det = (windowClose s).det ∧ Carried r (selectPlan r x) y ∧ y.tables = s.tables ∧ y.det = (windowClose s).det
    ∧ SameRamp (selectPlan r x) y r ∧ SameRamp y (windowClose s) r ∧ (windowClose s).vectors[r] = y.vectors[r]
    ∧ (windowClose s).rate[r] = (match adoptedAdaptive y r with
      | some (p, a) => rateAtClose y r p a y.rate[r]
      | none => y.rate[r]) := by
  unfold windowClose
  have s0 : Carried r s { s with time := { s.time with closeDue := false } }
      ∧ ({ s with time := { s.time with closeDue := false } } : State).tables = s.tables := ⟨.of (.refl s r) rfl rfl, rfl⟩
  generalize ({ s with time := { s.time with closeDue := false } } : State) = a at *
  have ch := chatterStep_carried a
  generalize chatterStep a = b at *
  have ro := rollCounts_spec b
  generalize rollCounts (publishStep b) = c at *
  obtain ⟨x, a1, a2⟩ := forRamps_at (f := selectPlan) selectPlan_elsewhere c r
  have sd : RampSide c (forRamps selectPlan c) := .forRamps _ selectPlan_side c
  generalize forRamps selectPlan c = d at *
  obtain ⟨y, b1, b2⟩ := forRamps_at (f := rateClose) rateClose_elsewhere d r
  have rd : RampSide d (forRamps rateClose d) := .forRamps _ rateClose_side d
  generalize forRamps rateClose d = u at *
  have ctab : c.tables = s.tables := ro.1.trans (ch.2.2.trans s0.2)
  have cdet : c.det = u.det := (rd.det.trans sd.det).symm
  have e := rateClose_spec r y
  have z := a2.trans b1
  refine ⟨x, y, (s0.1.trans (ch.2.1 r)).rolled (ro.2.2.2.1 r) (by rw [ro.2.1]) (by rw [ro.2.2.1]) a1.carried,
    a1.side.tables.trans ctab, a1.side.det.trans cdet, z.carried, b1.side.tables.trans (sd.tables.trans ctab),
    b1.side.det.trans (sd.det.trans cdet), z.same, ?_, ?_, b2.rate.trans e.2.2.2⟩
  · have h := b2.same
    unfold SameRamp at h ⊢
    rw [e.1] at h; exact h
  · rw [b2.vector, e.2.1]

/-- Every lane's counts roll over at the close (R100). -/
theorem windowClose_lanes (s : State) (l : Lane) : ((windowClose s).lanes[l]).last = (s.lanes[l]).counts
    ∧ ((windowClose s).lanes[l]).counts = LaneCounts.zero := by
  unfold windowClose
  have s0 : ({ s with time := { s.time with closeDue := false } } : State).lanes = s.lanes := rfl
  generalize ({ s with time := { s.time with closeDue := false } } : State) = a at *
  have ch := chatterStep_carried a
  generalize chatterStep a = b at *
  have ro := rollCounts_spec b
  generalize rollCounts (publishStep b) = c at *
  obtain ⟨x, a1, a2⟩ := forRamps_at (f := selectPlan) selectPlan_elsewhere c 0
  generalize forRamps selectPlan c = d at *
  obtain ⟨y, b1, b2⟩ := forRamps_at (f := rateClose) rateClose_elsewhere d 0
  generalize forRamps rateClose d = u at *
  have e := (rateClose_spec 0 y).2.2.1
  have k1 := a1.counts l
  have k2 := (selectPlan_elsewhere 0 1 x (by decide)).counts l
  have k3 := (a2.trans b1).counts l
  have k4 := b2.counts l
  rw [k4.1, k4.2, e, k3.1, k3.2, k2.1, k2.2, k1.1, k1.2, ro.2.2.2.2]
  unfold rollLane
  exact ⟨(ch.1 l).1.trans (by rw [s0]), rfl⟩

/-- The record a close writes for one that R44 takes, by the relief stepped and the curve read (R45 to R49). -/
theorem rateAtClose_spec (s : State) (r : Ramp) (p : PlanRec) (a : Adaptive) (x : RateRec) (level : Nat)
    (h0 : a.queueThreshold = none → level = 0)
    (h1 : ∀ t, a.queueThreshold = some t → (queueOccupancy s r = none → level = x.relief - 1)
      ∧ ∀ q, queueOccupancy s r = some q → level = (if t ≤ q then min (x.relief + 1) 8
        else if q < t - a.reliefHyst then x.relief - 1 else x.relief)) :
    (mainlineOccupancy s r = none ∨ curveRec s.tables a.curve = none → rateAtClose s r p a x = ⟨level, some p.slot, true⟩)
    ∧ ∀ (m : Nat) (c : CurveRec) (v : Nat), mainlineOccupancy s r = some m → curveRec s.tables a.curve = some c →
      curveValue c m = some v → rateAtClose s r p a x
        = ⟨level, some (min (max (v - level * a.reliefStep) a.minSlot) a.maxSlot), false⟩ := by
  have lv : stepRelief a (queueOccupancy s r) x.relief = level := by
    unfold stepRelief
    cases e : a.queueThreshold with
    | none => exact (h0 e).symm
    | some t =>
      have h1 := h1 t e
      dsimp only
      cases e' : queueOccupancy s r with
      | none => exact (h1.1 e').symm
      | some q => exact (h1.2 q e').symm
  unfold rateAtClose; dsimp only
  rw [lv]
  unfold closeCurveValue
  refine ⟨fun h => ?_, fun m c v hm hc hv => ?_⟩
  · rcases h with h | h
    · rw [h]
    · rw [h]; cases mainlineOccupancy s r <;> rfl
  · rw [hm, hc]; dsimp only; rw [hv]; rfl

/-- The ADAPTIVE stored record of a METERING ramp's adopted plan (R44). -/
theorem adoptedAdaptive_some {s : State} {r : Ramp} {d : Adopted} {p : PlanRec} {a : Adaptive}
    (h : (s.ramps[r]).state = .metering) (hd : (s.ramps[r]).adopted = some d) (hp : planRec s.tables d.number = some p)
    (ha : p.adaptive = some a) : adoptedAdaptive s r = some (p, a) := by
  unfold adoptedAdaptive; rw [if_pos h, hd, Option.bind_some, hp, Option.bind_some, ha]; rfl

theorem adoptedAdaptive_none {s : State} {r : Ramp} (h : ∀ (d : Adopted) (p : PlanRec), (s.ramps[r]).adopted = some d →
    planRec s.tables d.number = some p → p.adaptive = none) : adoptedAdaptive s r = none := by
  unfold adoptedAdaptive; split
  · cases e : (s.ramps[r]).adopted with
    | none => rfl
    | some d =>
      rw [Option.bind_some]
      cases e' : planRec s.tables d.number with
      | none => rfl
      | some p => rw [Option.bind_some, h d p e e']; rfl
  · rfl

/-! ### The grid of window closes -/

/-- A forward move of corridor time passes or reaches a multiple of W (R20). -/
theorem crossesGrid_iff (w t : Nat) (d : Int) (h : 0 < d) : crossesGrid w t d.toNat = true
    ↔ ∃ k : Nat, t < k * w ∧ ((k * w : Nat) : Int) ≤ t + d := by
  obtain ⟨n, rfl⟩ := Int.eq_ofNat_of_zero_le h.le
  unfold crossesGrid
  rw [decide_eq_true_eq, Int.toNat_natCast]
  by_cases hw : w = 0
  · subst hw; simp
  · have hp := Nat.pos_of_ne_zero hw
    constructor
    · intro x
      refine ⟨(t + n) / w, ?_, ?_⟩
      · exact (Nat.div_lt_iff_lt_mul hp).1 x
      · have := Nat.div_mul_le_self (t + n) w; push_cast; exact_mod_cast this
    · rintro ⟨k, h1, h2⟩
      have h2' : k * w ≤ t + n := by exact_mod_cast h2
      have a := (Nat.div_lt_iff_lt_mul hp).2 h1
      exact lt_of_lt_of_le a ((Nat.le_div_iff_mul_le hp).2 h2')

end Sys2Proof.Machine
end

