-- ==== Sys2Proof/Laws/Closing.lean ====
section
/-! SUPPORT. What a window close brings one ramp beside the others: the announcement where SPILLBACK is not asserted, the
selection's step, and the demand of a changed auto plan. -/

namespace Sys2Proof.Machine

/-- A selection written moves nothing but its ramp's context and vector. -/
theorem selectPlan_acts (r : Ramp) (s : State) (h : (s.ramps[r]).state ≠ .off) :
    ∃ t, (t.ramps[r] = { persist (propose s.tables r (newVector s r)) s.ramps[r] with
        planUnset := (propose s.tables r (newVector s r)).unset, attention := (t.ramps[r]).attention })
      ∧ t.auth = s.auth ∧ t.tables = s.tables ∧ t.lanes = s.lanes ∧ t.out = s.out ∧ Reach r s t
      ∧ ((t.ramps[r]).autoPlan = (s.ramps[r]).autoPlan → selectPlan r s = t)
      ∧ ((t.ramps[r]).autoPlan ≠ (s.ramps[r]).autoPlan → selectPlan r s = actOnDemand r (judge r t)) := by
  have a := attentionIf_side (decide ((propose s.tables r (newVector s r)).unset ≠ (s.ramps[r]).planUnset)) r
      ((s.setVector r (newVector s r)).modRamp r fun c =>
        { persist (propose s.tables r (newVector s r)) c with planUnset := (propose s.tables r (newVector s r)).unset })
  have b := attentionIf_rest (decide ((propose s.tables r (newVector s r)).unset ≠ (s.ramps[r]).planUnset)) r
      ((s.setVector r (newVector s r)).modRamp r fun c =>
        { persist (propose s.tables r (newVector s r)) c with planUnset := (propose s.tables r (newVector s r)).unset })
  have e := (selected_spec r s (newVector s r) (fun c => { persist (propose s.tables r (newVector s r)) c with
      planUnset := (propose s.tables r (newVector s r)).unset })
    (decide ((propose s.tables r (newVector s r)).unset ≠ (s.ramps[r]).planUnset)) _ rfl).1
  unfold selectPlan; rw [if_neg h]; dsimp only
  generalize attentionIf (decide ((propose s.tables r (newVector s r)).unset ≠ (s.ramps[r]).planUnset)) r
      ((s.setVector r (newVector s r)).modRamp r fun c =>
        { persist (propose s.tables r (newVector s r)) c with planUnset := (propose s.tables r (newVector s r)).unset }) = t at *
  refine ⟨t, ?_, a.auth, a.tables, b.1, b.2, .still r a.tables b.1 b.2, fun k => if_pos k, fun k => if_neg k⟩
  rw [e]

theorem selectPlan_reach (r : Ramp) (s : State) : Reach r s (selectPlan r s) := by
  by_cases h : (s.ramps[r]).state = .off
  · unfold selectPlan; rw [if_pos h]; exact .refl r s
  · obtain ⟨t, _, _, _, _, _, k, a, b⟩ := selectPlan_acts r s h
    by_cases c : (t.ramps[r]).autoPlan = (s.ramps[r]).autoPlan
    · rw [a c]; exact k
    · rw [b c]; exact (k.trans (judge_reach r t)).trans (actOnDemand_reach r _)

theorem Reach.beside_elsewhere {q r : Ramp} {s t : State} (a : Reach q s t) (o : Elsewhere r s t) (h : q ≠ r) : Beside r s t :=
  ⟨o, fun k l hl => a.lanes l (fun x => k.lanes r q h l hl x),
    fun k ch hb => a.chans ch (k.channels h hb), a.faults, a.sound⟩

/-- The Rate Unit's computations write records alone. -/
theorem rateClose_rest (r : Ramp) (s : State) : (rateClose r s).ramps = s.ramps ∧ (rateClose r s).auth = s.auth
    ∧ (rateClose r s).lanes = s.lanes ∧ (rateClose r s).out = s.out ∧ (rateClose r s).tables = s.tables := by
  unfold rateClose; split <;> exact ⟨rfl, rfl, rfl, rfl, rfl⟩

theorem forRamps_rateClose (s : State) : (forRamps rateClose s).ramps = s.ramps ∧ (forRamps rateClose s).auth = s.auth
    ∧ (forRamps rateClose s).lanes = s.lanes ∧ (forRamps rateClose s).out = s.out
    ∧ (forRamps rateClose s).tables = s.tables := by
  have e : ∀ f : Ramp → State → State, forRamps f s = f 3 (f 2 (f 1 (f 0 s))) := fun _ => rfl
  rw [e]
  have h := rateClose_rest
  refine ⟨?_, ?_, ?_, ?_, ?_⟩
  · rw [(h 3 _).1, (h 2 _).1, (h 1 _).1, (h 0 _).1]
  · rw [(h 3 _).2.1, (h 2 _).2.1, (h 1 _).2.1, (h 0 _).2.1]
  · rw [(h 3 _).2.2.1, (h 2 _).2.2.1, (h 1 _).2.2.1, (h 0 _).2.2.1]
  · rw [(h 3 _).2.2.2.1, (h 2 _).2.2.2.1, (h 1 _).2.2.2.1, (h 0 _).2.2.2.1]
  · rw [(h 3 _).2.2.2.2, (h 2 _).2.2.2.2, (h 1 _).2.2.2.2, (h 0 _).2.2.2.2]

/-- Where SPILLBACK is not asserted the review of a ramp stops its clear timer alone (R119, R120). -/
theorem reviewClear_quiet {r : Ramp} {s : State} (h : ((s.auth[r]).sources[(2 : Source)]).asserted = false) :
    reviewClear r s = setClearTimer r .stopped s := by
  have g : (((setClearTimer r .stopped s).auth[r]).sources[(2 : Source)]).asserted = false := by
    rw [setClearTimer_auth]; exact h
  have e : clearTimerExpired r s = setClearTimer r .stopped s := by
    unfold clearTimerExpired setAsserted; exact if_pos g
  rw [reviewClear_eq, e]
  split
  · rfl
  · rfl

theorem announce_quiet {r : Ramp} {s t : State} (h : ((t.auth[r]).sources[(2 : Source)]).asserted = false) :
    SameRamp t (announce s t) r ∧ (announce s t).auth[r] = { t.auth[r] with clearTimer := .stopped } := by
  obtain ⟨z, sd, e⟩ := announce_eq s t
  rw [e]; unfold reviewSpillback
  obtain ⟨x, a, b⟩ := forRamps_at (f := reviewClear) (fun q r t h => (reviewClear_one q t).elsewhere h) (reviewOnTimers z) r
  have ax : x.auth[r] = t.auth[r] := by rw [a.auth, (reviewOnTimers_rest z).1, sd.auth]
  have q := reviewClear_quiet (r := r) (s := x) (by rw [ax]; exact h)
  rw [q] at b
  refine ⟨?_, by rw [b.auth, setClearTimer_auth, ax]⟩
  have k1 : SameRamp t z r := sd.ramps r
  have k0 : SameRamp z (reviewOnTimers z) r := Or.inl (by unfold reviewOnTimers; rfl)
  have k2 : SameRamp z x r := k0.trans a.same
  have k3 : SameRamp x (setClearTimer r .stopped x) r := Or.inl (by unfold setClearTimer; rw [State.setAuth_ramps])
  exact ((k1.trans k2).trans k3).trans b.same

theorem persist_eq (p : Proposal) (c : RampCtx) : persist p c = { c with
    autoPlan := (persist p c).autoPlan, candidate := (persist p c).candidate } := by
  unfold persist; split
  · rfl
  · dsimp only; split <;> rfl

/-- Acting on a demand from a state other than WARN under mode OFF keeps the unit, the mode and the selection. -/
theorem actOnDemand_kept (r : Ramp) (s : State) (h : (s.ramps[r]).state = .warn → (s.ramps[r]).mode = .auto)
    (hj : (s.ramps[r]).actionUnset = judgedUnset s r) :
    (actOnDemand r s).auth = s.auth ∧ ((actOnDemand r s).ramps[r]).mode = (s.ramps[r]).mode
    ∧ ((actOnDemand r s).ramps[r]).autoPlan = (s.ramps[r]).autoPlan
    ∧ ((actOnDemand r s).ramps[r]).actionUnset = (s.ramps[r]).actionUnset
    ∧ ((s.ramps[r]).state ≠ .warn → (actOnDemand r s).lanes = s.lanes)
    ∧ (s.tables.Apart → (s.ramps[r]).state = .warn → stopDemand s r = true → HeadsShow r (actOnDemand r s)
      ∧ ∀ l ∈ lanesOf s.tables r, s.tables.laneCfg[l] ≠ none → ((actOnDemand r s).lanes[l]).state = .dark) := by
  have e : ∀ (st : RampState) (tm : Timer), (s.ramps[r]).state ≠ .metering →
      (enter r st none tm s).auth = s.auth ∧ ((enter r st none tm s).ramps[r]).mode = (s.ramps[r]).mode
      ∧ ((enter r st none tm s).ramps[r]).autoPlan = (s.ramps[r]).autoPlan
      ∧ ((enter r st none tm s).ramps[r]).actionUnset = (s.ramps[r]).actionUnset
      ∧ (enter r st none tm s).lanes = s.lanes := fun st tm k => by
    have p := enter_plain r st none tm s
    rw [if_neg k] at p
    exact ⟨(enter_rest r st none tm s).2.1, by rw [p], by rw [p], by rw [p], enter_lanes r _ _ _ s⟩
  unfold actOnDemand
  cases st : (s.ramps[r]).state
  case standby =>
    dsimp only
    unfold standbyActs enterWarn; split
    · have k := e .warn (.running 0) (by rw [st]; decide)
      exact ⟨k.1, k.2.1, k.2.2.1, k.2.2.2.1, fun _ => k.2.2.2.2, fun _ x => (by cases x)⟩
    · exact ⟨rfl, rfl, rfl, rfl, fun _ => rfl, fun _ x => (by cases x)⟩
  case startGreen =>
    dsimp only
    unfold enterShutFlush; split
    · have k := e .shutFlush (.running 0) (by rw [st]; decide)
      exact ⟨k.1, k.2.1, k.2.2.1, k.2.2.2.1, fun _ => k.2.2.2.2, fun _ x => (by cases x)⟩
    · exact ⟨rfl, rfl, rfl, rfl, fun _ => rfl, fun _ x => (by cases x)⟩
  case warn =>
    dsimp only
    split
    · have m := h st
      unfold enterOffOrStandby; rw [if_neg (by rw [m]; decide)]
      have k := enterStandby_calm r s (by rw [st]; decide)
      have sp := (enterStandby_spec r s).1
      refine ⟨k.1.auth, by rw [k.2.1], by rw [k.2.1], by rw [k.2.1, hj], fun x => absurd rfl x, fun a _ _ => ⟨k.2.2 a, fun l hl hc => ?_⟩⟩
      have sp := congrArg (fun x => (x[l]).state) sp
      refine sp.trans ?_
      cases c : s.tables.laneCfg[l] with
      | none => exact absurd c hc
      | some c' =>
        have o := ((orderLanes_spec (fun _ _ x => laneDark x) r s (a.once r)).2 l c' hl c).1
        show ((orderDark r s).lanes[l]).state = _
        unfold orderDark; rw [o]; rfl
    · next n => exact ⟨rfl, rfl, rfl, rfl, fun x => absurd rfl x, fun _ _ k => absurd k n⟩
  all_goals exact ⟨rfl, rfl, rfl, rfl, fun _ => rfl, fun _ x => (by cases x)⟩

end Sys2Proof.Machine
end

