-- ==== Sys2Proof/Laws/Conflicts.lean ====
section
/-! SUPPORT. What the tests of a TABLE WRITE and a TABLE CLEAR find, told on the records themselves: the conflicts (R2, R55, R78, R126) and
the locks (R175), and the order they are judged in (R169, R171, R174). -/

namespace Sys2Proof.Machine

/-! ### Conflicts -/

/-- Where no lane is listed twice, the ramp of a lane is the one that lists it. -/
theorem rampOfLane_iff {t : Tables} (a : t.Apart) (l : Lane) (r : Ramp) : rampOfLane t l = some r ↔ l ∈ lanesOf t r := by
  unfold rampOfLane
  constructor
  · intro h
    have := List.find?_some h
    simpa using this
  · intro h
    cases e : (List.finRange 4).find? fun r => (lanesOf t r).contains l with
    | none =>
      rw [List.find?_eq_none] at e
      exact absurd (by simpa using h) (e r (List.mem_finRange r))
    | some q =>
      have hq := List.find?_some e
      have hq : l ∈ lanesOf t q := by simpa using hq
      by_cases k : q = r
      · rw [k]
      · exact absurd hq (a.lanes r q k l h)

theorem detDuplicate_iff (t : Tables) (ch : Channel) (d : DetRec) : detDuplicate t ch d = true ↔
    ∃ (c : Channel) (e : DetRec), c ≠ ch ∧ t.detMap[c] = some e ∧ e.station = d.station ∧ e.input = d.input := by
  unfold detDuplicate; rw [List.any_eq_true]
  constructor
  · rintro ⟨c, _, h⟩
    rw [Bool.and_eq_true] at h
    cases e : t.detMap[c] with
    | none => rw [e] at h; simp at h
    | some x => rw [e] at h; exact ⟨c, x, by simpa using h.1, e, by simpa using h.2⟩
  · rintro ⟨c, x, n, e, h⟩
    refine ⟨c, List.mem_finRange c, ?_⟩
    rw [e]; simp [n, h.1, h.2]

theorem headNamed_iff (t : Tables) (x : Option Lane) (ch : OutCh) : headNamed t x ch = true ↔
    ∃ l : Lane, some l ≠ x ∧ headOf t l = some ch := by
  unfold headNamed; rw [List.any_eq_true]
  simp [List.mem_finRange]

theorem beaconNamed_iff (t : Tables) (x : Option Ramp) (ch : OutCh) : beaconNamed t x ch = true ↔
    ∃ q : Ramp, some q ≠ x ∧ beaconOf t q = some ch := by
  unfold beaconNamed; rw [List.any_eq_true]
  simp [List.mem_finRange]

theorem outUse_iff (t : Tables) (ch : OutCh) (b : Bool) : outUse t ch b = true ↔ ∃ o, t.outMap[ch] = some o ∧ o.beacon = b := by
  unfold outUse; split
  · next o e => rw [e]; simp
  · next e => rw [e]; simp

theorem rampConflict_iff (t : Tables) (r : Ramp) (d : RampRec) : rampConflict t r d = true ↔
    (∃ (q : Ramp) (l : Lane), q ≠ r ∧ l ∈ d.lanes ∧ l ∈ lanesOf t q)
    ∨ ∃ ch : OutCh, d.beacon = some ch ∧ ((∃ q : Ramp, q ≠ r ∧ beaconOf t q = some ch)
      ∨ (∃ l : Lane, headOf t l = some ch) ∨ ∃ o, t.outMap[ch] = some o ∧ o.beacon = false) := by
  unfold rampConflict laneTaken
  rw [Bool.or_eq_true]
  refine or_congr ?_ ?_
  · rw [List.any_eq_true]
    constructor
    · rintro ⟨q, _, h⟩
      rw [Bool.and_eq_true, List.any_eq_true] at h
      obtain ⟨h, l, hl, m⟩ := h
      exact ⟨q, l, by simpa using h, hl, by simpa using m⟩
    · rintro ⟨q, l, n, hl, m⟩
      refine ⟨q, List.mem_finRange q, ?_⟩
      rw [Bool.and_eq_true, List.any_eq_true]
      exact ⟨by simpa using n, l, hl, by simpa using m⟩
  · cases d.beacon with
    | none => simp
    | some ch =>
      dsimp only; rw [Bool.or_eq_true, Bool.or_eq_true, beaconNamed_iff, headNamed_iff, outUse_iff, or_assoc]
      simp

theorem laneConflict_iff (t : Tables) (l : Lane) (d : LaneRec) : laneConflict t l d = true ↔
    (∃ k : Lane, k ≠ l ∧ headOf t k = some d.head)
    ∨ (∃ q : Ramp, beaconOf t q = some d.head) ∨ ∃ o, t.outMap[d.head] = some o ∧ o.beacon = true := by
  unfold laneConflict
  rw [Bool.or_eq_true, Bool.or_eq_true, beaconNamed_iff, headNamed_iff, outUse_iff, or_assoc]
  simp

theorem mem_otherStations (t : Tables) (ch : OutCh) (st : Nat) : st ∈ otherStations t ch ↔
    ∃ (c : OutCh) (o : OutRec), c ≠ ch ∧ t.outMap[c] = some o ∧ o.station = st := by
  unfold otherStations
  rw [List.mem_dedup, List.mem_filterMap]
  constructor
  · rintro ⟨c, _, h⟩
    split at h
    · cases h
    · next n => 
      obtain ⟨o, e, h⟩ := Option.map_eq_some_iff.1 h
      exact ⟨c, o, n, e, h⟩
  · rintro ⟨c, o, n, e, h⟩
    exact ⟨c, List.mem_finRange c, by rw [if_neg n, e, Option.map_some, h]⟩

theorem outConflict_iff (t : Tables) (ch : OutCh) (d : OutRec) (others : List Nat) (hn : others.Nodup)
    (hm : ∀ st : Nat, st ∈ others ↔ ∃ (c : OutCh) (o : OutRec), c ≠ ch ∧ t.outMap[c] = some o ∧ o.station = st) :
    outConflict t ch d = true ↔ (∃ (c : OutCh) (o : OutRec), c ≠ ch ∧ t.outMap[c] = some o
                ∧ o.station = d.station ∧ o.output = d.output)
              ∨ (d.station ∉ others ∧ 8 ≤ others.length) ∨ (d.beacon = true ∧ ∃ l : Lane, headOf t l = some ch)
              ∨ (d.beacon = false ∧ ∃ q : Ramp, beaconOf t q = some ch) := by
  have p : (otherStations t ch).Perm others :=
    (List.perm_ext_iff_of_nodup (List.nodup_dedup _) hn).2 fun st => (mem_otherStations t ch st).trans (hm st).symm
  unfold outConflict
  simp only [Bool.or_eq_true, Bool.and_eq_true, decide_eq_true_eq, headNamed_iff, beaconNamed_iff, Bool.not_eq_true', or_assoc]
  rw [p.length_eq, p.mem_iff]
  refine or_congr ?_ (or_congr Iff.rfl (or_congr ?_ ?_))
  · rw [List.any_eq_true]
    constructor
    · rintro ⟨c, _, h⟩
      rw [Bool.and_eq_true] at h
      cases e : t.outMap[c] with
      | none => rw [e] at h; simp at h
      | some x => rw [e] at h; exact ⟨c, x, by simpa using h.1, e, by simpa using h.2⟩
    · rintro ⟨c, x, n, e, h⟩
      refine ⟨c, List.mem_finRange c, ?_⟩
      rw [e]; simp [n, h.1, h.2]
  · simp
  · simp

/-! ### Locks -/

theorem inUse_iff (s : State) (r : Ramp) : inUse s r = true ↔ (s.ramps[r]).state ≠ .off := by unfold inUse; simp

/-- A Detector Map record touches a ramp of its ramp set and the ramp that lists its lane (R1, R175). -/
theorem detTouches_iff {s : State} (a : s.tables.Apart) (d : DetRec) : detTouchesInUse s (some d) = true ↔
    ∃ r : Ramp, (s.ramps[r]).state ≠ .off ∧ (d.ramps.getLsbD r.val = true ∨ ∃ l : Lane, d.lane = some l ∧ l ∈ lanesOf s.tables r) := by
  unfold detTouchesInUse; dsimp only; rw [Bool.or_eq_true, List.any_eq_true]
  constructor
  · rintro (⟨r, _, h⟩ | h)
    · rw [Bool.and_eq_true] at h; exact ⟨r, (inUse_iff s r).1 h.2, Or.inl h.1⟩
    · split at h
      · next r e =>
        obtain ⟨l, hl, hr⟩ := Option.bind_eq_some_iff.1 e
        exact ⟨r, (inUse_iff s r).1 h, Or.inr ⟨l, hl, (rampOfLane_iff a l r).1 hr⟩⟩
      · cases h
  · rintro ⟨r, u, h | ⟨l, hl, hr⟩⟩
    · exact Or.inl ⟨r, List.mem_finRange r, by rw [h, (inUse_iff s r).2 u]; rfl⟩
    · right
      have e : d.lane.bind (rampOfLane s.tables) = some r := by rw [hl]; exact (rampOfLane_iff a l r).2 hr
      rw [e]; exact (inUse_iff s r).2 u

theorem laneInUse_iff (s : State) (l : Lane) : laneInUse s l = true ↔ ∃ r : Ramp, l ∈ lanesOf s.tables r ∧ (s.ramps[r]).state ≠ .off := by
  unfold laneInUse; rw [List.any_eq_true]
  simp [List.mem_finRange, inUse]

theorem outInUse_iff (s : State) (ch : OutCh) : outInUse s ch = true ↔ ∃ r : Ramp, belongs s.tables r ch = true ∧ (s.ramps[r]).state ≠ .off := by
  unfold outInUse; rw [List.any_eq_true]
  simp [List.mem_finRange, inUse]

theorem anyInUse_iff (s : State) : anyInUse s = true ↔ ∃ r : Ramp, (s.ramps[r]).state ≠ .off := by
  unfold anyInUse; rw [List.any_eq_true]
  simp [List.mem_finRange, inUse]

theorem planAdopted_iff (s : State) (n : Nat) : planAdopted s n = true ↔
    ∃ (r : Ramp) (a : Adopted), (s.ramps[r]).adopted = some a ∧ a.number = n := by
  unfold planAdopted adoptedNumber; rw [List.any_eq_true]
  simp [List.mem_finRange]

theorem curveAdopted_iff (s : State) (n : Nat) : curveAdopted s n = true ↔
    ∃ (r : Ramp) (a : Adopted) (p : PlanRec) (x : Adaptive), (s.ramps[r]).adopted = some a
      ∧ planRec s.tables a.number = some p ∧ p.adaptive = some x ∧ x.curve = n := by
  unfold curveAdopted; rw [List.any_eq_true]
  constructor
  · rintro ⟨r, _, h⟩
    split at h
    · next p e =>
      obtain ⟨a, ha, hp⟩ := Option.bind_eq_some_iff.1 e
      cases hx : p.adaptive with
      | none => rw [hx] at h; simp at h
      | some x => rw [hx] at h; exact ⟨r, a, p, x, ha, hp, hx, by simpa using h⟩
    · cases h
  · rintro ⟨r, a, p, x, ha, hp, hx, rfl⟩
    refine ⟨r, List.mem_finRange r, ?_⟩
    have e : ((s.ramps[r]).adopted.bind fun a => planRec s.tables a.number) = some p := by rw [ha]; exact hp
    rw [e]; simp [hx]

/-! ### The order -/

/-- A record that is read is judged for its conflict, then for its lock, then stored. -/
theorem writeTested_judged {α : Type} {rec : Option α} {conflict locked : α → Bool} {put : Option α → State → State} {s : State}
    {x : α} (h : rec = some x) {C L : Prop} (hc : conflict x = true ↔ C) (hl : locked x = true ↔ L) :
    (C → writeTested rec conflict locked put s = (.badValue, s))
    ∧ (¬ C → L → writeTested rec conflict locked put s = (.inUse, s))
    ∧ (¬ C → ¬ L → writeTested rec conflict locked put s = (.done, put (some x) s)) := by
  subst h
  unfold writeTested; dsimp only
  refine ⟨fun c => if_pos (hc.2 c), fun c l => ?_, fun c l => ?_⟩
  · rw [if_neg fun h => c (hc.1 h), if_pos (hl.2 l)]
  · rw [if_neg fun h => c (hc.1 h), if_neg fun h => l (hl.1 h)]

/-- The same as a reply. -/
theorem replyOf_judged (table index : Byte) {x : Result × State} {s : State} {C L : Prop} {t : State}
    (h : (C → x = (.badValue, s)) ∧ (¬ C → L → x = (.inUse, s)) ∧ (¬ C → ¬ L → x = (.done, t))) :
    (C → replyOf table index x = refuse .badValue s) ∧ (¬ C → L → replyOf table index x = refuse .inUse s)
    ∧ (¬ C → ¬ L → replyOf table index x = answer [table, index] t) :=
  ⟨fun c => by rw [h.1 c]; rfl, fun c l => by rw [h.2.1 c l]; rfl, fun c l => by rw [h.2.2 c l]; rfl⟩

theorem atIndex_at {n : Nat} {lo index : Nat} {s : State} {f : Fin n → Result × State} (i : Fin n) (h : index = i.val + lo) :
    atIndex lo index s f = f i := by
  unfold atIndex
  rw [if_neg (by omega)]
  have : asFin n (index - lo) = some i := by
    unfold asFin; rw [dif_pos (by have := i.isLt; omega)]; congr 1; apply Fin.ext; show index - lo = i.val; omega
  rw [this]

theorem mem_indices {n lo hi i : Nat} (h : indexRange n = some (lo, hi)) : i ∈ indicesOf n ↔ lo ≤ i ∧ i ≤ hi := by
  rw [mem_indicesOf, h]; simp

theorem atIndex_const {n : Nat} {lo index : Nat} {s : State} {f : Fin n → Result × State} (h : lo ≤ index ∧ index < lo + n)
    (x : Result × State) (hf : ∀ i, f i = x) : atIndex lo index s f = x := by
  rw [atIndex_at ⟨index - lo, by omega⟩ (by simp; omega), hf]

/-- An index outside its table's range, or of no table, is BADINDEX. -/
theorem writeTable_outside (n i : Nat) (record : List Byte) (s : State) (h : ¬ i ∈ indicesOf n) : writeTable n i record s = (.badIndex, s) := by
  unfold writeTable
  split
  all_goals try (rw [mem_indices rfl] at h; exact atIndex_out _ _ _ _ (by omega))
  · rw [mem_indices rfl] at h
    rw [if_neg (by omega)]
  · rfl

/-- A record that its table's reader refuses is BADVALUE. -/
theorem writeTable_unread (n i : Nat) (record : List Byte) (s : State) (hi : i ∈ indicesOf n) (h1 : n = 1 → readDet record = none)
    (h2 : n = 2 → readCond record = none) (h3 : n = 3 → readMatch record = none) (h4 : n = 4 → readPlan record = none)
    (h5 : n = 5 → readCurve record = none) (h6 : n = 6 → readRamp record = none) (h7 : n = 7 → readLane record = none)
    (h8 : n = 8 → readOut record = none) (h9 : n = 9 → readAction record = none) (h10 : n = 10 → readSettings record = none) :
    writeTable n i record s = (.badValue, s) := by
  have hn : 1 ≤ n ∧ n ≤ 10 := by
    by_contra x
    have : ∃ m, n = m + 11 ∨ n = 0 := ⟨n - 11, by omega⟩
    obtain ⟨m, rfl | rfl⟩ := this <;> cases hi
  obtain ⟨a, b⟩ := hn
  have at0 : ∀ {k lo hi' : Nat} {f : Fin k → Result × State}, indexRange n = some (lo, hi') → hi' + 1 = lo + k → (∀ j, f j = (.badValue, s)) →
      atIndex lo i s f = (.badValue, s) := fun e h f => atIndex_const (by rw [mem_indices e] at hi; omega) _ f
  interval_cases n
  · exact at0 rfl rfl fun j => by rw [h1 rfl]; rfl
  · exact at0 rfl rfl fun j => by rw [h2 rfl]; rfl
  · exact at0 rfl rfl fun j => by rw [h3 rfl]; rfl
  · exact at0 rfl rfl fun j => by rw [h4 rfl]; rfl
  · exact at0 rfl rfl fun j => by rw [h5 rfl]; rfl
  · exact at0 rfl rfl fun j => by rw [h6 rfl]; rfl
  · exact at0 rfl rfl fun j => by rw [h7 rfl]; rfl
  · exact at0 rfl rfl fun j => by rw [h8 rfl]; rfl
  · exact at0 rfl rfl fun j => by rw [h9 rfl]; rfl
  · rw [mem_indices rfl] at hi
    show (if i = 0 then _ else _) = _
    rw [if_pos (by omega), h10 rfl]; rfl

/-! ### Clears -/

/-- A clear is judged for its lock, then made. -/
theorem clearTested_judged {α : Type} {stored : Option α} {locked : Bool} {put : Option α → State → State} {s : State} {L : Prop}
    (h : locked = true ↔ L) : (L → clearTested stored locked put s = (.inUse, s))
    ∧ (¬ L → clearTested stored locked put s = (.done, if stored.isSome then put none s else s)) := by
  unfold clearTested
  refine ⟨fun l => if_pos (h.2 l), fun l => ?_⟩
  rw [if_neg fun x => l (h.1 x)]
  cases stored <;> rfl

theorem clearTable_outside (n i : Nat) (s : State) (h : ¬ i ∈ indicesOf n) : clearTable n i s = (.badIndex, s) := by
  unfold clearTable
  split
  all_goals try (rw [mem_indices rfl] at h; exact atIndex_out _ _ _ _ (by omega))
  · rw [mem_indices rfl] at h
    rw [if_neg (by omega)]
  · rfl

/-- A TABLE CLEAR is answered with its outcome. -/
theorem clearing {own src : Nat} {s : State} (hs : Serves own src s) (t i : Byte) (x : Reply)
    (h : tableClear t i (heard s) = x) : exec (.tableClear src t i) s = .next (respond src [4, t, i] x) :=
  served hs 4 [t, i] (by show 2 ≤ 47; omega) x (by rw [handle_tableClear]; exact h)

theorem cleared {own src : Nat} {s : State} (hs : Serves own src s) (t i : Byte) {L : Prop} {u : State}
    (h : (L → clearTable t.toNat i.toNat (heard s) = (.inUse, heard s))
      ∧ (¬ L → clearTable t.toNat i.toNat (heard s) = (.done, u))) :
    (L → exec (.tableClear src t i) s = .next (respond src [4, t, i] (refuse .inUse (heard s))))
    ∧ (¬ L → exec (.tableClear src t i) s = .next (respond src [4, t, i] (answer [t, i] u))) := by
  have k := clearing hs t i
  unfold tableClear at k
  generalize heard s = w at h k
  exact ⟨fun l => k _ (by rw [h.1 l]; rfl), fun l => k _ (by rw [h.2 l]; rfl)⟩

theorem cleared_outside {own src : Nat} {s : State} (hs : Serves own src s) (t i : Byte) (h : ¬ i.toNat ∈ indicesOf t.toNat) :
    exec (.tableClear src t i) s = .next (respond src [4, t, i] (refuse .badIndex (heard s))) := by
  have k := clearing hs t i
  have x := clearTable_outside t.toNat i.toNat (heard s) h
  unfold tableClear at k
  generalize heard s = w at x k
  exact k _ (by rw [x]; rfl)

end Sys2Proof.Machine
end

