-- ==== Sys2Proof/Laws/PerInstr.lean ====
section
/-! SUPPORT. What holds of every row of the table as syntax, a lemma for each constructor. RequestFits: a well-formed
row that is a management request comes from a station of the ring, carries a request code of 1 to 14, and its CMD
payload fits the 48 bytes of a frame. -/

namespace Sys2Proof.Laws.RequestFits

open Sys2Proof Sys2Proof.Machine

/-- The property of one row. -/
def Statement (i : Instr) : Prop :=
  i.wellFormed = true → ∀ x, requestRow i = some x →
    stationOk x.1 = true ∧ 1 ≤ x.2.1.toNat ∧ x.2.1.toNat ≤ 14 ∧ x.2.2.length + 1 ≤ 48

theorem ofRow (i : Instr) (hc : ∀ x, requestRow i = some x → 1 ≤ x.2.1.toNat ∧ x.2.1.toNat ≤ 14) : Statement i := by
  intro hw x hx
  obtain ⟨h1, h2⟩ := requestRow_fits (code := x.2.1) (fields := x.2.2) (src := x.1) hw hx
  exact ⟨h1, (hc x hx).1, (hc x hx).2, by omega⟩

theorem ofEvent (i : Instr) (h : requestRow i = none) : Statement i := fun _ x hx => by
  rw [h] at hx; exact absurd hx (by simp)

theorem powerOnReset (straps : BitVec 6) : Statement (.powerOnReset straps) := ofEvent _ rfl

theorem runReset (src : Nat) : Statement (.runReset src) :=
  ofRow _ fun _ hx => by cases hx; exact ⟨Nat.le_of_ble_eq_true rfl, Nat.le_of_ble_eq_true rfl⟩

theorem frameArrival (bytes : List Byte) : Statement (.frameArrival bytes) := ofEvent _ rfl

theorem identify (src : Nat) : Statement (.identify src) :=
  ofRow _ fun _ hx => by cases hx; exact ⟨Nat.le_of_ble_eq_true rfl, Nat.le_of_ble_eq_true rfl⟩

theorem tableWrite (src : Nat) (table index : Byte) (record : List Byte) : Statement (.tableWrite src table index record) :=
  ofRow _ fun _ hx => by cases hx; exact ⟨Nat.le_of_ble_eq_true rfl, Nat.le_of_ble_eq_true rfl⟩

theorem tableRead (src : Nat) (table index : Byte) : Statement (.tableRead src table index) :=
  ofRow _ fun _ hx => by cases hx; exact ⟨Nat.le_of_ble_eq_true rfl, Nat.le_of_ble_eq_true rfl⟩

theorem tableClear (src : Nat) (table index : Byte) : Statement (.tableClear src table index) :=
  ofRow _ fun _ hx => by cases hx; exact ⟨Nat.le_of_ble_eq_true rfl, Nat.le_of_ble_eq_true rfl⟩

theorem tableCheck (src : Nat) (table : Byte) : Statement (.tableCheck src table) :=
  ofRow _ fun _ hx => by cases hx; exact ⟨Nat.le_of_ble_eq_true rfl, Nat.le_of_ble_eq_true rfl⟩

theorem rampModeAuto (src : Nat) (ramp : Byte) : Statement (.rampModeAuto src ramp) :=
  ofRow _ fun _ hx => by cases hx; exact ⟨Nat.le_of_ble_eq_true rfl, Nat.le_of_ble_eq_true rfl⟩

theorem rampModeOff (src : Nat) (ramp : Byte) : Statement (.rampModeOff src ramp) :=
  ofRow _ fun _ hx => by cases hx; exact ⟨Nat.le_of_ble_eq_true rfl, Nat.le_of_ble_eq_true rfl⟩

theorem arm (src : Nat) (ramp source setting : Byte) : Statement (.arm src ramp source setting) :=
  ofRow _ fun _ hx => by cases hx; exact ⟨Nat.le_of_ble_eq_true rfl, Nat.le_of_ble_eq_true rfl⟩

theorem assertSource (src : Nat) (ramp source : Byte) (lease : BitVec 16) : Statement (.assertSource src ramp source lease) :=
  ofRow _ fun _ hx => by cases hx; exact ⟨Nat.le_of_ble_eq_true rfl, Nat.le_of_ble_eq_true rfl⟩

theorem releaseSource (src : Nat) (ramp source : Byte) : Statement (.releaseSource src ramp source) :=
  ofRow _ fun _ hx => by cases hx; exact ⟨Nat.le_of_ble_eq_true rfl, Nat.le_of_ble_eq_true rfl⟩

theorem status (src : Nat) (ramp sect : Byte) : Statement (.status src ramp sect) :=
  ofRow _ fun _ hx => by cases hx; exact ⟨Nat.le_of_ble_eq_true rfl, Nat.le_of_ble_eq_true rfl⟩

theorem detectors (src : Nat) (first count : Byte) : Statement (.detectors src first count) :=
  ofRow _ fun _ hx => by cases hx; exact ⟨Nat.le_of_ble_eq_true rfl, Nat.le_of_ble_eq_true rfl⟩

theorem counts (src : Nat) (ramp : Byte) : Statement (.counts src ramp) :=
  ofRow _ fun _ hx => by cases hx; exact ⟨Nat.le_of_ble_eq_true rfl, Nat.le_of_ble_eq_true rfl⟩

theorem clearFault (src : Nat) (ramp : Byte) : Statement (.clearFault src ramp) :=
  ofRow _ fun _ hx => by cases hx; exact ⟨Nat.le_of_ble_eq_true rfl, Nat.le_of_ble_eq_true rfl⟩

theorem filterTimerExpiry (ch : Channel) : Statement (.filterTimerExpiry ch) := ofEvent _ rfl

theorem silenceTimerExpiry (ch : Channel) : Statement (.silenceTimerExpiry ch) := ofEvent _ rfl

theorem stuckTimerExpiry (ch : Channel) : Statement (.stuckTimerExpiry ch) := ofEvent _ rfl

theorem windowClose : Statement (.windowClose) := ofEvent _ rfl

theorem warnExpiry (r : Ramp) : Statement (.warnExpiry r) := ofEvent _ rfl

theorem startGreenExpiry (r : Ramp) : Statement (.startGreenExpiry r) := ofEvent _ rfl

theorem startYellowExpiry (r : Ramp) : Statement (.startYellowExpiry r) := ofEvent _ rfl

theorem startRedExpiry (r : Ramp) : Statement (.startRedExpiry r) := ofEvent _ rfl

theorem shutdownFlushExpiry (r : Ramp) : Statement (.shutdownFlushExpiry r) := ofEvent _ rfl

theorem slotBoundary (r : Ramp) : Statement (.slotBoundary r) := ofEvent _ rfl

theorem delayEnd (l : Lane) : Statement (.delayEnd l) := ofEvent _ rfl

theorem maximumGreen (l : Lane) : Statement (.maximumGreen l) := ofEvent _ rfl

theorem minimumGreenPoint (l : Lane) : Statement (.minimumGreenPoint l) := ofEvent _ rfl

theorem yellowEnd (l : Lane) : Statement (.yellowEnd l) := ofEvent _ rfl

theorem redEnd (l : Lane) : Statement (.redEnd l) := ofEvent _ rfl

theorem holdExpiry (r : Ramp) : Statement (.holdExpiry r) := ofEvent _ rfl

theorem leaseExpiry (r : Ramp) (c : Central) : Statement (.leaseExpiry r c) := ofEvent _ rfl

theorem lineInputChange (line : Line) (level : Bool) : Statement (.lineInputChange line level) := ofEvent _ rfl

theorem debounceExpiry (line : Line) : Statement (.debounceExpiry line) := ofEvent _ rfl

theorem onTimerExpiry (ch : Channel) : Statement (.onTimerExpiry ch) := ofEvent _ rfl

theorem clearTimerExpiry (r : Ramp) : Statement (.clearTimerExpiry r) := ofEvent _ rfl

theorem mismatchTimerExpiry (ch : OutCh) : Statement (.mismatchTimerExpiry ch) := ofEvent _ rfl

theorem driverSilenceExpiry (station : Nat) : Statement (.driverSilenceExpiry station) := ofEvent _ rfl

theorem refreshTimerExpiry (station : Nat) : Statement (.refreshTimerExpiry station) := ofEvent _ rfl

theorem syncTimerExpiry : Statement (.syncTimerExpiry) := ofEvent _ rfl

theorem quietTimerExpiry : Statement (.quietTimerExpiry) := ofEvent _ rfl

theorem sendingEnd : Statement (.sendingEnd) := ofEvent _ rfl

end Sys2Proof.Laws.RequestFits
end

