-- ==== Sys2Proof/Laws/RecordValues.lean ====
section
/-! SUPPORT. Which records a table's reader takes: what it reads is `Allowed`, and the written form of every record that
is `Allowed` is read. -/

namespace Sys2Proof.Machine

/-! ### Fields -/

theorem within_of {lo hi n : Nat} (h : lo ≤ n ∧ n ≤ hi) : within lo hi n = some n := if_pos h

theorem num16_bytes {n : Nat} (h : n < 65536) : num16 (BitVec.ofNat 8 (n / 256)) (BitVec.ofNat 8 n) = n := by
  unfold num16; rw [BitVec.toNat_ofNat, BitVec.toNat_ofNat]; omega

theorem num16_lt (a b : Byte) : num16 a b < 65536 := by
  unfold num16; have := a.isLt; have := b.isLt; omega

theorem asFin_val {n : Nat} (k : Fin n) : asFin n k.val = some k := by unfold asFin; rw [dif_pos k.isLt]

theorem asLane_laneNumber (l : Lane) : asLane (laneNumber l) = some l := by revert l; decide

theorem laneNumber_ne (l : Lane) : laneNumber l ≠ 0#8 := by revert l; decide

theorem roleOf_roleCode (r : Role) : roleOf (roleCode r) = some r := by cases r <;> rfl

theorem optional_optByte {n : Nat} (hn : n ≤ 255) (x : Option (Fin n)) :
    Machine.optional 255#8 (fun b => asFin n b.toNat) (optByte x) = some x := by
  unfold Machine.optional optByte
  cases x with
  | none => rfl
  | some k =>
    have := k.isLt
    have e := byte_toNat (n := k.val) (by omega)
    dsimp only
    rw [if_neg, e, asFin_val]
    · rfl
    · intro h; rw [h] at e; simp at e; omega

theorem readAll_map {α : Type} {f : Byte → Option α} {g : α → Byte} (h : ∀ x, f (g x) = some x) (xs : List α) :
    readAll f (xs.map g) = some xs := by
  induction xs with
  | nil => rfl
  | cons x xs ih => rw [List.map_cons, readAll, h, ih]; rfl

/-- The role's demands (R2). -/
theorem roleOk_iff (d : DetRec) : roleOk d.role d.ramps d.lane = true ↔
    (d.role = .mainline → d.ramps ≠ 0#4)
    ∧ (d.role = .queue ∨ d.role = .spillback → ∃ r : Ramp, ∀ q : Ramp, d.ramps.getLsbD q.val = decide (q = r))
    ∧ (d.role = .demand ∨ d.role = .passage → d.ramps = 0#4)
    ∧ (d.lane ≠ none ↔ d.role = .demand ∨ d.role = .passage) := by
  have one : ∀ x : BitVec 4, (setSize x == 1) = true ↔ ∃ r : Ramp, ∀ q : Ramp, x.getLsbD q.val = decide (q = r) := by decide
  have zero : ∀ x : BitVec 4, (setSize x == 0) = true ↔ x = 0#4 := by decide
  have none0 : ∀ x : BitVec 4, (setSize x != 0) = true ↔ x ≠ 0#4 := by decide
  unfold roleOk
  cases d.role <;> cases d.lane <;> simp [one, zero, none0]

/-! ### What a record that is read holds, and that every such record is read -/

theorem readDet_allowed {l : List Byte} {d : DetRec} (h : readDet l = some d) : d.Allowed := by
  unfold readDet at h; split at h
  · simp only [Option.bind_eq_bind, Option.bind_eq_some_iff, Option.ite_none_right_eq_some, Option.some.injEq] at h
    obtain ⟨a, ha, b, hb, c, hc, e, he, f, hf, g, hg, i, hi, j, hj, k, hk, m, hm, hr, rfl⟩ := h
    obtain ⟨rfl, wa⟩ := within_spec ha
    obtain ⟨rfl, wb⟩ := within_spec hb
    obtain ⟨rfl, wg⟩ := within_spec hg
    obtain ⟨rfl, wi⟩ := within_spec hi
    obtain ⟨rfl, wj⟩ := within_spec hj
    have q := (roleOk_iff ⟨0, 0, c, BitVec.ofNat 4 e, f, 0, 0, 0, k, m⟩).1 hr
    exact ⟨wa, wb.2, wg.2, wi, wj, q.1, q.2.1, q.2.2.1, q.2.2.2⟩
  · cases h

theorem readDet_writeDet {d : DetRec} (h : d.Allowed) : readDet (writeDet d) = some d := by
  have lane : ∀ l : Lane, Machine.optional 0#8 asLane (laneNumber l) = some (some l) := fun l => by
    unfold Machine.optional; rw [if_neg (laneNumber_ne l), asLane_laneNumber]; rfl
  have hr := (roleOk_iff d).2 ⟨h.mainline, h.oneRamp, h.noRamp, h.lane⟩
  have x := d.ramps.isLt
  have e : BitVec.ofNat 4 d.ramps.toNat = d.ramps := by simp
  have h1 := h.station; have h2 := h.input; have h3 := h.filter; have h4 := h.stuckLimit; have h5 := h.chatterLimit
  unfold writeDet readDet be16
  simp only [List.cons_append, List.nil_append]
  rw [byte_toNat (by omega), byte_toNat (by omega), byte_toNat (by omega), byte_toNat (by omega), byte_toNat (by omega),
    num16_bytes (by omega), within_of h1, within_of ⟨Nat.zero_le _, h2⟩, within_of ⟨Nat.zero_le _, by omega⟩,
    within_of ⟨Nat.zero_le _, h3⟩, within_of h4, within_of h5, roleOf_roleCode, asBool_byte, asBool_byte]
  simp only [Option.bind_eq_bind, Option.bind_some]
  generalize ex : Machine.optional 0#8 asLane _ = y
  have : y = some d.lane := by
    rw [← ex]
    cases d.lane with
    | none => rfl
    | some l => exact lane l
  rw [this, Option.bind_some, e, if_pos hr]

theorem bandOk_iff (c : CondRec) : bandOk c.flow c.below c.threshold c.hysteresis = true ↔
    (c.flow = false → c.threshold ≤ 1000 ∧ c.hysteresis ≤ 1000) ∧ (c.flow = true → c.threshold ≤ 9000 ∧ c.hysteresis ≤ 9000)
    ∧ (c.below = false → c.hysteresis ≤ c.threshold)
    ∧ (c.below = true → c.flow = false → c.threshold + c.hysteresis ≤ 1000)
    ∧ (c.below = true → c.flow = true → c.threshold + c.hysteresis ≤ 9000) := by
  unfold bandOk
  cases c.flow <;> cases c.below <;> simp [and_assoc]

theorem readCond_allowed {l : List Byte} {c : CondRec} (h : readCond l = some c) : c.Allowed := by
  have w := writeCond_readCond h
  unfold readCond at h; split at h
  · cases h
  · next k rest =>
    obtain ⟨chans, hch, h⟩ := bind_some h
    split at h
    · next m cm t1 t0 h1 h0 sub force e =>
      simp only [Option.bind_eq_bind, Option.bind_eq_some_iff, Option.ite_none_right_eq_some, Option.some.injEq] at h
      obtain ⟨a, ha, b, hb, cc, hc, e', he, ⟨h1, h2, h3, h4⟩, rfl⟩ := h
      have hm := readAll_spec (g := fun ch : Channel => byte ch.val)
        (fun b x hx => by rw [asFin_spec hx, byte_of_toNat]) _ _ hch
      have hl : chans.length = k.toNat := by
        rw [← List.length_map (f := fun ch : Channel => byte ch.val), hm, List.length_take]
        have : (rest.drop k.toNat).length = 8 := by rw [e]; rfl
        rw [List.length_drop] at this; omega
      have q := (bandOk_iff ⟨chans, a, b, _, _, cc, e'⟩).1 h4
      exact ⟨by rw [hl]; exact ⟨h1, h2⟩, h3, q.1, q.2.1, q.2.2.1, q.2.2.2.1, q.2.2.2.2⟩
    · cases h

theorem readCond_writeCond {c : CondRec} (h : c.Allowed) : readCond (writeCond c) = some c := by
  have hb := (bandOk_iff c).2 ⟨h.occupancy, h.flow, h.above, h.belowOccupancy, h.belowFlow⟩
  have hc := h.count
  have ht : c.threshold < 65536 ∧ c.hysteresis < 65536 := by
    have := h.occupancy; have := h.flow
    cases e : c.flow <;> simp_all <;> omega
  unfold writeCond be16
  simp only [List.cons_append, List.nil_append, List.append_assoc]
  unfold readCond
  dsimp only
  rw [byte_toNat (by omega)]
  have t := List.take_left' (l₁ := c.chans.map fun ch => byte ch.val)
    (l₂ := boolByte c.flow :: boolByte c.below :: BitVec.ofNat 8 (c.threshold / 256) :: BitVec.ofNat 8 c.threshold ::
      BitVec.ofNat 8 (c.hysteresis / 256) :: BitVec.ofNat 8 c.hysteresis :: [boolByte c.subst, boolByte c.force])
    (i := c.chans.length) (by simp)
  have d := List.drop_left' (l₁ := c.chans.map fun ch => byte ch.val)
    (l₂ := boolByte c.flow :: boolByte c.below :: BitVec.ofNat 8 (c.threshold / 256) :: BitVec.ofNat 8 c.threshold ::
      BitVec.ofNat 8 (c.hysteresis / 256) :: BitVec.ofNat 8 c.hysteresis :: [boolByte c.subst, boolByte c.force])
    (i := c.chans.length) (by simp)
  rw [t, d, readAll_map fun ch : Channel => ?_]
  · simp only [Option.bind_eq_bind, Option.bind_some, asBool_byte]
    rw [num16_bytes ht.1, num16_bytes ht.2, if_pos ⟨hc.1, hc.2, h.distinct, hb⟩]
  · have := ch.isLt
    rw [byte_toNat (by omega), asFin_val]

theorem readMatch_allowed {l : List Byte} {m : MatchRec} (h : readMatch l = some m) : m.Allowed := by
  unfold readMatch at h; split at h
  · obtain ⟨a, ha, h⟩ := bind_some h
    obtain ⟨b, hb, h⟩ := bind_some h
    cases h
    obtain ⟨rfl, wa⟩ := within_spec ha
    refine ⟨wa.2, fun n e => ?_⟩
    dsimp only at e
    rcases optional_spec hb with ⟨_, k⟩ | ⟨_, y, k, hy⟩
    · rw [k] at e; cases e
    · rw [k] at e; cases e; obtain ⟨rfl, wy⟩ := within_spec hy; exact wy
  · cases h

theorem append_be16 (x : BitVec 16) : BitVec.ofNat 8 (x.toNat / 256) ++ BitVec.ofNat 8 x.toNat = x := by
  apply BitVec.eq_of_toNat_eq
  rw [BitVec.toNat_append, ← Nat.shiftLeft_add_eq_or_of_lt (BitVec.isLt _), Nat.shiftLeft_eq, BitVec.toNat_ofNat,
    BitVec.toNat_ofNat]
  have := x.isLt; omega

theorem readMatch_writeMatch {m : MatchRec} (h : m.Allowed) : readMatch (writeMatch m) = some m := by
  have h1 := h.plan
  have p : Machine.optional 0#8 (fun b => within 1 10 b.toNat) (byte (m.persistence.getD 0)) = some m.persistence := by
    unfold Machine.optional
    cases e : m.persistence with
    | none => rfl
    | some n =>
      have q := h.persistence n e
      have b := byte_toNat (n := n) (by omega)
      rw [if_neg]
      · dsimp only; rw [Option.getD_some, b, within_of q]; rfl
      · intro x; rw [Option.getD_some] at x; rw [x] at b; simp at b; omega
  unfold writeMatch readMatch be16
  simp only [List.cons_append, List.nil_append]
  rw [byte_toNat (by omega), within_of ⟨Nat.zero_le _, h1⟩, p, append_be16, append_be16]
  rfl

theorem readPattern_period {l : List Byte} {x : Nat × Vector (BitVec 16) 4 × Bool} (h : readPattern l = some x) :
    1 ≤ x.1 ∧ x.1 ≤ 16 := by
  unfold readPattern at h; split at h
  · obtain ⟨p, hp, h⟩ := bind_some h
    obtain ⟨c, _, h⟩ := bind_some h
    split at h
    · cases h; obtain ⟨rfl, w⟩ := within_spec hp; exact w
    · cases h
  · cases h

theorem readAdaptive_allowed {p : Byte} {slot : Nat} {l : List Byte} {a : Adaptive} (h : readAdaptive p slot l = some a) :
    (20 ≤ a.minSlot ∧ a.minSlot ≤ slot) ∧ (slot ≤ a.maxSlot ∧ a.maxSlot ≤ 150) ∧ (1 ≤ a.curve ∧ a.curve ≤ 8)
    ∧ a.reliefStep ≤ 20 ∧ a.reliefHyst ≤ 200 ∧ ∀ t : Nat, a.queueThreshold = some t → t ≤ 1000 ∧ a.reliefHyst ≤ t := by
  unfold readAdaptive at h
  dsimp only at h
  split at h
  · obtain ⟨m1, g1, h⟩ := bind_some h
    obtain ⟨m2, g2, h⟩ := bind_some h
    obtain ⟨m3, g3, h⟩ := bind_some h
    obtain ⟨m4, g4, h⟩ := bind_some h
    obtain ⟨m5, g5, h⟩ := bind_some h
    obtain ⟨m6, g6, h⟩ := bind_some h
    obtain ⟨rfl, w1⟩ := within_spec g1
    obtain ⟨rfl, w2⟩ := within_spec g2
    obtain ⟨rfl, w3⟩ := within_spec g3
    obtain ⟨rfl, w4⟩ := within_spec g4
    obtain ⟨rfl, w5⟩ := within_spec g5
    obtain ⟨-, w6⟩ := within_spec g6
    split at h
    · obtain ⟨m7, g7, h⟩ := bind_some h
      obtain ⟨m8, g8, h⟩ := bind_some h
      obtain ⟨rfl, w7⟩ := within_spec g7
      obtain ⟨-, w8⟩ := within_spec g8
      cases h
      exact ⟨⟨w1.1, w6.1⟩, ⟨w6.2, w2.2⟩, w3, w4.2, w5.2, fun t e => by cases e; exact ⟨w7.2, w8.2⟩⟩
    · cases h
      exact ⟨⟨w1.1, w6.1⟩, ⟨w6.2, w2.2⟩, w3, w4.2, w5.2, fun t e => by cases e⟩
  · cases h

theorem readPlan_allowed {l : List Byte} {d : PlanRec} (h : readPlan l = some d) : d.Allowed := by
  unfold readPlan at h; split at h
  · obtain ⟨am, g1, h⟩ := bind_some h
    obtain ⟨sl, g2, h⟩ := bind_some h
    obtain ⟨pat, g3, h⟩ := bind_some h
    obtain ⟨rfl, w⟩ := within_spec g2
    have hp := readPattern_period g3
    cases am with
    | true =>
      rw [if_pos rfl] at h
      dsimp only at h
      split at h
      · cases h
      · obtain ⟨a, g4, h⟩ := bind_some h
        cases h
        have q := readAdaptive_allowed g4
        exact ⟨w, hp, fun b e => by cases e; exact q.1, fun b e => by cases e; exact q.2.1,
          fun b e => by cases e; exact q.2.2.1, fun b e => by cases e; exact q.2.2.2.1,
          fun b e => by cases e; exact q.2.2.2.2.1, fun b t e => by cases e; exact q.2.2.2.2.2 t⟩
    | false =>
      rw [if_neg (by simp)] at h
      split at h
      · cases h
        exact ⟨w, hp, fun b e => (by cases e), fun b e => (by cases e), fun b e => (by cases e), fun b e => (by cases e),
          fun b e => (by cases e), fun b t e => (by cases e)⟩
      · cases h
  · cases h

theorem readPattern_bytes (p : PlanRec) (h : 1 ≤ p.period ∧ p.period ≤ 16) :
    readPattern ([byte p.period, 4#8] ++ p.masks.toList.flatMap (fun m => be16 m.toNat) ++ [boolByte p.coordinated])
      = some (p.period, p.masks, p.coordinated) := by
  obtain ⟨slot, ad, period, masks, coord⟩ := p
  have e : masks = #v[masks[0], masks[1], masks[2], masks[3]] := by
    apply Vector.ext; intro i hi
    match i, hi with
    | 0, _ => rfl
    | 1, _ => rfl
    | 2, _ => rfl
    | 3, _ => rfl
  dsimp only at h ⊢
  generalize masks[0] = a at e; generalize masks[1] = b at e; generalize masks[2] = c at e
  generalize masks[3] = d at e
  subst e
  have l : ([byte period, 4#8] ++ (#v[a, b, c, d]).toList.flatMap (fun m => be16 m.toNat) ++ [boolByte coord])
      = [byte period, 4#8, BitVec.ofNat 8 (a.toNat / 256), BitVec.ofNat 8 a.toNat, BitVec.ofNat 8 (b.toNat / 256),
        BitVec.ofNat 8 b.toNat, BitVec.ofNat 8 (c.toNat / 256), BitVec.ofNat 8 c.toNat, BitVec.ofNat 8 (d.toNat / 256),
        BitVec.ofNat 8 d.toNat, boolByte coord] := rfl
  rw [l]
  unfold readPattern; dsimp only
  rw [byte_toNat (by omega), within_of h, asBool_byte]
  simp only [Option.bind_eq_bind, Option.bind_some, append_be16]
  rfl

theorem readAdaptive_bytes {a : Adaptive} {slot : Nat} (h1 : 20 ≤ a.minSlot ∧ a.minSlot ≤ slot)
    (h2 : slot ≤ a.maxSlot ∧ a.maxSlot ≤ 150) (h3 : 1 ≤ a.curve ∧ a.curve ≤ 8) (h4 : a.reliefStep ≤ 20)
    (h5 : a.reliefHyst ≤ 200) (h6 : ∀ t : Nat, a.queueThreshold = some t → t ≤ 1000 ∧ a.reliefHyst ≤ t) :
    readAdaptive (if a.queueThreshold.isSome then 0x3F#8 else 0x37#8) slot (writeAdaptive a) = some a := by
  obtain ⟨mn, mx, cu, q, st, hy⟩ := a
  dsimp only at *
  have w1 := within_of (lo := 20) (hi := 150) (n := mn) (by omega)
  have w2 := within_of (lo := 20) (hi := 150) (n := mx) (by omega)
  have w3 := within_of h3
  have w4 := within_of (lo := 0) ⟨Nat.zero_le _, h4⟩
  have w5 := within_of (lo := 0) ⟨Nat.zero_le _, h5⟩
  have w6 := within_of (lo := mn) (hi := mx) (n := slot) ⟨h1.2, h2.1⟩
  cases q with
  | none =>
    show readAdaptive 0x37#8 slot [byte mn, byte mx, byte cu, byte st, byte hy] = _
    unfold readAdaptive takeIf
    simp only [show (0x37#8).getLsbD 0 = true from rfl, show (0x37#8).getLsbD 1 = true from rfl,
      show (0x37#8).getLsbD 2 = true from rfl, show (0x37#8).getLsbD 3 = false from rfl,
      show (0x37#8).getLsbD 4 = true from rfl, show (0x37#8).getLsbD 5 = true from rfl, if_true, Bool.false_eq_true,
      if_false, List.take_succ_cons, List.take_zero, List.drop_succ_cons, List.drop_zero]
    rw [byte_toNat (by omega), byte_toNat (by omega), byte_toNat (by omega), byte_toNat (by omega), byte_toNat (by omega),
      w1, w2, w3, w4, w5]
    simp only [Option.bind_eq_bind, Option.bind_some, w6]
    rfl
  | some t =>
    have g := h6 t rfl
    show readAdaptive 0x3F#8 slot ([byte mn, byte mx, byte cu] ++ be16 t ++ [byte st, byte hy]) = _
    unfold readAdaptive takeIf be16
    simp only [show (0x3F#8).getLsbD 0 = true from rfl, show (0x3F#8).getLsbD 1 = true from rfl,
      show (0x3F#8).getLsbD 2 = true from rfl, show (0x3F#8).getLsbD 3 = true from rfl,
      show (0x3F#8).getLsbD 4 = true from rfl, show (0x3F#8).getLsbD 5 = true from rfl, if_true, List.cons_append,
      List.nil_append, List.take_succ_cons, List.take_zero, List.drop_succ_cons, List.drop_zero]
    rw [byte_toNat (by omega), byte_toNat (by omega), byte_toNat (by omega), byte_toNat (by omega), byte_toNat (by omega),
      num16_bytes (by omega), w1, w2, w3, w4, w5]
    simp only [Option.bind_eq_bind, Option.bind_some, w6, within_of ⟨Nat.zero_le _, g.1⟩, within_of ⟨Nat.zero_le _, g.2⟩]
    rfl

theorem readPlan_writePlan {p : PlanRec} (h : p.Allowed) : readPlan (writePlan p) = some p := by
  have pt := readPattern_bytes p h.period
  have hs := h.slot
  have ws := within_of hs
  cases e : p.adaptive with
  | none =>
    have w : writePlan p = 0#8 :: 0#8 :: byte p.slot :: ([byte p.period, 4#8]
        ++ p.masks.toList.flatMap (fun m => be16 m.toNat) ++ [boolByte p.coordinated]) := by
      unfold writePlan presenceByte; rw [e]; rfl
    rw [w]; unfold readPlan; dsimp only
    rw [show presentLength 0#8 = 0 from rfl, List.drop_zero, pt, byte_toNat (by omega), ws]
    show some (⟨p.slot, none, p.period, p.masks, p.coordinated⟩ : PlanRec) = _
    rw [← e]
  | some a =>
    have hl : (writeAdaptive a).length = presentLength (if a.queueThreshold.isSome then 0x3F#8 else 0x37#8) := by
      unfold writeAdaptive; cases a.queueThreshold with
      | none => rfl
      | some t => simp only [be16, Option.isSome_some, if_true]; rfl
    have w : writePlan p = 1#8 :: (if a.queueThreshold.isSome then 0x3F#8 else 0x37#8) :: byte p.slot :: (writeAdaptive a
        ++ ([byte p.period, 4#8] ++ p.masks.toList.flatMap (fun m => be16 m.toNat) ++ [boolByte p.coordinated])) := by
      unfold writePlan presenceByte; rw [e]; dsimp only; simp [boolByte]
    have ra := readAdaptive_bytes (h.shortest a e) (h.longest a e) (h.curve a e) (h.step a e) (h.hysteresis a e)
      fun t k => h.threshold a t e k
    have nb : ¬ ((if a.queueThreshold.isSome then 0x3F#8 else 0x37#8 : Byte).getLsbD 6 = true
        ∨ (if a.queueThreshold.isSome then 0x3F#8 else 0x37#8 : Byte).getLsbD 7 = true) := by
      cases a.queueThreshold with
      | none => decide
      | some t => simp only [Option.isSome_some, if_true]; decide
    rw [w]; unfold readPlan; dsimp only
    generalize (if a.queueThreshold.isSome then 0x3F#8 else 0x37#8 : Byte) = pb at *
    rw [← hl, List.drop_left' rfl, List.take_left' rfl, pt, byte_toNat (by omega), ws]
    simp only [Option.bind_eq_bind, show asBool 1#8 = some true from rfl, Option.bind_some, if_true]
    rw [if_neg nb, ra]
    show some (⟨p.slot, some a, p.period, p.masks, p.coordinated⟩ : PlanRec) = _
    rw [← e]

theorem readRamp_allowed {l : List Byte} {d : RampRec} (h : readRamp l = some d) : d.Allowed := by
  unfold readRamp at h; split at h
  · cases h
  · next k rest =>
    obtain ⟨lanes, hch, h⟩ := bind_some h
    split at h
    · next beacon dplan w1 w0 sg sy sr f1 f0 o1 o0 pre pan on1 on0 cl1 cl0 e =>
      obtain ⟨a1, g1, h⟩ := bind_some h
      obtain ⟨a2, g2, h⟩ := bind_some h
      obtain ⟨a3, g3, h⟩ := bind_some h
      obtain ⟨a4, g4, h⟩ := bind_some h
      obtain ⟨a5, g5, h⟩ := bind_some h
      obtain ⟨a6, g6, h⟩ := bind_some h
      obtain ⟨a7, g7, h⟩ := bind_some h
      obtain ⟨a8, g8, h⟩ := bind_some h
      obtain ⟨a9, g9, h⟩ := bind_some h
      obtain ⟨a10, g10, h⟩ := bind_some h
      obtain ⟨a11, g11, h⟩ := bind_some h
      obtain ⟨a12, g12, h⟩ := bind_some h
      split at h
      · next hc =>
        obtain ⟨h1, h2, h3⟩ := hc
        cases h
        have hm := readAll_spec (g := laneNumber) (fun b x hx => (asLane_spec hx).1) _ _ hch
        have hl : lanes.length = k.toNat := by
          rw [← List.length_map (f := laneNumber), hm, List.length_take]
          have : (rest.drop k.toNat).length = 17 := by rw [e]; rfl
          rw [List.length_drop] at this; omega
        obtain ⟨rfl, w2⟩ := within_spec g2
        obtain ⟨rfl, w3⟩ := within_spec g3
        obtain ⟨rfl, w4⟩ := within_spec g4
        obtain ⟨rfl, w5⟩ := within_spec g5
        obtain ⟨rfl, w6⟩ := within_spec g6
        obtain ⟨rfl, w7⟩ := within_spec g7
        obtain ⟨rfl, w8⟩ := within_spec g8
        obtain ⟨rfl, w11⟩ := within_spec g11
        obtain ⟨rfl, w12⟩ := within_spec g12
        exact ⟨by rw [hl]; exact ⟨h1, h2⟩, h3, w2.2, w3, w4, w5, w6, w7, w8.2, w11, w12⟩
      · cases h
    · cases h

theorem readRamp_writeRamp {c : RampRec} (h : c.Allowed) : readRamp (writeRamp c) = some c := by
  have h1 := h.count
  have h2 := h.defaultPlan; have h3 := h.warn; have h4 := h.startGreen; have h5 := h.startYellow
  have h6 := h.startRed; have h7 := h.shutFlush; have h8 := h.offset; have h9 := h.spillOn; have h10 := h.spillClear
  obtain ⟨tail, ht⟩ : ∃ t, t = [optByte c.beacon, byte c.defaultPlan] ++ be16 c.warn
    ++ [byte c.startGreen, byte c.startYellow, byte c.startRed] ++ be16 c.shutFlush ++ be16 c.offset
    ++ [optByte c.preLine, optByte c.panelLine] ++ be16 c.spillOn ++ be16 c.spillClear := ⟨_, rfl⟩
  have w : writeRamp c = byte c.lanes.length :: (c.lanes.map laneNumber ++ tail) := by
    rw [ht]; unfold writeRamp; simp
  rw [w]; unfold readRamp; dsimp only
  rw [byte_toNat (by omega), List.take_left' (by simp), List.drop_left' (by simp), readAll_map asLane_laneNumber, ht]
  simp only [be16, List.cons_append, List.nil_append]
  rw [optional_optByte (by omega), optional_optByte (by omega), optional_optByte (by omega)]
  rw [byte_toNat (by omega), byte_toNat (by omega), byte_toNat (by omega), byte_toNat (by omega)]
  rw [num16_bytes (by omega), num16_bytes (by omega), num16_bytes (by omega), num16_bytes (by omega), num16_bytes (by omega)]
  rw [within_of ⟨Nat.zero_le _, h2⟩, within_of h3, within_of h4, within_of h5, within_of h6, within_of h7,
    within_of ⟨Nat.zero_le _, h8⟩, within_of h9, within_of h10]
  simp only [Option.bind_eq_bind, Option.bind_some]
  rw [if_pos ⟨h1.1, h1.2, h.distinct⟩]

theorem readYellow_range {n m : Nat} (h : readYellow n = some m) : m = 0 ∨ 20 ≤ m ∧ m ≤ 50 := by
  unfold readYellow at h; split at h
  · cases h; exact Or.inl rfl
  · obtain ⟨rfl, w⟩ := within_spec h; exact Or.inr w

theorem readLane_allowed {l : List Byte} {d : LaneRec} (h : readLane l = some d) : d.Allowed := by
  unfold readLane at h; split at h
  · simp only [Option.bind_eq_bind, Option.bind_eq_some_iff, Option.ite_none_right_eq_some, Option.some.injEq] at h
    obtain ⟨a, ha, b, hb, c, hc, e, he, f, hf, g, hg, i, hi, j, hj, k, hk, m, hm, hp, rfl⟩ := h
    obtain ⟨rfl, wf⟩ := within_spec hf
    obtain ⟨rfl, wg⟩ := within_spec hg
    obtain ⟨rfl, wi⟩ := within_spec hi
    obtain ⟨rfl, wk⟩ := within_spec hk
    obtain ⟨rfl, wm⟩ := within_spec hm
    exact ⟨hp, wf.2, wg, wi, readYellow_range hj, wk, wm⟩
  · cases h

theorem readLane_writeLane {c : LaneRec} (h : c.Allowed) : readLane (writeLane c) = some c := by
  have h2 := h.delay; have h3 := h.maxGreen; have h4 := h.minGreen; have h5 := h.yellow; have h6 := h.minRed
  have h7 := h.vehicles
  have y : readYellow c.yellow = some c.yellow := by
    unfold readYellow; split
    · next e => rw [e]
    · next e => exact within_of (h5.resolve_left e)
  have i1 := c.head.isLt; have i2 := c.demand.isLt
  unfold writeLane readLane; dsimp only
  rw [byte_toNat (by omega), byte_toNat (by omega), byte_toNat (by omega), byte_toNat (by omega), byte_toNat (by omega),
    byte_toNat (by omega), byte_toNat (by omega), byte_toNat (by omega), asFin_val, asFin_val,
    optional_optByte (by omega), asBool_byte, within_of ⟨Nat.zero_le _, h2⟩, within_of h3, y, within_of h6, within_of h7]
  simp only [Option.bind_eq_bind, Option.bind_some, within_of h4]
  rw [if_pos h.passage, Bool.not_not]

theorem readOut_range {l : List Byte} {d : OutRec} (h : readOut l = some d) : 2 ≤ d.station ∧ d.station ≤ 62 := by
  unfold readOut at h; split at h
  · simp only [Option.bind_eq_bind, Option.bind_eq_some_iff, Option.pure_def, Option.some.injEq] at h
    obtain ⟨a, ha, b, hb, c, hc, e, he, rfl⟩ := h
    obtain ⟨rfl, w⟩ := within_spec ha
    exact w
  · cases h

theorem readOut_writeOut {o : OutRec} (h : 2 ≤ o.station ∧ o.station ≤ 62) : readOut (writeOut o) = some o := by
  have i := o.output.isLt
  unfold writeOut readOut; dsimp only
  rw [byte_toNat (by omega), byte_toNat (by omega), within_of h, asFin_val, asBool_byte, asBool_byte]
  rfl

theorem readAction_allowed {l : List Byte} {a : ActionRec} (h : readAction l = some a) : a.Allowed := by
  unfold readAction at h; split at h
  · obtain ⟨k, hk, h⟩ := bind_some h
    obtain ⟨c, hc, h⟩ := bind_some h
    cases h
    have plan : ∀ n, k = .plan n → 1 ≤ n ∧ n ≤ 32 := by
      rintro n rfl
      unfold kindOf at hk
      split at hk
      · split at hk <;> cases hk
      · split at hk <;> cases hk
      · split at hk <;> cases hk
      · obtain ⟨y, hy, e⟩ := Option.map_eq_some_iff.1 hk
        cases e
        obtain ⟨rfl, w⟩ := within_spec hy; exact w
      · cases hk
    have other : ∀ n : Nat, ∀ x : Nat, (if n = 0 then some none else (within 10 36000 n).map some) = some (some x) →
        10 ≤ x ∧ x ≤ 36000 := by
      intro n x e
      split at e
      · cases e
      · obtain ⟨y, hy, e⟩ := Option.map_eq_some_iff.1 e
        cases e; obtain ⟨rfl, w⟩ := within_spec hy; exact w
    refine ⟨plan, fun e => ?_, fun n e e' => ?_⟩
    · dsimp only at e ⊢
      subst e
      obtain ⟨y, hy, e⟩ := Option.map_eq_some_iff.1 hc
      obtain ⟨rfl, w⟩ := within_spec hy
      exact ⟨_, e.symm, w⟩
    · dsimp only at e e'
      subst e'
      unfold capOf at hc
      cases k with
      | hold => exact absurd rfl e
      | dark => exact other _ _ hc
      | flush => exact other _ _ hc
      | plan m => exact other _ _ hc
  · cases h

theorem readAction_writeAction {a : ActionRec} (h : a.Allowed) : readAction (writeAction a) = some a := by
  obtain ⟨k, c⟩ := a
  have h1 := h.plan; have h2 := h.hold; have h3 := h.others
  dsimp only at h1 h2 h3
  have cap : capOf k (c.getD 0) = some c := by
    unfold capOf
    cases k with
    | hold => obtain ⟨n, rfl, w⟩ := h2 rfl; dsimp only; rw [Option.getD_some, within_of w]; rfl
    | dark | flush | plan m =>
      cases c with
      | none => rfl
      | some n =>
        have w := h3 n (by intro e; cases e) rfl
        dsimp only; rw [Option.getD_some, if_neg (by omega), within_of w]; rfl
  have lt : c.getD 0 < 65536 := by
    cases c with
    | none => decide
    | some n =>
      cases k with
      | hold => obtain ⟨m, e, w⟩ := h2 rfl; cases e; rw [Option.getD_some]; omega
      | _ => have w := h3 n (by intro e; cases e) rfl; rw [Option.getD_some]; omega
  have kind : ∀ x y : Byte, kindBytes k = [x, y] → kindOf x.toNat y.toNat = some k := by
    intro x y e
    cases k with
    | plan n =>
      have w := h1 n rfl
      unfold kindBytes at e
      simp only [List.cons.injEq, and_true] at e
      obtain ⟨rfl, rfl⟩ := e
      rw [byte_toNat (by omega)]
      show (within 1 32 n).map ActionKind.plan = _
      rw [within_of w]; rfl
    | _ =>
      unfold kindBytes at e
      simp only [List.cons.injEq, and_true] at e
      obtain ⟨rfl, rfl⟩ := e
      rfl
  have two : ∃ x y, kindBytes k = [x, y] := by cases k <;> exact ⟨_, _, rfl⟩
  obtain ⟨x, y, e⟩ := two
  unfold writeAction readAction be16
  rw [e]
  dsimp only [List.cons_append, List.nil_append]
  rw [kind x y e, num16_bytes lt]
  simp only [Option.bind_eq_bind, Option.bind_some, cap]
  rfl

theorem readSettings_iff (l : List Byte) (w : Nat) : readSettings l = some w ↔ w ∈ windowLengths ∧ l = be16 w := by
  constructor
  · intro h
    refine ⟨?_, (be16_readSettings h).symm⟩
    unfold readSettings at h; split at h
    · split at h
      · next e => cases h; exact e
      · cases h
    · cases h
  · rintro ⟨h, rfl⟩
    have lt : w < 65536 := by
      have : ∀ n ∈ windowLengths, n < 65536 := by decide
      exact this w h
    unfold be16 readSettings; dsimp only
    rw [num16_bytes lt, if_pos h]

/-- The tests of R41. -/
theorem pointsOk_iff (c : CurveRec) : pointsOk c.points = true ↔ c.Allowed := by
  obtain ⟨l⟩ := c
  have adj : ∀ (f : Nat × Nat → Nat) (R : Nat → Nat → Prop), (∀ a b c, R a b → R b c → R a c) →
      ((l.map f).Pairwise R ↔ ∀ (i : Nat) (p q : Nat × Nat), l[i]? = some p → l[i + 1]? = some q → R (f p) (f q)) := by
    intro f R tr
    rw [List.pairwise_iff_getElem]
    constructor
    · intro h i p q hp hq
      obtain ⟨h1, rfl⟩ := List.getElem?_eq_some_iff.1 hp
      obtain ⟨h2, rfl⟩ := List.getElem?_eq_some_iff.1 hq
      have := h i (i + 1) (by simpa using h1) (by simpa using h2) (by omega)
      simpa using this
    · intro h i j hi hj hij
      obtain ⟨k, rfl⟩ : ∃ k, j = i + 1 + k := ⟨j - (i + 1), by omega⟩
      rw [List.length_map] at hi hj
      simp only [List.getElem_map]
      induction k with
      | zero => exact h i _ _ (List.getElem?_eq_getElem hi) (List.getElem?_eq_getElem hj)
      | succ k ih =>
        exact tr _ _ _ (ih (by omega) (by omega) (by omega))
          (h (i + 1 + k) _ _ (List.getElem?_eq_getElem (by omega)) (List.getElem?_eq_getElem hj))
  have first : (l.map (·.1)).head? = some 0 ↔ l ≠ [] ∧ ∀ p : Nat × Nat, l[0]? = some p → p.1 = 0 := by
    cases l <;> simp
  unfold pointsOk
  simp only [Bool.and_eq_true, decide_eq_true_eq, List.all_eq_true]
  rw [first, adj (fun p => p.1) (· < ·) (fun _ _ _ => Nat.lt_trans), adj (fun p => p.2) (· ≤ ·) (fun _ _ _ => Nat.le_trans)]
  constructor
  · rintro ⟨⟨⟨⟨h1, h2⟩, h3⟩, h4⟩, h5⟩
    exact ⟨h1, h2, h3.2, fun i p q a b => ⟨h4 i p q a b, h5 i p q a b⟩⟩
  · rintro ⟨h1, h2, h3, h4⟩
    refine ⟨⟨⟨⟨h1, h2⟩, ?_, h3⟩, fun i p q a b => (h4 i p q a b).1⟩, fun i p q a b => (h4 i p q a b).2⟩
    intro e; dsimp only at h1; rw [e] at h1; simp at h1

theorem readCurve_allowed {l : List Byte} {c : CurveRec} (h : readCurve l = some c) : c.Allowed := by
  unfold readCurve at h; split at h
  · cases h
  · dsimp only at h; split at h
    · next hc => cases h; exact (pointsOk_iff _).1 hc.1
    · cases h

/-- The pairs of a high-bits byte are those of its points. -/
theorem highByte_bits (l : List (Nat × Nat)) (hl : ∀ p ∈ l, p.1 ≤ 1000) (j q : Nat) (hq : q < 4) :
    (highByte l j).toNat / 4 ^ q % 4 = ((l[4 * j + q]?).map (·.1)).getD 0 / 256 := by
  have b : ∀ i : Nat, ((l[i]?).map (·.1)).getD 0 / 256 < 4 := by
    intro i
    cases e : l[i]? with
    | none => simp
    | some p => have := hl p (List.mem_of_getElem? e); simp; omega
  unfold highByte
  have s : ((List.range 4).map fun q => ((l[4 * j + q]?).map (·.1)).getD 0 / 256 * 4 ^ q).sum
      = ((l[4 * j]?).map (·.1)).getD 0 / 256 + ((l[4 * j + 1]?).map (·.1)).getD 0 / 256 * 4
        + ((l[4 * j + 2]?).map (·.1)).getD 0 / 256 * 16 + ((l[4 * j + 3]?).map (·.1)).getD 0 / 256 * 64 := by
    simp [List.range_succ]; omega
  rw [s]
  have b0 := b (4 * j); have b1 := b (4 * j + 1); have b2 := b (4 * j + 2); have b3 := b (4 * j + 3)
  rw [byte_toNat (by omega)]
  match q, hq with
  | 0, _ => simp; omega
  | 1, _ => simp; omega
  | 2, _ => simp; omega
  | 3, _ => simp; omega

theorem readCurve_writeCurve {c : CurveRec} (h : c.Allowed) : readCurve (writeCurve c) = some c := by
  have ok := (pointsOk_iff c).2 h
  have hn := h.count
  obtain ⟨l⟩ := c
  dsimp only at hn ok
  have hr : ∀ p ∈ l, p.1 ≤ 1000 ∧ 20 ≤ p.2 ∧ p.2 ≤ 150 := h.range
  have w : writeCurve ⟨l⟩ = byte l.length :: (l.map (fun p => byte p.1)
      ++ ((List.range ((l.length + 3) / 4)).map (highByte l) ++ l.map (fun p => byte p.2))) := by
    unfold writeCurve; simp
  rw [w]; unfold readCurve; dsimp only
  rw [byte_toNat (by omega), List.take_left' (by simp), List.drop_left' (by simp), List.take_left' (by simp),
    ← List.drop_drop, List.drop_left' (by simp), List.drop_left' (by simp)]
  have bits : ∀ i : Nat, highBits ((List.range ((l.length + 3) / 4)).map (highByte l)) i = ((l[i]?).map (·.1)).getD 0 / 256 := by
    intro i
    unfold highBits
    by_cases hi : i / 4 < (l.length + 3) / 4
    · rw [List.getElem?_map, List.getElem?_range hi]
      have := highByte_bits l (fun p hp => (hr p hp).1) (i / 4) (i % 4) (Nat.mod_lt _ (by decide))
      rw [show 4 * (i / 4) + i % 4 = i by omega] at this
      exact this
    · rw [List.getElem?_eq_none (by simpa using hi), List.getElem?_eq_none (by omega)]; simp
  have pts : ((l.map fun p => byte p.1).zipIdx.map fun p => p.1.toNat
      + 256 * highBits ((List.range ((l.length + 3) / 4)).map (highByte l)) p.2).zip
        ((l.map fun p => byte p.2).map (·.toNat)) = l := by
    apply List.ext_getElem (by simp)
    intro i h1 h2
    have r := hr l[i] (List.getElem_mem h2)
    simp only [List.getElem_zip, List.getElem_map, List.getElem_zipIdx, Nat.zero_add, bits]
    rw [List.getElem?_eq_getElem h2, byte_toNat (n := (l[i]).2) (by omega)]
    unfold byte; rw [BitVec.toNat_ofNat]
    refine Prod.ext ?_ rfl
    simp; omega
  rw [pts, if_pos]
  refine ⟨ok, rfl, ?_⟩
  unfold unusedPairsZero
  simp only [List.all_eq_true, Bool.or_eq_true, decide_eq_true_eq]
  intro i _
  by_cases k : i < l.length
  · exact Or.inl k
  · right; rw [bits, List.getElem?_eq_none (by omega)]; rfl

end Sys2Proof.Machine
end

