-- ==== Sys2Proof/Tests/Slice0.lean ====
section
/-! SUPPORT. The model's own tests: ill-formed commands refused, values of the spec's text and of its worked sequences,
and for every statement with hypotheses a concrete state and operands that meet them, at the ends of their ranges. -/

namespace Sys2Proof.Tests

open Sys2Proof Sys2Proof.Machine

set_option Elab.async false

/-! ### A small site: ramp A with lane 1, its head and beacon on driver station 5, four channels of card 7 -/

def lane1 : LaneRec where
  head := 0
  demand := 0
  passage := some 1
  lock := true
  delay := 5
  maxGreen := 20
  minGreen := 10
  yellow := 20
  minRed := 20
  vehicles := 1

def plan1 : PlanRec where
  slot := 40
  adaptive := none
  period := 2
  masks := #v[1, 2, 0, 0]
  coordinated := true

def rampA : RampRec where
  lanes := [0]
  beacon := some 1
  defaultPlan := 1
  warn := 50
  startGreen := 30
  startYellow := 30
  startRed := 20
  shutFlush := 50
  offset := 7
  preLine := some 0
  panelLine := some 0
  spillOn := 50
  spillClear := 20

def out1 : OutRec := ⟨5, 0, false, true⟩
def out2 : OutRec := ⟨5, 1, true, false⟩
def demand1 : DetRec := ⟨7, 0, .demand, 0, some 0, 2, 100, 5, false, false⟩
def passage1 : DetRec := ⟨7, 1, .passage, 0, some 0, 0, 100, 5, false, false⟩
def spill1 : DetRec := ⟨7, 2, .spillback, 1, none, 0, 100, 5, false, false⟩
def main1 : DetRec := ⟨7, 3, .mainline, 3, none, 0, 100, 5, false, true⟩
def cond1 : CondRec := ⟨[3], false, false, 160, 30, false, false⟩
def match1 : MatchRec := ⟨1, 1, 7, some 2⟩
def curve1 : CurveRec := ⟨[(0, 20), (300, 60)]⟩
def hold900 : ActionRec := ⟨.hold, some 900⟩

def siteTables : Tables :=
  { Tables.unset with
    detMap := vset (vset (vset (vset Tables.unset.detMap 0 (some demand1)) 1 (some passage1)) 2 (some spill1)) 3
      (some main1)
    plans := vset Tables.unset.plans 0 (some plan1)
    rampCfg := vset Tables.unset.rampCfg 0 (some rampA)
    laneCfg := vset Tables.unset.laneCfg 0 (some lane1)
    outMap := vset (vset Tables.unset.outMap 0 (some out1)) 1 (some out2)
    actions := vset Tables.unset.actions 2 (some hold900) }

/-- Every ramp OFF. -/
def site : State :=
  { State.reset with
    tables := siteTables
    out := { State.reset.out with drivers := [⟨5, .stopped, .running 0⟩] } }

/-- The site with ramp A's context rewritten. -/
def rampIs (f : RampCtx → RampCtx) : State := site.modRamp 0 f

/-- Ramp A METERING under plan 1. -/
def metering : State :=
  rampIs fun c => { c with
    mode := .auto, state := .metering, autoPlan := 1, stopStands := false, adopted := some (adoptedOf 1 plan1)
    slotClock := .running 0, slotLength := some 40, lastNominal := some 40 }

def greenInterval (counter : Nat) : Interval :=
  { releaseInterval lane1 with counter := counter }

/-- Lane 1 in a state with an interval. -/
def laneIs (st : LaneState) (v : Option Interval) (n : Option Nat) (s : State) : State :=
  s.setLane 0 { LaneCtx.reset with state := st, interval := v, greenPassageCount := n }

/-- Ramp A's unit with source 3 holding, 600 tenths of its hold left, and source 5 below it. -/
def heldUnit : AuthUnit :=
  (((AuthUnit.reset.setSource 3 ⟨true, true, false, true, some (tenths 100), some (.running (tenths 600))⟩).setSource 5
    ⟨true, true, false, true, some (tenths 1), some (.paused 5)⟩))

def held : AuthUnit := { heldUnit with holder := some 3, granted := some .hold, stack := [5] }

/-- A metering site with a held ramp, a green lane, a frame in flight, a SIG and a response queued. -/
def busy : State :=
  let s := (laneIs .green (some (greenInterval 700000)) (some 0) metering).setAuth 0 held
  { s with
    pending := [.identify 1]
    ring := { s.ring with inFlight := some ⟨[1], 7⟩, insert := [.sig 5 [.green], .rsp 1 [1, 0, 0]], forward := [[2]] } }

/-- The state after a command. -/
def after (c : Instr) (s : State) : State :=
  match exec c s with
  | .next t => t
  | .fault _ => s
  | .refused _ => s

/-! ### Well-formed commands -/

theorem test_requests_need_a_station :
    ([.runReset 0, .identify 63, .tableWrite 0 1 0 [], .tableRead 63 1 0, .tableClear 0 1 0, .tableCheck 63 1,
      .rampModeAuto 0 0, .rampModeOff 63 0, .arm 0 0 2 1, .assertSource 63 0 3 100, .releaseSource 0 0 3,
      .status 63 0 1, .detectors 0 0 1, .counts 63 0, .clearFault 0 0] : List Instr).all
        (fun i => !i.wellFormed) = true := by decide +kernel

theorem test_record_fits_a_frame :
    (Instr.tableWrite 1 1 0 (List.replicate 46 0)).wellFormed = false
      ∧ (Instr.tableWrite 1 1 0 (List.replicate 45 0)).wellFormed = true := by decide +kernel

theorem test_driver_timers_need_a_driver_station :
    ([.driverSilenceExpiry 1, .driverSilenceExpiry 63, .refreshTimerExpiry 1, .refreshTimerExpiry 63] : List Instr).all
      (fun i => !i.wellFormed) = true ∧ (Instr.refreshTimerExpiry 62).wellFormed = true := by decide +kernel

theorem test_no_word_spells_a_command (n w : Nat) : decodeTableWord n w = none := rfl

/-! ### Bytes: the check, the frame, the ten records -/

theorem test_check_of_a_known_string : crc16 [49, 50, 51, 52, 53, 54, 55, 56, 57] = 0x29B1#16 := by decide +kernel

theorem test_identify_frame_is_accepted :
    acceptFrame (frameBytes 9 1 5 [1]) = some ⟨9, 1, 5, [1]⟩ ∧ (frameBytes 9 1 5 [1]).length = 7 := by decide +kernel

theorem test_detector_record : readDet [7, 0, 1, 0, 1, 2, 0, 100, 5, 0, 0] = some demand1 := by decide +kernel
theorem test_condition_record : readCond [1, 3, 0, 0, 0, 160, 0, 30, 0, 0] = some cond1 := by decide +kernel
theorem test_match_record : readMatch [0, 1, 0, 1, 7, 2] = some match1 := by decide +kernel
theorem test_plan_record : readPlan [0, 0, 40, 2, 4, 0, 1, 0, 2, 0, 0, 0, 0, 1] = some plan1 := by decide +kernel
theorem test_curve_record : readCurve [2, 0, 44, 4, 20, 60] = some curve1 := by decide +kernel
theorem test_ramp_record :
    readRamp [1, 1, 1, 1, 0, 50, 30, 30, 20, 0, 50, 0, 7, 0, 0, 0, 50, 0, 20] = some rampA := by decide +kernel
theorem test_lane_record : readLane [0, 0, 1, 0, 5, 20, 10, 20, 20, 1] = some lane1 := by decide +kernel
theorem test_output_record : readOut [5, 0, 0, 1] = some out1 := by decide +kernel
theorem test_action_record : readAction [3, 0, 3, 132] = some hold900 := by decide +kernel
theorem test_settings_record : readSettings [0, 200] = some 200 ∧ readSettings [0, 201] = none := by decide +kernel

/-! ### Worked values of the spec -/

/-- 12.3: the mean of 170 and 160, the curve less relief, the clamp of 130 to 120. -/
theorem test_morning_peak_rates :
    meanOf [170, 160] = some 165
      ∧ relieved ⟨30, 120, 2, some 300, 5, 80⟩ 70 1 = 65 ∧ relieved ⟨30, 120, 2, some 300, 5, 80⟩ 150 4 = 120 := by
  decide +kernel

/-- 12.3: relief rises at 310, holds at 240 and falls at 200. -/
theorem test_morning_peak_relief :
    stepRelief ⟨30, 120, 2, some 300, 5, 80⟩ (some 310) 0 = 1
      ∧ stepRelief ⟨30, 120, 2, some 300, 5, 80⟩ (some 240) 4 = 4
      ∧ stepRelief ⟨30, 120, 2, some 300, 5, 80⟩ (some 200) 4 = 3 := by decide +kernel

/-- 12.3: 145 leaves c0 FALSE, 165 sets it. -/
theorem test_condition_band :
    compareMeasure cond1 145 false = false ∧ compareMeasure cond1 145 true = true
      ∧ compareMeasure cond1 165 false = true := by decide +kernel

theorem test_identify_answers : (identify 9 State.reset).fields.length = 24 := by decide +kernel

theorem test_warn_starts_green :
    let s := after (.warnExpiry 0) (rampIs fun c => { c with
      mode := .auto, state := .warn, autoPlan := 1, phaseTimer := .running (tenths 50) })
    (s.ramps[(0 : Ramp)]).state = .startGreen ∧ (s.lanes[(0 : Lane)]).state = .greenRest
      ∧ (s.out.chans[(0 : OutCh)]).commanded = .green ∧ (s.out.chans[(1 : OutCh)]).commanded = .flash := by
  decide +kernel

theorem test_first_boundary_releases_a_called_lane :
    let s := after (.slotBoundary 0) ((rampIs fun c => { c with
      mode := .auto, state := .metering, autoPlan := 1, slotClock := .running (tenths 50), slotLength := some 50 }).setLane
        0 { LaneCtx.reset with state := .restRed, call := true })
    (s.lanes[(0 : Lane)]).state = .delay ∧ (s.lanes[(0 : Lane)]).counts.releases = 1
      ∧ (s.ramps[(0 : Ramp)]).slotLength = some 40 ∧ (s.ramps[(0 : Ramp)]).slotCount = 1 := by decide +kernel

/-- 12.4: at the preempt's end source 5, suspended with 5 microseconds left, is resumed. -/
theorem test_suspended_source_is_resumed :
    let a := ((held.setSource 3 { held.sources[(3 : Source)] with standing := false }).arbitrate (fun _ => none) 77).1
    a.holder = some 5 ∧ a.stack = [] ∧ a.lastGrant = some ⟨5, 77, .resumed⟩
      ∧ (a.sources[(5 : Source)]).hold = some (.running 5) := by decide +kernel

theorem test_detector_report_comes_into_service :
    let s := after (.frameArrival (frameBytes 0 7 1 [2, 1, 0])) site
    (s.det.chans[(0 : Channel)]).health = .ok ∧ (s.det.chans[(0 : Channel)]).filtered = true
      ∧ (s.det.chans[(1 : Channel)]).health = .ok ∧ (s.det.chans[(2 : Channel)]).health = .unseen := by decide +kernel

theorem test_reports_go_on_with_verdicts :
    ((after (.frameArrival (frameBytes 0 7 1 [2, 1, 0])) site).ring.inFlight.map (·.frame))
      = some (frameBytes 0 7 1 [2, 17, 16]) := by decide +kernel

theorem test_output_map_write_enqueues_a_dark_image :
    let s := after (.tableWrite 1 8 4 [6, 2, 0, 0]) site
    (s.ring.inFlight.map (·.frame)) = some (frameBytes 6 9 3 [3, 0, 0, 0]) ∧ s.ring.insert.length = 1 := by
  decide +kernel

/-- R171: an Output Map record equal to the one stored enqueues a SIG for its station. -/
theorem test_equal_output_record_is_sent_again :
    (after (.tableWrite 1 8 0 [5, 0, 0, 1]) site).tables.outMap = site.tables.outMap
      ∧ ((after (.tableWrite 1 8 0 [5, 0, 0, 1]) site).ring.inFlight.map (·.frame)) = some (frameBytes 5 9 3 [2, 0, 0]) := by
  decide +kernel

theorem test_idle_closes_the_window :
    let s := { site with time := { site.time with corridor := 199, phase := 99999 }, stride := 1 }
    (match step s with | .next t => t.time.closeDue && t.time.corridor == 200 | _ => false) = true := by
  decide +kernel

/-! ### Witnesses: steps and invariants -/

theorem witness_StepRunsTheFrontCommand : busy.pending = Instr.identify 1 :: [] := rfl

theorem witness_EmptyQueueLetsTimePass :
    site.pending = [] ∧ nextDue site = none
      ∧ nextDue { site with time := { site.time with closeDue := true } } = some .windowClose
      ∧ (∀ n, (Instr.windowClose, some n) ∈ [(Instr.windowClose, some 0)] → n = 0)
      ∧ (Instr.quietTimerExpiry, some (tenths 100)) ∈ timedEvents site := by
  refine ⟨rfl, by decide +kernel, by decide +kernel, by simp, by decide +kernel⟩

theorem busy_steps : ∃ t, step busy = .next t := ⟨_, rfl⟩

theorem witness_StepKeepsTheRingStores : busy.ring.Ok ∧ ∃ t, step busy = .next t :=
  ⟨⟨⟨by decide +kernel, by decide +kernel, by decide +kernel, by decide +kernel, by decide +kernel, by decide +kernel,
    by decide +kernel, by decide +kernel, by decide +kernel⟩, by decide +kernel⟩, busy_steps⟩

theorem held_ok : held.Ok where
  sorted := by decide +kernel
  below := by decide +kernel
  vacant := by decide +kernel
  running k n h := by
    have hk : ∀ k : Source, (match (held.sources[k]).hold with
      | some (.running _) => decide (held.holder = some k) | _ => true) = true := by decide +kernel
    have := hk k
    rw [h] at this
    exact of_decide_eq_true this
  paused k n h := by
    have hk : ∀ k : Source, (match (held.sources[k]).hold with
      | some (.paused _) => decide (k ∈ held.stack) | _ => true) = true := by decide +kernel
    have := hk k
    rw [h] at this
    exact of_decide_eq_true this
  uncapped := by decide +kernel

theorem witness_StepKeepsAuthorityInOrder : (∀ r : Ramp, (busy.auth[r]).Ok) ∧ ∃ t, step busy = .next t := by
  refine ⟨fun r => ?_, busy_steps⟩
  by_cases h : r = 0
  · subst h; exact held_ok
  · have hr : ∀ r : Ramp, r ≠ 0 → busy.auth[r] = AuthUnit.reset := by decide +kernel
    rw [hr r h]; exact authReset_ok

theorem witness_StepKeepsLanesInOrder : (∀ l : Lane, (busy.lanes[l]).Ok) ∧ ∃ t, step busy = .next t := by
  refine ⟨fun l => ?_, busy_steps⟩
  by_cases h : l = 0
  · subst h; exact ⟨⟨_, rfl, rfl⟩, by decide +kernel, laneReset_ok.counts, laneReset_ok.last⟩
  · have hl : ∀ l : Lane, l ≠ 0 → busy.lanes[l] = LaneCtx.reset := by decide +kernel
    rw [hl l h]; exact laneReset_ok

theorem witness_StepKeepsRampsInOrder : (∀ r : Ramp, (busy.ramps[r]).Ok) ∧ ∃ t, step busy = .next t := by
  refine ⟨fun r => ⟨?_, ?_, ?_, ?_, ?_, ?_, ?_, ?_, ?_⟩, busy_steps⟩ <;> revert r <;> decide +kernel

theorem witness_StepKeepsDetectorsInOrder : busy.det.Ok ∧ ∃ t, step busy = .next t := by
  refine ⟨fun ch => ?_, busy_steps⟩
  have h : ∀ ch : Channel, busy.det.chans[ch] = DetState.reset := by decide +kernel
  rw [h ch]; exact DetState.reset_ok _

theorem witness_StepKeepsCorridorTime :
    busy.time.Ok (windowLength busy.tables) ∧ ∃ t, step busy = .next t :=
  ⟨⟨by decide +kernel, by decide +kernel, by decide +kernel⟩, busy_steps⟩

theorem witness_StepKeepsLatchesAndRelief :
    (∀ ch : OutCh, (busy.out.chans[ch]).Ok) ∧ (∀ r : Ramp, (busy.rate[r]).Ok) ∧ ∃ t, step busy = .next t := by
  refine ⟨fun ch => ?_, fun r => ?_, busy_steps⟩
  · have h : ∀ ch : OutCh, busy.out.chans[ch] = OutChan.reset := by decide +kernel
    rw [h ch]; exact outReset_ok
  · have h : ∀ r : Ramp, busy.rate[r] = RateRec.reset := by decide +kernel
    rw [h r]; exact RateRec.reset_ok

theorem calm_site : Calm site := ⟨by decide +kernel, by decide +kernel, by decide +kernel, by decide +kernel⟩

theorem witness_EventEndFrame : Calm site := calm_site

/-! ### Witnesses: requests -/

theorem serves_site : Serves 9 1 site := ⟨by decide +kernel, by decide +kernel, by decide, by decide +kernel⟩

/-- The longest ring number, and seven responses waiting. -/
theorem serves_at_the_bounds :
    Serves 62 61 { site with ring := { site.ring with straps := 62, insert := List.replicate 7 (.rsp 1 [1, 0, 0]) } } :=
  ⟨by decide +kernel, by decide +kernel, by decide, by decide +kernel⟩

theorem serves_metering : Serves 9 1 metering := ⟨by decide +kernel, by decide +kernel, by decide, by decide +kernel⟩

theorem witness_RefusedRequestChangesNothing :
    (handlePayload 9 [1, 1] site).result ≠ .done ∧ (handlePayload 9 [] site).result ≠ .done
      ∧ (handlePayload 9 [6, 1, 1] site).result = .notConfig := by decide +kernel

theorem witness_FullQueueDiscardsTheRequest :
    (Instr.counts 1 0).wellFormed = true ∧ requestRow (.counts 1 0) = some (1, 12, [0])
      ∧ ({ site with ring := { site.ring with insert := List.replicate 8 (.rsp 1 [1, 0, 0]) } } : State).station = some 9
      ∧ 8 ≤ rspCount (List.replicate 8 (Insert.rsp 1 [1, 0, 0])) := by decide +kernel

theorem witness_PassivePartOnlyForwards :
    ({ site with ring := { site.ring with straps := 1 } } : State).station = none
      ∧ ({ site with ring := { site.ring with straps := 63 } } : State).station = none
      ∧ requestRow (.identify 1) = some (1, 1, [])
      ∧ acceptFrame (frameBytes 4 5 6 []) = some ⟨4, 5, 6, []⟩ := by decide +kernel

theorem witness_RampAboveThreeIsBadIndex : Serves 9 1 site ∧ 4 ≤ (4 : Byte).toNat := ⟨serves_site, by decide⟩

theorem witness_IdentifyReturnsIdentity : Serves 9 1 site := serves_site

/-- The ends of the ten ranges, and an index past one. -/
theorem witness_TableReadReturnsTheStoredRecord :
    Serves 9 1 site
      ∧ (∃ lo hi : Nat, ((7 : Byte).toNat, lo, hi) ∈ [(1, 0, 63), (2, 0, 63), (3, 0, 47), (4, 1, 32), (5, 1, 8), (6, 0, 3),
        (7, 1, 12), (8, 0, 15), (9, 0, 19), (10, 0, 0)] ∧ lo ≤ (12 : Byte).toNat ∧ (12 : Byte).toNat ≤ hi)
      ∧ ¬ ∃ lo hi : Nat, ((7 : Byte).toNat, lo, hi) ∈ [(1, 0, 63), (2, 0, 63), (3, 0, 47), (4, 1, 32), (5, 1, 8), (6, 0, 3),
        (7, 1, 12), (8, 0, 15), (9, 0, 19), (10, 0, 0)] ∧ lo ≤ (13 : Byte).toNat ∧ (13 : Byte).toNat ≤ hi :=
  ⟨serves_site, ⟨1, 12, by decide, by decide, by decide⟩, by
    rintro ⟨lo, hi, hm, h1, h2⟩
    have h : ∀ p ∈ [(1, 0, 63), (2, 0, 63), (3, 0, 47), (4, 1, 32), (5, 1, 8), (6, 0, 3), (7, 1, 12), (8, 0, 15),
      (9, 0, 19), (10, 0, 0)], p.1 = 7 → p.2.2 < 13 := by decide
    exact absurd h2 (Nat.not_le.mpr (h _ hm rfl))⟩

theorem witness_TableCheckCountsAndChecks :
    Serves 9 1 site ∧ (1 ≤ (10 : Byte).toNat ∧ (10 : Byte).toNat ≤ 10) ∧ (0 : Byte).toNat = 0 ∧ 10 < (11 : Byte).toNat :=
  ⟨serves_site, by decide, by decide, by decide⟩

theorem done_of {x : Result × State} (h : x.1 = .done) : ∃ u, x = (.done, u) := ⟨x.2, by rw [← h]⟩

theorem witness_WrittenRecordReadsBack :
    shapeOk 10 [0, 200] = true ∧ (∃ u, writeTable 10 0 [0, 200] site = (.done, u))
      ∧ shapeOk 7 [0, 0, 1, 0, 5, 20, 10, 20, 20, 1] = true
      ∧ ∃ u, writeTable 7 1 [0, 0, 1, 0, 5, 20, 10, 20, 20, 1] site = (.done, u) :=
  ⟨by decide +kernel, done_of (by decide +kernel), by decide +kernel, done_of (by decide +kernel)⟩

/-- A record for each table, at the last index, that meets its clause. -/
theorem witness_TableWriteCompletes :
    Serves 9 1 site
      ∧ (shapeOk 1 [8, 7, 0, 15, 0, 10, 140, 160, 255, 1, 1] = true
        ∧ (readDet [8, 7, 0, 15, 0, 10, 140, 160, 255, 1, 1]).isSome = true
        ∧ (∀ d, readDet [8, 7, 0, 15, 0, 10, 140, 160, 255, 1, 1] = some d →
          detDuplicate site.tables 63 d = false ∧ detTouchesInUse (heard site) site.tables.detMap[(63 : Channel)] = false
            ∧ detTouchesInUse (heard site) (some d) = false))
      ∧ (shapeOk 2 [1, 3, 0, 0, 0, 160, 0, 30, 0, 0] = true ∧ readCond [1, 3, 0, 0, 0, 160, 0, 30, 0, 0] = some cond1)
      ∧ (shapeOk 3 [0, 1, 0, 1, 7, 2] = true ∧ readMatch [0, 1, 0, 1, 7, 2] = some match1)
      ∧ (shapeOk 4 [0, 0, 40, 2, 4, 0, 1, 0, 2, 0, 0, 0, 0, 1] = true
        ∧ readPlan [0, 0, 40, 2, 4, 0, 1, 0, 2, 0, 0, 0, 0, 1] = some plan1)
      ∧ (shapeOk 5 [2, 0, 44, 4, 20, 60] = true ∧ readCurve [2, 0, 44, 4, 20, 60] = some curve1)
      ∧ (shapeOk 6 [1, 1, 1, 1, 0, 50, 30, 30, 20, 0, 50, 0, 7, 0, 0, 0, 50, 0, 20] = true
        ∧ rampConflict site.tables 0 rampA = false ∧ ((heard site).ramps[(0 : Ramp)]).state = .off)
      ∧ (shapeOk 7 [0, 0, 1, 0, 5, 20, 10, 20, 20, 1] = true ∧ laneConflict site.tables 0 lane1 = false
        ∧ laneInUse (heard site) 0 = false)
      ∧ (shapeOk 8 [5, 0, 0, 1] = true ∧ outConflict site.tables 0 out1 = false ∧ outInUse (heard site) 0 = false)
      ∧ (shapeOk 9 [3, 0, 3, 132] = true ∧ readAction [3, 0, 3, 132] = some hold900)
      ∧ (shapeOk 10 [0, 200] = true ∧ readSettings [0, 200] = some 200 ∧ anyInUse (heard site) = false) := by
  refine ⟨serves_site, ⟨by decide +kernel, by decide +kernel, fun d hd => ?_⟩, by decide +kernel, by decide +kernel,
    by decide +kernel, by decide +kernel, by decide +kernel, by decide +kernel, by decide +kernel, by decide +kernel,
    by decide +kernel⟩
  have h : readDet [8, 7, 0, 15, 0, 10, 140, 160, 255, 1, 1]
    = some ⟨8, 7, .mainline, 15, none, 10, 36000, 255, true, true⟩ := by decide +kernel
  rw [h] at hd
  cases hd
  decide +kernel

theorem witness_TableWriteIsJudgedInOrder :
    shapeOk 10 [0, 200, 0] = false ∧ shapeOk 7 [0, 0, 1, 0, 5, 20, 10, 20, 20, 1] = true ∧ 13 ∉ indicesOf 7
      ∧ readLane [0, 0, 0, 0, 5, 20, 10, 20, 20, 1] = none ∧ shapeOk 7 [0, 0, 0, 0, 5, 20, 10, 20, 20, 1] = true
      ∧ readLane [0, 0, 1, 0, 5, 20, 10, 20, 20, 1] = some lane1 ∧ laneConflict metering.tables 0 lane1 = false
      ∧ laneInUse metering 0 = true
      ∧ readRamp [1, 1, 1, 1, 0, 50, 30, 30, 20, 0, 50, 0, 7, 0, 0, 0, 50, 0, 20] = some rampA
      ∧ rampConflict metering.tables 0 rampA = false ∧ (metering.ramps[(0 : Ramp)]).state ≠ .off
      ∧ readSettings [0, 200] = some 200 ∧ shapeOk 10 [0, 200] = true := by decide +kernel

theorem witness_TableClearCompletes :
    Serves 9 1 site ∧ (∀ r : Ramp, adoptedNumber (heard site).ramps[r] ≠ some 32)
      ∧ Serves 9 1 metering ∧ (∃ r : Ramp, adoptedNumber (heard metering).ramps[r] = some 1)
      ∧ ((heard site).ramps[(3 : Ramp)]).state = .off ∧ ((heard metering).ramps[(0 : Ramp)]).state ≠ .off :=
  ⟨serves_site, by decide +kernel, serves_metering, by decide +kernel, by decide +kernel, by decide +kernel⟩

theorem witness_ClearedRecordReadsUnset :
    (∃ u, clearTable 7 1 site = (.done, u)) ∧ ∃ u, clearTable 10 0 site = (.done, u) :=
  ⟨done_of (by decide +kernel), done_of (by decide +kernel)⟩

theorem witness_RampModeAutoStartsTheRamp :
    Serves 9 1 site ∧ (((heard site).ramps[(3 : Ramp)]).state = .off ∧ configComplete site.tables 3 = false)
      ∧ (((heard site).ramps[(0 : Ramp)]).state = .off ∧ configComplete site.tables 0 = true)
      ∧ Serves 9 1 metering ∧ ((heard metering).ramps[(0 : Ramp)]).state ≠ .off :=
  ⟨serves_site, by decide +kernel, by decide +kernel, serves_metering, by decide +kernel⟩

theorem witness_RampModeOffByState : Serves 9 1 metering := serves_metering

theorem witness_ArmSetsTheSource :
    Serves 9 1 site ∧ 2 ≤ (2 : Source).val ∧ (((heard site).auth[(0 : Ramp)]).sources[(5 : Source)]).armed = false
      ∧ (((heard site).auth[(0 : Ramp)]).sources[(5 : Source)]).armed ≠ true
      ∧ (1 : Byte).toNat < 2 ∧ 5 < (6 : Byte).toNat ∧ 1 < (2 : Byte).toNat :=
  ⟨serves_site, by decide, by decide +kernel, by decide +kernel, by decide, by decide, by decide⟩

def asserted3 : State := metering.setAuth 0 held

theorem serves_asserted3 : Serves 9 1 asserted3 :=
  ⟨by decide +kernel, by decide +kernel, by decide, by decide +kernel⟩

theorem witness_AssertRunsTheLease :
    Serves 9 1 site ∧ 100 ≤ (100#16).toNat ∧ (6000#16).toNat ≤ 6000
      ∧ (((heard site).auth[(0 : Ramp)]).sources[centralSource .urgent]).asserted = false
      ∧ Serves 9 1 asserted3 ∧ (((heard asserted3).auth[(0 : Ramp)]).sources[centralSource .urgent]).asserted = true
      ∧ ((4 : Byte) ≠ 3 ∧ (4 : Byte) ≠ 5) ∧ (99#16).toNat < 100 ∧ 6000 < (6001#16).toNat :=
  ⟨serves_site, by decide, by decide, by decide +kernel, serves_asserted3, by decide +kernel, by decide, by decide,
    by decide⟩

/-- Source 3 holding at the moment its hold expires. -/
def atZero : State := metering.setAuth 0 (held.setSource 3 ⟨true, true, false, true, some 0, some (.running 0)⟩)

theorem serves_atZero : Serves 9 1 atZero := ⟨by decide +kernel, by decide +kernel, by decide, by decide +kernel⟩

theorem witness_ReleaseEndsTheLease :
    Serves 9 1 asserted3
      ∧ (let a := (heard asserted3).auth[(0 : Ramp)];
        (a.sources[centralSource .plan]).asserted = true
          ∧ ¬ (a.holder = some (centralSource .plan) ∧ (a.sources[centralSource .plan]).hold = some (.running 0)))
      ∧ Serves 9 1 atZero
      ∧ (let a := (heard atZero).auth[(0 : Ramp)];
        (a.sources[centralSource .urgent]).asserted = true ∧ a.holder = some (centralSource .urgent)
          ∧ (a.sources[centralSource .urgent]).hold = some (.running 0))
      ∧ Serves 9 1 site ∧ (((heard site).auth[(0 : Ramp)]).sources[centralSource .plan]).asserted = false
      ∧ (((heard site).auth[(0 : Ramp)]).sources[centralSource .plan]).lease = none
      ∧ (4 : Byte) ≠ 3 ∧ (4 : Byte) ≠ 5 :=
  ⟨serves_asserted3, by decide +kernel, serves_atZero, by decide +kernel, serves_site, by decide +kernel,
    by decide +kernel, by decide, by decide⟩

/-- A hold that expires in METERING leaves a deasserted holder spent (R110); a release at that moment does not (R111). -/
theorem test_expiry_spends_a_deasserted_holder :
    (let s := metering.setAuth 0 (held.setSource 3 ⟨false, true, false, true, none, some (.running 0)⟩);
      (((after (.holdExpiry 0) s).auth[(0 : Ramp)]).sources[(3 : Source)]).spent = true)
      ∧ (((after (.releaseSource 1 0 3) atZero).auth[(0 : Ramp)]).sources[(3 : Source)]).spent = false
      ∧ ((after (.releaseSource 1 0 3) atZero).auth[(0 : Ramp)]).holder = some 5 := by decide +kernel

def granted : State := site.setAuth 0 { AuthUnit.reset with lastGrant := some ⟨3, 863999, .fresh⟩ }

theorem witness_StatusClearsAttentionAndReports :
    Serves 9 1 site ∧ ((heard site).auth[(0 : Ramp)]).lastGrant = none
      ∧ Serves 9 1 granted ∧ ((heard granted).auth[(0 : Ramp)]).lastGrant ≠ none ∧ 3 < (4 : Byte).toNat :=
  ⟨serves_site, by decide +kernel, ⟨by decide +kernel, by decide +kernel, by decide, by decide +kernel⟩,
    by decide +kernel, by decide⟩

/-- The last range, and the ranges and counts just past their bounds. -/
theorem witness_DetectorsReportsTheRange :
    Serves 9 1 site ∧ ((8 : Byte).toNat ≤ 8 ∧ (56 : Byte).toNat + (8 : Byte).toNat ≤ 64)
      ∧ 64 < (57 : Byte).toNat + (8 : Byte).toNat ∧ 63 < (64 : Byte).toNat
      ∧ ((55 : Byte).toNat + (9 : Byte).toNat ≤ 64 ∧ 8 < (9 : Byte).toNat) ∧ (0 : Byte).toNat = 0 :=
  ⟨serves_site, by decide, by decide, by decide, by decide, by decide⟩

theorem witness_CountsReportsTheLastWindow : Serves 9 1 site := serves_site

def faulted : State := metering.setOut 0 { OutChan.reset with commanded := .red, fault := true }

theorem witness_ClearFaultUnlatches :
    Serves 9 1 faulted ∧ (∀ d ∈ faulted.out.drivers, d.silence ≠ .expired) ∧ belongs faulted.tables 0 0 = true
      ∧ (faulted.out.chans[(0 : OutCh)]).fault = true :=
  ⟨⟨by decide +kernel, by decide +kernel, by decide, by decide +kernel⟩, by decide +kernel, by decide +kernel,
    by decide +kernel⟩

theorem witness_RunResetResetsTheRunningState : Serves 9 1 metering := serves_metering

/-! ### Witnesses: frames and the ring -/

theorem witness_FramesAreAcceptedOrDropped :
    (62 < 63 ∧ 1 ≤ 62 ∧ 255 < 256 ∧ (List.replicate 48 (0 : Byte)).length ≤ 48)
      ∧ ([1, 2, 3, 0, 5] : List Byte).length < 6 ∧ 48 < (49 : Byte).toNat
      ∧ ([1, 2, 3] : List Byte).length ≠ (0 : Byte).toNat + 2
      ∧ ([0, 0] : List Byte).drop (0 : Byte).toNat ≠ be16 (crc16 ([1, 2, 3, 0] ++ [])).toNat
      ∧ (63 : Byte).toNat % 64 = 63 ∧ (64 : Byte).toNat % 64 = 0 ∧ acceptFrame [] = none := by decide +kernel

theorem witness_AcceptedFrameIsDisposedOf :
    site.station = some 9
      ∧ acceptFrame (frameBytes 3 9 6 []) = some ⟨3, 9, 6, []⟩ ∧ acceptFrame (frameBytes 9 1 5 [1]) = some ⟨9, 1, 5, [1]⟩
      ∧ acceptFrame (frameBytes 9 1 3 []) = some ⟨9, 1, 3, []⟩ ∧ acceptFrame (frameBytes 0 1 3 []) = some ⟨0, 1, 3, []⟩
      ∧ acceptFrame (frameBytes 62 1 5 [1]) = some ⟨62, 1, 5, [1]⟩ := by decide +kernel

theorem witness_HearingAFrameClearsRingQuiet : Calm site := calm_site

theorem witness_BroadcastReportIsAppliedAndRewritten :
    site.station = some 9 ∧ acceptFrame (frameBytes 0 7 1 [2, 1, 0]) = some ⟨0, 7, 1, [2, 1, 0]⟩
      ∧ countedBytes [2, 1, 0] = some [1, 0]
      ∧ countedBytes [8, 1, 1, 1, 1, 1, 1, 1, 1] = some [1, 1, 1, 1, 1, 1, 1, 1] := by decide +kernel

theorem witness_FilterMakesConfirmsAndRevertsChanges :
    DetState.reset.pending = none ∧ DetState.reset.filtered = false ∧ passage1.filter = 0 ∧ demand1.filter ≠ 0
      ∧ ({ DetState.reset with pending := some ⟨true, 7⟩ } : DetState).pending = some ⟨true, 7⟩
      ∧ site.tables.detMap[(0 : Channel)] = some demand1 := by decide +kernel

theorem witness_TimeMarksSetCorridorTime :
    site.station = some 9
      ∧ (acceptFrame (frameBytes 0 1 4 [13, 46, 255]) = some ⟨0, 1, 4, [13, 46, 255]⟩
        ∧ (13 : Byte).toNat * 65536 + (46 : Byte).toNat * 256 + (255 : Byte).toNat < 864000)
      ∧ acceptFrame (frameBytes 0 2 4 [13, 46, 255]) = some ⟨0, 2, 4, [13, 46, 255]⟩
      ∧ (acceptFrame (frameBytes 0 1 4 [13, 46]) = some ⟨0, 1, 4, [13, 46]⟩ ∧ ([13, 46] : List Byte).length < 3)
      ∧ (acceptFrame (frameBytes 0 1 4 [13, 47, 0]) = some ⟨0, 1, 4, [13, 47, 0]⟩
        ∧ 864000 ≤ (13 : Byte).toNat * 65536 + (47 : Byte).toNat * 256 + (0 : Byte).toNat) := by decide +kernel

theorem witness_ClockDifferencesAreTheNearest :
    0 < 40 ∧ gridError 47 7 40 = 0 ∧ 2 * gridError 67 7 40 ≤ 40 ∧ 40 < 2 * gridError 68 7 40 ∧ 20 ≤ 150 := by
  decide +kernel

theorem witness_LampReportIsStored :
    site.station = some 9 ∧ acceptFrame (frameBytes 9 5 2 [1, 9]) = some ⟨9, 5, 2, [1, 9]⟩
      ∧ countedBytes [1, 9] = some [9] ∧ driverOf (heard site).out 5 ≠ none
      ∧ site.tables.outMap[(0 : OutCh)] = some out1 ∧ out1.station = 5
      ∧ acceptFrame (frameBytes 9 6 2 [1, 9]) = some ⟨9, 6, 2, [1, 9]⟩ ∧ driverOf (heard site).out 6 = none := by
  decide +kernel

theorem witness_LampReport_driver_stays :
    (driverOf (after (.frameArrival (frameBytes 9 5 2 [1, 9])) site).out 5).isSome = true := by decide +kernel

/-- A ring unit with one frame of each kind. -/
def ring1 (run : Nat) (inFlight : Option InFlight) : RingUnit :=
  { site.ring with forward := [[1]], insert := [.sig 5 [.red]], run := run, inFlight := inFlight }

theorem witness_RingStoresTakeAndGiveInOrder :
    ((ring1 0 (some ⟨[], 0⟩)).inFlight ≠ none)
      ∧ (site.ring.forward = [] ∧ site.ring.insert = [])
      ∧ ((ring1 3 none).inFlight = none ∧ (ring1 3 none).forward = [1] :: [] ∧ (ring1 3 none).run < 4)
      ∧ ((ring1 4 none).insert = Insert.sig 5 [.red] :: [] ∧ 4 ≤ (ring1 4 none).run)
      ∧ busy.ring.inFlight = some ⟨[1], 7⟩
      ∧ (ring1 0 none).forward.length < 2 ∧ 2 ≤ ([[1], [2]] : List (List Byte)).length
      ∧ 5 ∈ sigStations (ring1 0 none).insert
      ∧ (6 ∉ sigStations (ring1 0 none).insert ∧ 6 ∉ (ring1 0 none).waiting.map (·.station)
        ∧ sigCount (ring1 0 none).insert < 8)
      ∧ (let q := { ring1 0 none with waiting := [⟨6, [.red]⟩] };
        6 ∉ sigStations q.insert ∧ 6 ∈ q.waiting.map (·.station))
      ∧ (13 ∉ sigStations ((List.range 8).map fun i => Insert.sig (i + 2) []) ∧
        8 ≤ sigCount ((List.range 8).map fun i => Insert.sig (i + 2) []))
      ∧ insertStation 5 [3, 5, 9] = [3, 5, 9] ∧ insertStation 6 [3, 5, 9] = [3, 5, 6, 9] ∧ site.station ≠ none := by
  decide +kernel

theorem witness_RingStores_in_order : busy.ring.Stores := witness_StepKeepsTheRingStores.1.stores

def refreshDue : State := { site with out := { site.out with drivers := [⟨5, .running (tenths 10), .running 0⟩] } }

theorem witness_RefreshEnqueuesTheImage :
    Calm refreshDue ∧ refreshDue.station = some 9 ∧ refreshDue.out.sigDue = [] ∧ refreshLeft 5 refreshDue = some 0 :=
  ⟨⟨by decide +kernel, by decide +kernel, by decide +kernel, by decide +kernel⟩, by decide +kernel, by decide +kernel,
    by decide +kernel⟩

/-! ### Witnesses: detectors and the window -/

/-- Channel 0 in a state. -/
def chanIs (f : DetState → DetState) : State := site.setChan 0 (f { DetState.reset with health := .ok })

theorem witness_DetectorTimersMoveTheChannel :
    (let s := chanIs fun c => { c with pending := some ⟨true, tenths 2⟩ };
      filterLeft 0 s = some 0 ∧ (s.det.chans[(0 : Channel)]).filtered = false)
      ∧ (let s := chanIs fun c => { c with pending := some ⟨false, tenths 2⟩, filtered := true };
        filterLeft 0 s = some 0 ∧ (s.det.chans[(0 : Channel)]).health ≠ .stuck)
      ∧ (let s := chanIs fun c => { c with pending := some ⟨false, tenths 2⟩, filtered := true, health := .stuck };
        filterLeft 0 s = some 0 ∧ (s.det.chans[(0 : Channel)]).health = .stuck)
      ∧ silenceLeft 0 (chanIs fun c => { c with silence := .running (tenths 30) }) = some 0
      ∧ (let s := chanIs fun c => { c with stuck := .running (tenths 100), filtered := true };
        stuckLeft 0 s = some 0 ∧ (s.det.chans[(0 : Channel)]).health = .ok)
      ∧ (let s := chanIs fun c => { c with stuck := .running (tenths 100), filtered := true, health := .chatter };
        stuckLeft 0 s = some 0 ∧ (s.det.chans[(0 : Channel)]).health ≠ .ok) := by decide +kernel

/-- An ADAPTIVE plan with a relief threshold of 300 and a band of 50. -/
def planA : PlanRec := { plan1 with adaptive := some ⟨20, 60, 1, some 300, 5, 50⟩ }

/-- A MAINLINE channel 3 and a QUEUE channel 4 of ramp A, ON for `m` and `q` tenths of a window of 200 now due to close,
ramp A METERING by an ADAPTIVE plan. -/
def measuring (m q : Nat) : State :=
  let on (n : Nat) : DetState := { DetState.reset with health := .ok, okThroughout := true, onTime := tenths n }
  { metering with
    tables := { siteTables with
      detMap := vset (vset siteTables.detMap 3 (some { main1 with always := false })) 4
        (some { main1 with role := .queue, input := 4, always := false })
      plans := vset siteTables.plans 0 (some planA)
      curves := vset siteTables.curves 0 (some curve1) }
    det := { metering.det with
      chans := vset (vset metering.det.chans 3 (on m)) 4 (on q)
      elapsed := tenths 200 }
    time := { metering.time with closeDue := true } }

/-- A ramp whose first Match Table entry proposes an unset plan with persistence 2, its window due to close. -/
def choosing (k : Option Candidate) : State :=
  let s := metering.modRamp 0 fun c => { c with candidate := k }
  { s with
    tables := { siteTables with matches_ := vset siteTables.matches_ 0 (some ⟨0, 1, 7, some 2⟩) }
    time := { s.time with closeDue := true } }

theorem witness_WindowClosePublishesResults :
    ({ site with time := { site.time with closeDue := true } } : State).time.closeDue = true
      ∧ site.tables.detMap[(63 : Channel)] = none ∧ site.tables.detMap[(0 : Channel)] = some demand1
      ∧ (let c := ((chanIs fun c => { c with glitches := 6, health := .ok }).det.chans[(0 : Channel)]);
        c.health = .ok ∧ demand1.chatterLimit < c.glitches)
      ∧ (let c := ((chanIs fun c => { c with glitches := 5, health := .chatter }).det.chans[(0 : Channel)]);
        c.health = .chatter ∧ c.glitches ≤ demand1.chatterLimit)
      ∧ (site.ramps[(0 : Ramp)]).state = .off ∧ (site.ramps[(0 : Ramp)]).state ≠ .metering := by
  decide +kernel

theorem witness_WindowClose_selects :
    (let u := windowClose (choosing none);
      (u.ramps[(0 : Ramp)]).state ≠ .off ∧ matchRec (choosing none).tables 0 0 = some ⟨0, 1, 7, some 2⟩
        ∧ entryMatches ⟨0, 1, 7, some 2⟩ u.vectors[(0 : Ramp)] = true ∧ planSet u.tables 7 = false
        ∧ ((choosing none).ramps[(0 : Ramp)]).autoPlan = 1
        ∧ (u.ramps[(0 : Ramp)]).candidate = some ⟨0, 1⟩ ∧ (u.ramps[(0 : Ramp)]).planUnset = true)
      ∧ (let u := windowClose (choosing (some ⟨0, 1⟩));
        (u.ramps[(0 : Ramp)]).autoPlan = 0 ∧ (u.ramps[(0 : Ramp)]).candidate = none)
      ∧ (let u := windowClose metering;
        (u.ramps[(0 : Ramp)]).state ≠ .off ∧ (∀ j : Fin 12, matchRec u.tables 0 j = none)
          ∧ defaultPlan u.tables 0 = 1 ∧ planSet u.tables 1 = true ∧ (u.ramps[(0 : Ramp)]).autoPlan = 1) := by
  decide +kernel

theorem witness_WindowClose_relieves :
    (let u := windowClose (measuring 60 60);
      (u.ramps[(0 : Ramp)]).state = .metering ∧ planRec u.tables 1 = some planA
        ∧ (u.ramps[(0 : Ramp)]).adopted.map (·.number) = some 1
        ∧ queueOccupancy u 0 = some 300 ∧ mainlineOccupancy u 0 = some 300 ∧ curveRec u.tables 1 = some curve1
        ∧ curve1.points[1]? = some (300, 60) ∧ u.rate[(0 : Ramp)] = ⟨1, some 55, false⟩)
      ∧ (let u := windowClose (measuring 59 50);
        queueOccupancy u 0 = some 250 ∧ mainlineOccupancy u 0 = some 295 ∧ curve1.points[0]? = some (0, 20)
          ∧ u.rate[(0 : Ramp)] = ⟨0, some 20, false⟩)
      ∧ (queueOccupancy (windowClose (measuring 0 49)) 0 = some 245)
      ∧ (queueOccupancy (windowClose metering) 0 = none ∧ mainlineOccupancy (windowClose metering) 0 = none) := by
  decide +kernel

/-- A FIXED plan adopted: the close computes nothing for it. -/
theorem witness_WindowClose_fixed :
    planRec metering.tables 1 = some plan1 ∧ plan1.adaptive = none
      ∧ (metering.ramps[(0 : Ramp)]).adopted.map (·.number) = some 1 := by decide +kernel

/-- Ramp A METERING under SPILLBACK, whose hold expires as its only usable channel turns to chatter at the close, with a
source below that asks for DARK. -/
def chattering : State :=
  let s := metering.setAuth 0 { (AuthUnit.reset.setSource 2 ⟨true, true, false, true, none, some (.running 0)⟩).setSource 3
    ⟨true, true, false, true, none, none⟩ with holder := some 2, granted := some .flush }
  { (s.setChan 2 { DetState.reset with health := .ok, filtered := true, glitches := 6 }) with
    tables := { siteTables with actions := vset siteTables.actions 2 (some ⟨.dark, none⟩) }
    time := { s.time with closeDue := true } }

theorem witness_WindowClose_leaves_metering :
    (chattering.ramps[(0 : Ramp)]).state = .metering
      ∧ ((windowClose chattering).ramps[(0 : Ramp)]).state = .shutClear := by decide +kernel

/-- Channel 3 with a VALID occupancy. -/
def measured (occ : Nat) : State := site.setChan 3 { DetState.reset with lastOcc := occ, lastValid := true }

def condBelow : CondRec := { cond1 with below := true }

theorem witness_ConditionComparesItsMeasure :
    cond1.force = false ∧ validListed (measured 160) cond1 ≠ []
      ∧ validListed site cond1 = [] ∧ ({ cond1 with force := true } : CondRec).force = true
      ∧ cond1.flow = false ∧ ({ cond1 with flow := true } : CondRec).flow = true
      ∧ cond1.threshold ≤ measure (measured 160) cond1
      ∧ (measure (measured 159) cond1 < cond1.threshold
        ∧ cond1.threshold - cond1.hysteresis ≤ measure (measured 130) cond1)
      ∧ measure (measured 129) cond1 < cond1.threshold - cond1.hysteresis
      ∧ condBelow.below = true ∧ measure (measured 160) condBelow ≤ condBelow.threshold
      ∧ (condBelow.threshold < measure (measured 161) condBelow
        ∧ measure (measured 190) condBelow ≤ condBelow.threshold + condBelow.hysteresis)
      ∧ condBelow.threshold + condBelow.hysteresis < measure (measured 191) condBelow := by decide +kernel

/-! ### Witnesses: ramps and lanes -/

def startup (st : RampState) (ph : Option ClearPhase) (n : Nat) : State :=
  rampIs fun c => { c with
    mode := .auto, state := st, clearPhase := ph, autoPlan := 1, stopStands := false, phaseTimer := .running (tenths n) }

theorem witness_StartUpRunsThroughItsStates :
    (lanesOf site.tables 0).Nodup ∧ (0 : Lane) ∈ lanesOf site.tables 0 ∧ site.tables.laneCfg[(0 : Lane)] ≠ none
      ∧ (warnLeft 0 (startup .warn none 50) = some 0
        ∧ ((startup .warn none 50).lanes[(0 : Lane)]).state = .dark)
      ∧ startGreenLeft 0 (laneIs .greenRest none none (startup .startGreen none 30)) = some 0
      ∧ startYellowLeft 0 (laneIs .yellow none none (startup .startClear (some .yellow) 30)) = some 0 := by
  decide +kernel

theorem witness_StartRedAndShutdownEnd :
    (let s := startup .startClear (some .red) 20;
      startRedLeft 0 s = some 0 ∧ (s.ramps[(0 : Ramp)]).stopStands = false)
      ∧ (let s := modeOff 0 (startup .startClear (some .red) 20);
        startRedLeft 0 s = some 0 ∧ (s.ramps[(0 : Ramp)]).stopStands = true)
      ∧ (let s := startup .shutFlush none 50;
        shutFlushLeft 0 s = some 0 ∧ (s.ramps[(0 : Ramp)]).mode = .auto)
      ∧ (let s := (startup .shutFlush none 50).modRamp 0 fun c => { c with mode := .off };
        shutFlushLeft 0 s = some 0 ∧ (s.ramps[(0 : Ramp)]).mode = .off) := by decide +kernel

/-- A stop demand judged on an unset plan stands through START_CLEAR, though the plan is written before its end (R61,
R65). -/
theorem test_written_plan_lifts_no_stop :
    let s := putPlan 6 (some plan1) (judge 0 ((startup .startClear (some .red) 20).modRamp 0 fun c => { c with autoPlan := 7 }));
    stopDemand s 0 = false ∧ ((startRedExpired 0 (laneIs .minRed none none s)).ramps[(0 : Ramp)]).state = .shutClear := by
  decide +kernel

/-- A plan cleared in START_CLEAR brings no stop before METERING's first boundary judges it, which counts its slot
(R61, R66, R67). -/
theorem test_cleared_plan_stops_at_the_boundary :
    let u := startRedExpired 0 (laneIs .minRed none none (putPlan 0 none (judge 0 (startup .startClear (some .red) 20))));
    (u.ramps[(0 : Ramp)]).state = .shutClear ∧ (u.ramps[(0 : Ramp)]).slotCount = 1 := by
  decide +kernel

/-- A slot of 40 tenths has run. -/
def slotRun : State := metering.modRamp 0 fun c => { c with slotClock := .running (tenths 40) }

/-- The judged state of a boundary. -/
def judged (s : State) : State :=
  judge 0 (boundaryArbitration 0 (s.modRamp 0 fun c => { c with
    slotCount := if c.slotCount < 65535 then c.slotCount + 1 else 65535 }))

def failed : State := slotRun.setAuth 0
  { AuthUnit.reset.setSource 0 ⟨true, true, false, true, none, some .uncapped⟩ with
    holder := some 0, granted := some .failsafe }

theorem witness_SlotBoundaryStartsTheNextSlot :
    ((slotRun.ramps[(0 : Ramp)]).state = .metering ∧ slotLeft 0 slotRun = some 0
      ∧ planRec slotRun.tables 1 = some plan1 ∧ stopDemand (judged slotRun) 0 = false
      ∧ effectiveAction (judged slotRun) 0 = .auto 1 ∧ plan1.adaptive = none ∧ plan1.coordinated = true
      ∧ slotRun.time.locked = false ∧ adoptedNumber slotRun.ramps[(0 : Ramp)] = some 1)
      ∧ (let s := { slotRun with time := { slotRun.time with locked := true, corridor := 863999 } };
        slotLeft 0 s = some 0 ∧ effectiveAction (judged s) 0 = .auto 1 ∧ s.time.locked = true)
      ∧ (let s := slotRun.setAuth 0 held;
        slotLeft 0 s = some 0 ∧ stopDemand (judged s) 0 = false ∧ effectiveAction (judged s) 0 = .hold
          ∧ s.time.locked = false)
      ∧ (let s := ({ slotRun with time := { slotRun.time with locked := true } }).setAuth 0
          { held with granted := some .flush };
        stopDemand (judged s) 0 = false ∧ effectiveAction (judged s) 0 = .flush ∧ s.time.locked = true
          ∧ (s.ramps[(0 : Ramp)]).adopted.map (·.coordinated) = some true)
      ∧ (let s := slotRun.setAuth 0 { held with granted := some (.plan 1) };
        stopDemand (judged s) 0 = false ∧ effectiveAction (judged s) 0 = .plan 1)
      ∧ (let s := slotRun.modRamp 0 fun c => { c with mode := .off };
        slotLeft 0 s = some 0 ∧ stopDemand (judged s) 0 = true ∧ effectiveAction (judged s) 0 ≠ .failsafe
          ∧ ((slotBoundary 0 (laneIs .restRed none none s)).lanes[(0 : Lane)]).state = .greenRest
          ∧ ((slotBoundary 0 (laneIs .yellow none none s)).lanes[(0 : Lane)]).state ≠ .greenRest)
      ∧ (slotLeft 0 failed = some 0 ∧ effectiveAction (judged failed) 0 = .failsafe) := by decide +kernel

/-- An ADAPTIVE plan adopted afresh and re-read, and a re-read with a changed period. -/
theorem witness_SlotBoundary_adopts :
    (let s := { slotRun with tables := { siteTables with plans := vset siteTables.plans 0 (some planA) } };
      planRec s.tables 1 = some planA ∧ planA.adaptive ≠ none ∧ stopDemand (judged s) 0 = false
        ∧ effectiveAction (judged s) 0 = .auto 1 ∧ adoptedNumber s.ramps[(0 : Ramp)] = some 1)
      ∧ (let s := ({ slotRun with tables := { siteTables with plans := vset siteTables.plans 0 (some planA) } }).modRamp 0
          fun c => { c with adopted := none };
        stopDemand (judged s) 0 = false ∧ effectiveAction (judged s) 0 = .auto 1
          ∧ adoptedNumber s.ramps[(0 : Ramp)] ≠ some 1)
      ∧ (let a := { adoptedOf 1 plan1 with period := 5 }; a.number = 1 ∧ a.period ≠ plan1.period)
      ∧ (adoptedOf 1 plan1).number = 1 ∧ (adoptedOf 1 plan1).period = plan1.period := by decide +kernel

/-- Count 1 returns to 0, whose bit lane position 1 holds; count 0 goes on to 1, whose bit it does not. -/
def offering (st : LaneState) (call : Bool) : State :=
  (laneIs st none none (slotRun.modRamp 0 fun c => { c with patternCount := 1 })).setLane 0
    { LaneCtx.reset with state := st, call := call }

theorem witness_SlotBoundary_offers :
    (lanesOf slotRun.tables 0).Nodup ∧ (lanesOf slotRun.tables 0)[0]? = some 0
      ∧ slotRun.tables.laneCfg[(0 : Lane)] = some lane1 ∧ (1 : Lane) ∉ lanesOf slotRun.tables 0
      ∧ (∀ k ∈ lanesOf slotRun.tables 0, k ≠ 0 → headOf slotRun.tables k ≠ some lane1.head)
      ∧ (let u := slotBoundary 0 slotRun;
        (plan1.masks[0]?.map fun m => m.getLsbD (u.ramps[(0 : Ramp)]).patternCount) = some false)
      ∧ (let s := offering .restRed true; let u := slotBoundary 0 s;
        (plan1.masks[0]?.map fun m => m.getLsbD (u.ramps[(0 : Ramp)]).patternCount) = some true
          ∧ ((orderReturn 0 s).lanes[(0 : Lane)]).state = .restRed
          ∧ ((orderReturn 0 s).lanes[(0 : Lane)]).call = true ∧ (u.lanes[(0 : Lane)]).state = .delay)
      ∧ (let s := offering .restRed false;
        ((orderReturn 0 s).lanes[(0 : Lane)]).call = false
          ∧ ((slotBoundary 0 s).lanes[(0 : Lane)]).counts.idleOffers = 1)
      ∧ (let s := offering .minRed false;
        ((orderReturn 0 s).lanes[(0 : Lane)]).state ≠ .restRed
          ∧ ((slotBoundary 0 s).lanes[(0 : Lane)]).counts.overrunSkips = 1) := by decide +kernel

/-- Ramp A in SHUT_CLEAR, lane 1 at its red end in a regime. -/
def closing (g : Regime) : State :=
  (startup .shutClear none 0).setLane 0 { LaneCtx.reset with
    state := .minRed, regime := g, interval := some { greenInterval (tenths 40) with greenEnd := some 0 } }

theorem witness_LanePointsMoveTheLane :
    site.tables.laneCfg[(0 : Lane)] = some lane1
      ∧ delayLeft 0 (laneIs .delay (some (greenInterval (tenths 5))) none metering) = some 0
      ∧ maxGreenLeft 0 (laneIs .green (some (greenInterval (tenths 25))) (some 0) metering) = some 0
      ∧ minGreenLeft 0 (laneIs .green (some (greenInterval (tenths 15))) (some 1) metering) = some 0
      ∧ minGreenLeft 0 (laneIs .green (some { greenInterval (tenths 15) with cut := true }) (some 0) metering) = some 0
      ∧ yellowLeft 0 (laneIs .yellow (some { greenInterval (tenths 20) with greenEnd := some 0 }) none metering) = some 0
      ∧ (redLeft 0 (closing .flush) = some 0 ∧ ((closing .flush).lanes[(0 : Lane)]).regime = .flush
        ∧ rampOfLane site.tables 0 = some 0 ∧ ((closing .flush).ramps[(0 : Ramp)]).state = .shutClear
        ∧ ((laneRedEnd 0 (closing .flush)).ramps[(0 : Ramp)]).state = .shutFlush)
      ∧ (redLeft 0 (closing .meter) = some 0 ∧ ((closing .meter).lanes[(0 : Lane)]).regime ≠ .flush
        ∧ ((laneRedEnd 0 (closing .meter)).lanes[(0 : Lane)]).state ≠ .greenRest)
      ∧ (∀ r : Ramp, beaconOf site.tables r ≠ some lane1.head)
      ∧ (laneIs .green (some (greenInterval (tenths 25))) (some 0) metering).tables.laneCfg[(0 : Lane)] = some lane1 := by
  decide +kernel

/-- The demand and the passage channel of lane 1, filtered as given and OK. -/
def seen (demand passage : Bool) (s : State) : State :=
  (s.setChan 0 { DetState.reset with health := .ok, filtered := demand }).setChan 1
    { DetState.reset with health := .ok, filtered := passage }

/-- A passage, and a rise of presence, by the lane's state. -/
theorem witness_LaneHears :
    (effectiveOf (seen false false metering) 0 = false ∧ effectiveOf (seen true true metering) 0 = true)
      ∧ (lane1.passage = some 1 ∧ (((seen false false metering).det.chans[(1 : Channel)]).filtered = false)
        ∧ ((seen true true metering).det.chans[(1 : Channel)]).filtered = true
        ∧ ((seen true true metering).det.chans[(1 : Channel)]).health = .ok)
      ∧ ((laneHears (seen false false metering) 0 (laneIs .restRed none none (seen true false metering))).lanes[(0 : Lane)])
        = { LaneCtx.reset with state := .restRed, call := true }
      ∧ (∀ n : Fin 3, (greenInterval (tenths 14)).release.map (·.vehicles) = some 1 ∧
        (((laneHears (seen false false metering) 0 (laneIs .green (some (greenInterval (tenths (14 + n.val)))) (some 0)
          (seen false true metering))).lanes[(0 : Lane)]).state = .green ↔ n = 0)) := by decide +kernel

theorem witness_LaneOrders :
    (lanesOf metering.tables 0).Nodup ∧ (0 : Lane) ∈ lanesOf metering.tables 0 ∧ (11 : Lane) ∉ lanesOf metering.tables 0
      ∧ (let v := greenInterval (tenths 15); v.release = some ⟨5, 10, 20, 1⟩ ∧ (5 + 10) * 100000 ≤ v.counter)
      ∧ ((greenInterval (tenths 15 - 1)).counter < (5 + 10) * 100000)
      ∧ (let s := metering.setLane 0 { LaneCtx.reset with state := .greenRest, regime := .flush };
        (s.lanes[(0 : Lane)]).regime = .flush ∧ (s.lanes[(0 : Lane)]).state = .greenRest
          ∧ ((orderReturn 0 s).lanes[(0 : Lane)]).state = .yellow) := by decide +kernel

/-! ### Witnesses: authority, lines, outputs, time -/

theorem witness_ArbitrationGrantsTheHighest :
    (∀ k : Source, (AuthUnit.reset.sources[k]).standing = false)
      ∧ (let a := held.setSource 1 ⟨true, true, false, true, none, none⟩;
        (a.sources[(1 : Source)]).standing = true ∧ (∀ k : Source, k < 1 → (a.sources[k]).standing = false)
          ∧ a.holder ≠ some 1 ∧ 1 ∉ a.stack)
      ∧ (let a := held.setSource 3 { held.sources[(3 : Source)] with standing := false };
        (a.sources[(5 : Source)]).standing = true ∧ (∀ k : Source, k < 5 → (a.sources[k]).standing = false)
          ∧ a.holder ≠ some 5 ∧ 5 ∈ a.stack) := by decide +kernel

theorem witness_AuthorityTimersExpire :
    (holdLeft 0 atZero = some 0 ∧ (atZero.auth[(0 : Ramp)]).holder = some 3)
      ∧ (let s := metering.setAuth 0 (held.setSource 5 ⟨true, true, false, true, some 0, some (.paused 5)⟩);
        leaseLeft 0 .plan s = some 0 ∧ ((s.auth[(0 : Ramp)]).sources[centralSource .plan]).asserted = true
          ∧ (s.auth[(0 : Ramp)]).holder ≠ some (centralSource .plan))
      ∧ (leaseLeft 0 .urgent atZero = some 0
        ∧ ((atZero.auth[(0 : Ramp)]).sources[centralSource .urgent]).asserted = true
        ∧ (atZero.auth[(0 : Ramp)]).holder = some (centralSource .urgent)
        ∧ ((atZero.auth[(0 : Ramp)]).sources[centralSource .urgent]).hold = some (.running 0)) := by
  decide +kernel

/-- A source of ramp A asserted and armed, its standing not refreshed. -/
def unrefreshed (k : Source) (s : State) : State :=
  s.setAuth 0 (AuthUnit.reset.setSource k ⟨true, true, false, false, none, none⟩)

theorem witness_SourceChangesReachArbitration :
    (site.ramps[(0 : Ramp)]).state = .off ∧ (metering.ramps[(0 : Ramp)]).state = .metering ∧ 2 ≤ (2 : Source).val
      ∧ ((metering.auth[(0 : Ramp)]).sources[(1 : Source)]).standing = false
      ∧ (let s := unrefreshed 1 metering;
        (s.ramps[(0 : Ramp)]).state ≠ .off ∧ ((s.ramps[(0 : Ramp)]).state = .metering → (1 : Source).val < 2)
          ∧ ((s.auth[(0 : Ramp)]).sources[(1 : Source)]).standing = false
          ∧ ((s.auth[(0 : Ramp)]).sources[(1 : Source)]).eligible = true)
      ∧ (let s := unrefreshed 5 (startup .warn none 0);
        (s.ramps[(0 : Ramp)]).state ≠ .off ∧ ((s.ramps[(0 : Ramp)]).state = .metering → (5 : Source).val < 2)) := by
  decide +kernel

theorem witness_LinesAreDebounced :
    ((site.setLine 0 ⟨true, false, .running 3⟩).lines[(0 : Line)]).timer = .running 3
      ∧ debounceLeft 0 (site.setLine 0 ⟨true, false, .running 500000⟩) = some 0
      ∧ ∃ k : Line, k ≠ 0 := by decide +kernel

/-- Channel 2, ramp A's SPILLBACK channel, in a health and with a presence. -/
def spill (h : Health) (on : Bool) (s : State) : State :=
  s.setChan 2 { DetState.reset with health := h, filtered := on }

/-- SPILLBACK of ramp A asserted. -/
def spilled (t : Timer) : State :=
  site.setAuth 0 { AuthUnit.reset.setSource 2 ⟨true, true, false, false, none, none⟩ with clearTimer := t }

theorem witness_SpillbackTimersAssertAndClear :
    (let s := spill .ok true (site.setOnTimer 2 (.running (tenths 50)));
      onTimerLeft 2 s = some 0 ∧ s.onTimers[(2 : Channel)] = .running (tenths 50) ∧ spillRamp s.tables 2 = some 0
        ∧ s.tables.rampCfg[(0 : Ramp)] = some rampA ∧ usable s 2 = true
        ∧ (s.det.chans[(2 : Channel)]).filtered = true)
      ∧ (let s := spilled (.running (tenths 20));
        clearTimerLeft 0 s = some 0 ∧ (s.auth[(0 : Ramp)]).clearTimer = .running (tenths 20)
          ∧ ((s.auth[(0 : Ramp)]).sources[(2 : Source)]).asserted = true)
      ∧ (site.tables.detMap[(2 : Channel)] = some spill1 ∧ spill1.role = .spillback
        ∧ (∀ q : Ramp, spill1.ramps.getLsbD q.val = decide (q = 0)) ∧ demand1.role ≠ .spillback
        ∧ site.tables.detMap[(63 : Channel)] = none) := by
  decide +kernel

/-- An announcement: no usable channel, one with presence ON, and all OFF; a ramp with no Ramp Config. -/
theorem witness_Spillback_announced :
    (usable (spill .chatter true site) 2 = false ∧ (∀ ch : Channel, spillRamp site.tables ch = some 0 → ch = 2))
      ∧ (usable (spill .ok true site) 2 = true ∧ usable (spill .ok false site) 2 = true)
      ∧ site.tables.rampCfg[(3 : Ramp)] = none ∧ ((site.auth[(0 : Ramp)]).sources[(2 : Source)]).asserted = false
      ∧ (((announce site (spill .chatter true (spilled .stopped))).auth[(0 : Ramp)]).sources[(2 : Source)]).asserted = false
      ∧ ((announce site (spill .ok false (spilled .stopped))).auth[(0 : Ramp)]).clearTimer = .running 0 := by
  decide +kernel

theorem witness_LampTimersLatchFaults :
    (mismatchLeft 0 (site.setOut 0 { OutChan.reset with commanded := .red, mismatch := .running (tenths 15) }) = some 0
      ∧ ownerOf site.tables 0 = some 0)
      ∧ driverSilenceLeft 5 { site with out := { site.out with drivers := [⟨5, .stopped, .running (tenths 50)⟩] } }
        = some 0 := by decide +kernel

theorem witness_SyncAndQuietTimersExpire :
    syncLeft { site with time := { site.time with locked := true, syncTimer := .running (tenths 100) } } = some 0
      ∧ (let s := { site with ring := { site.ring with quietTimer := .running (tenths 100) } };
        quietLeft s = some 0 ∧ s.ring.quiet = false) := by decide +kernel

/-! ### Witnesses: the clauses on states between events -/

/-- Nothing is due at the site, and nothing is being sent. -/
theorem witness_EveryCommand_not_due :
    filterLeft 0 (site.setChan 0 { DetState.reset with pending := some ⟨true, tenths 2 - 1⟩ }) = some 1
      ∧ warnLeft 0 (startup .warn none 49) = some (tenths 1) ∧ leaseLeft 0 .plan asserted3 = some (tenths 1)
      ∧ quietLeft site = some (tenths 100) ∧ closeLeft site ≠ some 0 ∧ debounceLeft 0 site ≠ some 0
      ∧ driverSilenceLeft 6 site ≠ some 0 ∧ redLeft 0 site ≠ some 0 ∧ site.ring.inFlight = none := by decide +kernel

theorem apart_site : siteTables.Apart := by
  have i : ∀ c : Channel, (siteTables.detMap[c]).all (fun x => decide (x.input = c.val)) = true := by decide +kernel
  have o : ∀ c : OutCh, (siteTables.outMap[c]).all (fun x => decide (x.output.val = c.val)) = true := by decide +kernel
  refine ⟨by decide +kernel, by decide +kernel, by decide +kernel, by decide +kernel, by decide +kernel,
    fun c d x y n ex ey => Or.inr fun e => n (Fin.ext ?_), fun c d x y n ex ey => Or.inr fun e => n (Fin.ext ?_)⟩
  · have a := i c; have b := i d
    rw [ex] at a; rw [ey] at b
    exact ((of_decide_eq_true a : x.input = c.val).symm.trans e).trans (of_decide_eq_true b : y.input = d.val)
  · have a := o c; have b := o d
    rw [ex] at a; rw [ey] at b
    exact ((of_decide_eq_true a : x.output.val = c.val).symm.trans (congrArg Fin.val e)).trans
      (of_decide_eq_true b : y.output.val = d.val)

theorem witness_StepKeepsLatches_apart : busy.tables.Apart ∧ ∃ t, step busy = .next t := ⟨apart_site, busy_steps⟩

/-- Ramp A in a state, a mode and with an auto plan. -/
def standsIn (st : RampState) (m : Mode) (plan : Nat) : State :=
  rampIs fun c => { c with mode := m, state := st, autoPlan := plan }

/-- The same with a lamp fault at lane 1's head. -/
def failing (st : RampState) : State :=
  (standsIn st .auto 1).setOut 0 { OutChan.reset with commanded := .red, fault := true }

/-- A cause of FAILSAFE and a source 0 yet to be asserted; METERING, STANDBY and OFF at the event's end. -/
theorem witness_EventEnd_takes :
    (∀ st : RampState, (failing st).tables = siteTables ∧ failsafeCause (failing st) 0 = true
      ∧ (failing st).auth[(0 : Ramp)] = AuthUnit.reset ∧ ((failing st).ramps[(0 : Ramp)]).state = st)
      ∧ (let x := AuthUnit.reset.sources[(0 : Source)];
        x.asserted = false ∧ x.armed = true ∧ x.spent = false ∧ x.standing = false ∧ AuthUnit.reset.holder ≠ some 0)
      ∧ (let u := endEvent (failing .metering);
        (u.ramps[(0 : Ramp)]).state = .darkFail ∧ (u.lanes[(0 : Lane)]).state = .dark
          ∧ (u.auth[(0 : Ramp)]).granted = some .failsafe ∧ (u.out.chans[(1 : OutCh)]).commanded = .dark)
      ∧ ((endEvent (failing .standby)).ramps[(0 : Ramp)]).state = .standby
      ∧ ((endEvent (failing .off)).auth[(0 : Ramp)]).holder = none := by
  refine ⟨fun st => ⟨rfl, ?_, rfl, ?_⟩, by decide +kernel, by decide +kernel, by decide +kernel, by decide +kernel⟩ <;>
    cases st <;> decide +kernel

/-- FAILSAFE holding with no cause left, source `k` as given below it. -/
def recovering (st : RampState) (m : Mode) (plan : Nat) (k : Source) (x : SourceRec) : State :=
  (standsIn st m plan).setAuth 0
    { (AuthUnit.reset.setSource k x).setSource 0 ⟨true, true, false, true, none, some .uncapped⟩ with
      holder := some 0, granted := some .failsafe }

theorem witness_EventEnd_releases :
    (let s := recovering .darkFail .off 0 3 ⟨true, true, false, true, none, none⟩;
      s.tables = siteTables ∧ failsafeCause s 0 = false ∧ (∀ d ∈ s.out.drivers, d.silence ≠ .expired)
        ∧ ((s.auth[(0 : Ramp)]).sources[(0 : Source)]).asserted = true
        ∧ ((s.auth[(0 : Ramp)]).sources[(0 : Source)]).standing = true ∧ (s.auth[(0 : Ramp)]).holder = some 0
        ∧ (s.ramps[(0 : Ramp)]).state = .darkFail ∧ (s.ramps[(0 : Ramp)]).mode = .off
        ∧ (((endEvent s).ramps[(0 : Ramp)]).state = .off))
      ∧ (let s := recovering .darkFail .auto 1 3 ⟨false, true, false, false, none, none⟩;
        (s.ramps[(0 : Ramp)]).mode = .auto ∧ startDemand (endEvent s) 0 = true
          ∧ (∀ k : Source, k ≠ 0 → ((s.auth[(0 : Ramp)]).sources[k]).standing = false)
          ∧ ((endEvent s).ramps[(0 : Ramp)]).state = .warn)
      ∧ (let s := recovering .darkFail .auto 0 3 ⟨false, true, false, false, none, none⟩;
        startDemand (endEvent s) 0 = false ∧ ((endEvent s).ramps[(0 : Ramp)]).state = .standby)
      ∧ (let s := recovering .standby .auto 0 3 ⟨true, true, false, true, none, none⟩;
        (s.ramps[(0 : Ramp)]).state = .standby ∧ ((s.auth[(0 : Ramp)]).sources[(3 : Source)]).standing = true
          ∧ (∀ k : Source, k ≠ 0 → k < 3 → ((s.auth[(0 : Ramp)]).sources[k]).standing = false)
          ∧ ((endEvent s).auth[(0 : Ramp)]).granted = some .hold ∧ startDemand (endEvent s) 0 = true) := by
  decide +kernel

/-- A faulted channel moved to station 6, the last channel of station 5 cleared, and a record of an unset channel. -/
theorem witness_TableWrite_effects :
    (ownerOf faulted.tables 0 = some 0 ∧ (faulted.out.chans[(0 : OutCh)]).fault = true
      ∧ (faulted.out.chans[(0 : OutCh)]).commanded ≠ .dark ∧ (∀ d ∈ faulted.out.drivers, d.silence ≠ .expired))
      ∧ (let u := putOutMap 0 (some { out1 with station := 6 }) faulted;
        u.tables.outMap[(1 : OutCh)] = some out2 ∧ out2.station = 5 ∧ (driverOf u.out 5).isSome = true
          ∧ (driverOf u.out 6) = some ⟨6, .stopped, .running 0⟩ ∧ u.out.sigDue = [5, 6])
      ∧ (let u := putOutMap 1 none (putOutMap 0 none faulted);
        (∀ c : OutCh, u.tables.outMap[c] = none) ∧ driverOf u.out 5 = none)
      ∧ (faulted.out.chans[(15 : OutCh)]).commanded = .dark ∧ driverOf faulted.out 7 = none := by
  decide +kernel

theorem serves_standsIn (st : RampState) (m : Mode) (plan : Nat) : Serves 9 1 (standsIn st m plan) :=
  ⟨rfl, by decide, by decide, show rspCount site.ring.insert < 8 by decide +kernel⟩

/-- OFF left with and without a start demand, and a demand acted on in STANDBY, WARN, START_GREEN and elsewhere. -/
theorem witness_RampModeAuto_demands :
    (startDemand (leaveOff 0 site) 0 = false ∧ startDemand (leaveOff 0 (site.setAuth 0
      (AuthUnit.reset.setSource 3 ⟨true, true, false, false, none, none⟩))) 0 = true)
      ∧ (let d := fun st plan => (modeAuto 0 (standsIn st .off plan));
        (startDemand (d .standby 1) 0 = true ∧ startDemand (d .standby 0) 0 = false)
          ∧ (stopDemand (d .warn 0) 0 = true ∧ stopDemand (d .warn 1) 0 = false)
          ∧ (stopDemand (d .startGreen 0) 0 = true ∧ stopDemand (d .startGreen 1) 0 = false)) := by
  decide +kernel

theorem witness_Status_sections :
    (∃ bit : Bool → Nat, ∀ b : Bool, bit b = if b = true then 1 else 0)
      ∧ (∃ (hold : Option Hold → List Byte) (lease : Option Nat → List Byte), ∀ n : Nat,
        hold none = [0, 0] ∧ hold (some .uncapped) = [255, 255] ∧ hold (some (.running n)) = be16 ((n + 99999) / 100000)
          ∧ hold (some (.paused n)) = be16 ((n + 99999) / 100000)
          ∧ lease none = [255, 255] ∧ lease (some n) = be16 ((n + 99999) / 100000))
      ∧ (∃ timer : Timer → Nat, ∀ n : Nat, timer .stopped = 0 ∧ timer (.running n) = 1 ∧ timer .expired = 2)
      ∧ faultedChannels faulted 0 = [0] ∧ spillChannels site 0 = [2] :=
  ⟨⟨_, fun _ => rfl⟩, ⟨holdBytes, leaseBytes, fun _ => ⟨by decide, by decide, rfl, rfl, by decide, rfl⟩⟩,
    ⟨timerCode, fun _ => ⟨rfl, rfl, rfl⟩⟩, by decide +kernel, by decide +kernel⟩

/-- Payloads that are malformed: none, a count of 0, of 9, and one past the bytes that follow. -/
theorem witness_Broadcast_malformed :
    acceptFrame (frameBytes 0 7 1 []) = some ⟨0, 7, 1, []⟩ ∧ acceptFrame (frameBytes 0 7 1 [0]) = some ⟨0, 7, 1, [0]⟩
      ∧ acceptFrame (frameBytes 0 7 1 [9, 1, 1]) = some ⟨0, 7, 1, [9, 1, 1]⟩ ∧ 8 < (9 : Byte).toNat
      ∧ (acceptFrame (frameBytes 0 7 1 [3, 1, 1]) = some ⟨0, 7, 1, [3, 1, 1]⟩ ∧ ([1, 1] : List Byte).length < (3 : Byte).toNat) := by
  decide +kernel

/-- A report at a channel UNSEEN; STUCK with presence falling; and LOOP_FAULT that ends with the stuck timer expired. -/
theorem witness_Broadcast_applied :
    (applyReport passage1 true true DetState.reset).health = .loopFault
      ∧ (applyReport passage1 true false { DetState.reset with health := .silent }).volume = 1
      ∧ (let c := { DetState.reset with health := .stuck, filtered := true, stuck := .expired };
        c.pending = none ∧ passage1.filter = 0 ∧ (applyFilter passage1 false c).health = .ok
          ∧ (applyReport passage1 false true c).health = .loopFault)
      ∧ (let c := { DetState.reset with health := .loopFault, filtered := true, stuck := .expired };
        c.health ≠ .unseen ∧ c.health ≠ .silent ∧ (applyFilter passage1 true c).health = .loopFault
          ∧ (applyFilter passage1 true c).stuck = .expired ∧ (applyReport passage1 true false c).health = .stuck
          ∧ (applyReport passage1 false false c).health = .ok) := by decide +kernel

/-- Input 0 of card 7 is channel 0's alone, and input 4 is no channel's. -/
theorem witness_Broadcast_verdicts :
    (∀ (c : Channel) (e : DetRec), c ≠ 0 → site.tables.detMap[c] = some e → e.station ≠ 7 ∨ e.input ≠ 0)
      ∧ (∀ (c : Channel) (e : DetRec), site.tables.detMap[c] = some e → e.station ≠ 7 ∨ e.input ≠ 4)
      ∧ site.tables.detMap[(0 : Channel)] = some demand1 ∧ demand1.always = false ∧ main1.always = true := by
  have h : ∀ c : Channel, site.tables.detMap[c].all (fun e => decide (e.input ≠ 4 ∧ (c ≠ 0 → e.input ≠ 0))) = true := by
    decide +kernel
  refine ⟨fun c e n k => ?_, fun c e k => ?_, by decide +kernel, rfl, rfl⟩ <;>
    (have a := h c; rw [k] at a; have b := of_decide_eq_true a)
  · exact Or.inr (b.2 n)
  · exact Or.inr b.1

/-- Differences of 1 and -1, one backward, one just within the window, one on its end, and a close not yet taken. -/
theorem witness_TimeMarks_adopt :
    markDifference 0 1 = 1 ∧ markDifference 0 863999 = -1 ∧ markDifference 0 863998 = -2
      ∧ markDifference 0 199 = 199 ∧ markDifference 0 200 = 200 ∧ windowLength site.tables = 200
      ∧ (¬ ∃ k : Nat, 0 < k * 200 ∧ ((k * 200 : Nat) : Int) ≤ 0 + 199)
      ∧ (∃ k : Nat, 0 < k * 200 ∧ ((k * 200 : Nat) : Int) ≤ 0 + 200) ∧ site.time.closeDue = false
      ∧ ((after (.frameArrival (frameBytes 0 1 4 [0, 0, 200])) site).time.corridor = 200
        ∧ (after (.frameArrival (frameBytes 0 1 4 [0, 0, 200])) site).det.elapsed = 0) := by
  refine ⟨by decide, by decide, by decide, by decide, by decide, by decide +kernel, ?_, ⟨1, by decide, by decide⟩,
    by decide +kernel, by decide +kernel⟩
  rintro ⟨k, h1, h2⟩; omega

/-- A head commanded RED: its report of DARK starts the mismatch timer, lets it run on, and one of RED stops it. -/
theorem witness_LampReport_judged :
    (let c := fun t : Timer => site.setOut 0 { OutChan.reset with commanded := .red, mismatch := t };
      let m := fun (s : State) (b : Byte) =>
        ((after (.frameArrival (frameBytes 9 5 2 [1, b])) s).out.chans[(0 : OutCh)]).mismatch;
      isChecked site.tables 0 = true ∧ m (c .stopped) 0 = .running 0 ∧ m (c (.running 7)) 0 = .running 7
        ∧ m (c (.running 7)) 1 = .stopped ∧ m (c .stopped) 9 = .running 0)
      ∧ isChecked site.tables 1 = false := by decide +kernel

/-- A latched fault with its ramp's source 0 asserted, at a driver's refresh. -/
theorem witness_Refresh_under_fault :
    (let s := (refreshDue.setOut 0 { OutChan.reset with fault := true }).setAuth 0
        (AuthUnit.reset.setSource 0 ⟨true, true, false, true, none, none⟩);
      s.station = some 9 ∧ s.out.sigDue = [] ∧ refreshLeft 5 s = some 0 ∧ ¬ (s.out.chans[(0 : OutCh)]).fault = false
        ∧ ∀ r : Ramp, ((s.auth[r]).sources[(0 : Source)]).asserted = true
          ↔ s.ring.quiet = true ∨ ∃ ch : OutCh, belongs s.tables r ch = true ∧ (s.out.chans[ch]).fault = true) := by
  decide +kernel

/-- The lanes at rest or not at the red phase's end, and the demand behind a shutdown flush. -/
theorem witness_StartRedAndShutdown_ends :
    (let s := modeOff 0 (startup .startClear (some .red) 20);
      ((startRedExpired 0 (laneIs .restRed none none s)).ramps[(0 : Ramp)]).state = .shutFlush
        ∧ ((startRedExpired 0 (laneIs .minRed none none s)).ramps[(0 : Ramp)]).state = .shutClear)
      ∧ startDemand (shutFlushExpired 0 (startup .shutFlush none 50)) 0 = true
      ∧ startDemand (shutFlushExpired 0 ((startup .shutFlush none 50).modRamp 0 fun c => { c with autoPlan := 0 })) 0
        = false := by decide +kernel

/-- The holder 3 of `held` under source 1: suspended, at no time left, UNCAPPED and not ELIGIBLE; a stack entry with
standing NOT; and the holder kept. -/
theorem witness_Arbitration_suspends :
    (let a := fun x : SourceRec => (held.setSource 1 ⟨true, true, false, true, none, none⟩).setSource 3 x;
      ((a held.sources[(3 : Source)]).sources[(1 : Source)]).standing = true
        ∧ (held.sources[(3 : Source)]).hold = some (.running (tenths 600))
        ∧ ((a held.sources[(3 : Source)]).arbitrate (fun _ => none) 0).1.stack = [3, 5]
        ∧ ((a ⟨true, true, false, true, none, some (.running 0)⟩).arbitrate (fun _ => none) 0).1.stack = [5]
        ∧ ((a ⟨true, true, false, true, none, some .uncapped⟩).arbitrate (fun _ => none) 0).1.stack = [3, 5]
        ∧ ((a ⟨true, true, false, false, none, some (.running 9)⟩).arbitrate (fun _ => none) 0).1.stack = [5])
      ∧ (let a := held.setSource 5 { held.sources[(5 : Source)] with standing := false };
        (5 : Source) ∈ a.stack ∧ (a.sources[(5 : Source)]).standing = false ∧ a.holder = some 3
          ∧ (∀ k : Source, k < 3 → (a.sources[k]).standing = false) ∧ (a.arbitrate (fun _ => none) 0).1.stack = []) := by
  decide +kernel

/-- Ramp A with source `k` ELIGIBLE and the ramp free. -/
def asks (k : Source) (s : State) : State := s.setAuth 0 (AuthUnit.reset.setSource k ⟨true, true, false, true, none, none⟩)

/-- Source 3's record asks for an action. -/
def withAction (x : ActionKind) (s : State) : State :=
  { s with tables := { s.tables with actions := vset s.tables.actions 2 (some ⟨x, none⟩) } }

/-- The unit after the arbitration, and the ramp as it is judged. -/
def arbitrated (s : State) : AuthUnit := ((s.auth[(0 : Ramp)]).arbitrate (actionRec s.tables 0) s.time.corridor).1

def handed (s : State) : State := judge 0 (arbitrateRamp 0 s).1

/-- A decision point between boundaries, by the state of the ramp. -/
theorem witness_DecisionPoint_states :
    ((arbitrated asserted3).holder = (asserted3.auth[(0 : Ramp)]).holder ∧ (arbitrated asserted3).holder ≠ none)
      ∧ ((arbitrated site).holder = none ∧ (site.ramps[(0 : Ramp)]).state = .off)
      ∧ (startDemand (handed (standsIn .standby .auto 0)) 0 = false
        ∧ startDemand (handed (standsIn .standby .auto 1)) 0 = true)
      ∧ (effectiveAction (handed (asks 0 (standsIn .darkFail .auto 1))) 0 = .failsafe
        ∧ effectiveAction (handed (asks 0 (standsIn .warn .auto 1))) 0 = .failsafe
        ∧ (arbitrated (asks 0 (standsIn .warn .auto 1))).holder ≠ AuthUnit.reset.holder)
      ∧ effectiveAction (handed (standsIn .shutClear .auto 1)) 0 ≠ .failsafe
      ∧ (stopDemand (handed (standsIn .warn .auto 1)) 0 = false ∧ stopDemand (handed (standsIn .startGreen .auto 0)) 0 = true
        ∧ stopDemand (handed (standsIn .warn .off 1)) 0 = true ∧ stopDemand (handed (asks 4 (standsIn .warn .auto 1))) 0 = true)
      ∧ (startDemand (handed (standsIn .darkFail .auto 1)) 0 = true
        ∧ startDemand (handed (standsIn .darkFail .auto 0)) 0 = false) := by decide +kernel

/-- A decision point between boundaries in METERING. -/
theorem witness_DecisionPoint_metering :
    (effectiveAction (handed (asks 4 metering)) 0 = .dark
      ∧ ((decisionPoint 0 (asks 4 metering)).ramps[(0 : Ramp)]).state = .shutClear
      ∧ ((decisionPoint 0 (laneIs .restRed none none (asks 4 metering))).ramps[(0 : Ramp)]).state = .shutFlush)
      ∧ (let s := (metering.modRamp 0 fun c => { c with autoPlan := 0 }).setAuth 0
          { held.setSource 3 { held.sources[(3 : Source)] with standing := false } with stack := [] };
        let t := s.setAuth 0 ((s.auth[(0 : Ramp)]).setSource 5 (SourceRec.reset false));
        effectiveAction (handed t) 0 = .auto 0 ∧ standingAction t 0 = .hold
          ∧ ((decisionPoint 0 t).ramps[(0 : Ramp)]).state ≠ .metering)
      ∧ (let s := metering.modRamp 0 fun c => { c with autoPlan := 0 };
        effectiveAction (handed s) 0 = .auto 0 ∧ standingAction s 0 = .auto 0
          ∧ ((decisionPoint 0 s).ramps[(0 : Ramp)]).state = .metering)
      ∧ (let s := asks 3 (withAction (.plan 7) (metering.modRamp 0 fun c => { c with autoPlan := 2 }));
        planRec s.tables 2 = none ∧ planRec s.tables 7 = none ∧ effectiveAction s 0 = .auto 0
          ∧ standingAction s 0 = .auto 2 ∧ effectiveAction (handed s) 0 = .auto 0
          ∧ ((decisionPoint 0 s).ramps[(0 : Ramp)]).state ≠ .metering)
      ∧ effectiveAction (handed (asks 1 metering)) 0 = .flush ∧ effectiveAction (handed (asks 3 metering)) 0 = .hold
      ∧ effectiveAction (handed (asks 3 (withAction (.plan 1) metering))) 0 = .plan 1
      ∧ effectiveAction (handed metering) 0 = .auto 1
      ∧ (let s := asks 4 metering;
        let t := s.setAuth 0 ((s.auth[(0 : Ramp)]).setSource 2 ⟨true, true, false, false, none, none⟩);
        (∀ k : Source, 2 ≤ k.val → ((arbitrated s).sources[k]).standing = (((arbitrated s).sources[k]).asserted
            && ((arbitrated s).sources[k]).armed && !((arbitrated s).sources[k]).spent))
          ∧ ((arbitrated t).sources[(2 : Source)]).standing = false ∧ ((arbitrated t).sources[(2 : Source)]).asserted = true
          ∧ ((decisionPoint 0 t).auth[(0 : Ramp)]).holder = some 2) := by decide +kernel

/-- The effective action of a holder whose plan is unset, and its mark. -/
theorem witness_SourceChanges_judged :
    (let s := metering.setAuth 0 { held with granted := some (.plan 9) };
      planRec s.tables 9 = none ∧ effectiveAction s 0 = .auto 1 ∧ ((judge 0 s).ramps[(0 : Ramp)]).actionUnset = true
        ∧ (s.ramps[(0 : Ramp)]).actionUnset = false)
      ∧ planRec metering.tables 1 = some plan1 := by decide +kernel

/-! ### Witnesses: the tests of a table write and a table clear, and what a write brings -/

/-- Channel 0's record at channel 4 repeats its input; at channel 0 it meets a ramp in use, by its lane, or none. -/
theorem witness_TableWrite_detector :
    (readDet [7, 0, 1, 0, 1, 2, 0, 100, 5, 0, 0] = some demand1 ∧ site.tables.Apart ∧ metering.tables = site.tables)
      ∧ (∃ (c : Channel) (e : DetRec), c ≠ 4 ∧ site.tables.detMap[c] = some e ∧ e.station = demand1.station
        ∧ e.input = demand1.input)
      ∧ (¬ ∃ (c : Channel) (e : DetRec), c ≠ 0 ∧ site.tables.detMap[c] = some e ∧ e.station = demand1.station
        ∧ e.input = demand1.input)
      ∧ (∃ (r : Ramp) (l : Lane), (metering.ramps[r]).state ≠ .off ∧ demand1.lane = some l ∧ l ∈ lanesOf metering.tables r)
      ∧ (∀ r : Ramp, (site.ramps[r]).state = .off) :=
  ⟨⟨by decide +kernel, apart_site, rfl⟩, ⟨0, demand1, by decide, by decide +kernel, rfl, rfl⟩,
    fun h => absurd ((detDuplicate_iff site.tables 0 demand1).2 h) (by decide +kernel),
    ⟨0, 0, by decide +kernel, rfl, by decide +kernel⟩, by decide +kernel⟩

/-- Ramp A's record at ramp 1 takes its lane, one with lane 1's head for its beacon names a head, and the first is free at
ramp 0. -/
theorem witness_TableWrite_ramp :
    readRamp [1, 1, 1, 1, 0, 50, 30, 30, 20, 0, 50, 0, 7, 0, 0, 0, 50, 0, 20] = some rampA
      ∧ (∃ (q : Ramp) (l : Lane), q ≠ 1 ∧ l ∈ rampA.lanes ∧ l ∈ lanesOf site.tables q)
      ∧ (∃ q : Ramp, q ≠ 1 ∧ beaconOf site.tables q = some 1) ∧ rampA.beacon = some 1
      ∧ ((∃ l : Lane, headOf site.tables l = some 0) ∧ ∃ o, site.tables.outMap[(0 : OutCh)] = some o ∧ o.beacon = false)
      ∧ rampConflict site.tables 0 rampA = false
      ∧ (metering.ramps[(0 : Ramp)]).state ≠ .off ∧ (site.ramps[(0 : Ramp)]).state = .off :=
  ⟨by decide +kernel, ⟨0, 0, by decide, by decide, by decide +kernel⟩, ⟨0, by decide, by decide +kernel⟩, rfl,
    ⟨⟨0, by decide +kernel⟩, out1, by decide +kernel, rfl⟩, by decide +kernel, by decide +kernel, by decide +kernel⟩

/-- Lane 1's record at lane 2 names its head, one with ramp A's beacon for its head names a beacon, and the first is free
at lane 1. -/
theorem witness_TableWrite_lane :
    readLane [0, 0, 1, 0, 5, 20, 10, 20, 20, 1] = some lane1
      ∧ (∃ k : Lane, k ≠ 1 ∧ headOf site.tables k = some lane1.head)
      ∧ ((∃ q : Ramp, beaconOf site.tables q = some 1) ∧ ∃ o, site.tables.outMap[(1 : OutCh)] = some o ∧ o.beacon = true)
      ∧ laneConflict site.tables 0 lane1 = false
      ∧ (∃ r : Ramp, (0 : Lane) ∈ lanesOf metering.tables r ∧ (metering.ramps[r]).state ≠ .off)
      ∧ ¬ ∃ r : Ramp, (0 : Lane) ∈ lanesOf site.tables r ∧ (site.ramps[r]).state ≠ .off := by
  have u : ∀ r : Ramp, (site.ramps[r]).state = .off := by decide +kernel
  exact ⟨by decide +kernel, ⟨0, by decide, by decide +kernel⟩,
    ⟨⟨0, by decide +kernel⟩, out2, by decide +kernel, rfl⟩, by decide +kernel, ⟨0, by decide +kernel, by decide +kernel⟩,
    fun ⟨r, _, h⟩ => h (u r)⟩

/-- Channels 0 to 7 mapped to eight stations. -/
def crowded : Tables :=
  { Tables.unset with
    outMap := (vmap (fun i _ => if i.val < 8 then some ⟨i.val + 10, 0, false, false⟩ else none) Tables.unset.outMap) }

def eight : List Nat := [10, 11, 12, 13, 14, 15, 16, 17]

theorem crowded_stations (st : Nat) :
    st ∈ eight ↔ ∃ (c : OutCh) (o : OutRec), c ≠ 8 ∧ crowded.outMap[c] = some o ∧ o.station = st := by
  have named : ∀ st ∈ eight, ∃ c : OutCh, c ≠ 8 ∧ (crowded.outMap[c]).map (·.station) = some st := by decide +kernel
  have only : ∀ c : OutCh, (crowded.outMap[c]).all (fun o => decide (o.station ∈ eight)) = true := by decide +kernel
  constructor
  · intro h
    obtain ⟨c, n, e⟩ := named st h
    obtain ⟨o, eo, e⟩ := Option.map_eq_some_iff.1 e
    exact ⟨c, o, n, eo, e⟩
  · rintro ⟨c, o, _, eo, rfl⟩
    have h := only c
    rw [eo] at h
    exact of_decide_eq_true h

/-- Channel 0's record at channel 2 repeats its output; a beacon at a head, and a head at a beacon; a ninth station; and
the record at channel 0, which its ramp's use locks. -/
theorem witness_TableWrite_output :
    readOut [5, 0, 0, 1] = some out1
      ∧ (∃ (c : OutCh) (o : OutRec), c ≠ 2 ∧ site.tables.outMap[c] = some o ∧ o.station = out1.station
        ∧ o.output = out1.output)
      ∧ (out2.beacon = true ∧ ∃ l : Lane, headOf site.tables l = some 0)
      ∧ (out1.beacon = false ∧ ∃ q : Ramp, beaconOf site.tables q = some 1)
      ∧ (eight.Nodup
        ∧ (∀ st : Nat, st ∈ eight ↔ ∃ (c : OutCh) (o : OutRec), c ≠ 8 ∧ crowded.outMap[c] = some o ∧ o.station = st)
        ∧ 5 ∉ eight ∧ 8 ≤ eight.length ∧ 17 ∈ eight)
      ∧ outConflict site.tables 0 out1 = false
      ∧ (∃ r : Ramp, belongs metering.tables r 0 = true ∧ (metering.ramps[r]).state ≠ .off)
      ∧ ¬ ∃ r : Ramp, belongs site.tables r 0 = true ∧ (site.ramps[r]).state ≠ .off := by
  have u : ∀ r : Ramp, (site.ramps[r]).state = .off := by decide +kernel
  exact ⟨by decide +kernel, ⟨0, out1, by decide, by decide +kernel, rfl, rfl⟩, ⟨rfl, 0, by decide +kernel⟩,
    ⟨rfl, 0, by decide +kernel⟩, ⟨by decide, crowded_stations, by decide, by decide, by decide⟩, by decide +kernel,
    ⟨0, by decide +kernel, by decide +kernel⟩, fun ⟨r, _, h⟩ => h (u r)⟩

/-- A record of each table that its own tests refuse, of the right length, at an index in range. -/
theorem witness_TableWrite_unread :
    (shapeOk 1 [1, 0, 1, 0, 1, 2, 0, 100, 5, 0, 0] = true ∧ readDet [1, 0, 1, 0, 1, 2, 0, 100, 5, 0, 0] = none)
      ∧ (shapeOk 2 [1, 64, 0, 0, 0, 160, 0, 30, 0, 0] = true ∧ readCond [1, 64, 0, 0, 0, 160, 0, 30, 0, 0] = none)
      ∧ (shapeOk 3 [0, 1, 0, 1, 33, 2] = true ∧ readMatch [0, 1, 0, 1, 33, 2] = none)
      ∧ (shapeOk 4 [2, 0, 40, 2, 4, 0, 1, 0, 2, 0, 0, 0, 0, 1] = true
        ∧ readPlan [2, 0, 40, 2, 4, 0, 1, 0, 2, 0, 0, 0, 0, 1] = none)
      ∧ (shapeOk 5 [2, 20, 4, 0, 20, 60] = true ∧ readCurve [2, 20, 4, 0, 20, 60] = none)
      ∧ (shapeOk 6 [1, 13, 1, 1, 0, 50, 30, 30, 20, 0, 50, 0, 7, 0, 0, 0, 50, 0, 20] = true
        ∧ readRamp [1, 13, 1, 1, 0, 50, 30, 30, 20, 0, 50, 0, 7, 0, 0, 0, 50, 0, 20] = none)
      ∧ (shapeOk 8 [1, 0, 0, 1] = true ∧ readOut [1, 0, 0, 1] = none)
      ∧ (shapeOk 9 [9, 0, 3, 132] = true ∧ readAction [9, 0, 3, 132] = none)
      ∧ (shapeOk 10 [0, 201] = true ∧ readSettings [0, 201] = none)
      ∧ (0 ∈ indicesOf 1 ∧ 63 ∈ indicesOf 2 ∧ 47 ∈ indicesOf 3 ∧ 32 ∈ indicesOf 4 ∧ 8 ∈ indicesOf 5 ∧ 3 ∈ indicesOf 6
        ∧ 15 ∈ indicesOf 8 ∧ 19 ∈ indicesOf 9 ∧ 0 ∈ indicesOf 10) := by decide +kernel

/-- A clear of tables 1, 6, 7, 8 and 10 with ramp A METERING and with every ramp OFF; of an adopted Rate Plan and one not
adopted; of the Curve that an adopted plan names and another; the ends of the unlocked tables, and an index past one. -/
theorem witness_TableClear_locks :
    (Serves 9 1 metering ∧ metering.tables.Apart ∧ Serves 9 1 site ∧ site.tables.Apart)
      ∧ ((∃ r : Ramp, ((heard metering).ramps[r]).state ≠ .off ∧ (0 : Lane) ∈ lanesOf metering.tables r
          ∧ belongs metering.tables r 0 = true) ∧ metering.tables.detMap[(0 : Channel)] = some demand1
        ∧ demand1.lane = some 0 ∧ ((heard metering).ramps[(0 : Ramp)]).state ≠ .off)
      ∧ (∀ r : Ramp, ((heard site).ramps[r]).state = .off)
      ∧ ((∃ (r : Ramp) (a : Adopted), ((heard metering).ramps[r]).adopted = some a ∧ a.number = 1)
        ∧ ∀ r : Ramp, ((heard site).ramps[r]).adopted = none)
      ∧ (∃ (r : Ramp) (a : Adopted) (p : PlanRec) (x : Adaptive), ((heard (measuring 0 0)).ramps[r]).adopted = some a
        ∧ planRec (measuring 0 0).tables a.number = some p ∧ p.adaptive = some x ∧ x.curve = 1)
      ∧ (¬ ∃ (r : Ramp) (a : Adopted) (p : PlanRec) (x : Adaptive), ((heard (measuring 0 0)).ramps[r]).adopted = some a
        ∧ planRec (measuring 0 0).tables a.number = some p ∧ p.adaptive = some x ∧ x.curve = 8)
      ∧ Serves 9 1 (measuring 0 0) ∧ (site.tables.conds[(63 : Fin 64)]).isSome = false
      ∧ (site.tables.actions[(2 : Fin 20)]).isSome = true ∧ ¬ (13 : Byte).toNat ∈ indicesOf (7 : Byte).toNat
      ∧ ¬ (0 : Byte).toNat ∈ indicesOf (11 : Byte).toNat :=
  ⟨⟨serves_metering, apart_site, serves_site, apart_site⟩,
    ⟨⟨0, by decide +kernel, by decide +kernel, by decide +kernel⟩, by decide +kernel, rfl, by decide +kernel⟩,
    by decide +kernel, ⟨⟨0, adoptedOf 1 plan1, by decide +kernel, rfl⟩, by decide +kernel⟩,
    ⟨0, adoptedOf 1 plan1, planA, _, by decide +kernel, by decide +kernel, rfl, rfl⟩,
    fun h => absurd ((curveAdopted_iff (heard (measuring 0 0)) 8).2 h) (by decide +kernel),
    ⟨by decide +kernel, by decide +kernel, by decide, by decide +kernel⟩, by decide +kernel, by decide +kernel,
    by decide +kernel, by decide +kernel⟩

/-- The site with driver station 5 silent. -/
def silent (s : State) : State := { s with out := { s.out with drivers := [⟨5, .stopped, .expired⟩] } }

/-- The site with a record of channel 0, lit or not, in mismatch or not. -/
def lamp (a : Aspect) (r : Reported) (t : Timer) (fault : Bool) (s : State) : State :=
  s.setOut 0 { OutChan.reset with commanded := a, reported := r, mismatch := t, fault := fault }

/-- A channel lit on a silent driver; one in mismatch, by a lamp out, by another aspect and by a report that does not carry
it; and one that is neither. -/
theorem witness_Judged :
    (let s := silent (lamp .red .absent .stopped false site); LitOnSilent s 0 s.out.chans[(0 : OutCh)])
      ∧ (∀ x ∈ [{ OutChan.reset with reported := .shows .dark, lampOut := true },
          { OutChan.reset with reported := .shows .red }, { OutChan.reset with commanded := .red, reported := .notCarried }],
        Mismatched site 0 x)
      ∧ ¬ Mismatched site 0 OutChan.reset ∧ ¬ LitOnSilent site 0 OutChan.reset := by
  refine ⟨⟨by decide +kernel, by decide +kernel, by decide +kernel, out1, ⟨5, .stopped, .expired⟩, by decide +kernel,
    by decide +kernel, rfl⟩, fun x hx => (inMismatch_iff site 0 x).1 ?_, fun h => absurd h.2.2.1 (by decide),
    fun h => absurd h.2.2.1 (by decide)⟩
  revert x; decide +kernel

/-- Without ramp A's record channel 0 is not checked: a write of it brings the check, a clear takes it, and neither moves
channel 15. -/
theorem witness_TableWrite_review :
    (let s := lamp .red .absent .stopped true site;
      (s.ramps[(0 : Ramp)]).state = .off ∧ (s.auth[(0 : Ramp)]).holder = none ∧ isChecked s.tables 0 = true
        ∧ (s.out.chans[(0 : OutCh)]).fault = true
        ∧ ownerOf s.tables 0 = some 0 ∧ isChecked (putRamp 0 none s).tables 0 = false
        ∧ isChecked (putLaneCfg 0 none s).tables 0 = false
        ∧ isChecked s.tables 15 = isChecked (putRamp 0 none s).tables 15)
      ∧ (let s := putRamp 0 none (lamp .red (.shows .dark) .stopped false site);
        (s.ramps[(0 : Ramp)]).state = .off ∧ isChecked s.tables 0 = false
          ∧ isChecked (putRamp 0 (some rampA) s).tables 0 = true
          ∧ ((putRamp 0 (some rampA) s).out.chans[(0 : OutCh)]).mismatch = .running 0
          ∧ ((putRamp 0 (some rampA) (silent s)).out.chans[(0 : OutCh)]).fault = true)
      ∧ (let s := putLaneCfg 0 none (lamp .red .absent .stopped false site);
        isChecked s.tables 0 = false ∧ isChecked (putLaneCfg 0 (some lane1) s).tables 0 = true)
      ∧ ((3 : Ramp).val * 16 + (15 : Fin 16).val = (63 : Fin 64).val
        ∧ (3 : Ramp).val * 12 + (11 : Fin 12).val = (47 : Fin 48).val
        ∧ (19 : Fin 20).val + 1 = (3 : Ramp).val * 5 + (5 : Source).val
        ∧ (0 : Fin 20).val + 1 = (0 : Ramp).val * 5 + (1 : Source).val) := by
  decide +kernel

/-- Channel 0 unlatched on a driver that reports a mismatch and on a silent one, one of another ramp, and none latched. -/
theorem witness_ClearFault_judged :
    faulted.tables.Apart
      ∧ (let s := lamp .red (.shows .dark) .stopped true site;
        belongs s.tables 0 0 = true ∧ ((heard s).out.chans[(0 : OutCh)]).fault = true
          ∧ ((clearFaults 0 (heard s)).out.chans[(0 : OutCh)]).mismatch = .running 0
          ∧ ((clearFaults 0 (heard (silent s))).out.chans[(0 : OutCh)]).fault = true)
      ∧ belongs faulted.tables 0 15 = false ∧ belongs faulted.tables 1 0 = false
      ∧ (∀ ch : OutCh, ((heard site).out.chans[ch]).fault = false) :=
  ⟨apart_site, by decide +kernel, by decide +kernel, by decide +kernel, by decide +kernel⟩

/-- Station 5 has two outputs, station 6 no record, and a station with output 2 alone two unnamed ones below it. -/
theorem witness_Refresh_image :
    site.tables.Apart
      ∧ (∃ (ch : OutCh) (o : OutRec), site.tables.outMap[ch] = some o ∧ o.station = 5 ∧ o.output.val + 1 = 2)
      ∧ (∀ (ch : OutCh) (o : OutRec), site.tables.outMap[ch] = some o → o.station = 5 → o.output.val + 1 ≤ 2)
      ∧ (∀ (ch : OutCh) (o : OutRec), site.tables.outMap[ch] = some o → o.station ≠ 6)
      ∧ (let s := (site.setOut 3 { OutChan.reset with commanded := .flash });
        sigImage { s with tables := { s.tables with outMap := vset s.tables.outMap 3 (some ⟨6, 2, false, false⟩) } } 6
          = [.dark, .dark, .flash])
      ∧ insertBytes 9 (.sig 5 [.green, .dark]) = [5, 9, 3, 3, 2, 3, 0] ++ be16 (crc16 [5, 9, 3, 3, 2, 3, 0]).toNat := by
  have h : ∀ ch : OutCh, (site.tables.outMap[ch]).all (fun o => decide (o.station = 5 ∧ o.output.val + 1 ≤ 2)) = true := by
    decide +kernel
  have g : ∀ (ch : OutCh) (o : OutRec), site.tables.outMap[ch] = some o → o.station = 5 ∧ o.output.val + 1 ≤ 2 :=
    fun ch o e => by have x := h ch; rw [e] at x; exact of_decide_eq_true x
  exact ⟨apart_site, ⟨1, out2, by decide +kernel, rfl, rfl⟩, fun ch o e _ => (g ch o e).2,
    fun ch o e k => by have x := (g ch o e).1; omega, by decide +kernel, by decide +kernel⟩

/-- A change of aspect: none; from DARK on a silent driver and on one that reports; and from GREEN into mismatch, within it
and out of it. -/
theorem witness_Aspect_changes :
    (let m := fun (a b : Aspect) (t : Timer) =>
        ((setAspect 0 b (lamp a (.shows .yellow) t false site)).out.chans[(0 : OutCh)]);
      m .dark .red .stopped
          = { OutChan.reset with commanded := .red, reported := .shows .yellow, mismatch := .running 0 }
        ∧ (m .green .red (.running 7)).mismatch = .running 7 ∧ (m .green .yellow (.running 7)).mismatch = .stopped)
      ∧ (let s := lamp .dark .absent .stopped false (silent site);
        isChecked s.tables 0 = true ∧ site.tables.outMap[(0 : OutCh)] = some out1
          ∧ driverOf s.out 5 = some ⟨5, .stopped, .expired⟩ ∧ ownerOf s.tables 0 = some 0
          ∧ ((setAspect 0 .red s).out.chans[(0 : OutCh)]).fault = true ∧ (setAspect 0 .red s).out.sigDue = [5])
      ∧ (site.out.chans[(0 : OutCh)]).commanded = .dark ∧ isChecked site.tables 15 = false
      ∧ (∃ r : Ramp, belongs site.tables r 0 = true) := by decide +kernel

/-- A lane in another state than an order names. -/
theorem witness_StartUp_lanes :
    (startup .warn none 50).tables.Apart ∧ beaconOf (startup .warn none 50).tables 0 = some 1
      ∧ (let s := laneIs .restRed none none (startup .warn none 50);
        warnLeft 0 s = some 0 ∧ (s.lanes[(0 : Lane)]).state ≠ .dark)
      ∧ (let s := laneIs .dark none none (startup .startGreen none 30);
        startGreenLeft 0 s = some 0 ∧ (s.lanes[(0 : Lane)]).state ≠ .greenRest)
      ∧ (let s := laneIs .dark none none (startup .startClear (some .yellow) 30);
        startYellowLeft 0 s = some 0 ∧ (s.lanes[(0 : Lane)]).state ≠ .yellow)
      ∧ (1 : Lane) ∉ lanesOf site.tables 0 :=
  ⟨apart_site, by decide +kernel, by decide +kernel, by decide +kernel, by decide +kernel, by decide +kernel⟩

/-- Lamp reports whose payload is malformed: none, a count of 0, of 9, and one past the bytes that follow. -/
theorem witness_LampReport_malformed :
    acceptFrame (frameBytes 9 5 2 []) = some ⟨9, 5, 2, []⟩ ∧ acceptFrame (frameBytes 9 5 2 [0]) = some ⟨9, 5, 2, [0]⟩
      ∧ acceptFrame (frameBytes 9 5 2 [9, 1]) = some ⟨9, 5, 2, [9, 1]⟩ ∧ 8 < (9 : Byte).toNat
      ∧ (acceptFrame (frameBytes 9 5 2 [3, 1]) = some ⟨9, 5, 2, [3, 1]⟩ ∧ ([1] : List Byte).length < (3 : Byte).toNat) := by
  decide +kernel

/-- Preempt line 0 and panel line 4 of ramp A, one ACTIVE and one not; and no line named. -/
theorem witness_Lines_assert :
    site.tables.rampCfg[(0 : Ramp)] = some rampA ∧ rampA.preLine = some 0 ∧ rampA.panelLine = some 0
      ∧ (let s := (site.setLine 0 ⟨true, false, .running 500000⟩);
        let a := fun (u : State) (k : Source) => ((u.auth[(0 : Ramp)]).sources[k]).asserted;
        a (debounced 0 s) 1 = true ∧ a (debounced 0 s) 4 = false
          ∧ a (debounced 4 (s.setLine 4 ⟨true, false, .running 500000⟩)) 4 = true)
      ∧ (let s := site.setLine 0 ⟨true, true, .stopped⟩;
        (((putRamp 0 (some rampA) s).auth[(0 : Ramp)]).sources[(1 : Source)]).asserted = true
          ∧ (((putRamp 0 none (putRamp 0 (some rampA) s)).auth[(0 : Ramp)]).sources[(1 : Source)]).asserted = false) := by
  decide +kernel

/-- Ramps in OFF without a holder, beside one that holds in METERING. -/
theorem witness_StepKeepsAuthority_off : (∀ r : Ramp, OffFree busy r) ∧ ∃ t, step busy = .next t := by
  refine ⟨fun r e => ?_, busy_steps⟩
  have h : ∀ r : Ramp, (busy.ramps[r]).state = .off → (busy.auth[r]).holder = none := by decide +kernel
  exact h r e

/-! ### Witnesses: time, the lengths of the timers, and the close's demands -/

/-- The site with running holds, leases and a green interval, a frame being sent, channel 0 ON and its timers under way,
at a moment of corridor time. -/
def ticking (corridor phase stride : Nat) : State :=
  let s := busy.setChan 0 { DetState.reset with
    health := .ok, filtered := true, pending := some ⟨false, 5⟩, silence := .running 0, stuck := .running 3 }
  { s with pending := [], stride := stride, time := { s.time with corridor := corridor, phase := phase } }

theorem ticking_ok (c p d : Nat) (hc : c < 864000) (hp : p < 100000) :
    (ticking c p d).time.Ok (windowLength (ticking c p d).tables) :=
  ⟨hc, hp, fun h => by
    have e : (ticking c p d).time.closeDue = false := rfl
    rw [e] at h; cases h⟩

/-- The last tenth of the day ends in 0 with a close due, tenth 200 in 201 with none; a span ends at the stride, at the
end of the tenth and at the sending. -/
theorem witness_EmptyQueue_ticks :
    (let s := ticking 863999 99999 7; let t := passTime (idleSpan s) s;
      nextDue s = none ∧ idleSpan s = 100000 - s.time.phase ∧ s.time.phase + idleSpan s = 100000
        ∧ t.time.corridor = 0 ∧ t.time.phase = 0 ∧ t.time.closeDue = true)
      ∧ (let s := ticking 200 99999 7; let t := passTime (idleSpan s) s;
        nextDue s = none ∧ s.time.phase + idleSpan s = 100000 ∧ t.time.corridor = 201 ∧ t.time.closeDue = false)
      ∧ (let s := ticking 0 0 7; let t := passTime (idleSpan s) s;
        nextDue s = none ∧ idleSpan s = s.stride ∧ s.time.phase + idleSpan s < 100000 ∧ t.time.corridor = 0
          ∧ t.time.phase = 7 ∧ t.time.closeDue = false)
      ∧ (let s := ticking 0 0 500;
        idleSpan s = 243 ∧ (.sendingEnd, some 243) ∈ timedEvents s) := by decide +kernel

/-- The on-time grows with presence ON alone, a running hold and the leases count down, a paused hold stands. -/
theorem witness_EmptyQueue_passes :
    let s := ticking 0 0 7; let t := passTime (idleSpan s) s;
    (t.det.chans[(0 : Channel)] = { s.det.chans[(0 : Channel)] with
        pending := some ⟨false, 12⟩, silence := .running 7, stuck := .running 10, onTime := 7 })
      ∧ (t.det.chans[(1 : Channel)]).onTime = 0 ∧ t.det.elapsed = s.det.elapsed + 7
      ∧ (t.lanes[(0 : Lane)]).interval = some (greenInterval 700007)
      ∧ (s.ramps[(0 : Ramp)]).phaseTimer = .stopped ∧ (t.ramps[(0 : Ramp)]).phaseTimer = .stopped
      ∧ (t.ramps[(0 : Ramp)]).slotClock = .running 7
      ∧ ((t.auth[(0 : Ramp)]).sources[(3 : Source)]).hold = some (.running (tenths 600 - 7))
      ∧ ((t.auth[(0 : Ramp)]).sources[(3 : Source)]).lease = some (tenths 100 - 7)
      ∧ ((t.auth[(0 : Ramp)]).sources[(5 : Source)]).hold = some (.paused 5)
      ∧ t.ring.inFlight = some ⟨[1], 14⟩
      ∧ (passTime 7 (t.setOnTimer 2 .expired)).onTimers[(2 : Channel)] = .expired := by decide +kernel

/-- Each timer from zero has its whole length left; at rest, or in another state, none. -/
theorem witness_timer_lengths :
    (driverOf refreshDue.out 5 = some ⟨5, .running 1000000, .running 0⟩ ∧ driverOf site.out 5 = some ⟨5, .stopped, .running 0⟩
        ∧ driverOf site.out 6 = none ∧ driverSilenceLeft 5 site = some 5000000 ∧ refreshLeft 5 site = none)
      ∧ (silenceLeft 0 (chanIs fun c => { c with silence := .running 0 }) = some 3000000 ∧ silenceLeft 0 site = none
        ∧ stuckLeft 0 (chanIs fun c => { c with stuck := .running 0 }) = some 10000000
        ∧ stuckLeft 0 (chanIs fun c => { c with stuck := .expired }) = none)
      ∧ (site.tables.rampCfg[(0 : Ramp)] = some rampA ∧ warnLeft 0 (startup .warn none 0) = some 5000000
        ∧ startGreenLeft 0 (startup .startGreen none 0) = some 3000000
        ∧ startYellowLeft 0 (startup .startClear (some .yellow) 0) = some 3000000
        ∧ startRedLeft 0 (startup .startClear (some .red) 0) = some 2000000
        ∧ startYellowLeft 0 (startup .startClear (some .red) 0) = none
        ∧ shutFlushLeft 0 (startup .shutFlush none 0) = some 5000000 ∧ warnLeft 0 (startup .startGreen none 0) = none
        ∧ ∀ n : Nat, (metering.ramps[(0 : Ramp)]).phaseTimer ≠ .running n)
      ∧ (slotLeft 0 metering = some 4000000 ∧ (metering.ramps[(0 : Ramp)]).slotLength = some 40 ∧ slotLeft 0 site = none)
      ∧ (delayLeft 0 (laneIs .delay (some (greenInterval 0)) none metering) = some 500000
        ∧ maxGreenLeft 0 (laneIs .green (some (greenInterval 500000)) (some 0) metering) = some 2000000
        ∧ minGreenLeft 0 (laneIs .green (some (greenInterval 500000)) (some 1) metering) = some 1000000
        ∧ minGreenLeft 0 (laneIs .green (some (greenInterval 500000)) (some 0) metering) = none
        ∧ (greenInterval 0).release = some ⟨5, 10, 20, 1⟩ ∧ (greenInterval 0).cut = false
        ∧ yellowLeft 0 (laneIs .yellow (some { greenInterval 9 with greenEnd := some 9 }) none metering) = some 2000000
        ∧ redLeft 0 (laneIs .minRed (some { greenInterval 2000009 with greenEnd := some 9 }) none metering) = some 2000000)
      ∧ (holdLeft 0 busy = some (tenths 600) ∧ (busy.auth[(0 : Ramp)]).holder = some 3
        ∧ holdLeft 0 (metering.setAuth 0 (held.setSource 3 ⟨true, true, false, true, none, some .uncapped⟩)) = none
        ∧ (site.auth[(0 : Ramp)]).holder = none)
      ∧ (mismatchLeft 0 (site.setOut 0 { OutChan.reset with mismatch := .running 0 }) = some 1500000
        ∧ mismatchLeft 0 site = none)
      ∧ (syncLeft { site with time := { site.time with syncTimer := .running 0 } } = some 10000000 ∧ syncLeft site = none
        ∧ site.ring.quietTimer = .running 0 ∧ quietLeft site = some 10000000
        ∧ quietLeft { site with ring := { site.ring with quietTimer := .stopped } } = none) := by
  refine ⟨by decide +kernel, by decide +kernel, ⟨by decide +kernel, by decide +kernel, by decide +kernel, by decide +kernel,
    by decide +kernel, by decide +kernel, by decide +kernel, by decide +kernel, fun n h => ?_⟩, by decide +kernel,
    by decide +kernel, by decide +kernel, by decide +kernel, by decide +kernel⟩
  have e : (metering.ramps[(0 : Ramp)]).phaseTimer = .stopped := by decide +kernel
  rw [e] at h; cases h

/-- RAMP MODE OFF in every state, and with a PLAN action that names an unset plan. -/
theorem witness_RampModeOff_states :
    (∀ st : RampState, Serves 9 1 (standsIn st .auto 1) ∧ ((heard (standsIn st .auto 1)).ramps[(0 : Ramp)]).state = st)
      ∧ (let s := (standsIn .startGreen .auto 1).setAuth 0 { held with granted := some (.plan 7) };
        Serves 9 1 s ∧ ((heard s).auth[(0 : Ramp)]).granted = some (.plan 7) ∧ planRec s.tables 7 = none
          ∧ ((modeOff 0 (heard s)).ramps[(0 : Ramp)]).actionUnset = true)
      ∧ (let s := (laneIs .greenRest none none (standsIn .warn .auto 1)).setAuth 0 held;
        s.tables.Apart ∧ Serves 9 1 s ∧ (0 : Lane) ∈ lanesOf s.tables 0 ∧ s.tables.laneCfg[(0 : Lane)] ≠ none
          ∧ beaconOf s.tables 0 = some 1 ∧ ((modeOff 0 (heard s)).lanes[(0 : Lane)]).state = .dark
          ∧ ((modeOff 0 (heard s)).auth[(0 : Ramp)]).holder = none
          ∧ (((modeOff 0 (heard s)).auth[(0 : Ramp)]).sources[(5 : Source)]).lease = some (tenths 1)) := by
  refine ⟨fun st => ⟨⟨?_, ?_, ?_, ?_⟩, ?_⟩, ⟨⟨?_, ?_, ?_, ?_⟩, by decide +kernel⟩, apart_site,
    ⟨by decide +kernel, by decide +kernel, by decide, by decide +kernel⟩, by decide +kernel⟩
  all_goals first | (cases st <;> decide +kernel) | decide +kernel

/-- A state of ramp A with its window due to close; where `keep` is false plan 1 is unset. -/
def deciding (st : RampState) (m : Mode) (plan : Nat) (keep : Bool) : State :=
  let s := standsIn st m plan
  { s with
    tables := if keep then siteTables else { siteTables with plans := Tables.unset.plans }
    time := { s.time with closeDue := true } }

/-- Demands at a close: plan 1 proposed to a ramp without a plan, and none to one with plan 1; a holder that leaves the
demand as it was, METERING, and no change. -/
theorem witness_WindowClose_demands :
    (let r := fun s : State => ((windowClose s).ramps[(0 : Ramp)]).state;
      r (deciding .standby .auto 0 true) = .warn ∧ startDemand (windowClose (deciding .standby .auto 0 true)) 0 = true
        ∧ r ((deciding .standby .auto 0 true).setAuth 0 { held with granted := some .dark }) = .standby
        ∧ r (deciding .warn .auto 1 false) = .standby ∧ stopDemand (windowClose (deciding .warn .auto 1 false)) 0 = true
        ∧ r ((deciding .warn .auto 1 false).setAuth 0 held) = .warn
        ∧ r (deciding .warn .off 1 false) = .off ∧ r (deciding .warn .off 1 true) = .warn
        ∧ r (deciding .startGreen .auto 1 false) = .shutFlush
        ∧ r ((deciding .startGreen .auto 1 false).setAuth 0 held) = .startGreen
        ∧ r (deciding .metering .auto 1 false) = .metering ∧ r (deciding .standby .auto 1 true) = .standby)
      ∧ (∀ st : RampState, (((deciding st .auto 1 true).auth[(0 : Ramp)]).sources[(2 : Source)]).asserted = false)
      ∧ ((chattering.auth[(0 : Ramp)]).sources[(2 : Source)]).asserted = true := by
  refine ⟨by decide +kernel, fun st => ?_, by decide +kernel⟩
  cases st <;> decide +kernel

/-- A value at each end of a record's range, and the one past it. -/
theorem witness_Records_at_their_bounds :
    ((readDet [2, 7, 0, 15, 0, 10, 140, 160, 255, 1, 1]).isSome = true
        ∧ (readDet [1, 7, 0, 15, 0, 10, 140, 160, 255, 1, 1]).isSome = false
        ∧ (readDet [63, 7, 0, 15, 0, 10, 140, 160, 255, 1, 1]).isSome = false
        ∧ (readDet [2, 7, 0, 15, 0, 11, 140, 160, 255, 1, 1]).isSome = false
        ∧ (readDet [2, 7, 0, 15, 0, 10, 140, 161, 255, 1, 1]).isSome = false)
      ∧ ((readCond [0, 0, 0, 0, 160, 0, 30, 0, 0]).isSome = false
        ∧ (readCond [1, 64, 0, 0, 0, 160, 0, 30, 0, 0]).isSome = false)
      ∧ ((readMatch [0, 0, 0, 0, 32, 10]).isSome = true ∧ (readMatch [0, 0, 0, 0, 33, 10]).isSome = false
        ∧ (readMatch [0, 0, 0, 0, 32, 11]).isSome = false)
      ∧ (readPlan [0, 0, 19, 2, 4, 0, 1, 0, 2, 0, 0, 0, 0, 1]).isSome = false
      ∧ (shapeOk 5 [1, 0, 0, 20] = true ∧ (readCurve [1, 0, 0, 20]).isSome = false)
      ∧ (readRamp [1, 13, 1, 1, 0, 50, 30, 30, 20, 0, 50, 0, 7, 0, 0, 0, 50, 0, 20]).isSome = false
      ∧ (readLane [16, 0, 1, 0, 5, 20, 10, 20, 20, 1]).isSome = false
      ∧ ((readOut [62, 7, 1, 1]).isSome = true ∧ (readOut [62, 8, 1, 1]).isSome = false)
      ∧ ((readAction [4, 32, 0, 0]).isSome = true ∧ (readAction [4, 33, 0, 0]).isSome = false)
      ∧ (readSettings [2, 88] = some 600 ∧ readSettings [0, 101] = none)
      ∧ (shapeOk 4 [1, 255, 40, 1, 1, 1, 1, 1, 1, 1, 2, 4, 0, 1, 0, 2, 0, 0, 0, 0, 1] = true
        ∧ shapeOk 4 [0, 0, 40, 2, 4, 0, 1, 0, 2, 0, 0, 1] = false ∧ shapeOk 11 [1, 2, 3] = true) := by
  refine ⟨?_, ?_, ?_, ?_, ?_, ?_, ?_, ?_, ?_, ?_, ?_⟩
  · decide +kernel
  · decide +kernel
  · decide +kernel
  · decide +kernel
  · decide +kernel
  · decide +kernel
  · decide +kernel
  · decide +kernel
  · decide +kernel
  · decide +kernel
  · decide +kernel

end Sys2Proof.Tests
end

section
/-! SUPPORT. The report filter of a detector channel (spec 01, 1.4; R7, R8): what a filtered presence taken leaves of
the channel, one equation per case of a report at the filter, and the filter timer of a pending change. -/

namespace Sys2Proof.Machine

namespace DetState

/-- A filtered presence taken sets that field and leaves all but the volume, the stuck timer and the health with its
flag (R9, R11, R16). -/
theorem setFiltered_frame (v : Bool) (c : DetState) :
    c.setFiltered v = { c with
      filtered := v, volume := (c.setFiltered v).volume, stuck := (c.setFiltered v).stuck,
      health := (c.setFiltered v).health, okThroughout := (c.setFiltered v).okThroughout } := by
  unfold setFiltered
  split
  next unchanged => rw [unchanged]
  next =>
    split
    next rise => rw [rise]
    next fall =>
      rw [Bool.eq_false_of_not_eq_true fall]
      dsimp only
      split
      · rfl
      · rfl

@[simp] theorem setFiltered_filtered (v : Bool) (c : DetState) : (c.setFiltered v).filtered = v := by
  rw [setFiltered_frame]

@[simp] theorem setFiltered_pending (v : Bool) (c : DetState) : (c.setFiltered v).pending = c.pending := by
  rw [setFiltered_frame]

@[simp] theorem setFiltered_glitches (v : Bool) (c : DetState) : (c.setFiltered v).glitches = c.glitches := by
  rw [setFiltered_frame]

end DetState

/-! ### A report with no pending change (R7) -/

theorem applyFilter_of_repeat {d : DetRec} {v : Bool} {c : DetState} (idle : c.pending = none) (same : v = c.filtered) :
    applyFilter d v c = c := by
  simp only [applyFilter, idle, if_pos same]

theorem applyFilter_of_unfiltered {d : DetRec} {v : Bool} {c : DetState} (idle : c.pending = none)
    (differs : v ≠ c.filtered) (instant : d.filter = 0) : applyFilter d v c = c.setFiltered v := by
  simp only [applyFilter, idle, if_neg differs, if_pos instant]

theorem applyFilter_of_change {d : DetRec} {v : Bool} {c : DetState} (idle : c.pending = none)
    (differs : v ≠ c.filtered) (timed : d.filter ≠ 0) : applyFilter d v c = { c with pending := some ⟨v, 0⟩ } := by
  simp only [applyFilter, idle, if_neg differs, if_neg timed]

/-! ### A report with a pending change (R8) -/

theorem applyFilter_of_confirm {d : DetRec} {v : Bool} {c : DetState} {p : PendingChange} (pends : c.pending = some p)
    (confirms : v = p.target) : applyFilter d v c = c := by
  simp only [applyFilter, pends, if_pos confirms]

theorem applyFilter_of_revert {d : DetRec} {v : Bool} {c : DetState} {p : PendingChange} (pends : c.pending = some p)
    (reverts : v ≠ p.target) : applyFilter d v c = { c with pending := none, glitches := satInc c.glitches } := by
  simp only [applyFilter, pends, if_neg reverts]

/-! ### The filter timer (R7) -/

theorem filterLeft_of_pending {ch : Channel} {s : State} {d : DetRec} {p : PendingChange}
    (mapped : s.tables.detMap[ch] = some d) (pends : (s.det.chans[ch]).pending = some p) :
    filterLeft ch s = some (tenths d.filter - p.ran) := by
  simp only [filterLeft, mapped, pends]

/-- Settles O41: each clause is one case of a report at the filter, and the last the timer of the change it makes. -/
theorem filterMakesConfirmsAndRevertsChanges : Obligations.FilterMakesConfirmsAndRevertsChanges := by
  unfold Obligations.FilterMakesConfirmsAndRevertsChanges
  intro d v c
  refine ⟨applyFilter_of_repeat, fun idle differs instant => ?takesEffect, applyFilter_of_change,
    fun _ => applyFilter_of_confirm, fun _ => applyFilter_of_revert, fun _ _ _ => filterLeft_of_pending⟩
  case takesEffect =>
    rw [applyFilter_of_unfiltered idle differs instant]
    exact ⟨c.setFiltered_filtered v, (c.setFiltered_pending v).trans idle, c.setFiltered_glitches v⟩

end Sys2Proof.Machine
end

section
/-! SUPPORT. The value of a condition at a close (spec 02, 2.2; R26 to R29): the measure by kind, the comparison by
region of the measure, and the value by what the record and its listed channels give. -/

namespace Sys2Proof.Machine

/-! ### The measure (R26, R27) -/

theorem measure_of_occupancy {s : State} {c : CondRec} (occupancy : c.flow = false) :
    measure s c = ((validListed s c).map fun ch => (s.det.chans[ch]).lastOcc).sum / (validListed s c).length := by
  simp only [measure, occupancy, Bool.false_eq_true, if_false]

theorem measure_of_flow {s : State} {c : CondRec} (flow : c.flow = true) :
    measure s c = ((validListed s c).map fun ch => (s.det.chans[ch]).lastVol).sum * 36000 * c.chans.length
      / (s.det.lastElapsed * (validListed s c).length) := by
  simp only [measure, flow, if_true]

/-! ### The comparison (R29) -/

section Comparison
variable {c : CondRec} {m : Nat} {prev : Bool}

theorem compareMeasure_above_of_reached (above : c.below = false) (reached : c.threshold ≤ m) :
    compareMeasure c m prev = true := by
  simp only [compareMeasure, above, Bool.false_eq_true, if_false, if_pos reached]

theorem compareMeasure_above_of_band (above : c.below = false) (short : m < c.threshold)
    (band : c.threshold - c.hysteresis ≤ m) : compareMeasure c m prev = prev := by
  simp only [compareMeasure, above, Bool.false_eq_true, if_false, if_neg short.not_ge, if_pos band]

theorem compareMeasure_above_of_left (above : c.below = false) (left : m < c.threshold - c.hysteresis) :
    compareMeasure c m prev = false := by
  have short : m < c.threshold := left.trans_le (Nat.sub_le ..)
  simp only [compareMeasure, above, Bool.false_eq_true, if_false, if_neg short.not_ge, if_neg left.not_ge]

theorem compareMeasure_below_of_reached (below : c.below = true) (reached : m ≤ c.threshold) :
    compareMeasure c m prev = true := by
  simp only [compareMeasure, below, if_true, if_pos reached]

theorem compareMeasure_below_of_band (below : c.below = true) (exceeds : c.threshold < m)
    (band : m ≤ c.threshold + c.hysteresis) : compareMeasure c m prev = prev := by
  simp only [compareMeasure, below, if_true, if_neg exceeds.not_ge, if_pos band]

theorem compareMeasure_below_of_left (below : c.below = true) (left : c.threshold + c.hysteresis < m) :
    compareMeasure c m prev = false := by
  have exceeds : c.threshold < m := (Nat.le_add_right ..).trans_lt left
  simp only [compareMeasure, below, if_true, if_neg exceeds.not_ge, if_neg left.not_ge]

end Comparison

/-! ### The value (R28, R29) -/

@[simp] theorem conditionValue_unset (s : State) (prev : Bool) : conditionValue s none prev = false := rfl

section Value
variable {s : State} {c : CondRec} {prev : Bool}

theorem conditionValue_of_force (force : c.force = true) : conditionValue s (some c) prev = c.subst := by
  simp only [conditionValue, force, if_true]

theorem conditionValue_of_no_valid (unforced : c.force = false) (noValid : validListed s c = []) :
    conditionValue s (some c) prev = c.subst := by
  simp only [conditionValue, unforced, noValid, Bool.false_eq_true, if_false, List.isEmpty_nil, if_true]

theorem conditionValue_of_valid (unforced : c.force = false) (valid : validListed s c ≠ []) :
    conditionValue s (some c) prev = compareMeasure c (measure s c) prev := by
  have nonempty : (validListed s c).isEmpty = false := List.isEmpty_eq_false_iff.mpr valid
  simp only [conditionValue, unforced, nonempty, Bool.false_eq_true, if_false]

end Value

/-- Settles O49: the cases taken without comparison, the two measures, and, with a valid channel, the comparison of
the measure in each of its three regions, ABOVE and BELOW. -/
theorem conditionComparesItsMeasure : Obligations.ConditionComparesItsMeasure := by
  unfold Obligations.ConditionComparesItsMeasure
  intro s c prev v listed
  obtain rfl : v = validListed s c := listed
  refine ⟨conditionValue_unset s prev, conditionValue_of_force, conditionValue_of_no_valid, measure_of_occupancy,
    measure_of_flow, fun unforced valid => ?compared⟩
  case compared =>
    rw [conditionValue_of_valid unforced valid]
    exact ⟨compareMeasure_above_of_reached, compareMeasure_above_of_band, compareMeasure_above_of_left,
      compareMeasure_below_of_reached, compareMeasure_below_of_band, compareMeasure_below_of_left⟩

end Sys2Proof.Machine
end

section
/-! SUPPORT. What a step keeps, settled statement by statement: a step runs one command, and so keeps whatever every
command and every span of idle time keeps (`exec_keeps`, `passTime_keeps`). -/

namespace Sys2Proof.Machine
open Host

/-! ### A step by what it runs -/

theorem step_of_front {s : State} {c : Instr} {cs : List Instr} (front : s.pending = c :: cs) :
    step s = exec c { s with pending := cs } := by
  simp only [step, front]

theorem step_of_due {s : State} {c : Instr} (empty : s.pending = []) (due : nextDue s = some c) :
    step s = exec c s := by
  simp only [step, empty, idle, due]

theorem step_of_idle {s : State} (empty : s.pending = []) (quiet : nextDue s = none) :
    step s = .next (passTime (idleSpan s) s) := by
  simp only [step, empty, idle, quiet]

/-- What a step can do: it runs the front command on the queue's rest, runs a due event, or lets an idle span pass. -/
theorem step_cases (s : State) :
    (∃ c cs, s.pending = c :: cs ∧ step s = exec c { s with pending := cs })
      ∨ (s.pending = [] ∧ ∃ c, nextDue s = some c ∧ step s = exec c s)
      ∨ (s.pending = [] ∧ nextDue s = none ∧ step s = .next (passTime (idleSpan s) s)) := by
  cases front : s.pending with
  | cons c cs => exact .inl ⟨c, cs, rfl, step_of_front front⟩
  | nil =>
    cases due : nextDue s with
    | some c => exact .inr (.inl ⟨rfl, c, rfl, step_of_due front due⟩)
    | none => exact .inr (.inr ⟨rfl, rfl, step_of_idle front due⟩)

/-- Everything `Keeps` says of two states but that the queue stands, which a step shortens. -/
structure KeepsRecords (s t : State) : Prop where
  det : s.det.Ok → t.det.Ok
  ramps : (∀ r : Ramp, (s.ramps[r]).Ok) → ∀ r : Ramp, (t.ramps[r]).Ok
  rate : (∀ r : Ramp, (s.rate[r]).Ok) → ∀ r : Ramp, (t.rate[r]).Ok
  lanes : (∀ l : Lane, (s.lanes[l]).Ok) → ∀ l : Lane, (t.lanes[l]).Ok
  auth : (∀ r : Ramp, (s.auth[r]).Ok) → ∀ r : Ramp, (t.auth[r]).Ok
  outs : (∀ ch : OutCh, (s.out.chans[ch]).Ok) → ∀ ch : OutCh, (t.out.chans[ch]).Ok
  time : s.time.Ok (windowLength s.tables) → t.time.Ok (windowLength t.tables)
  apart : s.tables.Apart → t.tables.Apart
  free : (∀ r : Ramp, OffFree s r) → ∀ r : Ramp, OffFree t r

theorem Keeps.records {s t : State} (k : Keeps s t) : KeepsRecords s t :=
  ⟨k.det, k.ramps, k.rate, k.lanes, k.auth, k.outs, k.time, k.apart, k.free⟩

theorem exec_records {c : Instr} {s t : State} (run : exec c s = .next t) : KeepsRecords s t := by
  obtain ⟨u, answer, keeps⟩ := exec_keeps c s
  obtain rfl : u = t := outcome_inj (answer.symm.trans run)
  exact keeps.records

theorem idle_records (s : State) : KeepsRecords s (passTime (idleSpan s) s) :=
  (passTime_keeps (idleSpan s) s (idleSpan_tenth s) idleSpan_close).records

/-- A step keeps every record in order, whichever of its three ways it takes. -/
theorem step_records {s t : State} (run : step s = .next t) : KeepsRecords s t := by
  obtain ⟨c, cs, -, way⟩ | ⟨-, c, -, way⟩ | ⟨-, -, way⟩ := step_cases s
  · have kept : KeepsRecords { s with pending := cs } t := exec_records (way.symm.trans run)
    exact ⟨kept.det, kept.ramps, kept.rate, kept.lanes, kept.auth, kept.outs, kept.time, kept.apart, kept.free⟩
  · exact exec_records (way.symm.trans run)
  · obtain rfl := outcome_inj (way.symm.trans run)
    exact idle_records s

theorem step_ring {s t : State} (ok : s.ring.Ok) (run : step s = .next t) : t.ring.Ok := by
  obtain ⟨c, cs, -, way⟩ | ⟨-, c, -, way⟩ | ⟨-, -, way⟩ := step_cases s
  · exact exec_ring c { s with pending := cs } t ok (way.symm.trans run)
  · exact exec_ring c s t ok (way.symm.trans run)
  · obtain rfl := outcome_inj (way.symm.trans run)
    exact ringPass_ok ok (idleSpan s)

theorem step_answers (s : State) : ∃ t, step s = .next t := by
  obtain ⟨c, cs, -, way⟩ | ⟨-, c, -, way⟩ | ⟨-, -, way⟩ := step_cases s
  · obtain ⟨t, answer, -⟩ := exec_keeps c { s with pending := cs }
    exact ⟨t, way.trans answer⟩
  · obtain ⟨t, answer, -⟩ := exec_keeps c s
    exact ⟨t, way.trans answer⟩
  · exact ⟨_, way⟩

/-! ### The invariants -/

/-- Settles O5. -/
theorem stepKeepsTheRingStores : Obligations.StepKeepsTheRingStores :=
  fun _ _ ok run => step_ring ok run

/-- Settles O6. -/
theorem stepKeepsAuthorityInOrder : Obligations.StepKeepsAuthorityInOrder :=
  ⟨fun _ _ ok run => (step_records run).auth ok, fun _ _ free run => (step_records run).free free⟩

/-- Settles O7. -/
theorem stepKeepsLanesInOrder : Obligations.StepKeepsLanesInOrder :=
  fun _ _ ok run => (step_records run).lanes ok

/-- Settles O8. -/
theorem stepKeepsRampsInOrder : Obligations.StepKeepsRampsInOrder :=
  fun _ _ ok run => (step_records run).ramps ok

/-- Settles O9. -/
theorem stepKeepsDetectorsInOrder : Obligations.StepKeepsDetectorsInOrder :=
  fun _ _ ok run => (step_records run).det ok

/-- Settles O10. -/
theorem stepKeepsCorridorTime : Obligations.StepKeepsCorridorTime :=
  fun _ _ ok run => (step_records run).time ok

/-- Settles O11. -/
theorem stepKeepsLatchesAndRelief : Obligations.StepKeepsLatchesAndRelief :=
  ⟨fun _ _ ok run => (step_records run).outs ok, fun _ _ ok run => (step_records run).rate ok,
    fun _ _ ok run => (step_records run).apart ok⟩

/-! ### Steps -/

/-- Settles O1. -/
theorem stepRunsTheFrontCommand : Obligations.StepRunsTheFrontCommand :=
  fun _ _ _ front => step_of_front front

end Sys2Proof.Machine
end

section
/-! SUPPORT. The state after reset, and what each command does before its timer is due. -/

namespace Sys2Proof.Machine

/-! ### The state after reset -/

theorem reset_ramp (r : Ramp) : State.reset.ramps[r] = RampCtx.reset := replicate_get _ r

theorem reset_auth (r : Ramp) : State.reset.auth[r] = AuthUnit.reset := replicate_get _ r

theorem reset_outChan (ch : OutCh) : State.reset.out.chans[ch] = OutChan.reset := replicate_get _ ch

theorem reset_time_ok : State.reset.time.Ok (windowLength State.reset.tables) :=
  ⟨by decide, by decide, by decide⟩

theorem reset_calm : Calm State.reset where
  heard := rfl
  sound ch := by rw [reset_outChan]; rfl
  present _ listed := absurd listed List.not_mem_nil
  free r := by rw [reset_auth]; rfl

/-- Settles O4: each block's reset value is in order, and a ramp of the reset state is `RampCtx.reset`. -/
theorem resetIsInOrder : Obligations.ResetIsInOrder := by
  unfold Obligations.ResetIsInOrder
  refine ⟨detReset_ok, fun r => (resetBlocks r 0 0).1, fun r => (resetBlocks r 0 0).2.1,
    fun l => (resetBlocks 0 l 0).2.2.1, fun r => ⟨(resetBlocks r 0 0).2.2.2.1, fun _ => reset_unheld r⟩,
    fun ch => (resetBlocks 0 0 ch).2.2.2.2, reset_time_ok, powerOn_ring 9#6 State.reset, unset_apart, reset_calm,
    rfl, rfl, rfl, rfl, fun r => ?rampOff⟩
  case rampOff => rw [reset_ramp]; exact ⟨rfl, rfl⟩

/-! ### Commands before their time -/

theorem whenDue_early {left : Option Nat} (early : left ≠ some 0) (f : State → State) (s : State) :
    whenDue left f s = s := if_neg early

theorem exec_pending (c : Instr) (s : State) : ∃ t, exec c s = .next t ∧ t.pending = s.pending := by
  obtain ⟨t, answer, keeps⟩ := exec_keeps c s
  exact ⟨t, answer, keeps.pending⟩

theorem sendingEnd_idle {s : State} (free : s.ring.inFlight = none) : exec .sendingEnd s = .next s := by
  simp [exec, execSendingEnd, free]

/-- Settles O3: every arm of a timed row is `whenDue` of what its timer has left, the identity before that is 0. -/
theorem everyCommandAnswersANextState : Obligations.EveryCommandAnswersANextState := by
  unfold Obligations.EveryCommandAnswersANextState
  have early {left : Option Nat} {f : State → State} {s : State} (h : left ≠ some 0) :
      (Host.Outcome.next (whenDue left f s) : Host.Outcome State Fault Refusal) = .next s :=
    congrArg _ (whenDue_early h f s)
  refine ⟨exec_pending, step_answers, fun ch s => ?detector, fun r c s => ?ramp, fun l s => ?lane,
    fun ch st l s => ?rest⟩
  case detector => exact ⟨early, early, early, early⟩
  case ramp => exact ⟨early, early, early, early, early, early, early, early, early⟩
  case lane => exact ⟨early, early, early, early, early⟩
  case rest => exact ⟨early, early, early, early, early, early, early, sendingEnd_idle⟩

end Sys2Proof.Machine
end

section
/-! SUPPORT. The passing of time (R140; log entries 1 to 3), field by field: what `passTime` adds to each timer and
count, and what it leaves alone. -/

namespace Sys2Proof.Machine

/-! ### One timer -/

/-- A function that moves a running timer by `d` and leaves any other alone is the passing of `d`. -/
theorem advance_unique {d : Nat} {adv : Timer → Timer} (running : ∀ n, adv (.running n) = .running (n + d))
    (stopped : adv .stopped = .stopped) (expired : adv .expired = .expired) : adv = Timer.advance d := by
  funext t
  cases t with
  | running n => exact running n
  | stopped => exact stopped
  | expired => exact expired

/-! ### The records -/

section Records
variable (d : Nat) (s : State)

theorem passTime_chan (ch : Channel) : (passTime d s).det.chans[ch] = (s.det.chans[ch]).pass d := vmap_get _ _ ch

theorem passTime_ramp (r : Ramp) : (passTime d s).ramps[r] = (s.ramps[r]).pass d := vmap_get _ _ r

theorem passTime_lane (l : Lane) : (passTime d s).lanes[l] = (s.lanes[l]).pass d := vmap_get _ _ l

theorem passTime_auth (r : Ramp) : (passTime d s).auth[r] = (s.auth[r]).pass d := vmap_get _ _ r

theorem passTime_onTimer (ch : Channel) : (passTime d s).onTimers[ch] = (s.onTimers[ch]).advance d := vmap_get _ _ ch

theorem passTime_line (l : Line) : (passTime d s).lines[l] = (s.lines[l]).pass d := vmap_get _ _ l

theorem passTime_outChan (ch : OutCh) :
    (passTime d s).out.chans[ch] = { s.out.chans[ch] with mismatch := (s.out.chans[ch]).mismatch.advance d } := by
  simp only [passTime, OutUnit.pass, vmap_get]

theorem passTime_det : (passTime d s).det.elapsed = s.det.elapsed + d
    ∧ (passTime d s).det.lastElapsed = s.det.lastElapsed := by
  unfold passTime
  exact ⟨rfl, rfl⟩

theorem passTime_ring : (passTime d s).ring = { s.ring with
    quietTimer := s.ring.quietTimer.advance d
    inFlight := s.ring.inFlight.map fun x => { x with ran := x.ran + d } } := by
  unfold passTime
  rfl

theorem AuthUnit.pass_source (a : AuthUnit) (k : Source) : (a.pass d).sources[k] = (a.sources[k]).pass d :=
  vmap_get _ _ k

end Records

/-! ### Corridor time (R15, R140) -/

section Corridor
variable {w d : Nat} {t : TimeUnit}

theorem timePass_of_within (within : t.phase + d < Config.tenth) :
    t.pass w d = { t with syncTimer := t.syncTimer.advance d, phase := t.phase + d } := by
  simp only [TimeUnit.pass, if_pos within]

theorem timePass_of_tenth (ends : t.phase + d = Config.tenth) :
    t.pass w d = { t with
      syncTimer := t.syncTimer.advance d, phase := 0, corridor := (t.corridor + 1) % Config.dayTenths
      closeDue := t.closeDue || decide ((t.corridor + 1) % Config.dayTenths % w = 0) } := by
  simp only [TimeUnit.pass, ends, if_neg (Nat.lt_irrefl _), Nat.sub_self]

theorem timePass_locked : (t.pass w d).locked = t.locked := by
  unfold TimeUnit.pass; split <;> rfl

theorem timePass_syncTimer : (t.pass w d).syncTimer = t.syncTimer.advance d := by
  unfold TimeUnit.pass; split <;> rfl

/-- Corridor time within the day rises by one, and returns from its last tenth to 0. -/
theorem next_corridor {n : Nat} (day : n < Config.dayTenths) :
    (n + 1) % Config.dayTenths = if n = 863999 then 0 else n + 1 := by
  have day' : n < 864000 := day
  show (n + 1) % 864000 = _
  split <;> omega

end Corridor

/-- A state on which nothing is due has no close of this moment (R15). -/
theorem closeDue_of_quiet {s : State} (quiet : nextDue s = none) : s.time.closeDue = false := by
  have stands : (Instr.windowClose, if s.time.closeDue = true then some 0 else none) ∈ timedEvents s :=
    (mem_timedEvents s _).mpr (by tauto)
  simpa using nextDue_none quiet _ stands

/-- Where the span ends the running tenth, corridor time counts it and a close falls due at a multiple of W. -/
theorem passTime_tenth {s : State} (ok : s.time.Ok (windowLength s.tables)) (quiet : nextDue s = none) {d : Nat}
    (ends : s.time.phase + d = 100000) :
    (passTime d s).time.phase = 0
      ∧ (passTime d s).time.corridor = (if s.time.corridor = 863999 then 0 else s.time.corridor + 1)
      ∧ ((passTime d s).time.closeDue = true ↔ (passTime d s).time.corridor % s.tables.settings.getD 200 = 0) := by
  have time : (passTime d s).time = _ := timePass_of_tenth (w := windowLength s.tables) ends
  rw [time]
  refine ⟨rfl, next_corridor ok.corridor, ?close⟩
  case close =>
    simp only [closeDue_of_quiet quiet, Bool.false_or, decide_eq_true_eq]
    rfl

/-- Settles O2: the three ways of an idle step, what stands among the timed events, and, with `adv` the passing of `d`
for a timer, the fields of `passTime` one by one. -/
theorem emptyQueueLetsTimePass : Obligations.EmptyQueueLetsTimePass := by
  unfold Obligations.EmptyQueueLetsTimePass
  refine ⟨fun s empty => ⟨fun _ => step_of_due empty, fun quiet => ⟨step_of_idle empty quiet, Nat.min_le_left .., idleSpan_tenth s,
      fun _ listed _ left => idleSpan_timer listed left⟩⟩,
    fun s => ⟨fun _ => nextDue_mem, nextDue_none, idleSpan_reached s⟩, mem_timedEvents, ?passing⟩
  case passing =>
    rintro s t d adv ok quiet - rfl running stopped expired
    obtain rfl := advance_unique running stopped expired
    refine ⟨rfl, timePass_locked, timePass_syncTimer, fun within => ?withinTenth, passTime_tenth ok quiet,
      (passTime_det d s).1, (passTime_det d s).2, ?chans, ?ramps, ?lanes, ?auth, passTime_onTimer d s, passTime_line d s,
      passTime_outChan d s, rfl, rfl, passTime_ring d s⟩
    case withinTenth =>
      have time : (passTime d s).time = _ := timePass_of_within (w := windowLength s.tables) within
      rw [time]
      exact ⟨rfl, rfl, closeDue_of_quiet quiet⟩
    case chans => rintro ch _ rfl; exact passTime_chan d s ch
    case ramps => rintro r _ rfl; exact passTime_ramp d s r
    case lanes => rintro l _ rfl; exact passTime_lane d s l
    case auth =>
      rintro r _ rfl
      rw [passTime_auth]
      refine ⟨rfl, ?sources⟩
      rintro k _ rfl
      rw [AuthUnit.pass_source]
      rcases held : ((s.auth[r]).sources[k]).hold with _ | _ | _ | _ <;> simp only [SourceRec.pass, held] <;> rfl

end Sys2Proof.Machine
end

section
/-! SUPPORT. A served request row as the response to its reply, row by row; and the requests whose replies are read off
at once. -/

namespace Sys2Proof.Machine

/-! ### The rows of a served request -/

/-- A served row is answered with the reply that its handling gives on the state that has heard its frame. -/
theorem exec_served {c : Instr} {own src : Nat} {code : Byte} {fields : List Byte} {s : State}
    (serves : Serves own src s) (row : requestRow c = some (src, code, fields)) (fits : fields.length ≤ 47) :
    exec c s = .next (respond src (code :: fields) (handle own code.toNat fields (heard s))) := by
  rw [requestRow_exec row, request_served serves code fields fits]

section Rows
variable {own src : Nat} {s : State} (serves : Serves own src s)
include serves

theorem exec_runReset : exec (.runReset src) s = .next (respond src [14] (runResetRequest (heard s))) :=
  exec_served serves rfl (by decide)

theorem exec_identify : exec (.identify src) s = .next (respond src [1] (identify own (heard s))) :=
  exec_served serves rfl (by decide)

theorem exec_tableWrite (t i : Byte) {record : List Byte} (fits : record.length ≤ 45) :
    exec (.tableWrite src t i record) s
      = .next (respond src (2 :: t :: i :: record) (tableWrite t i record (heard s))) :=
  exec_served serves rfl (by simp only [List.length_cons]; omega)

theorem exec_tableRead (t i : Byte) :
    exec (.tableRead src t i) s = .next (respond src [3, t, i] (tableRead t i (heard s))) :=
  exec_served serves rfl (by simp)

theorem exec_tableClear (t i : Byte) :
    exec (.tableClear src t i) s = .next (respond src [4, t, i] (tableClear t i (heard s))) :=
  exec_served serves rfl (by simp)

theorem exec_tableCheck (t : Byte) :
    exec (.tableCheck src t) s = .next (respond src [5, t] (tableCheck t (heard s))) :=
  exec_served serves rfl (by simp)

theorem exec_rampModeAuto (r : Byte) :
    exec (.rampModeAuto src r) s = .next (respond src [6, r, 1] (rampMode r 1 (heard s))) :=
  exec_served serves rfl (by simp)

theorem exec_rampModeOff (r : Byte) :
    exec (.rampModeOff src r) s = .next (respond src [6, r, 0] (rampMode r 0 (heard s))) :=
  exec_served serves rfl (by simp)

theorem exec_arm (r k v : Byte) :
    exec (.arm src r k v) s = .next (respond src [7, r, k, v] (armRequest r k v (heard s))) :=
  exec_served serves rfl (by simp)

theorem exec_assertSource (r k : Byte) (lease : BitVec 16) :
    exec (.assertSource src r k lease) s
      = .next (respond src ([8, r, k] ++ be16 lease.toNat) (assertRequest r k lease.toNat (heard s))) := by
  rw [← handle_assert own]
  exact exec_served serves rfl (by simp [be16])

theorem exec_releaseSource (r k : Byte) :
    exec (.releaseSource src r k) s = .next (respond src [9, r, k] (releaseRequest r k (heard s))) :=
  exec_served serves rfl (by simp)

theorem exec_status (r x : Byte) :
    exec (.status src r x) s = .next (respond src [10, r, x] (statusRequest r x (heard s))) :=
  exec_served serves rfl (by simp)

theorem exec_detectors (f n : Byte) :
    exec (.detectors src f n) s = .next (respond src [11, f, n] (detectorsRequest f n (heard s))) :=
  exec_served serves rfl (by simp)

theorem exec_counts (r : Byte) :
    exec (.counts src r) s = .next (respond src [12, r] (countsRequest r (heard s))) :=
  exec_served serves rfl (by simp)

theorem exec_clearFault (r : Byte) :
    exec (.clearFault src r) s = .next (respond src [13, r] (clearFaultRequest r (heard s))) :=
  exec_served serves rfl (by simp)

end Rows

/-! ### The response, and the requests that are not served -/

/-- Settles O13. -/
theorem responseStandsBehindItsSigs : Obligations.ResponseStandsBehindItsSigs :=
  fun _ _ _ _ => rfl

/-- Settles O14. -/
theorem refusedRequestChangesNothing : Obligations.RefusedRequestChangesNothing :=
  fun own payload s => (handlePayload_side own payload s).refused

/-- The CMD frame of any request row is accepted by a part that has a station address (R154). -/
theorem acceptFrame_cmdFrame {s : State} {own src : Nat} (active : s.station = some own) (sender : stationOk src = true)
    (code : Byte) {fields : List Byte} (fits : fields.length ≤ 47) :
    acceptFrame (cmdFrame own src code fields) = some ⟨own, src, 5, code :: fields⟩ := by
  obtain ⟨-, top⟩ := station_range active
  obtain ⟨low, high⟩ := (stationOk_iff src).mp sender
  exact acceptFrame_frameBytes own src 5 (code :: fields) (by omega) (by omega) (by omega) (by decide)
    (by simp only [List.length_cons]; omega)

/-- Settles O15: the row's frame is accepted, heard and consumed as a CMD, which finds the insert queue full. -/
theorem fullQueueDiscardsTheRequest : Obligations.FullQueueDiscardsTheRequest := by
  unfold Obligations.FullQueueDiscardsTheRequest
  intro c own src code fields s wellFormed row active other full
  obtain ⟨sender, fits⟩ := requestRow_fits wellFormed row
  have asked : request src code fields s = arrival (cmdFrame own src code fields) s := by
    simp only [request, active]
  have full' : 8 ≤ rspCount (heard s).ring.insert := by rw [heard_ring]; exact full
  rw [requestRow_exec row, asked, arrival_active active (acceptFrame_cmdFrame active sender code fits), if_neg other,
    if_pos rfl, consume_cmd _ _ _ rfl, executeCmd, if_pos full']
  rfl

/-- Settles O16. -/
theorem passivePartOnlyForwards : Obligations.PassivePartOnlyForwards := by
  unfold Obligations.PassivePartOnlyForwards
  refine fun s passive => ⟨fun c x row => ?request, fun bytes f accepted => ?frame⟩
  case request =>
    obtain ⟨src, code, fields⟩ := x
    rw [requestRow_exec row, request_passive passive]
  case frame =>
    have hears : (heard s).station = none := (heard_station s).trans passive
    simp only [exec, execFrameArrival, arrival, accepted, dispose, hears]

/-- Settles O39. -/
theorem hearingAFrameClearsRingQuiet : Obligations.HearingAFrameClearsRingQuiet := by
  unfold Obligations.HearingAFrameClearsRingQuiet
  intro s
  obtain ⟨tables, det, lines, time, pending, -⟩ := heard_frame s
  exact ⟨heard_ring s, tables, det, lines, time, pending, heard_calm⟩

/-! ### Ramp bytes -/

/-- Settles O17: every request with a ramp byte asks `onRamp` first. -/
theorem rampAboveThreeIsBadIndex : Obligations.RampAboveThreeIsBadIndex := by
  unfold Obligations.RampAboveThreeIsBadIndex
  intro own src s ramp a b lease serves above
  refine ⟨?_, ?_, ?_, ?_, ?_, ?_, ?_, ?_⟩
  · rw [exec_rampModeAuto serves, rampMode, onRamp_above above]
  · rw [exec_rampModeOff serves, rampMode, onRamp_above above]
  · rw [exec_arm serves, armRequest, onRamp_above above]
  · rw [exec_assertSource serves, assertRequest, onRamp_above above]
  · rw [exec_releaseSource serves, releaseRequest, onRamp_above above]
  · rw [exec_status serves, statusRequest, onRamp_above above]
  · rw [exec_counts serves, countsRequest, onRamp_above above]
  · rw [exec_clearFault serves, clearFaultRequest, onRamp_above above]

/-! ### Requests that only read -/

/-- Settles O18: hearing a frame leaves the three ring counts alone. -/
theorem identifyReturnsIdentity : Obligations.IdentifyReturnsIdentity := by
  unfold Obligations.IdentifyReturnsIdentity
  intro own src s serves
  rw [exec_identify serves, identify, identifyFields, heard_ring]
  rfl

theorem indexRange_above {t : Nat} (large : 11 ≤ t) : indexRange t = none := by
  unfold indexRange
  split
  case h_11 => rfl
  all_goals omega

theorem indexRange_iff (t lo hi : Nat) : indexRange t = some (lo, hi) ↔
    (t, lo, hi) ∈ [(1, 0, 63), (2, 0, 63), (3, 0, 47), (4, 1, 32), (5, 1, 8), (6, 0, 3), (7, 1, 12), (8, 0, 15),
      (9, 0, 19), (10, 0, 0)] := by
  obtain small | large := Nat.lt_or_ge t 11
  · interval_cases t <;> simp [indexRange, eq_comm]
  · simp only [indexRange_above large, List.mem_cons, List.not_mem_nil, or_false, Prod.mk.injEq, reduceCtorEq, false_iff]
    omega

theorem indexRange_isSome (t : Nat) : (indexRange t).isSome = true ↔ 1 ≤ t ∧ t ≤ 10 := by
  obtain small | large := Nat.lt_or_ge t 11
  · interval_cases t <;> simp [indexRange]
  · simp only [indexRange_above large, Option.isSome_none, Bool.false_eq_true, false_iff]
    omega

/-- Settles O19. -/
theorem tableReadReturnsTheStoredRecord : Obligations.TableReadReturnsTheStoredRecord := by
  unfold Obligations.TableReadReturnsTheStoredRecord
  intro own src s t i serves
  simp only [← indexRange_iff, ← indexOk_iff, exec_tableRead serves, tableRead]
  refine ⟨fun inside => ?read, fun outside => ?refused⟩
  case read =>
    rw [if_pos inside, readFields, heard_tables]
    rfl
  case refused => rw [if_neg outside]

/-- The set records of a table in the order of their indices, an unset index giving no byte. -/
theorem setRecords_flatten (t : Tables) (table : Nat) : (setRecords t table).flatten
    = (indicesOf table).flatMap fun i => match storedRecord t table i with
      | some r => byte i :: r
      | none => [] := by
  unfold setRecords
  induction indicesOf table with
  | nil => rfl
  | cons i is ih =>
    cases stored : storedRecord t table i <;> simp [stored, ih]

/-- Settles O20. -/
theorem tableCheckCountsAndChecks : Obligations.TableCheckCountsAndChecks := by
  unfold Obligations.TableCheckCountsAndChecks
  intro own src s t serves
  rw [exec_tableCheck serves, tableCheck]
  refine ⟨fun inside => ?checked, fun outside => ?refused, rfl⟩
  case checked =>
    rw [if_pos ((indexRange_isSome t.toNat).mpr inside), checkFields, heard_tables, setRecords_count, setRecords_flatten] <;> rfl
  case refused => rw [if_neg ((indexRange_isSome t.toNat).not.mpr (by omega))]

/-- Settles O32: the range test comes before the count's. -/
theorem detectorsReportsTheRange : Obligations.DetectorsReportsTheRange := by
  unfold Obligations.DetectorsReportsTheRange
  intro own src s first count serves
  obtain ⟨-, det, -⟩ := heard_frame s
  rw [exec_detectors serves, detectorsRequest, det]
  refine ⟨fun low high within => ?report, fun beyond => ?badIndex, fun _ _ counted => ?badValue⟩
  case report => rw [if_neg (by omega), if_neg (by omega)]; rfl
  case badIndex => rw [if_pos beyond]
  case badValue => rw [if_neg (by omega), if_pos (by omega)]

/-- Settles O33. -/
theorem countsReportsTheLastWindow : Obligations.CountsReportsTheLastWindow := by
  unfold Obligations.CountsReportsTheLastWindow
  intro own src r s serves
  rw [exec_counts serves, countsRequest, onRamp_byte, ← heard_tables s]
  generalize heard s = t
  rfl

/-! ### Resets -/

/-- Settles O35. -/
theorem runResetResetsTheRunningState : Obligations.RunResetResetsTheRunningState := by
  unfold Obligations.RunResetResetsTheRunningState
  intro own src s serves
  obtain ⟨tables, -, lines, time, pending, -⟩ := heard_frame s
  obtain ⟨det, vectors, rate, ramps, lanes, auth, onTimers, corridor, free, sync, tables', pending', ring⟩ :=
    runReset_frame (heard s)
  refine ⟨runResetState (heard s), by rw [exec_runReset serves, runReset_respond], det, vectors, rate, ramps, lanes, auth,
    onTimers, runReset_chan _, fun l => ?line, by rw [runReset_due, heard_drivers], by rw [runReset_drivers, heard_drivers],
    by rw [ring, heard_ring]; rfl, by rw [corridor, time], free, sync, tables'.trans tables, pending'.trans pending⟩
  case line =>
    rw [runReset_line, lines]
    exact ⟨rfl, rfl, rfl⟩

/-- Settles O36. -/
theorem powerOnResetTakesThePowerOnValues : Obligations.PowerOnResetTakesThePowerOnValues :=
  fun straps s => ⟨powerOn straps s, rfl, rfl, rfl, rfl, rfl, rfl, rfl, rfl, rfl, rfl, rfl, rfl, powerOn_line straps s,
    rfl, rfl, rfl, rfl⟩

end Sys2Proof.Machine
end

section
/-! SUPPORT. The table requests: the write and the clear of each table at an index of its range, judged in the order of
R169 and R171. -/

namespace Sys2Proof.Machine

/-! ### The index of a table's place -/

theorem byte_index {n lo : Nat} (i : Fin n) (fits : n + lo ≤ 256) : (byte (i.val + lo)).toNat = i.val + lo :=
  byte_toNat (by omega)

theorem byte_place {n : Nat} (i : Fin n) (fits : n ≤ 256) : (byte i.val).toNat = i.val :=
  byte_toNat (by omega)

/-! ### A clear at an index of the range (R174) -/

section Clear
variable {index : Nat} (s : State)

theorem clearTable_detMap {ch : Channel} (place : index = ch.val) : clearTable 1 index s
    = clearTested s.tables.detMap[ch] (detTouchesInUse s s.tables.detMap[ch]) (putDetMap ch) s := atIndex_at ch place

theorem clearTable_conds {i : Fin 64} (place : index = i.val) : clearTable 2 index s
    = clearTested s.tables.conds[i] false (putCond i) s := atIndex_at i place

theorem clearTable_matches {i : Fin 48} (place : index = i.val) : clearTable 3 index s
    = clearTested s.tables.matches_[i] false (putMatch i) s := atIndex_at i place

theorem clearTable_plans {i : Fin 32} (place : index = i.val + 1) : clearTable 4 index s
    = clearTested s.tables.plans[i] (planAdopted s index) (putPlan i) s := atIndex_at i place

theorem clearTable_curves {i : Fin 8} (place : index = i.val + 1) : clearTable 5 index s
    = clearTested s.tables.curves[i] (curveAdopted s index) (putCurve i) s := atIndex_at i place

theorem clearTable_rampCfg {r : Ramp} (place : index = r.val) : clearTable 6 index s
    = clearTested s.tables.rampCfg[r] (inUse s r) (putRamp r) s := atIndex_at r place

theorem clearTable_laneCfg {l : Lane} (place : index = l.val + 1) : clearTable 7 index s
    = clearTested s.tables.laneCfg[l] (laneInUse s l) (putLaneCfg l) s := atIndex_at l place

theorem clearTable_outMap {ch : OutCh} (place : index = ch.val) : clearTable 8 index s
    = clearTested s.tables.outMap[ch] (outInUse s ch) (putOutMap ch) s := atIndex_at ch place

theorem clearTable_actions {i : Fin 20} (place : index = i.val) : clearTable 9 index s
    = clearTested s.tables.actions[i] false (putAction i) s := atIndex_at i place

theorem clearTable_settings : clearTable 10 0 s
    = clearTested s.tables.settings (anyInUse s) putSettings s := rfl

end Clear

/-- A clear under a lock that `L` spells out: INUSE, or the record unset. -/
theorem cleared_by {own src : Nat} {s : State} (serves : Serves own src s) {t i : Byte} {α : Type} {stored : Option α}
    {locked : Bool} {put : Option α → State → State} {L : Prop} (lock : locked = true ↔ L)
    (place : clearTable t.toNat i.toNat (heard s) = clearTested stored locked put (heard s)) :
    (L → exec (.tableClear src t i) s = .next (respond src [4, t, i] (refuse .inUse (heard s))))
      ∧ (¬ L → exec (.tableClear src t i) s = .next (respond src [4, t, i] (answer [t, i]
        (if stored.isSome then put none (heard s) else heard s)))) :=
  cleared serves t i (place ▸ clearTested_judged lock)

/-- A clear of a table without a lock. -/
theorem cleared_free {own src : Nat} {s : State} (serves : Serves own src s) {t i : Byte} {α : Type} {stored : Option α}
    {put : Option α → State → State} (place : clearTable t.toNat i.toNat (heard s) = clearTested stored false put (heard s)) :
    exec (.tableClear src t i) s = .next (respond src [4, t, i] (answer [t, i]
      (if stored.isSome then put none (heard s) else heard s))) :=
  (cleared_by serves (L := False) (by simp) place).2 not_false

theorem detTouches_stored {s : State} (apart : s.tables.Apart) (stored : Option DetRec) :
    detTouchesInUse s stored = true ↔ ∃ (d : DetRec) (r : Ramp), stored = some d ∧ (s.ramps[r]).state ≠ .off
      ∧ (d.ramps.getLsbD r.val = true ∨ ∃ l : Lane, d.lane = some l ∧ l ∈ lanesOf s.tables r) := by
  cases stored with
  | none => simp [detTouchesInUse]
  | some d => rw [detTouches_iff apart]; simp

/-- Settles O24: each table's clear stands at its index, under the lock that the statement spells out. -/
theorem tableClearCompletes : Obligations.TableClearCompletes := by
  unfold Obligations.TableClearCompletes
  intro own src s serves
  rw [← heard_tables s]
  exact ⟨
    fun ch locked apart lock =>
      cleared_by serves ((detTouches_stored apart _).trans lock.symm) (clearTable_detMap _ (byte_place ch (by decide))),
    fun i => cleared_free serves (clearTable_conds _ (byte_place i (by decide))),
    fun i => cleared_free serves (clearTable_matches _ (byte_place i (by decide))),
    fun i locked lock => cleared_by serves
      ((planAdopted_iff ..).trans (by rw [lock, byte_index i (by decide)])) (clearTable_plans _ (byte_index i (by decide))),
    fun i locked lock => cleared_by serves
      ((curveAdopted_iff ..).trans (by rw [lock, byte_index i (by decide)])) (clearTable_curves _ (byte_index i (by decide))),
    fun r locked lock => cleared_by serves ((inUse_iff _ r).trans lock.symm) (clearTable_rampCfg _ (byte_place r (by decide))),
    fun l locked lock => cleared_by serves ((laneInUse_iff _ l).trans lock.symm)
      (clearTable_laneCfg _ (byte_index l (by decide))),
    fun ch locked lock => cleared_by serves ((outInUse_iff _ ch).trans lock.symm)
      (clearTable_outMap _ (byte_place ch (by decide))),
    fun i => cleared_free serves (clearTable_actions _ (byte_place i (by decide))),
    fun locked lock => cleared_by serves ((anyInUse_iff _).trans lock.symm) (clearTable_settings _),
    cleared_outside serves⟩

/-! ### A write at an index of the range (R171) -/

section Write
variable {index : Nat} (record : List Byte) (s : State)

theorem writeTable_detMap {ch : Channel} (place : index = ch.val) : writeTable 1 index record s
    = writeTested (readDet record) (detDuplicate s.tables ch)
      (fun d => detTouchesInUse s s.tables.detMap[ch] || detTouchesInUse s (some d)) (putDetMap ch) s := atIndex_at ch place

theorem writeTable_conds {i : Fin 64} (place : index = i.val) : writeTable 2 index record s
    = writeTested (readCond record) (fun _ => false) (fun _ => false) (putCond i) s := atIndex_at i place

theorem writeTable_matches {i : Fin 48} (place : index = i.val) : writeTable 3 index record s
    = writeTested (readMatch record) (fun _ => false) (fun _ => false) (putMatch i) s := atIndex_at i place

theorem writeTable_plans {i : Fin 32} (place : index = i.val + 1) : writeTable 4 index record s
    = writeTested (readPlan record) (fun _ => false) (fun _ => false) (putPlan i) s := atIndex_at i place

theorem writeTable_curves {i : Fin 8} (place : index = i.val + 1) : writeTable 5 index record s
    = writeTested (readCurve record) (fun _ => false) (fun _ => false) (putCurve i) s := atIndex_at i place

theorem writeTable_rampCfg {r : Ramp} (place : index = r.val) : writeTable 6 index record s
    = writeTested (readRamp record) (rampConflict s.tables r) (fun _ => inUse s r) (putRamp r) s := atIndex_at r place

theorem writeTable_laneCfg {l : Lane} (place : index = l.val + 1) : writeTable 7 index record s
    = writeTested (readLane record) (laneConflict s.tables l) (fun _ => laneInUse s l) (putLaneCfg l) s := atIndex_at l place

theorem writeTable_outMap {ch : OutCh} (place : index = ch.val) : writeTable 8 index record s
    = writeTested (readOut record) (outConflict s.tables ch) (fun _ => outInUse s ch) (putOutMap ch) s := atIndex_at ch place

theorem writeTable_actions {i : Fin 20} (place : index = i.val) : writeTable 9 index record s
    = writeTested (readAction record) (fun _ => false) (fun _ => false) (putAction i) s := atIndex_at i place

theorem writeTable_settings : writeTable 10 0 record s
    = writeTested (readSettings record) (fun _ => false) (fun _ => anyInUse s) putSettings s := rfl

end Write

/-- A write whose record has its shape is answered by its table. -/
theorem tableWrite_shaped {t i : Byte} {record : List Byte} (s : State) (shape : shapeOk t.toNat record = true) :
    tableWrite t i record s = replyOf t i (writeTable t.toNat i.toNat record s) := if_pos shape

theorem tableWrite_shapeless {t i : Byte} {record : List Byte} (s : State) (shape : shapeOk t.toNat record = false) :
    tableWrite t i record s = refuse .badReq s :=
  if_neg (Bool.not_eq_true _ ▸ shape)

/-- A write that is judged by a conflict `C` and a lock `L` of its table. -/
theorem tableWrite_judged {t i : Byte} {record : List Byte} {s : State} {α : Type} {rec : Option α}
    {conflict locked : α → Bool} {put : Option α → State → State} {x : α} {C L : Prop}
    (shape : shapeOk t.toNat record = true)
    (place : writeTable t.toNat i.toNat record s = writeTested rec conflict locked put s) (read : rec = some x)
    (conflicts : conflict x = true ↔ C) (locks : locked x = true ↔ L) :
    (C → tableWrite t i record s = refuse .badValue s)
      ∧ (¬ C → L → tableWrite t i record s = refuse .inUse s)
      ∧ (¬ C → ¬ L → tableWrite t i record s = answer [t, i] (put (some x) s)) := by
  rw [tableWrite_shaped s shape]
  exact replyOf_judged t i (place ▸ writeTested_judged read conflicts locks)

end Sys2Proof.Machine
end

section
/-! SUPPORT. TABLE WRITE judged in order (R169, R171): each record's shape by its length (R188), and each reader as the
inverse of its writer on the values that are allowed. -/

namespace Sys2Proof.Machine

/-! ### Shapes (R188) -/

theorem shapeOk_of_length {table n : Nat} {l : List Byte} (fixed : recordLength table l = some n) :
    shapeOk table l = true ↔ l.length = n := by
  rw [shapeOk, fixed, beq_iff_eq, Option.some.injEq, eq_comm]

section Shapes
variable (l : List Byte)

theorem shapeOk_cond (k : Byte) : shapeOk 2 (k :: l) = true ↔ l.length = 8 + k.toNat := by
  have fixed : recordLength 2 (k :: l) = some (9 + k.toNat) := rfl
  rw [shapeOk_of_length fixed, List.length_cons]
  omega

theorem shapeOk_curve (n : Byte) : shapeOk 5 (n :: l) = true ↔ l.length = 2 * n.toNat + (n.toNat + 3) / 4 := by
  have fixed : recordLength 5 (n :: l) = some (1 + n.toNat + (n.toNat + 3) / 4 + n.toNat) := rfl
  rw [shapeOk_of_length fixed, List.length_cons]
  omega

theorem shapeOk_ramp (k : Byte) : shapeOk 6 (k :: l) = true ↔ l.length = 17 + k.toNat := by
  have fixed : recordLength 6 (k :: l) = some (18 + k.toNat) := rfl
  rw [shapeOk_of_length fixed, List.length_cons]
  omega

theorem presentLength_eq (p : Byte) : presentLength p = (p.getLsbD 0).toNat + (p.getLsbD 1).toNat + (p.getLsbD 2).toNat
    + 2 * (p.getLsbD 3).toNat + (p.getLsbD 4).toNat + (p.getLsbD 5).toNat := by
  have one (b : Bool) : (if b then 1 else 0) = b.toNat := by cases b <;> rfl
  have two (b : Bool) : (if b then 2 else 0) = 2 * b.toNat := by cases b <;> rfl
  simp only [presentLength, one, two]

/-- A Rate Plan's length hangs on the byte behind the fields that its presence bits call for, the number of masks. -/
theorem recordLength_plan (mode p slot : Byte) : recordLength 4 (mode :: p :: slot :: l)
    = (l[presentLength p + 1]?).map fun m => 6 + presentLength p + 2 * m.toNat := by
  have count : (mode :: p :: slot :: l)[4 + presentLength p]? = l[presentLength p + 1]? := by
    rw [show 4 + presentLength p = presentLength p + 1 + 3 by omega]; rfl
  simp only [recordLength, List.getElem?_cons_succ, List.getElem?_cons_zero, Option.bind_eq_bind, Option.bind_some, count,
    Option.pure_def, Option.map_eq_bind]
  rfl

/-- A list long enough around two of its places. -/
theorem split_at_pair {n : Nat} (long : n + 2 ≤ l.length) :
    ∃ (a b : List Byte) (x y : Byte), l = a ++ x :: y :: b ∧ a.length = n := by
  have front : (l.take n).length = n := by rw [List.length_take]; omega
  have back : (l.drop n).length = l.length - n := List.length_drop
  match parts : l.drop n with
  | [] => rw [parts] at back; simp only [List.length_nil] at back; omega
  | [_] => rw [parts] at back; simp only [List.length_cons, List.length_nil] at back; omega
  | x :: y :: b => exact ⟨l.take n, b, x, y, by rw [← parts, List.take_append_drop], front⟩

theorem shapeOk_plan (mode p slot : Byte) : shapeOk 4 (mode :: p :: slot :: l) = true ↔
    ∃ (a b : List Byte) (period m : Byte), l = a ++ period :: m :: b ∧ a.length = presentLength p
      ∧ b.length = 2 * m.toNat + 1 := by
  have counted (a b : List Byte) (period m : Byte) (parts : l = a ++ period :: m :: b) (front : a.length = presentLength p) :
      shapeOk 4 (mode :: p :: slot :: l) = true ↔ b.length = 2 * m.toNat + 1 := by
    have mask : l[presentLength p + 1]? = some m := by rw [parts, ← front]; simp
    rw [shapeOk_of_length ((recordLength_plan l mode p slot).trans (by rw [mask]; rfl)), parts]
    simp only [List.length_cons, List.length_append]
    omega
  constructor
  · intro shape
    have long : presentLength p + 2 ≤ l.length := by
      by_contra short
      have cut : recordLength 4 (mode :: p :: slot :: l) = none := by
        rw [recordLength_plan, List.getElem?_eq_none (by omega)]; rfl
      rw [shapeOk, cut] at shape
      simp at shape
    obtain ⟨a, b, period, m, parts, front⟩ := split_at_pair l long
    exact ⟨a, b, period, m, parts, front, (counted a b period m parts front).mp shape⟩
  · rintro ⟨a, b, period, m, parts, front, back⟩
    exact (counted a b period m parts front).mpr back

theorem shapeOk_above {t : Nat} (outside : t = 0 ∨ 10 < t) : shapeOk t l = true := by
  have free : recordLength t l = some l.length := by
    unfold recordLength
    split
    case h_11 => rfl
    all_goals omega
  rw [shapeOk_of_length free]

end Shapes

/-- A Rate Plan too short for its number of masks has no length. -/
theorem shapeOk_plan_pair (x y : Byte) : shapeOk 4 [x, y] = false := by
  have cut : recordLength 4 [x, y] = none := by
    have past : [x, y][4 + presentLength y]? = none := List.getElem?_eq_none (by simp only [List.length_cons, List.length_nil]; omega)
    simp only [recordLength, List.getElem?_cons_succ, List.getElem?_cons_zero, Option.bind_eq_bind, Option.bind_some, past,
      Option.bind_none]
  rw [shapeOk, cut]
  rfl

/-! ### Readers and writers -/

/-- A reader that inverts its writer on the allowed values takes exactly the layouts of those values. -/
theorem read_iff {α : Type} {read : List Byte → Option α} {write : α → List Byte} {Allowed : α → Prop}
    (allowed : ∀ {l x}, read l = some x → Allowed x) (layout : ∀ {l x}, read l = some x → write x = l)
    (reads : ∀ {x}, Allowed x → read (write x) = some x) (l : List Byte) (x : α) :
    read l = some x ↔ Allowed x ∧ l = write x :=
  ⟨fun h => ⟨allowed h, (layout h).symm⟩, fun ⟨h, e⟩ => e ▸ reads h⟩

theorem boolByte_eq (b : Bool) : boolByte b = byte b.toNat := by cases b <;> rfl

theorem writeDet_eq (d : DetRec) : writeDet d = [byte d.station, byte d.input,
      byte ([Role.mainline, .demand, .passage, .queue, .spillback, .other].idxOf d.role), byte d.ramps.toNat,
      byte (match d.lane with | some k => k.val + 1 | none => 0), byte d.filter]
    ++ be16 d.stuckLimit ++ [byte d.chatterLimit, byte d.subst.toNat, byte d.always.toNat] := by
  have role : roleCode d.role = byte ([Role.mainline, .demand, .passage, .queue, .spillback, .other].idxOf d.role) := by
    cases d.role <;> rfl
  unfold writeDet
  rw [role, boolByte_eq, boolByte_eq]
  cases d.lane <;> rfl

theorem writeCond_eq (c : CondRec) : writeCond c
    = byte c.chans.length :: c.chans.map (fun ch => byte ch.val) ++ [byte c.flow.toNat, byte c.below.toNat]
      ++ be16 c.threshold ++ be16 c.hysteresis ++ [byte c.subst.toNat, byte c.force.toNat] := by
  simp only [writeCond, boolByte_eq]
  rfl

theorem writePlan_eq (p : PlanRec) : writePlan p = (match p.adaptive with
      | none => [0, 0, byte p.slot]
      | some a => (match a.queueThreshold with
        | none => [1, 0x37, byte p.slot, byte a.minSlot, byte a.maxSlot, byte a.curve]
        | some t => [1, 0x3F, byte p.slot, byte a.minSlot, byte a.maxSlot, byte a.curve] ++ be16 t)
        ++ [byte a.reliefStep, byte a.reliefHyst])
    ++ [byte p.period, 4] ++ p.masks.toList.flatMap (fun m => be16 m.toNat) ++ [byte p.coordinated.toNat] := by
  unfold writePlan presenceByte writeAdaptive
  rw [boolByte_eq p.coordinated]
  cases p.adaptive with
  | none => rfl
  | some a =>
    dsimp only
    cases a.queueThreshold <;> rfl

theorem byte_mod (n : Nat) : byte (n % 256) = byte n := by
  apply BitVec.eq_of_toNat_eq
  simp [byte]

theorem writeCurve_eq (c : CurveRec) : writeCurve c
    = byte c.points.length :: c.points.map (fun p => byte (p.1 % 256))
      ++ (List.range ((c.points.length + 3) / 4)).map (fun j =>
        byte (((List.range 4).map fun q => ((c.points[4 * j + q]?).map (·.1)).getD 0 / 256 * 4 ^ q).sum))
      ++ c.points.map (fun p => byte p.2) := by
  simp only [byte_mod]
  rfl

theorem writeRamp_eq (c : RampRec) : writeRamp c
    = byte c.lanes.length :: c.lanes.map (fun k => byte (k.val + 1))
      ++ [byte (match c.beacon with | some ch => ch.val | none => 255), byte c.defaultPlan] ++ be16 c.warn
      ++ [byte c.startGreen, byte c.startYellow, byte c.startRed] ++ be16 c.shutFlush ++ be16 c.offset
      ++ [byte (match c.preLine with | some n => n.val | none => 255),
        byte (match c.panelLine with | some n => n.val | none => 255)] ++ be16 c.spillOn ++ be16 c.spillClear := by
  unfold writeRamp
  cases c.beacon <;> cases c.preLine <;> cases c.panelLine <;> rfl

theorem writeLane_eq (c : LaneRec) : writeLane c
    = [byte c.head.val, byte c.demand.val, byte (match c.passage with | some ch => ch.val | none => 255),
      byte (!c.lock).toNat, byte c.delay, byte c.maxGreen, byte c.minGreen, byte c.yellow, byte c.minRed,
      byte c.vehicles] := by
  unfold writeLane
  rw [boolByte_eq]
  cases c.passage <;> rfl

theorem writeOut_eq (o : OutRec) : writeOut o
    = [byte o.station, byte o.output.val, byte o.beacon.toNat, byte o.lampCheck.toNat] := by
  simp only [writeOut, boolByte_eq]

theorem writeAction_eq (a : ActionRec) : writeAction a = (match a.kind with
      | .dark => [1, 0]
      | .flush => [2, 0]
      | .hold => [3, 0]
      | .plan n => [4, byte n]) ++ be16 (a.cap.getD 0) := by
  unfold writeAction
  cases a.kind <;> rfl

/-- The records of a curve's shape, which its reader leaves to the shape test. -/
theorem readCurve_iff {l : List Byte} (shape : shapeOk 5 l = true) (c : CurveRec) :
    readCurve l = some c ↔ c.Allowed ∧ l = writeCurve c :=
  ⟨fun h => ⟨readCurve_allowed h, (writeCurve_readCurve shape h).symm⟩, fun ⟨h, e⟩ => e ▸ readCurve_writeCurve h⟩

/-! ### The order of the tests -/

theorem byte_eq_of_toNat {b : Byte} {n : Nat} (h : b.toNat = n) : b = BitVec.ofNat 8 n := by
  rw [← h, BitVec.ofNat_toNat, BitVec.setWidth_eq]

/-- Settles O23. -/
theorem tableWriteIsJudgedInOrder : Obligations.TableWriteIsJudgedInOrder := by
  unfold Obligations.TableWriteIsJudgedInOrder
  refine ⟨fun own src table index record s serves fits => exec_tableWrite serves table index fits,
    fun table index record s => ⟨tableWrite_shapeless s, fun shape => ⟨fun outside => ?outside, ?unread, ?detMap, ?rampCfg,
      ?laneCfg, ?outMap, ?settings⟩⟩,
    fun l d => ?readDet, fun l c => ?readCond, read_iff readMatch_allowed writeMatch_readMatch readMatch_writeMatch,
    fun l p => ?readPlan, fun l c shape => ?readCurve, fun l c => ?readRamp, fun l c => ?readLane, fun l o => ?readOut,
    fun l a => ?readAction, readSettings_iff, fun l => ?shapes⟩
  case outside =>
    rw [tableWrite_shaped s shape, writeTable_outside _ _ _ _ outside]
    rfl
  case unread =>
    intro inside h1 h2 h3 h4 h5 h6 h7 h8 h9 h10
    rw [tableWrite_shaped s shape, writeTable_unread table.toNat index.toNat record s inside
      (fun h => h1 (byte_eq_of_toNat h)) (fun h => h2 (byte_eq_of_toNat h)) (fun h => h3 (byte_eq_of_toNat h))
      (fun h => h4 (byte_eq_of_toNat h)) (fun h => h5 (byte_eq_of_toNat h)) (fun h => h6 (byte_eq_of_toNat h))
      (fun h => h7 (byte_eq_of_toNat h)) (fun h => h8 (byte_eq_of_toNat h)) (fun h => h9 (byte_eq_of_toNat h))
      (fun h => h10 (byte_eq_of_toNat h))]
    rfl
  case detMap =>
    rintro ch d conflict locked touches rfl place read apart conflicts touching locks
    refine tableWrite_judged shape (writeTable_detMap record s place) read
      ((detDuplicate_iff _ ch d).trans conflicts.symm) ?_
    rw [Bool.or_eq_true, detTouches_stored apart, detTouches_iff apart, locks]
    simp only [touching]
    constructor
    · rintro (⟨e, r, stored, used, touched⟩ | ⟨r, used, touched⟩)
      · exact ⟨r, used, Or.inr ⟨e, stored, touched⟩⟩
      · exact ⟨r, used, Or.inl touched⟩
    · rintro ⟨r, used, touched | ⟨e, stored, touched⟩⟩
      · exact Or.inr ⟨r, used, touched⟩
      · exact Or.inl ⟨e, r, stored, used, touched⟩
  case rampCfg =>
    rintro r d conflict rfl place read conflicts
    obtain ⟨refused, used, done⟩ := tableWrite_judged shape (writeTable_rampCfg record s place) read
      ((rampConflict_iff _ r d).trans conflicts.symm) (inUse_iff s r)
    exact ⟨refused, used, fun free idle => done free (not_not.mpr idle)⟩
  case laneCfg =>
    rintro l d conflict locked rfl place read conflicts locks
    exact tableWrite_judged shape (writeTable_laneCfg record s place) read
      ((laneConflict_iff _ l d).trans conflicts.symm) ((laneInUse_iff s l).trans locks.symm)
  case outMap =>
    rintro ch d others conflict locked rfl place read once listed conflicts locks
    exact tableWrite_judged shape (writeTable_outMap record s place) read
      ((outConflict_iff _ ch d others once listed).trans conflicts.symm) ((outInUse_iff s ch).trans locks.symm)
  case settings =>
    rintro w rfl rfl read
    obtain ⟨_, used, done⟩ := tableWrite_judged (t := 10) (i := 0) (C := False) shape (writeTable_settings record s) read
      (by simp) (anyInUse_iff s)
    exact ⟨used not_false, fun off => done not_false (fun ⟨r, on⟩ => on (off r))⟩
  case readDet =>
    have taken := read_iff readDet_allowed writeDet_readDet readDet_writeDet l d
    rw [writeDet_eq] at taken
    exact taken
  case readCond => rw [← writeCond_eq]; exact read_iff readCond_allowed writeCond_readCond readCond_writeCond l c
  case readPlan =>
    have taken := read_iff readPlan_allowed writePlan_readPlan readPlan_writePlan l p
    rw [writePlan_eq] at taken
    exact taken
  case readCurve => rw [← writeCurve_eq]; exact readCurve_iff shape c
  case readRamp =>
    have taken := read_iff readRamp_allowed writeRamp_readRamp readRamp_writeRamp l c
    rw [writeRamp_eq] at taken
    exact taken
  case readLane =>
    have taken := read_iff readLane_allowed writeLane_readLane readLane_writeLane l c
    rw [writeLane_eq] at taken
    exact taken
  case readOut => rw [← writeOut_eq]; exact read_iff readOut_range writeOut_readOut readOut_writeOut l o
  case readAction =>
    have taken := read_iff readAction_allowed writeAction_readAction readAction_writeAction l a
    rw [writeAction_eq] at taken
    exact taken
  case shapes =>
    simp only [← presentLength_eq]
    exact ⟨shapeOk_of_length rfl, shapeOk_cond l, shapeOk_of_length rfl, shapeOk_plan l, shapeOk_curve l, shapeOk_ramp l,
      shapeOk_of_length rfl, shapeOk_of_length rfl, shapeOk_of_length rfl, shapeOk_of_length rfl, rfl, rfl, rfl, rfl,
      fun _ => rfl, shapeOk_plan_pair, fun _ => shapeOk_above l⟩

end Sys2Proof.Machine
end

section
/-! SUPPORT. Time and quiet: clock differences (R20, R68), the sync timer (R144) and the quiet timer (R164). -/

namespace Sys2Proof.Machine

/-! ### Clock differences -/

theorem markDifference_spec (t m : Nat) : -431999 ≤ markDifference t m ∧ markDifference t m ≤ 432000
    ∧ (864000 : Int) ∣ markDifference t m - ((m : Int) - (t : Int)) := by
  by_cases near : ((m : Int) - (t : Int)) % 864000 ≤ 432000
  · have value : markDifference t m = ((m : Int) - (t : Int)) % 864000 := if_pos near
    omega
  · have value : markDifference t m = ((m : Int) - (t : Int)) % 864000 - 864000 := if_neg near
    omega

/-- The grid error is what corridor time, counted from the offset, leaves modulo the slot. -/
theorem gridError_spec (t offset : Nat) {len : Nat} (positive : 0 < len) : gridError t offset len < len
    ∧ (len : Int) ∣ (t : Int) - (offset : Int) - (gridError t offset len : Int) := by
  have whole : (gridError t offset len : Int) = ((t : Int) - (offset : Int)) % (len : Int) :=
    Int.toNat_of_nonneg (Int.emod_nonneg _ (by omega))
  constructor
  · have below : ((t : Int) - (offset : Int)) % (len : Int) < len := Int.emod_lt_of_pos _ (by omega)
    omega
  · rw [whole]
    exact Int.dvd_self_sub_emod

theorem correctedSlot_early {len e : Nat} (early : 2 * e ≤ len) : correctedSlot len e = len - min e 5 := if_pos early

theorem correctedSlot_late {len e : Nat} (late : len < 2 * e) : correctedSlot len e = len + min (len - e) 5 :=
  if_neg (by omega)

theorem clampSlot_spec (n : Nat) : 20 ≤ clampSlot n ∧ clampSlot n ≤ 150 ∧ (20 ≤ n → n ≤ 150 → clampSlot n = n) := by
  unfold clampSlot
  omega

/-- Settles O43. -/
theorem clockDifferencesAreTheNearest : Obligations.ClockDifferencesAreTheNearest := by
  unfold Obligations.ClockDifferencesAreTheNearest
  refine ⟨markDifference_spec, fun t offset len positive => ?_⟩
  obtain ⟨below, divides⟩ := gridError_spec t offset positive
  refine ⟨below, divides, fun onGrid => ?_, correctedSlot_early, correctedSlot_late, clampSlot_spec⟩
  rw [onGrid, correctedSlot_early (Nat.zero_le _), Nat.zero_min, Nat.sub_zero]

/-! ### Every ramp's attention -/

theorem forRamps_setAttention_get (s : State) (q : Ramp) :
    (forRamps setAttention s).ramps[q] = { s.ramps[q] with attention := true } := by
  simp only [forRamps, setAttention_get]
  match q with
  | 0 => rfl
  | 1 => rfl
  | 2 => rfl
  | 3 => rfl

theorem setQuiet_change {v : Bool} {s : State} (change : s.ring.quiet ≠ v) :
    setQuiet v s = forRamps setAttention { s with ring := { s.ring with quiet := v } } := if_neg change

theorem setQuiet_same {v : Bool} {s : State} (same : s.ring.quiet = v) : setQuiet v s = s := if_pos same

theorem setQuiet_ramps (v : Bool) (s : State) (q : Ramp) : SameRamp s (setQuiet v s) q
    ∧ (s.ring.quiet ≠ v → ((setQuiet v s).ramps[q]).attention = true) := by
  by_cases same : s.ring.quiet = v
  · rw [setQuiet_same same]
    exact ⟨Or.inl rfl, fun change => absurd same change⟩
  · rw [setQuiet_change same]
    have set := forRamps_setAttention_get { s with ring := { s.ring with quiet := v } } q
    exact ⟨Or.inr set, fun _ => by rw [set]⟩

theorem setQuiet_eq (v : Bool) (s : State) :
    setQuiet v s = { s with ring := { s.ring with quiet := v }, ramps := (setQuiet v s).ramps } := by
  by_cases same : s.ring.quiet = v
  · rw [setQuiet_same same, ← same]
  · rw [setQuiet_change same]
    rfl

/-- Settles O60. -/
theorem syncAndQuietTimersExpire : Obligations.SyncAndQuietTimersExpire := by
  unfold Obligations.SyncAndQuietTimersExpire
  refine ⟨fun s due => congrArg Host.Outcome.next (whenDue_due due syncExpired s), fun s due => ?quiet, fun s => ⟨fun n runs => left_run runs,
    fun stands => left_none stands, fun n runs => left_run runs, fun stands => left_none stands⟩⟩
  case quiet =>
    have frame := setQuiet_eq true { s with ring := { s.ring with quietTimer := .stopped } }
    have ramps := setQuiet_ramps true { s with ring := { s.ring with quietTimer := .stopped } }
    refine ⟨quietExpired s, congrArg Host.Outcome.next (whenDue_due due quietExpired s), setQuiet_ring .., ?_⟩
    unfold quietExpired
    rw [frame]
    exact ⟨rfl, rfl, rfl, rfl, rfl, rfl, ⟨rfl, rfl, rfl, rfl⟩, fun q => (ramps q).1,
      fun heard q => (ramps q).2 (by simp only [heard]; decide)⟩

end Sys2Proof.Machine
end

section
/-! SUPPORT. The Output Unit: lamp timers (R133 to R135), CLEAR FAULT (R136) and lamp reports (R133). -/

namespace Sys2Proof.Machine

/-! ### Frames -/

/-- Where ramps and the Output Unit alone change, the part is undisturbed otherwise. -/
theorem outputs_undisturbed {s t : State} (frame : t = { s with ramps := t.ramps, out := t.out }) :
    Undisturbed s t ∧ UnitsUndisturbed s t ∧ t.lanes = s.lanes := by
  rw [frame]
  exact ⟨⟨rfl, rfl, rfl, rfl, rfl, rfl, rfl, rfl⟩, ⟨rfl, rfl, rfl, rfl⟩, rfl⟩

theorem OneChan.undisturbed {P : Ramp → Prop} {ch : OutCh} {s t : State} (a : OneChan P ch s t) :
    Undisturbed s t ∧ UnitsUndisturbed s t ∧ t.lanes = s.lanes :=
  outputs_undisturbed (a.frame.trans (by rw [a.frame]))

/-! ### Drivers -/

/-- A driver's record after a change of one station's drivers that keeps their stations. -/
theorem driverOf_modDriver {f : DriverRec → DriverRec} {st : Nat} {o p : OutUnit}
    (changed : p.drivers = modDriver st f o.drivers) (keeps : ∀ d, (f d).station = d.station) :
    driverOf p st = (driverOf o st).map f := by
  have same : ((fun d : DriverRec => d.station == st) ∘ fun d => if d.station = st then f d else d)
      = fun d => d.station == st := by
    funext d
    dsimp only [Function.comp]
    split <;> simp [keeps]
  unfold driverOf
  rw [changed, modDriver, List.find?_map, same]
  cases found : o.drivers.find? fun d => d.station == st with
  | none => rfl
  | some d =>
    have named : d.station = st := by simpa using List.find?_some found
    simp [named]

/-! ### Latches -/

theorem latchFault_one (ch : OutCh) (s : State) : OneChan (fun q => ownerOf s.tables ch = some q) ch s (latchFault ch s)
    ∧ ∀ q : Ramp, ownerOf s.tables ch = some q → ((latchFault ch s).ramps[q]).attention = true := by
  obtain ⟨one, attention⟩ :=
    attentionOwner_one ch ch (s.setOut ch { s.out.chans[ch] with fault := true, mismatch := .stopped })
  exact ⟨((setOut_one ch _ s).trans one).weaken fun q h => h.elim False.elim id, attention⟩

theorem silenceLatch_one (st : Nat) (ch : OutCh) (s : State) :
    OneChan (fun q => ownerOf s.tables ch = some q) ch s (silenceLatch st ch s) := by
  unfold silenceLatch
  split
  · split
    · exact (judgeSilence_spec ch s).1.weaken fun q h => h.1
    · exact OneChan.refl _ ch s
  · exact OneChan.refl _ ch s

/-- A silent driver's latch (R135): the checked channels of its station that are commanded other than DARK. -/
def SilenceLatched (st : Nat) (s : State) (ch : OutCh) (c d : OutChan) : Prop :=
  silentStation s.out st = true → d.fault = (c.fault || (isChecked s.tables ch && decide (c.commanded ≠ .dark)
    && (s.tables.outMap[ch]).any fun o => o.station == st))

theorem judgeSilence_latched {st : Nat} {ch : OutCh} {o : OutRec} {s : State} (mapped : s.tables.outMap[ch] = some o)
    (named : o.station = st) (silent : silentStation s.out st = true) : ((judgeSilence ch s).out.chans[ch]).fault
      = ((s.out.chans[ch]).fault || (isChecked s.tables ch && decide ((s.out.chans[ch]).commanded ≠ .dark))) := by
  obtain ⟨_, _, lit, unlit⟩ := judgeSilence_spec ch s
  have judged := litOnSilent_iff s ch s.out.chans[ch]
  simp only [mapped, Option.some.injEq, exists_eq_left', named, silent, Bool.and_true] at judged
  by_cases h : LitOnSilent s ch s.out.chans[ch]
  · rw [(lit h).1]
    have latch := judged.mp h
    revert latch
    cases (s.out.chans[ch]).fault <;> simp
  · rw [unlit h]
    have stays := judged.not.mp h
    revert stays
    cases (s.out.chans[ch]).fault <;> simp

theorem silenceLatch_latched (st : Nat) (ch : OutCh) (s : State) :
    SilenceLatched st s ch s.out.chans[ch] (silenceLatch st ch s).out.chans[ch] := by
  intro silent
  unfold silenceLatch
  split
  next o mapped =>
    by_cases named : o.station = st
    · rw [if_pos named, judgeSilence_latched mapped named silent, mapped]
      simp [named]
    · simp [mapped, named]
  next unmapped => simp [unmapped]

theorem SilenceLatched.congr (st : Nat) (ch : OutCh) (s t : State) (c d : OutChan) (tables : t.tables = s.tables)
    (drivers : t.out.drivers = s.out.drivers) : SilenceLatched st t ch c d ↔ SilenceLatched st s ch c d := by
  unfold SilenceLatched silentStation driverOf
  rw [tables, drivers]

theorem silentStation_of_left {st : Nat} {s : State} (due : driverSilenceLeft st s = some 0) :
    silentStation { s.out with drivers := modDriver st (fun d => { d with silence := .expired }) s.out.drivers } st
      = true := by
  rw [silentStation_iff, driverOf_modDriver (f := fun d => { d with silence := .expired }) (o := s.out) rfl fun _ => rfl]
  cases found : driverOf s.out st with
  | none => rw [driverSilenceLeft, found] at due; cases due
  | some d => exact ⟨_, rfl, rfl⟩

/-- The latches of a silent station, channel by channel. -/
theorem silenceLatches_spec {st : Nat} {s u : State} {ls : List OutCh} (once : ls.Nodup) (whole : ∀ ch, ch ∈ ls)
    (all : u = forEach ls (silenceLatch st) s) (silent : silentStation s.out st = true) :
    u = { s with ramps := u.ramps, out := { s.out with chans := u.out.chans, sigDue := u.out.sigDue } }
    ∧ (∀ q : Ramp, SameRamp s u q)
    ∧ ∀ ch : OutCh, (u.out.chans[ch]).fault = ((s.out.chans[ch]).fault
        || (isChecked s.tables ch && decide ((s.out.chans[ch]).commanded ≠ .dark)
          && (s.tables.outMap[ch]).any fun o => o.station == st)) := by
  obtain ⟨frame, same, _⟩ := forEach_frame (silenceLatch st) (fun ch t q => ownerOf t ch = some q) (silenceLatch_one st) ls s
  have latched := (forEach_chan (silenceLatch st) _ (fun ch t => SilenceLatched st t ch) (silenceLatch_one st)
    (silenceLatch_latched st) (SilenceLatched.congr st) ls once s).2
  rw [← all] at frame same latched
  exact ⟨frame, same, fun ch => latched ch (whole ch) silent⟩

/-- The driver silence's expiry, its frame and each channel's fault. -/
theorem driverSilent_spec {st : Nat} {s u : State} (expired : u = driverSilent st s)
    (due : driverSilenceLeft st s = some 0) :
    u = { s with ramps := u.ramps, out := u.out }
    ∧ (∀ q : Ramp, SameRamp s u q)
    ∧ u.out.drivers = modDriver st (fun d => { d with silence := .expired }) s.out.drivers
    ∧ ∀ ch : OutCh, (u.out.chans[ch]).fault = ((s.out.chans[ch]).fault
        || (isChecked s.tables ch && decide ((s.out.chans[ch]).commanded ≠ .dark)
          && (s.tables.outMap[ch]).any fun o => o.station == st)) := by
  obtain ⟨frame, same, faults⟩ := silenceLatches_spec (List.nodup_finRange 16) List.mem_finRange expired (silentStation_of_left due)
  exact ⟨frame.trans (by rw [frame]), same, by rw [frame], faults⟩

/-! ### Timers' lengths -/

theorem driverSilenceLeft_spec (st : Nat) (s : State) :
    (∀ (d : DriverRec) (n : Nat), driverOf s.out st = some d → d.silence = .running n →
      driverSilenceLeft st s = some (5000000 - n))
    ∧ (∀ d : DriverRec, driverOf s.out st = some d → (∀ n : Nat, d.silence ≠ .running n) → driverSilenceLeft st s = none)
    ∧ (driverOf s.out st = none → driverSilenceLeft st s = none) := by
  unfold driverSilenceLeft
  refine ⟨fun d n found runs => ?_, fun d found stands => ?_, fun absent => ?_⟩
  · rw [found]; exact left_run runs
  · rw [found]; exact left_none stands
  · rw [absent]; rfl

/-- Settles O59. -/
theorem lampTimersLatchFaults : Obligations.LampTimersLatchFaults := by
  unfold Obligations.LampTimersLatchFaults
  refine ⟨fun ch s due => ?mismatch, fun st s due => ?silence, fun ch a c s u set command => ⟨?same, ?changed⟩,
    fun t ch r apart => ownerOf_iff apart ch r,
    fun ch s => ⟨fun n runs => left_run runs, fun stands => left_none stands⟩, driverSilenceLeft_spec⟩
  case mismatch =>
    obtain ⟨one, attention⟩ := latchFault_one ch s
    obtain ⟨frame, units, lanes⟩ := one.undisturbed
    obtain ⟨_, latched, others⟩ := latchFault_get ch s
    exact ⟨latchFault ch s, congrArg Host.Outcome.next (whenDue_due due (mismatchExpired ch) s), frame, units, lanes,
      one.ramps, attention, latched, others⟩
  case silence =>
    obtain ⟨frame, same, drivers, faults⟩ := driverSilent_spec rfl due
    obtain ⟨undisturbed, units, lanes⟩ := outputs_undisturbed frame
    refine ⟨driverSilent st s, congrArg Host.Outcome.next (whenDue_due due (driverSilent st) s), undisturbed, units, lanes,
      same, drivers, fun ch => (faults ch).trans ?_⟩
    cases s.tables.outMap[ch] <;> rfl
  case same => exact fun same => set.trans (if_pos same)
  case changed =>
    intro change
    obtain ⟨one, due, dark, lit⟩ := setAspect_spec ch a s u c set command change
    obtain ⟨frame, units, lanes⟩ := one.undisturbed
    exact ⟨frame, units, lanes, one.ramps, one.drivers, one.others, due, dark, lit⟩

/-! ### CLEAR FAULT -/

theorem MismatchJudged.fault {s : State} {ch : OutCh} {c d : OutChan} (judged : MismatchJudged s ch c d) :
    d.fault = c.fault := by
  obtain ⟨within, outside⟩ := judged
  by_cases h : Mismatched s ch c
  · rw [within h]
  · rw [outside h]

/-- Where no driver is silent, a judgement latches nothing. -/
theorem JudgedAtOnce.unlatched {s : State} {ch : OutCh} {c d : OutChan} (judged : JudgedAtOnce s ch c d)
    (present : ∀ x ∈ s.out.drivers, x.silence ≠ .expired) : d.fault = c.fault := by
  refine (judged.2 fun ⟨_, _, _, o, x, _, found, silent⟩ => ?_).fault
  exact present x (List.mem_of_find?_eq_some found) silent

theorem faultedChannels_nil {r : Ramp} {s : State}
    (sound : ∀ ch : OutCh, belongs s.tables r ch = true → (s.out.chans[ch]).fault = false) : faultedChannels s r = [] := by
  unfold faultedChannels
  rw [List.filter_eq_nil_iff]
  intro ch _
  rw [Bool.and_eq_true]
  rintro ⟨belong, fault⟩
  rw [sound ch belong] at fault
  cases fault

theorem clearFaults_sound {r : Ramp} {s : State}
    (sound : ∀ ch : OutCh, belongs s.tables r ch = true → (s.out.chans[ch]).fault = false) : clearFaults r s = s := by
  rw [clearFaults, faultedChannels_nil sound]
  rfl

/-- Settles O34. -/
theorem clearFaultUnlatches : Obligations.ClearFaultUnlatches := by
  unfold Obligations.ClearFaultUnlatches
  intro own src r s serves
  obtain ⟨cleared, stay, same, others, frame⟩ := clearFaults_spec r (heard s) _ rfl
  obtain ⟨undisturbed, units, lanes⟩ := outputs_undisturbed (frame.trans (by rw [frame]))
  refine ⟨clearFaults r (heard s), ?served, undisturbed, units, same, lanes, fun present ch belong => ?unlatched,
    by rw [frame], by rw [frame], fun ch belong fault => ?judged, fun ch h => ?stays, fun sound => ?sound,
    fun apart => ⟨fun q other => ?elsewhere, ?attention⟩⟩
  case served => rw [exec_clearFault serves, clearFaultRequest, onRamp_byte]
  case unlatched =>
    by_cases fault : ((heard s).out.chans[ch]).fault = true
    · exact (cleared ch (by rw [heard_tables]; exact belong) fault).1.unlatched (by rw [heard_drivers]; exact present)
    · rw [stay ch (Or.inr (by simpa using fault))]
      simpa using fault
  case judged => exact (cleared ch (by rw [heard_tables]; exact belong) fault).1
  case stays => exact stay ch (by rw [heard_tables]; exact h)
  case sound => exact clearFaults_sound (by rw [heard_tables]; exact sound)
  case elsewhere =>
    refine others q fun ch belong _ owned => ?_
    rw [heard_tables] at belong owned
    exact other (belongs_once apart belong ((ownerOf_iff apart ch q).mp owned))
  case attention =>
    rintro ⟨ch, belong, fault⟩
    have owned : ownerOf (heard s).tables ch = some r := by rw [heard_tables]; exact (ownerOf_iff apart ch r).mpr belong
    exact (cleared ch (by rw [heard_tables]; exact belong) fault).2 r owned

/-! ### Lamp reports -/

theorem isChecked_iff {t : Tables} {ch : OutCh} {o : OutRec} (mapped : t.outMap[ch] = some o) :
    isChecked t ch = true ↔ o.lampCheck = true ∧ ∃ r : Ramp, belongs t r ch = true := by
  unfold isChecked ownerOf
  rw [mapped]
  simp [List.find?_isSome, List.mem_finRange]

theorem reportFrom_present (b : Option Byte) (c : OutChan) : (reportFrom b c).reported ≠ .absent := by
  unfold reportFrom
  cases b with
  | none => simp
  | some b => dsimp only; split <;> simp

theorem aspectOfCode_eq (n : Nat) : (match aspectOfCode n with | some a => Reported.shows a | none => .notCarried)
    = (match n with
      | 0 => .shows .dark
      | 1 => .shows .red
      | 2 => .shows .yellow
      | 3 => .shows .green
      | 4 => .shows .flash
      | _ => .notCarried) := by
  match n with
  | 0 => rfl
  | 1 => rfl
  | 2 => rfl
  | 3 => rfl
  | 4 => rfl
  | _ + 5 => rfl

/-- The fields that a report stores (R133). -/
theorem reported_fields (t : Tables) (ch : OutCh) (b : Option Byte) (c : OutChan) :
    (reported t ch b c).reported = (match b with
      | none => .notCarried
      | some b => match b.toNat % 8 with
        | 0 => .shows .dark
        | 1 => .shows .red
        | 2 => .shows .yellow
        | 3 => .shows .green
        | 4 => .shows .flash
        | _ => .notCarried)
    ∧ (reported t ch b c).lampOut = (match b with
      | none => false
      | some b => b.getLsbD 3)
    ∧ (reported t ch b c).commanded = c.commanded ∧ (reported t ch b c).fault = c.fault := by
  cases b with
  | none => exact ⟨rfl, rfl, rfl, rfl⟩
  | some b => exact ⟨aspectOfCode_eq (b.toNat % 8), rfl, rfl, rfl⟩

/-- What the report does to its channel's mismatch timer (R133). -/
theorem reported_mismatch (s : State) (ch : OutCh) (b : Option Byte) (c x : OutChan)
    (result : x = reported s.tables ch b c) (disagrees : Prop)
    (spelled : disagrees ↔ x.lampOut = true ∨ (∃ a, x.reported = .shows a ∧ a ≠ x.commanded)
      ∨ x.reported = .notCarried ∧ x.commanded ≠ .dark) :
    (isChecked s.tables ch = true → x.fault = false → disagrees →
      x.mismatch = if c.mismatch = .stopped then .running 0 else c.mismatch)
    ∧ (isChecked s.tables ch = false ∨ x.fault = true ∨ ¬ disagrees → x.mismatch = .stopped) := by
  have timer : (reportFrom b c).mismatch = c.mismatch := by cases b <;> rfl
  have within : inMismatch s.tables ch (reportFrom b c) = true
      ↔ isChecked s.tables ch = true ∧ x.fault = false ∧ disagrees := by
    rw [inMismatch_iff, Mismatched, spelled, result]
    exact ⟨fun ⟨checked, sound, _, h⟩ => ⟨checked, sound, h⟩,
      fun ⟨checked, sound, h⟩ => ⟨checked, sound, reportFrom_present b c, h⟩⟩
  have judged : x.mismatch = if inMismatch s.tables ch (reportFrom b c) then c.mismatch.keepRunning else .stopped := by
    rw [result, ← timer]
    rfl
  constructor
  · intro checked sound h
    rw [judged, if_pos (within.mpr ⟨checked, sound, h⟩), keepRunning_eq]
  · intro h
    rw [judged, if_neg (fun m => ?_)]
    obtain ⟨checked, sound, d⟩ := within.mp m
    rcases h with h | h | h
    · rw [checked] at h; cases h
    · rw [sound] at h; cases h
    · exact h d

/-- A lamp report for the part is stored behind its frame's hearing. -/
theorem exec_lampReport {own : Nat} {bytes outs : List Byte} {f : Frame} {s : State} (active : s.station = some own)
    (accepted : acceptFrame bytes = some f) (other : f.src ≠ own) (mine : f.dst = own) (kind : f.kind = 2)
    (counted : countedBytes f.payload = some outs) :
    exec (.frameArrival bytes) s = .next (endEvent (lampReport f.src outs (heard s))) := by
  have consumed : consume own f (heard s) = endEvent (lampReport f.src outs (heard s)) := by
    simp only [consume, kind, counted]
  refine congrArg Host.Outcome.next ?_
  rw [arrival_active active accepted, if_neg other, if_pos mine, consumed]

/-- Settles O44. -/
theorem lampReportIsStored : Obligations.LampReportIsStored := by
  unfold Obligations.LampReportIsStored
  intro own bytes f outs s active accepted other mine kind counted
  refine ⟨lampReport f.src outs (heard s), exec_lampReport active accepted other mine kind counted, lampReport_frame ..,
    fun absent => ?absent, fun present => ⟨fun d found => ?silence, fun ch o mapped named => ?stored⟩, fun ch unnamed => ?others⟩
  case absent => rw [lampReport, absent]
  case silence =>
    rw [driverOf_modDriver (lampReport_drivers present) fun _ => rfl] at found
    obtain ⟨old, _, rfl⟩ := Option.map_eq_some_iff.mp found
    rfl
  case stored =>
    have result := (lampReport_get (outs := outs) present ch).1 o (by rw [heard_tables]; exact mapped) named
    rw [heard_tables] at result
    have fields := reported_fields s.tables ch outs[o.output.val]? (heard s).out.chans[ch]
    rw [← result] at fields
    obtain ⟨aspect, lamp, commanded, fault⟩ := fields
    refine ⟨aspect, lamp, commanded, fault, fun disagrees spelled => ?_⟩
    obtain ⟨within, outside⟩ := reported_mismatch s ch _ _ _ result disagrees spelled
    exact ⟨within, outside, isChecked_iff mapped⟩
  case others =>
    cases found : driverOf (heard s).out f.src with
    | none => rw [lampReport, found]
    | some d =>
      have present : driverOf (heard s).out f.src ≠ none := by rw [found]; exact Option.some_ne_none d
      exact (lampReport_get present ch).2 (by rw [heard_tables]; exact unnamed)

end Sys2Proof.Machine
end

section
/-! SUPPORT. The Ring Interface: the out port (R160, R161), the stores (R159, R163), and the SIGs, their images and their
refresh (R127, R131). -/

namespace Sys2Proof.Machine

/-! ### The out port -/

section Port
variable {own : Nat} {q : RingUnit}

theorem takeForward_eq (f : List Byte) (fs : List (List Byte)) (q : RingUnit) : takeForward f fs q
    = { q with forward := fs, run := if q.run < 4 then q.run + 1 else 4, inFlight := some ⟨f, 0⟩ } := by
  have capped : min (q.run + 1) 4 = if q.run < 4 then q.run + 1 else 4 := by split <;> omega
  rw [takeForward, capped]

theorem portTake_forward {f : List Byte} {fs : List (List Byte)} (free : q.inFlight = none) (oldest : q.forward = f :: fs)
    (turn : q.insert = [] ∨ q.run < 4) : portTake own q = takeForward f fs q := by
  unfold portTake
  rw [free, oldest]
  dsimp only
  split
  · contradiction
  · next forward inserts =>
    cases forward
    rfl
  · contradiction
  · next forward inserts =>
    cases forward
    rcases turn with none | below
    · rw [none] at inserts; contradiction
    · exact if_pos below

theorem portTake_insert {i : Insert} {is : List Insert} (free : q.inFlight = none) (head : q.insert = i :: is)
    (turn : q.forward = [] ∨ 4 ≤ q.run) : portTake own q = takeInsert own i is q := by
  unfold portTake
  rw [free, head]
  dsimp only
  split
  · contradiction
  · contradiction
  · next forward inserts =>
    cases inserts
    rfl
  · next forward inserts =>
    cases inserts
    rcases turn with none | reached
    · rw [none] at forward; contradiction
    · exact if_neg (by omega)

end Port

theorem sendingEnd_busy {s : State} {f : InFlight} (busy : s.ring.inFlight = some f) :
    exec .sendingEnd s = .next (endEvent { s with ring := { s.ring with inFlight := none } })
    ∧ sendingLeft s = some (250 - f.ran) := by
  constructor
  · refine congrArg Host.Outcome.next (if_pos ?_)
    rw [busy]
    rfl
  · rw [sendingLeft, busy]
    rfl

theorem forwardFrame_inFlight (b : List Byte) (q : RingUnit) : (forwardFrame b q).inFlight = q.inFlight := by
  unfold forwardFrame
  split <;> rfl

/-! ### SIGs enqueued -/

section Sigs
variable {st : Nat} {im : List Aspect} {q : RingUnit}

theorem enqueueSig_queued (queued : st ∈ sigStations q.insert) : enqueueSig st im q
    = { q with insert := q.insert.map fun i => if i.isSigFor st then .sig st im else i } :=
  if_pos ((any_isSigFor st q.insert).mpr queued)

theorem enqueueSig_unqueued (unqueued : st ∉ sigStations q.insert) : enqueueSig st im q
    = if q.waiting.any fun w => w.station == st then
        { q with waiting := q.waiting.map fun w => if w.station = st then ⟨st, im⟩ else w }
      else if sigCount q.insert < 8 then { q with insert := q.insert ++ [.sig st im] }
      else { q with waiting := q.waiting ++ [⟨st, im⟩] } :=
  if_neg ((any_isSigFor st q.insert).not.mpr unqueued)

theorem enqueueSig_waiting (unqueued : st ∉ sigStations q.insert) (waits : st ∈ q.waiting.map (·.station)) :
    enqueueSig st im q = { q with waiting := q.waiting.map fun w => if w.station = st then ⟨st, im⟩ else w } :=
  (enqueueSig_unqueued unqueued).trans (if_pos ((any_waits st q.waiting).mpr waits))

theorem enqueueSig_tail (unqueued : st ∉ sigStations q.insert) (new : st ∉ q.waiting.map (·.station))
    (room : sigCount q.insert < 8) : enqueueSig st im q = { q with insert := q.insert ++ [.sig st im] } := by
  rw [enqueueSig_unqueued unqueued, if_neg ((any_waits st q.waiting).not.mpr new), if_pos room]

theorem enqueueSig_waits (unqueued : st ∉ sigStations q.insert) (new : st ∉ q.waiting.map (·.station))
    (full : 8 ≤ sigCount q.insert) : enqueueSig st im q = { q with waiting := q.waiting ++ [⟨st, im⟩] } := by
  rw [enqueueSig_unqueued unqueued, if_neg ((any_waits st q.waiting).not.mpr new), if_neg (by omega)]

/-- A SIG is refused in no case. -/
theorem enqueueSig_kept : st ∈ sigStations (enqueueSig st im q).insert
    ∨ st ∈ (enqueueSig st im q).waiting.map (·.station) := by
  by_cases queued : st ∈ sigStations q.insert
  · left
    rw [enqueueSig_queued queued]
    exact (sigStations_map st im q.insert).symm ▸ queued
  · by_cases waits : st ∈ q.waiting.map (·.station)
    · right
      rw [enqueueSig_waiting queued waits]
      obtain ⟨w, mem, named⟩ := List.mem_map.mp waits
      exact List.mem_map.mpr ⟨⟨st, im⟩, List.mem_map.mpr ⟨w, mem, if_pos named⟩, rfl⟩
    · by_cases room : sigCount q.insert < 8
      · left
        rw [enqueueSig_tail queued waits room, sigStations_append]
        exact List.mem_append_right _ List.mem_cons_self
      · right
        rw [enqueueSig_waits queued waits (by omega)]
        simp

end Sigs

theorem flushSigs_ring {s : State} (active : s.station ≠ none) :
    (flushSigs s).ring = (s.out.sigDue.foldl (fun t st => sendSig st t) s).ring := by
  have present : s.station.isSome = true := Option.isSome_iff_ne_none.mpr active
  simp only [flushSigs, present, if_true, forEach]

theorem stores_bounds {q : RingUnit} (stores : q.Stores) :
    q.insert.length ≤ 16 ∧ rspCount q.insert ≤ 8 ∧ (sigStations q.insert).Nodup := by
  have rsps := stores.rsps
  have sigs := stores.sigs
  exact ⟨by rw [insert_length]; omega, rsps, (List.nodup_append.mp stores.oneSig).1⟩

/-- Settles O45. -/
theorem ringStoresTakeAndGiveInOrder : Obligations.RingStoresTakeAndGiveInOrder := by
  unfold Obligations.RingStoresTakeAndGiveInOrder
  refine ⟨⟨fun own q busy => ?busy, fun own q => portTake_of_empty own, fun own q f fs free oldest turn => ?forward,
      fun own q i is free head turn => ?insert, fun s f => sendingEnd_busy, fun _ => rfl, fun _ _ => rfl, fun _ => rfl,
      fun b st im q => ⟨forwardFrame_inFlight b q, ?sig⟩, fun _ _ _ => rfl⟩,
    ⟨fun b q room => if_pos room, fun b q full => if_neg (by omega), fun _ _ _ => enqueueSig_queued,
      fun _ _ _ => enqueueSig_waiting, fun _ _ _ => enqueueSig_tail, fun _ _ _ => enqueueSig_waits,
      fun _ _ _ => enqueueSig_kept, fun st l ascending => ⟨insertStation_ascending st ascending, mem_insertStation st l⟩,
      fun _ _ => rfl, fun _ => ⟨rfl, flushSigs_ring⟩, fun _ _ => ⟨rfl, rfl⟩, fun _ => stores_bounds⟩,
    fun _ _ => ⟨rfl, rfl, rfl, rfl, rfl, rfl⟩⟩
  case busy =>
    obtain ⟨f, flight⟩ := Option.ne_none_iff_exists'.mp busy
    exact portTake_of_busy own flight
  case forward => rw [portTake_forward free oldest turn, takeForward_eq]
  case insert =>
    rw [portTake_insert free head turn, takeInsert_eq]
    exact ⟨rfl, rfl, rfl, rfl, rfl⟩
  case sig => rw [enqueueSig_frame]

/-! ### The refresh -/

theorem failsafe_agrees {s : State} {r : Ramp} (agrees : ((s.auth[r]).sources[(0 : Source)]).asserted = true
      ↔ s.ring.quiet = true ∨ ∃ ch : OutCh, belongs s.tables r ch = true ∧ (s.out.chans[ch]).fault = true) :
    ((s.auth[r]).sources[(0 : Source)]).asserted = failsafeCause s r :=
  Bool.eq_iff_iff.mpr (agrees.trans (failsafeCause_iff s r).symm)

theorem flushSigs_one {own st : Nat} {s : State} (active : s.station = some own) (none : s.out.sigDue = []) :
    flushSigs (dueSig st s) = sendSig st s := by
  have one : (dueSig st s).out.sigDue = [st] := by
    change insertStation st s.out.sigDue = [st]
    rw [none]
    rfl
  have present : (dueSig st s).station.isSome = true := by
    change s.station.isSome = true
    rw [active]
    rfl
  simp only [flushSigs, present, if_true, one, forEach, List.foldl_cons, List.foldl_nil]
  rw [← none]
  rfl

/-! ### Images and frames -/

theorem sigImage_left {s : State} {st : Nat}
    (left : ∀ (ch : OutCh) (o : OutRec), s.tables.outMap[ch] = some o → o.station ≠ st) :
    sigImage s st = [.dark, .dark, .dark, .dark, .dark, .dark, .dark, .dark] := by
  refine if_neg fun named => ?_
  obtain ⟨ch, o, mapped, station⟩ := (namesStation_iff s.tables st).mp named
  exact left ch o mapped station

theorem aspectCode_eq (a : Aspect) : aspectCode a = byte ([Aspect.dark, .red, .yellow, .green, .flash].idxOf a) := by
  cases a <;> rfl

theorem insertBytes_sig (own st : Nat) (image : List Aspect) : insertBytes own (.sig st image)
    = withCheck ([byte st, byte own, 3, byte (image.length + 1), byte image.length]
      ++ image.map (fun a => byte ([Aspect.dark, .red, .yellow, .green, .flash].idxOf a))) := by
  simp only [← aspectCode_eq, insertBytes, frameBytes, List.length_cons, List.length_map, List.cons_append,
    List.nil_append]
  rfl

theorem refreshLeft_spec (st : Nat) (s : State) :
    (∀ (d : DriverRec) (n : Nat), driverOf s.out st = some d → d.refresh = .running n →
      refreshLeft st s = some (1000000 - n))
    ∧ (∀ d : DriverRec, driverOf s.out st = some d → (∀ n : Nat, d.refresh ≠ .running n) → refreshLeft st s = none)
    ∧ (driverOf s.out st = none → refreshLeft st s = none) := by
  unfold refreshLeft
  refine ⟨fun d n found runs => ?_, fun d found stands => ?_, fun absent => ?_⟩
  · rw [found]; exact left_run runs
  · rw [found]; exact left_none stands
  · rw [absent]; rfl

/-- Settles O46. -/
theorem refreshEnqueuesTheImage : Obligations.RefreshEnqueuesTheImage := by
  unfold Obligations.RefreshEnqueuesTheImage
  refine ⟨fun own st s active quiet due agrees => ?refresh, fun s calm r => ?calm, fun s st => sigImage_left,
    fun s st n apart highest above => ?image, fun own st image b bytes => ?sig, fun own dst payload b bytes => ?rsp,
    refreshLeft_spec⟩
  case refresh =>
    refine congrArg Host.Outcome.next ((whenDue_due due (dueSig st) s).trans ?_)
    rw [endEvent, settle_agreed (s := dueSig st s) fun r => failsafe_agrees (agrees r), flushSigs_one active quiet]
    rfl
  case calm =>
    rw [calm.free r, ← failsafeCause_iff, calm.noCause r]
  case image =>
    obtain ⟨length, places⟩ := sigImage_spec s st n highest above
    refine ⟨length, fun ch o mapped named => ?named, fun k below unnamed => ?unnamed⟩
    case named =>
      have place : channelAt s.tables st o.output = some ch := named ▸ channelAt_named apart mapped
      rw [places o.output (above ch o mapped named), place]
    case unnamed =>
      obtain ⟨_, o, _, _, top⟩ := highest
      have bound : k < 8 := by have := o.output.isLt; omega
      have free : channelAt s.tables st ⟨k, bound⟩ = none := by
        rw [Option.eq_none_iff_forall_ne_some]
        intro ch found
        obtain ⟨x, mapped, named, output⟩ := channelAt_some found
        exact unnamed ch x mapped named (by rw [output])
      rw [places ⟨k, bound⟩ below, free]
  case sig => rw [insertBytes_sig, bytes]; rfl
  case rsp => rw [bytes]; rfl

end Sys2Proof.Machine
end

section
/-! SUPPORT. Frames: their acceptance (R154, R155), their disposal (R153, R156) and the time marks (R141 to R144). -/

namespace Sys2Proof.Machine

/-! ### Acceptance -/

theorem crcBit_eq (c : BitVec 16) (b : Bool) :
    crcBit c b = if c.msb = b then c <<< 1 else (c <<< 1) ^^^ 0x1021#16 := by
  unfold crcBit
  by_cases same : c.msb = b
  · rw [if_pos same, if_neg (by simp [same])]
  · rw [if_neg same, if_pos (by simpa using same)]

theorem crc16_append (b : List Byte) (x : Byte) : crc16 (b ++ [x])
    = ([7, 6, 5, 4, 3, 2, 1, 0] : List Nat).foldl (fun (c : BitVec 16) i =>
      if c.msb = x.getLsbD i then c <<< 1 else (c <<< 1) ^^^ 0x1021#16) (crc16 b) := by
  rw [crc16, List.foldl_append]
  simp only [← crcBit_eq]
  rfl

theorem acceptFrame_short {bytes : List Byte} (short : bytes.length < 6) : acceptFrame bytes = none := by
  match bytes, short with
  | [], _ => rfl
  | [_], _ => rfl
  | [_, _], _ => rfl
  | [_, _, _], _ => rfl
  | _ :: _ :: _ :: n :: rest, short =>
    refine if_neg fun ⟨_, whole, _⟩ => ?_
    simp only [List.length_cons] at short
    omega

theorem acceptFrame_invalid {d s k n : Byte} {rest : List Byte} (invalid : 48 < n.toNat ∨ rest.length ≠ n.toNat + 2
      ∨ rest.drop n.toNat ≠ be16 (crc16 (d :: s :: k :: n :: rest.take n.toNat)).toNat
      ∨ d.toNat % 64 = 63 ∨ s.toNat % 64 = 0 ∨ s.toNat % 64 = 63) : acceptFrame (d :: s :: k :: n :: rest) = none := by
  refine if_neg fun ⟨counted, whole, checked, destination, sender, other⟩ => ?_
  rcases invalid with h | h | h | h | h | h
  · omega
  · exact h whole
  · exact h checked
  · exact destination h
  · exact sender h
  · exact other h

theorem exec_dropped {bytes : List Byte} (dropped : acceptFrame bytes = none) (s : State) :
    exec (.frameArrival bytes) s = .next (endEvent (dropFrame (restartQuiet s))) := by
  refine congrArg Host.Outcome.next ?_
  rw [arrival, dropped]

/-- Settles O37. -/
theorem framesAreAcceptedOrDropped : Obligations.FramesAreAcceptedOrDropped := by
  unfold Obligations.FramesAreAcceptedOrDropped
  exact ⟨fun dst src kind payload destination sent sender known fits =>
      acceptFrame_frameBytes dst src kind payload destination sender (by omega) known fits,
    fun _ => acceptFrame_short, fun _ _ _ _ _ => acceptFrame_invalid, ⟨rfl, crc16_append⟩,
    fun _ s dropped => exec_dropped dropped s⟩

/-! ### Disposal -/

theorem countedBytes_malformed {payload : List Byte} (malformed : payload = [] ∨ ∃ (n : Byte) (rest : List Byte),
      payload = n :: rest ∧ (n.toNat = 0 ∨ 8 < n.toNat ∨ rest.length < n.toNat)) : countedBytes payload = none := by
  rcases malformed with rfl | ⟨n, rest, rfl, count⟩
  · rfl
  · exact if_neg fun ⟨least, most, carried⟩ => by omega

theorem countedBytes_formed {n : Byte} {rest : List Byte} (least : 1 ≤ n.toNat) (most : n.toNat ≤ 8)
    (carried : n.toNat ≤ rest.length) : countedBytes (n :: rest) = some (rest.take n.toNat) :=
  if_pos ⟨least, most, carried⟩

section Disposal
variable {own : Nat} {bytes : List Byte} {f : Frame} {s : State}

theorem exec_own (active : s.station = some own) (accepted : acceptFrame bytes = some f) (mine : f.src = own) :
    exec (.frameArrival bytes) s = .next (endEvent (heard s)) := by
  refine congrArg Host.Outcome.next ?_
  rw [arrival_active active accepted, if_pos mine]

theorem exec_consumed (active : s.station = some own) (accepted : acceptFrame bytes = some f) (other : f.src ≠ own)
    (mine : f.dst = own) : exec (.frameArrival bytes) s = .next (consume own f (heard s)) := by
  refine congrArg Host.Outcome.next ?_
  rw [arrival_active active accepted, if_neg other, if_pos mine]

theorem exec_broadcast (active : s.station = some own) (accepted : acceptFrame bytes = some f) (other : f.src ≠ own)
    (foreign : f.dst ≠ own) (all : f.dst = 0) : exec (.frameArrival bytes) s = .next (broadcast bytes f (heard s)) := by
  refine congrArg Host.Outcome.next ?_
  rw [arrival_active active accepted, if_neg other, if_neg foreign, if_pos all]

theorem exec_forwarded (active : s.station = some own) (accepted : acceptFrame bytes = some f) (other : f.src ≠ own)
    (foreign : f.dst ≠ own) (single : f.dst ≠ 0) :
    exec (.frameArrival bytes) s = .next (forwardOn bytes (endEvent (heard s))) := by
  refine congrArg Host.Outcome.next ?_
  rw [arrival_active active accepted, if_neg other, if_neg foreign, if_neg single]

theorem consume_malformed (lamp : f.kind = 2) (malformed : countedBytes f.payload = none) :
    consume own f s = endEvent s := by
  simp only [consume, lamp, malformed]

theorem consume_other (lamp : f.kind ≠ 2) (cmd : f.kind ≠ 5) : consume own f s = endEvent s := by
  unfold consume
  split
  · next kind => exact absurd kind lamp
  · next kind => exact absurd kind cmd
  · rfl

theorem broadcast_report {inputs : List Byte} (report : f.kind = 1) (counted : countedBytes f.payload = some inputs) :
    broadcast bytes f s
      = forwardOn (rewrittenFrame (applyDpr f.src inputs s) bytes f inputs) (endEvent (applyDpr f.src inputs s)) := by
  simp only [broadcast, report, counted]

theorem broadcast_malformed (report : f.kind = 1) (malformed : countedBytes f.payload = none) :
    broadcast bytes f s = forwardOn bytes (endEvent s) := by
  simp only [broadcast, report, malformed]

theorem broadcast_mark (mark : f.kind = 4) :
    broadcast bytes f s = forwardOn bytes (endEvent (timeMark f.src f.payload s)) := by
  simp only [broadcast, mark]

theorem broadcast_other (report : f.kind ≠ 1) (mark : f.kind ≠ 4) :
    broadcast bytes f s = forwardOn bytes (endEvent s) := by
  unfold broadcast
  split
  · next kind => exact absurd kind report
  · next kind => exact absurd kind mark
  · rfl

/-- A broadcast is never addressed to the part, whose station is 2 to 62. -/
theorem foreign_of_broadcast (active : s.station = some own) (all : f.dst = 0) : f.dst ≠ own := by
  have range := station_range active
  omega

end Disposal

/-- Settles O38. -/
theorem acceptedFrameIsDisposedOf : Obligations.AcceptedFrameIsDisposedOf := by
  unfold Obligations.AcceptedFrameIsDisposedOf
  intro own bytes f s active accepted
  refine ⟨exec_own active accepted, fun other mine cmd => ?_, fun other mine lamp malformed => ?_,
    fun other mine lamp cmd => ?_, fun other all report mark => ?_, exec_forwarded active accepted⟩
  · rw [exec_consumed active accepted other mine, consume_cmd own f _ cmd]
  · rw [exec_consumed active accepted other mine, consume_malformed lamp (countedBytes_malformed malformed)]
  · rw [exec_consumed active accepted other mine, consume_other lamp cmd]
  · rw [exec_broadcast active accepted other (foreign_of_broadcast active all) all, broadcast_other report mark]

/-! ### Time marks -/

theorem heard_det (s : State) : (heard s).det = s.det := by
  obtain ⟨_, det, _⟩ := heard_frame s
  exact det

theorem heard_time (s : State) : (heard s).time = s.time := by
  obtain ⟨_, _, _, time, _⟩ := heard_frame s
  exact time

theorem windowClose_time (s : State) : (windowClose s).time = { s.time with closeDue := false } := (windowClose_side s).time

section Mark
variable {s : State} {m : Nat}

theorem countedMark_near (near : -1 ≤ markDifference s.time.corridor m ∧ markDifference s.time.corridor m ≤ 1) :
    countedMark m s = { s with time := { s.time with locked := true, syncTimer := .running 0 } } := by
  simp only [countedMark, if_pos near]

theorem countedMark_far (far : ¬ (-1 ≤ markDifference s.time.corridor m ∧ markDifference s.time.corridor m ≤ 1)) :
    countedMark m s = { adopt (markDifference s.time.corridor m) m s with
      time := { (adopt (markDifference s.time.corridor m) m s).time with locked := true, syncTimer := .running 0 } } := by
  simp only [countedMark, if_neg far]

theorem adopt_back {d : Int} (back : d ≤ 0) :
    adopt d m s = { s with time := { s.time with corridor := m, phase := 0, closeDue := false } } := if_neg (by omega)

theorem adopt_within {d : Int} (ahead : 0 < d)
    (within : ¬ ∃ k : Nat, s.time.corridor < k * windowLength s.tables
      ∧ ((k * windowLength s.tables : Nat) : Int) ≤ s.time.corridor + d) (taken : s.time.closeDue = false) :
    adopt d m s = { s with time := { s.time with corridor := m, phase := 0 } } := by
  have stays : crossesGrid (windowLength s.tables) s.time.corridor d.toNat = false :=
    Bool.eq_false_iff.mpr ((crossesGrid_iff _ _ d ahead).not.mpr within)
  simp only [adopt, if_pos ahead, taken, stays, Bool.or_self, Bool.false_eq_true, if_false]

theorem adopt_across {d : Int} (ahead : 0 < d)
    (across : (∃ k : Nat, s.time.corridor < k * windowLength s.tables
      ∧ ((k * windowLength s.tables : Nat) : Int) ≤ s.time.corridor + d) ∨ s.time.closeDue = true) :
    adopt d m s = windowClose { s with time := { s.time with corridor := m, phase := 0 } } := by
  have closes : (s.time.closeDue || crossesGrid (windowLength s.tables) s.time.corridor d.toNat) = true := by
    rw [Bool.or_eq_true, crossesGrid_iff _ _ d ahead]
    exact across.symm
  simp only [adopt, if_pos ahead, if_pos closes]

/-- A close over a state does not read whether it was due. -/
theorem windowClose_due (s : State) (due : Bool) :
    windowClose { s with time := { s.time with closeDue := due } } = windowClose s := rfl

theorem adopt_corridor (d : Int) (m : Nat) (s : State) : (adopt d m s).time.corridor = m := by
  unfold adopt
  dsimp only
  split
  · split
    · rw [windowClose_time]
    · rfl
  · rfl

theorem countedMark_time (m : Nat) (s : State) : (countedMark m s).time.locked = true
    ∧ (countedMark m s).time.syncTimer = .running 0
    ∧ (countedMark m s).time.corridor = if -1 ≤ markDifference s.time.corridor m ∧ markDifference s.time.corridor m ≤ 1
        then s.time.corridor else m := by
  refine ⟨rfl, rfl, ?_⟩
  split
  next near => rw [countedMark_near near]
  next far => rw [countedMark_far far]; exact adopt_corridor _ m s

end Mark

/-- What a counted mark does to the part, by its difference (R20, R142, R143). -/
theorem countedMark_spec (m : Nat) (s h : State) (heard : h.time = s.time ∧ h.tables = s.tables ∧ h.det = s.det) (d : Int)
    (crosses : Prop) (difference : d = markDifference s.time.corridor m)
    (spelled : crosses ↔ ∃ k : Nat, s.time.corridor < k * windowLength s.tables
      ∧ ((k * windowLength s.tables : Nat) : Int) ≤ s.time.corridor + d) :
    (-1 ≤ d → d ≤ 1 → countedMark m h = { h with time := { s.time with locked := true, syncTimer := .running 0 } })
    ∧ (d ≤ -2 → countedMark m h = { h with time := ⟨m, 0, true, .running 0, false⟩ })
    ∧ (2 ≤ d → ¬ crosses → s.time.closeDue = false →
        countedMark m h = { h with time := ⟨m, 0, true, .running 0, false⟩ })
    ∧ (2 ≤ d → crosses ∨ s.time.closeDue = true →
        (countedMark m h).det.elapsed = 0 ∧ (countedMark m h).det.lastElapsed = s.det.elapsed / 100000
        ∧ (countedMark m h).time = ⟨m, 0, true, .running 0, false⟩
        ∧ ∃ w : State, exec .windowClose { h with time := { s.time with corridor := m, phase := 0, closeDue := true } }
            = .next (endEvent w)
          ∧ countedMark m h = { w with time := ⟨m, 0, true, .running 0, false⟩ }) := by
  obtain ⟨time, tables, det⟩ := heard
  rw [← time] at difference spelled ⊢
  rw [← tables] at spelled
  refine ⟨fun least most => ?near, fun back => ?back, fun ahead within taken => ?within, fun ahead across => ?across⟩
  case near => exact countedMark_near (difference ▸ ⟨least, most⟩)
  case back =>
    rw [countedMark_far (by omega), adopt_back (by omega)]
  case within =>
    rw [countedMark_far (by omega), ← difference, adopt_within (by omega) (spelled.not.mp within) taken, ← taken]
  case across =>
    have adopted := countedMark_far (s := h) (m := m) (by omega)
    rw [← difference, adopt_across (by omega) (across.imp_left spelled.mp)] at adopted
    rw [adopted]
    refine ⟨?_, ?_, ?_, windowClose { h with time := { h.time with corridor := m, phase := 0 } }, ?_, ?_⟩
    · rw [windowClose_det]
    · rw [windowClose_det, ← det]; rfl
    · rw [windowClose_time]
    · refine congrArg Host.Outcome.next ((whenDue_due rfl windowClose _).trans ?_)
      rfl
    · rw [windowClose_time]

/-- Settles O42. -/
theorem timeMarksSetCorridorTime : Obligations.TimeMarksSetCorridorTime := by
  unfold Obligations.TimeMarksSetCorridorTime
  intro own bytes f s active accepted other all mark
  refine ⟨timeMark f.src f.payload (heard s), ?taken, fun a b c rest carried one inRange => ?counted, fun foreign => ?foreign,
    fun a b c rest carried out => ?out⟩
  case taken => rw [exec_broadcast active accepted other (foreign_of_broadcast active all) all, broadcast_mark mark]
  case counted =>
    have counts : timeMark f.src f.payload (heard s)
        = countedMark (a.toNat * 65536 + b.toNat * 256 + c.toNat) (heard s) := by
      rw [carried, one]
      exact if_pos ⟨rfl, inRange⟩
    obtain ⟨locked, timer, corridor⟩ := countedMark_time (a.toNat * 65536 + b.toNat * 256 + c.toNat) (heard s)
    rw [heard_time] at corridor
    rw [counts]
    refine ⟨locked, timer, corridor, fun m d crosses same difference spelled => ?_⟩
    rw [← same]
    exact countedMark_spec m s (heard s) ⟨heard_time s, heard_tables s, heard_det s⟩ d crosses difference spelled
  case foreign =>
    unfold timeMark
    split
    next a b c rest carried =>
      refine if_neg fun ⟨one, _⟩ => ?_
      rcases foreign with h | h
      · exact h one
      · simp only [carried, List.length_cons] at h
        omega
    next => rfl
  case out =>
    rw [carried]
    exact if_neg fun ⟨_, inRange⟩ => by simp only [Config.dayTenths] at inRange; omega

end Sys2Proof.Machine
end

section
/-! SUPPORT. Detector channels: reports (R5 to R8, R12), their verdicts (R158), and the filter, silence and stuck timers
(R7, R10, R11). -/

namespace Sys2Proof.Machine

/-! ### Filtered presence and health -/

section Channel
variable {c : DetState}

theorem setFiltered_same {v : Bool} (same : v = c.filtered) : c.setFiltered v = c := if_pos same

theorem setFiltered_rise (off : c.filtered = false) : c.setFiltered true = { c with
    filtered := true, stuck := .running 0, volume := if c.volume < 65535 then c.volume + 1 else 65535 } := by
  rw [DetState.setFiltered, if_neg (by rw [off]; decide), if_pos rfl]
  rfl

theorem setFiltered_fall (on : c.filtered = true) (sound : c.health ≠ .stuck) :
    c.setFiltered false = { c with filtered := false, stuck := .stopped } := by
  rw [DetState.setFiltered, if_neg (by rw [on]; decide), if_neg Bool.false_ne_true]
  exact if_neg sound

theorem setFiltered_recovers (on : c.filtered = true) (stuck : c.health = .stuck) :
    c.setFiltered false = { c with filtered := false, stuck := .stopped, health := .ok } := by
  rw [DetState.setFiltered, if_neg (by rw [on]; decide), if_neg Bool.false_ne_true]
  refine (if_pos stuck).trans ?_
  simp only [DetState.setHealth, decide_true, Bool.and_true]

theorem setHealth_ok (c : DetState) : c.setHealth .ok = { c with health := .ok } := by
  simp only [DetState.setHealth, decide_true, Bool.and_true]

theorem setHealth_fault {h : Health} (fault : h ≠ .ok) (c : DetState) :
    c.setHealth h = { c with health := h, okThroughout := false } := by
  simp only [DetState.setHealth, fault, decide_false, Bool.and_false]

/-! ### The loop fault (R12) -/

theorem judgeLoop_served (fault : Bool) (ok : c.health = .ok) : judgeLoop fault c
    = { c with health := if fault = true then .loopFault else .ok, okThroughout := c.okThroughout && !fault } := by
  cases fault with
  | true =>
    simp only [judgeLoop, ok, if_true, setHealth_fault (show Health.loopFault ≠ .ok by decide), Bool.not_true,
      Bool.and_false]
  | false =>
    obtain ⟨_, _, _, _, _, _, _, _, _, _, _, _, _, _⟩ := c
    simp only at ok
    subst ok
    simp [judgeLoop]

theorem judgeLoop_fault (served : c.health ≠ .unseen) (heard : c.health ≠ .silent) (new : c.health ≠ .loopFault) :
    judgeLoop true c = { c with health := .loopFault, okThroughout := false } := by
  unfold judgeLoop
  cases health : c.health with
  | unseen => exact absurd health served
  | silent => exact absurd health heard
  | loopFault => exact absurd health new
  | ok => exact setHealth_fault (by decide) c
  | stuck => exact setHealth_fault (by decide) c
  | chatter => exact setHealth_fault (by decide) c

theorem judgeLoop_faulted (known : c.health = .loopFault) : judgeLoop true c = c := by
  simp only [judgeLoop, known, if_true]

theorem judgeLoop_sound (sound : c.health ≠ .loopFault) : judgeLoop false c = c := by
  simp only [judgeLoop, Bool.false_eq_true, if_false, if_neg sound]

theorem judgeLoop_recovers (known : c.health = .loopFault) :
    judgeLoop false c = c.setHealth (if c.stuck = .expired then .stuck else .ok) := by
  simp only [judgeLoop, Bool.false_eq_true, if_false, if_pos known, recoveredHealth]

end Channel

/-! ### A report (R5) -/

section Report
variable {d : DetRec} {v fault : Bool} {c x : DetState}

/-- A report that brings a channel into service takes presence unfiltered, then judges the loop (R6). -/
theorem applyReport_enters (taken : x = { c with reported := v, loopReported := fault, silence := .running 0 })
    (new : c.health = .unseen ∨ c.health = .silent) :
    applyReport d v fault c = judgeLoop fault ({ x with health := .ok }.setFiltered v) := by
  have entered := (serveReport_cases d v x).1 (by rw [taken]; exact new)
  rw [setHealth_ok] at entered
  rw [← entered, taken]
  rfl

theorem applyReport_filters (taken : x = { c with reported := v, loopReported := fault, silence := .running 0 })
    (seen : c.health ≠ .unseen) (heard : c.health ≠ .silent) :
    applyReport d v fault c = judgeLoop fault (applyFilter d v x) := by
  rw [← (serveReport_cases d v x).2 (by rw [taken]; exact seen) (by rw [taken]; exact heard), taken]
  rfl

/-- A channel that enters service (R6, R12). -/
theorem report_unfiltered (taken : x = { c with reported := v, loopReported := fault, silence := .running 0 })
    (new : c.health = .unseen ∨ c.health = .silent) (h : Health) (ok : Bool)
    (health : h = if fault = true then .loopFault else .ok) (throughout : ok = (c.okThroughout && !fault)) :
    (v = c.filtered → applyReport d v fault c = { x with health := h, okThroughout := ok })
    ∧ (v = true → c.filtered = false → applyReport d v fault c = { x with
        health := h, okThroughout := ok, filtered := true, stuck := .running 0
        volume := if c.volume < 65535 then c.volume + 1 else 65535 })
    ∧ (v = false → c.filtered = true → applyReport d v fault c = { x with
        health := h, okThroughout := ok, filtered := false, stuck := .stopped }) := by
  have entered := applyReport_enters (d := d) taken new
  have filtered : x.filtered = c.filtered := by rw [taken]
  have volume : x.volume = c.volume := by rw [taken]
  have good : x.okThroughout = c.okThroughout := by rw [taken]
  rw [health, throughout, ← filtered, ← volume, ← good]
  refine ⟨fun same => ?_, fun rises off => ?_, fun falls on => ?_⟩
  · rw [entered, setFiltered_same (c := { x with health := .ok }) same, judgeLoop_served fault rfl]
  · rw [entered, rises, setFiltered_rise (c := { x with health := .ok }) off, judgeLoop_served fault rfl]
  · rw [entered, falls, setFiltered_fall (c := { x with health := .ok }) on (by simp), judgeLoop_served fault rfl]

/-- A channel in service meets the filter and is then judged for its loop fault (R12). -/
theorem report_filtered (taken : x = { c with reported := v, loopReported := fault, silence := .running 0 })
    (seen : c.health ≠ .unseen) (heard : c.health ≠ .silent) (y : DetState) (filtered : y = applyFilter d v x) :
    (fault = true → y.health ≠ .loopFault →
        applyReport d v fault c = { y with health := .loopFault, okThroughout := false })
    ∧ (fault = true → y.health = .loopFault → applyReport d v fault c = y)
    ∧ (fault = false → y.health ≠ .loopFault → applyReport d v fault c = y)
    ∧ (fault = false → y.health = .loopFault → y.stuck = .expired →
        applyReport d v fault c = { y with health := .stuck, okThroughout := false })
    ∧ (fault = false → y.health = .loopFault → y.stuck ≠ .expired → applyReport d v fault c = { y with health := .ok }) := by
  have result := applyReport_filters (d := d) taken seen heard
  have health : y.health = c.health ∨ y.health = .ok := by
    rw [filtered]
    have kept := applyFilter_health d v x
    rwa [show x.health = c.health by rw [taken]] at kept
  have served : y.health ≠ .unseen ∧ y.health ≠ .silent := by
    rcases health with h | h <;> rw [h]
    · exact ⟨seen, heard⟩
    · decide
  rw [← filtered] at result
  refine ⟨fun faults new => ?_, fun faults known => ?_, fun sound good => ?_, fun sound known expired => ?_,
    fun sound known running => ?_⟩
  · rw [result, faults, judgeLoop_fault served.1 served.2 new]
  · rw [result, faults, judgeLoop_faulted known]
  · rw [result, sound, judgeLoop_sound good]
  · rw [result, sound, judgeLoop_recovers known, if_pos expired, setHealth_fault (by decide)]
  · rw [result, sound, judgeLoop_recovers known, if_neg running, setHealth_ok]

theorem applyFilter_at_once (none : c.pending = none) (unfiltered : d.filter = 0) :
    applyFilter d v c = c.setFiltered v := by
  simp only [applyFilter, none, unfiltered, if_true]
  split
  next same => exact (setFiltered_same same).symm
  next => rfl

end Report

/-! ### Verdicts (R158) -/

section Verdict
variable {u : State} {src i : Nat}

theorem channelOfInput_none
    (free : ∀ (ch : Channel) (d : DetRec), u.tables.detMap[ch] = some d → d.station ≠ src ∨ d.input ≠ i) :
    channelOfInput u.tables src i = none := by
  rw [channelOfInput, List.find?_eq_none]
  intro ch _
  cases mapped : u.tables.detMap[ch] with
  | none => simp
  | some d =>
    have apart := free ch d mapped
    simp only [Bool.and_eq_true, beq_iff_eq]
    tauto

theorem channelOfInput_only {ch : Channel} {d : DetRec} (mapped : u.tables.detMap[ch] = some d) (station : d.station = src)
    (input : d.input = i)
    (only : ∀ (c : Channel) (e : DetRec), c ≠ ch → u.tables.detMap[c] = some e → e.station ≠ src ∨ e.input ≠ i) :
    channelOfInput u.tables src i = some ch := by
  unfold channelOfInput
  cases found : (List.finRange 64).find? _ with
  | none =>
    have missed := List.find?_eq_none.mp found ch (List.mem_finRange ch)
    simp [mapped, station, input] at missed
  | some c =>
    have hit := List.find?_some found
    by_contra other
    have different : c ≠ ch := fun same => other (congrArg some same)
    cases there : u.tables.detMap[c] with
    | none => simp [there] at hit
    | some e =>
      have apart := only c e different there
      simp only [there, Bool.and_eq_true, beq_iff_eq] at hit
      tauto

theorem rewriteInputs_get {inputs : List Byte} {b : Byte} (carried : inputs[i]? = some b) :
    (rewriteInputs u src inputs)[i]? = some ((verdictFor u src i).elim b (setVerdict b)) := by
  rw [rewriteInputs, List.getElem?_map, List.getElem?_zipIdx, carried]
  simp only [Option.map_some, Nat.zero_add]
  cases verdictFor u src i <;> rfl

theorem verdictCode_elim (d : DetRec) (c : DetState) (b : Byte) :
    (∀ k : Nat, k < 4 ∨ k = 7 → ((verdictCode d c).elim b (setVerdict b)).getLsbD k = b.getLsbD k)
    ∧ ((verdictCode d c).elim b (setVerdict b)).toNat / 16 % 8 = (if d.always = true then 5 else match c.health with
        | .ok => 1
        | .stuck => 2
        | .chatter => 3
        | .loopFault => 4
        | .unseen => b.toNat / 16 % 8
        | .silent => b.toNat / 16 % 8) := by
  unfold verdictCode
  by_cases forced : d.always = true
  · rw [if_pos forced, if_pos forced]
    exact setVerdict_spec b 5
  · rw [if_neg forced, if_neg forced]
    cases c.health with
    | ok => exact setVerdict_spec b 1
    | stuck => exact setVerdict_spec b 2
    | chatter => exact setVerdict_spec b 3
    | loopFault => exact setVerdict_spec b 4
    | unseen => exact ⟨fun _ _ => rfl, rfl⟩
    | silent => exact ⟨fun _ _ => rfl, rfl⟩

end Verdict

theorem effectiveOf_eq (s : State) (ch : Channel) : effectiveOf s ch = (match s.tables.detMap[ch] with
    | none => false
    | some d => if d.always = false ∧ (s.det.chans[ch]).health = .ok then (s.det.chans[ch]).filtered else d.subst) := by
  unfold effectiveOf effective
  cases s.tables.detMap[ch] with
  | none => rfl
  | some d => cases always : d.always <;> simp [always]

/-! ### A broadcast report -/

theorem applyDpr_eq (st : Nat) (inputs : List Byte) (s : State) : applyDpr st inputs s
    = announce s { s with det := { s.det with chans := (applyDpr st inputs s).det.chans } } := by
  have det : (applyDpr st inputs s).det = _ := (announce_side s _).det
  rw [det]
  rfl

/-- Settles O40. -/
theorem broadcastReportIsAppliedAndRewritten : Obligations.BroadcastReportIsAppliedAndRewritten := by
  unfold Obligations.BroadcastReportIsAppliedAndRewritten
  refine ⟨fun own bytes f inputs s active accepted other all foreign report counted => ?applied,
    fun own bytes f s active accepted other all foreign report malformed => ?malformed,
    fun n rest => countedBytes_formed,
    fun d v fault c x taken => ⟨fun new h ok => report_unfiltered taken new h ok, fun seen heard y => report_filtered taken
      seen heard y, fun none unfiltered => ?filter⟩,
    fun u src inputs i b carried => ⟨fun free => ?unmapped, fun ch d mapped station input only => ?mapped⟩, effectiveOf_eq⟩
  case applied =>
    obtain ⟨elapsed, last, chans⟩ := applyDpr_get f.src inputs (heard s)
    obtain ⟨tables, time⟩ := applyDpr_frame f.src inputs (heard s)
    have announced := applyDpr_eq f.src inputs (heard s)
    rw [heard_tables] at tables chans
    rw [heard_time] at time
    rw [heard_det] at elapsed last chans announced
    refine ⟨applyDpr f.src inputs (heard s), ?_, announced, tables, time, elapsed, last, chans⟩
    rw [exec_broadcast active accepted other foreign all, broadcast_report report counted]
    rfl
  case malformed =>
    rw [exec_broadcast active accepted other foreign all, broadcast_malformed report (countedBytes_malformed malformed)]
  case filter =>
    rw [applyFilter_at_once none unfiltered]
    exact ⟨fun rises off => rises ▸ setFiltered_rise off, fun falls on sound => falls ▸ setFiltered_fall on sound,
      fun falls on stuck => falls ▸ setFiltered_recovers on stuck⟩
  case unmapped => rw [rewriteInputs_get carried, verdictFor, channelOfInput_none free]; rfl
  case mapped =>
    refine ⟨_, rewriteInputs_get carried, ?_⟩
    rw [verdictFor, channelOfInput_only mapped station input only, Option.bind_some, mapped]
    exact verdictCode_elim d u.det.chans[ch] b

/-! ### A channel's timers -/

/-- A change of one channel, announced, leaves every other block's record but those that hear it. -/
theorem changeChannel_frame (ch : Channel) (f : DetState → DetState) (s : State) :
    (changeChannel ch f s).tables = s.tables ∧ (changeChannel ch f s).time = s.time
    ∧ (changeChannel ch f s).lines = s.lines ∧ (changeChannel ch f s).ring = s.ring :=
  have side := announce_side s (s.setChan ch (f s.det.chans[ch]))
  ⟨side.tables, side.time, side.lines, side.ring⟩

theorem filterExpired_pending {c : DetState} {p : PendingChange} (pending : c.pending = some p) :
    filterExpired c = { c with pending := none }.setFiltered p.target := by
  simp only [filterExpired, pending]

theorem stuckExpired_served {c : DetState} (ok : c.health = .ok) :
    stuckExpired c = { c with stuck := .expired, health := .stuck, okThroughout := false } :=
  (if_pos ok).trans (setHealth_fault (by decide) _)

theorem stuckExpired_other {c : DetState} (fault : c.health ≠ .ok) : stuckExpired c = { c with stuck := .expired } :=
  if_neg fault

/-- Settles O47. -/
theorem detectorTimersMoveTheChannel : Obligations.DetectorTimersMoveTheChannel := by
  unfold Obligations.DetectorTimersMoveTheChannel
  refine ⟨fun ch p s due pending moves => ?filter, fun ch s => ⟨fun due => ?silence, fun due => ?stuck⟩,
    fun ch s => ⟨fun n runs => left_run runs, fun stands => left_none stands, fun d n mapped runs => ?limit,
      fun stands => ?still⟩⟩
  case filter =>
    obtain ⟨tables, time, lines, ring⟩ := changeChannel_frame ch filterExpired s
    obtain ⟨elapsed, last, changed, others⟩ := changeChannel_get ch filterExpired s
    rw [filterExpired_pending pending] at changed
    have present (v : Bool) (target : p.target = v) : (s.det.chans[ch]).filtered = !v :=
      target ▸ Bool.eq_not.mpr (Ne.symm moves)
    refine ⟨changeChannel ch filterExpired s, congrArg Host.Outcome.next (whenDue_due due _ s), tables, time, lines, ring,
      elapsed, last, others, fun rises => ?_, fun falls sound => ?_, fun falls stuck => ?_⟩
    · rw [changed, rises, setFiltered_rise (c := { s.det.chans[ch] with pending := none }) (present true rises)]
    · rw [changed, falls, setFiltered_fall (c := { s.det.chans[ch] with pending := none }) (present false falls) sound]
    · rw [changed, falls, setFiltered_recovers (c := { s.det.chans[ch] with pending := none }) (present false falls) stuck]
      exact ⟨rfl, rfl, rfl⟩
  case silence =>
    obtain ⟨tables, time, lines, ring⟩ := changeChannel_frame ch silenceExpired s
    obtain ⟨_, _, changed, others⟩ := changeChannel_get ch silenceExpired s
    exact ⟨changeChannel ch silenceExpired s, congrArg Host.Outcome.next (whenDue_due due _ s), tables, time, ring, lines,
      others, changed⟩
  case stuck =>
    obtain ⟨tables, time, lines, ring⟩ := changeChannel_frame ch stuckExpired s
    obtain ⟨_, _, changed, others⟩ := changeChannel_get ch stuckExpired s
    exact ⟨changeChannel ch stuckExpired s, congrArg Host.Outcome.next (whenDue_due due _ s), tables, time, ring, lines,
      others, fun ok => changed.trans (stuckExpired_served ok), fun fault => changed.trans (stuckExpired_other fault)⟩
  case limit =>
    rw [stuckLeft, mapped]
    exact left_run runs
  case still =>
    rw [stuckLeft]
    cases s.tables.detMap[ch] with
    | none => rfl
    | some d => exact left_none stands

end Sys2Proof.Machine
end

section
/-! SUPPORT. Sources: ARM, ASSERT and RELEASE (R104, R116, R122, R123), the timers of the Authority Units (R110, R122) and
the debounced lines (R114, R115). -/

namespace Sys2Proof.Machine

/-! ### Records set as they are -/

theorem setAuth_self (s : State) (r : Ramp) : s.setAuth r s.auth[r] = s := by
  rw [State.setAuth, vset_self]

theorem setSource_self (a : AuthUnit) (k : Source) : a.setSource k a.sources[k] = a := by
  rw [AuthUnit.setSource, vset_self]

/-! ### ARM -/

theorem armable_byte {k : Source} (lower : 2 ≤ k.val) : armable (byte k.val) = some k := by
  rw [armable, asFin_byte k (by decide)]
  exact if_pos lower

theorem armable_none {a : Byte} (outside : a.toNat < 2 ∨ 5 < a.toNat) : armable a = none := by
  rw [armable, asFin]
  by_cases inside : a.toNat < 6
  · rw [dif_pos inside]
    exact if_neg (by dsimp only; omega)
  · rw [dif_neg inside]

theorem asBool_none {b : Byte} (above : 1 < b.toNat) : asBool b = none := by
  rw [asBool, if_neg, if_neg]
  · rintro rfl; exact absurd above (by decide)
  · rintro rfl; exact absurd above (by decide)

theorem armRequest_bad (r : Ramp) {a b : Byte} (s : State) (bad : a.toNat < 2 ∨ 5 < a.toNat ∨ 1 < b.toNat) :
    armRequest (byte r.val) a b s = refuse .badValue s := by
  rw [armRequest, onRamp_byte]
  by_cases outside : a.toNat < 2 ∨ 5 < a.toNat
  · rw [armable_none outside]
  · rw [asBool_none (by omega)]
    cases armable a <;> rfl

/-- Settles O28. -/
theorem armSetsTheSource : Obligations.ArmSetsTheSource := by
  unfold Obligations.ArmSetsTheSource
  intro own src r s serves
  refine ⟨fun k v lower => ?_, fun k v same => if_pos same, fun k v change => if_neg change, fun a b bad => ?_⟩
  · rw [exec_arm serves, armRequest, onRamp_byte, armable_byte lower, asBool_byte]
  · rw [exec_arm serves, armRequest_bad r _ bad]

/-! ### ASSERT and RELEASE -/

theorem centralOf_byte (c : Central) : centralOf (byte (centralSource c).val) = some c := by
  cases c <;> rfl

theorem assertRequest_bad (r : Ramp) {a : Byte} {n : Nat} (s : State) (bad : (a ≠ 3 ∧ a ≠ 5) ∨ n < 100 ∨ 6000 < n) :
    assertRequest (byte r.val) a n s = refuse .badValue s := by
  rw [assertRequest, onRamp_byte]
  rcases bad with foreign | outside
  · rw [centralOf_none foreign]
  · have none : within 100 6000 n = none := if_neg (by omega)
    rw [none]
    cases centralOf a <;> rfl

theorem assertRequest_central (r : Ramp) (c : Central) {n : Nat} (s : State) (least : 100 ≤ n) (most : n ≤ 6000) :
    assertRequest (byte r.val) (byte (centralSource c).val) n s = answer [] (assertCentral r (centralSource c) n s) := by
  have inside : within 100 6000 n = some n := if_pos ⟨least, most⟩
  rw [assertRequest, onRamp_byte, centralOf_byte, inside]

/-- Settles O29. -/
theorem assertRunsTheLease : Obligations.AssertRunsTheLease := by
  unfold Obligations.AssertRunsTheLease
  intro own src r s serves
  refine ⟨fun c lease least most => ?runs, fun a lease bad => ?bad⟩
  case runs =>
    have change := setAsserted_setLease r (centralSource c) (some (tenths lease.toNat)) true (heard s) (Or.inl rfl)
    refine ⟨assertCentral r (centralSource c) lease.toNat (heard s), ?_,
      (assertCentral_side r _ _ (heard s) (centralSource_ne c)).undisturbed, fun asserted => ?_, fun deasserted => ?_⟩
    · rw [exec_assertSource serves, assertRequest_central r c _ least most]
    · exact change.trans (if_pos asserted)
    · rw [assertCentral, change, if_neg (by rw [deasserted]; decide)]
      simp only [Bool.and_true]
  case bad => rw [exec_assertSource serves, assertRequest_bad r _ bad]

/-- Settles O30. -/
theorem releaseEndsTheLease : Obligations.ReleaseEndsTheLease := by
  unfold Obligations.ReleaseEndsTheLease
  intro own src r s serves
  refine ⟨fun c k a source unit => ?ends, fun a foreign => ?bad⟩
  case ends =>
    obtain ⟨frame, others, lease, asserted, spent, changed, expired, unasserted⟩ :=
      endLease_spec r c k (heard s) _ source rfl
    rw [← unit] at spent changed expired unasserted
    refine ⟨endLease r k (heard s), ?_, frame, others, lease, asserted, spent, changed, expired, unasserted,
      fun deasserted absent => ?_⟩
    · rw [exec_releaseSource serves, releaseRequest, onRamp_byte, source, centralOf_byte]
    · rw [unasserted deasserted, ← absent]
      exact (congrArg _ (setSource_self a k)).trans (unit ▸ setAuth_self (heard s) r)
  case bad => rw [exec_releaseSource serves, releaseRequest, onRamp_byte, centralOf_none foreign]

/-! ### Holds and leases -/

theorem holdExpired_eq {r : Ramp} {k : Source} {s : State} (holds : (s.auth[r]).holder = some k) : holdExpired r s
    = decisionPoint r (s.setAuth r ((s.auth[r]).setSource k
      { (s.auth[r]).sources[k] with spent := true, standing := false, hold := none })) := by
  rw [holdExpired, holds]
  rfl

theorem holdLeft_held {r : Ramp} {k : Source} {s : State} (holds : (s.auth[r]).holder = some k) :
    (∀ n : Nat, ((s.auth[r]).sources[k]).hold = some (.running n) → holdLeft r s = some n)
    ∧ ((∀ n : Nat, ((s.auth[r]).sources[k]).hold ≠ some (.running n)) → holdLeft r s = none) := by
  rw [holdLeft, holds, Option.bind_some]
  refine ⟨fun n running => by rw [running], fun stands => ?_⟩
  split
  next n running => exact absurd running (stands n)
  all_goals rfl

theorem holdLeft_free {r : Ramp} {s : State} (free : (s.auth[r]).holder = none) : holdLeft r s = none := by
  rw [holdLeft, free]
  rfl

/-- Settles O55. -/
theorem authorityTimersExpire : Obligations.AuthorityTimersExpire := by
  unfold Obligations.AuthorityTimersExpire
  refine ⟨fun r k s due holds => ?hold, fun r c k s source due => ?lease, fun r s => ⟨fun k n holds => (holdLeft_held holds).1 n,
    fun k holds => (holdLeft_held holds).2, holdLeft_free, rfl, rfl⟩⟩
  case hold =>
    have one := holdExpired_one r s
    obtain ⟨spent, standing, holder⟩ := holdExpired_source holds
    exact ⟨holdExpired r s, congrArg Host.Outcome.next (whenDue_due due (holdExpired r) s), one.side.undisturbed,
      fun q other => (one.others q other).2.1, holdExpired_eq holds, spent, standing, holder⟩
  case lease =>
    obtain ⟨frame, others, lease, asserted, spent, changed, expired, _⟩ := endLease_spec r c k s _ source rfl
    refine ⟨endLease r k s, ?_, frame, others, lease, asserted, spent, changed, expired⟩
    rw [source]
    exact congrArg Host.Outcome.next (whenDue_due due (endLease r (centralSource c)) s)

/-! ### Lines -/

theorem lineInput_eq (v : Bool) (x : LineState) : lineInput v x = if v = x.input then x
    else if v = x.active then { x with input := v, timer := .stopped } else { x with input := v, timer := .running 0 } := by
  unfold lineInput
  split
  · rfl
  · split <;> rfl

/-- Settles O57. -/
theorem linesAreDebounced : Obligations.LinesAreDebounced := by
  unfold Obligations.LinesAreDebounced
  refine fun l s => ⟨fun v => ?input, fun n runs => left_run runs, fun due => ?debounced⟩
  case input => exact congrArg (fun x => Host.Outcome.next (s.setLine l x)) (lineInput_eq v s.lines[l])
  case debounced =>
    have side := RampSide.forRamps judgeLines judgeLines_side
      (s.setLine l ⟨(s.lines[l]).input, (s.lines[l]).input, .stopped⟩)
    have lines : (debounced l s).lines = vset s.lines l ⟨(s.lines[l]).input, (s.lines[l]).input, .stopped⟩ := side.lines
    have level : (debounced l s).lines[l] = ⟨(s.lines[l]).input, (s.lines[l]).input, .stopped⟩ := by
      rw [lines, vset_same]
    refine ⟨debounced l s, congrArg Host.Outcome.next (whenDue_due due (debounced l) s), rfl, side.tables, side.det,
      side.time, side.ring, by rw [level], by rw [level], fun k other => ?_, fun q => ?_⟩
    · rw [lines, vset_other _ _ _ _ (Ne.symm other)]
    · obtain ⟨preempt, panel⟩ := forRamps_judgeLines
        (s.setLine l ⟨(s.lines[l]).input, (s.lines[l]).input, .stopped⟩) q
      obtain ⟨byPreempt, byPanel⟩ := lineAsserts_iff
        (s.setLine l ⟨(s.lines[l]).input, (s.lines[l]).input, .stopped⟩) q
      rw [← preempt] at byPreempt
      rw [← panel] at byPanel
      rw [lines]
      exact ⟨byPreempt, byPanel⟩

end Sys2Proof.Machine
end

section
/-! SUPPORT. The mode requests (R58, R60, R72): RAMP MODE AUTO and RAMP MODE OFF by the state of the ramp. -/

namespace Sys2Proof.Machine

/-! ### A demand acted on -/

theorem standbyActs_stop (r : Ramp) (s : State) : stopDemand (standbyActs r s) r = stopDemand s r := by
  unfold standbyActs
  split
  · obtain ⟨_, _, stop⟩ := enter_demand r .warn none (.running 0) s (by decide)
    exact stop
  · rfl

theorem enterStandby_mode (r : Ramp) (s : State) : ((enterStandby r s).ramps[r]).mode = (s.ramps[r]).mode := by
  rw [enterStandby, standbyActs_mode, judge_mode, (orderDark_side r _).mode r, enter_mode]

theorem enterOffOrStandby_mode (r : Ramp) (s : State) : ((enterOffOrStandby r s).ramps[r]).mode = (s.ramps[r]).mode := by
  unfold enterOffOrStandby
  split
  · exact enterOff_mode r s
  · exact enterStandby_mode r s

theorem actOnDemand_mode (r : Ramp) (s : State) : ((actOnDemand r s).ramps[r]).mode = (s.ramps[r]).mode := by
  unfold actOnDemand
  cases (s.ramps[r]).state with
  | standby => exact standbyActs_mode r s
  | warn =>
    dsimp only
    split
    · exact enterOffOrStandby_mode r s
    · rfl
  | startGreen =>
    dsimp only
    split
    · exact enter_mode r _ _ _ s
    · rfl
  | off => rfl
  | startClear => rfl
  | metering => rfl
  | shutClear => rfl
  | shutFlush => rfl
  | darkFail => rfl

theorem leaveOff_stands (r : Ramp) (s : State) : ((leaveOff r s).ramps[r]).stopStands = stopDemand (leaveOff r s) r := by
  rw [leaveOff, standbyActs_stands, standbyActs_stop, judge_stopStands]

/-! ### RAMP MODE AUTO -/

/-- The Ramp Config, its lanes' records and the Output Map records of its heads and beacon are set (R58). -/
theorem configComplete_iff (t : Tables) (r : Ramp) : configComplete t r = true ↔ ∃ c : RampRec, t.rampCfg[r] = some c
    ∧ (∀ l ∈ c.lanes, ∃ k : LaneRec, t.laneCfg[l] = some k ∧ t.outMap[k.head] ≠ none)
    ∧ ∀ ch : OutCh, c.beacon = some ch → t.outMap[ch] ≠ none := by
  unfold configComplete
  cases t.rampCfg[r] with
  | none => simp
  | some c =>
    simp only [Bool.and_eq_true, List.all_eq_true, Option.some.injEq, exists_eq_left']
    refine and_congr (forall₂_congr fun l _ => ?_) ?_
    · cases t.laneCfg[l] with
      | none => simp
      | some k => simp [Option.isSome_iff_ne_none]
    · cases c.beacon with
      | none => simp
      | some ch => simp [Option.isSome_iff_ne_none]

theorem rampModeAuto_reply (r : Ramp) (s : State) : rampMode (byte r.val) 1 s = modeAutoRequest r s := by
  rw [rampMode, onRamp_byte]
  rfl

theorem rampModeOff_reply (r : Ramp) (s : State) : rampMode (byte r.val) 0 s = answer [] (modeOff r s) := by
  rw [rampMode, onRamp_byte]
  rfl

/-- AUTO on a ramp that is not OFF: the mode set and judged, and the demand acted on. -/
theorem modeAuto_spec (r : Ramp) (s u : State) (auto : u = modeAuto r s) :
    Undisturbed s u ∧ (u.ramps[r]).mode = .auto ∧ (u.ramps[r]).stopStands = stopDemand u r
    ∧ ((s.ramps[r]).state = .standby →
        (startDemand u r = true → Entered r .warn (.running 0) u)
        ∧ (startDemand u r = false → (u.ramps[r]).state = .standby))
    ∧ ((s.ramps[r]).state = .warn →
        (stopDemand u r = true → Entered r .standby .stopped u)
        ∧ (stopDemand u r = false → (u.ramps[r]).state = .warn))
    ∧ ((s.ramps[r]).state = .startGreen →
        (stopDemand u r = true → Entered r .shutFlush (.running 0) u)
        ∧ (stopDemand u r = false → (u.ramps[r]).state = .startGreen))
    ∧ ((s.ramps[r]).state ≠ .standby → (s.ramps[r]).state ≠ .warn → (s.ramps[r]).state ≠ .startGreen →
        (u.ramps[r]).state = (s.ramps[r]).state ∧ u.lanes = s.lanes) := by
  have frame : Undisturbed s u := auto ▸ (modeAuto_side r s).undisturbed
  unfold modeAuto at auto
  have set : ((s.modRamp r fun c => { c with mode := .auto }).ramps[r]) = { s.ramps[r] with mode := .auto } :=
    modRamp_get r _ s
  have stands := judge_stopStands r (s.modRamp r fun c => { c with mode := .auto })
  have state : ((judge r (s.modRamp r fun c => { c with mode := .auto })).ramps[r]).state = (s.ramps[r]).state := by
    rw [judge_state, set]
  have mode : ((judge r (s.modRamp r fun c => { c with mode := .auto })).ramps[r]).mode = .auto := by
    rw [judge_mode, set]
  obtain ⟨lanes, _⟩ := judge_rest r (s.modRamp r fun c => { c with mode := .auto })
  generalize judge r (s.modRamp r fun c => { c with mode := .auto }) = v at auto stands state mode lanes
  obtain ⟨standby, warn, green, rest⟩ := actOnDemand_spec r v u auto
  rw [state] at standby warn green rest
  refine ⟨frame, by rw [auto, actOnDemand_mode, mode], by rw [auto, actOnDemand_stands r v stands], fun h => ?_, fun h => ?_,
    fun h => ?_, fun h1 h2 h3 => ?_⟩
  · obtain ⟨starts, stays⟩ := standby h
    exact ⟨starts, fun none => by rw [stays none, state, h]⟩
  · obtain ⟨stops, stays⟩ := warn h mode
    exact ⟨stops, fun none => by rw [stays none, state, h]⟩
  · obtain ⟨stops, stays⟩ := green h
    exact ⟨stops, fun none => by rw [stays none, state, h]⟩
  · rw [rest h1 h2 h3]
    exact ⟨state, lanes⟩

/-- Settles O26. -/
theorem rampModeAutoStartsTheRamp : Obligations.RampModeAutoStartsTheRamp := by
  unfold Obligations.RampModeAutoStartsTheRamp
  refine ⟨fun own src r s serves => ⟨fun off lacks => ?lacks, fun off complete => ?starts, fun used => ?used⟩,
    configComplete_iff, fun a => ⟨rfl, AuthUnit.refreshAll_get a⟩⟩
  case lacks =>
    rw [exec_rampModeAuto serves, rampModeAuto_reply, modeAutoRequest, if_pos off, heard_tables, lacks]
    rfl
  case starts =>
    obtain ⟨mode, attention, auth, lanes, warn, standby⟩ := leaveOff_spec r (heard s) _ rfl
    rw [heard_tables, heard_time] at auth
    refine ⟨leaveOff r (heard s), ?_, (leaveOff_side r (heard s)).undisturbed, mode, attention, auth, lanes,
      leaveOff_stands r (heard s), warn, standby⟩
    rw [exec_rampModeAuto serves, rampModeAuto_reply, modeAutoRequest, if_pos off, heard_tables, complete, if_pos rfl]
  case used =>
    refine ⟨modeAuto r (heard s), ?_, rfl, modeAuto_spec r (heard s) _ rfl⟩
    rw [exec_rampModeAuto serves, rampModeAuto_reply, modeAutoRequest, if_neg used]

/-! ### RAMP MODE OFF -/

section ModeOff
variable {r : Ramp} {s : State}

theorem modeOff_off (off : (s.ramps[r]).state = .off) : modeOff r s = s.modRamp r fun c => { c with mode := .off } := by
  simp only [modeOff, off]

theorem modeOff_leaves (leaves : (s.ramps[r]).state = .standby ∨ (s.ramps[r]).state = .warn ∨ (s.ramps[r]).state = .darkFail) :
    modeOff r s = enterOff r (judge r (s.modRamp r fun c => { c with mode := .off })) := by
  rcases leaves with h | h | h <;> simp only [modeOff, h]

theorem modeOff_startGreen (green : (s.ramps[r]).state = .startGreen) :
    modeOff r s = enter r .shutFlush none (.running 0) (judge r (s.modRamp r fun c => { c with mode := .off })) := by
  simp only [modeOff, green, enterShutFlush]

theorem modeOff_goesOn (goesOn : (s.ramps[r]).state = .startClear ∨ (s.ramps[r]).state = .metering
      ∨ (s.ramps[r]).state = .shutClear ∨ (s.ramps[r]).state = .shutFlush) :
    modeOff r s = judge r (s.modRamp r fun c => { c with mode := .off }) := by
  rcases goesOn with h | h | h | h <;> simp only [modeOff, h]

end ModeOff

/-- What OFF and the states that leave for it give (R73), with the record that the judgement left. -/
structure LeftForOff (r : Ramp) (x : RampCtx) (h u : State) : Prop where
  ramp : u.ramps[r] = { x with
    mode := .off, state := .off, clearPhase := none, phaseTimer := .stopped, autoPlan := 0, candidate := none
    planUnset := false, actionUnset := false, stopStands := true, attention := true }
  auth : u.auth[r] = { h.auth[r] with holder := none, granted := none, stack := [], sources := (u.auth[r]).sources }
  sources : ∀ k : Source, (u.auth[r]).sources[k] = { (h.auth[r]).sources[k] with standing := false, hold := none }
  vector : ∀ c : Fin 16, (u.vectors[r])[c] = false
  beacon : ∀ ch : OutCh, beaconOf h.tables r = some ch → (u.out.chans[ch]).commanded = .dark
  lanes : h.tables.Apart → HeadsShow r u ∧ ∀ l ∈ lanesOf h.tables r, h.tables.laneCfg[l] ≠ none →
    u.lanes[l] = { h.lanes[l] with
      state := .dark, regime := .meter, call := false, interval := none, greenPassageCount := none }
  rate : u.rate = h.rate

theorem modeOff_leftForOff {r : Ramp} {h : State}
    (leaves : (h.ramps[r]).state = .standby ∨ (h.ramps[r]).state = .warn ∨ (h.ramps[r]).state = .darkFail) :
    LeftForOff r h.ramps[r] h (modeOff r h) := by
  obtain ⟨ramp, lanes, out, auth, vectors, rate, tables⟩ := modeOff_judged r h _ rfl _ rfl _ (judgedUnset_iff h r)
  rw [modeOff_leaves leaves]
  generalize judge r (h.modRamp r fun c => { c with mode := .off }) = t at *
  have state : (t.ramps[r]).state ≠ .metering := by
    rw [show (t.ramps[r]).state = (h.ramps[r]).state by rw [ramp]]
    rcases leaves with e | e | e <;> rw [e] <;> decide
  obtain ⟨record, rates, shown⟩ := enterOff_all r t state
  obtain ⟨entered, _, unit, vector, _⟩ := enterOff_spec r t
  obtain ⟨kept, sources⟩ := AuthUnit.enterOff_eq (t.auth[r])
  refine ⟨?ramp, ?auth, ?sources, vector, ?beacon, ?lanes, rates.trans rate⟩
  case ramp => rw [record, ramp]
  case auth => rw [unit, kept, auth]
  case sources => rw [unit, ← auth]; exact sources
  case beacon =>
    have dark := entered.beacon
    rw [(enterOff_side r t).tables, tables] at dark
    exact dark
  case lanes => rw [← tables, ← lanes]; exact shown

theorem modeOff_state (r : Ramp) (s : State) : ((modeOff r s).ramps[r]).state = (match (s.ramps[r]).state with
    | .off => .off
    | .standby => .off
    | .warn => .off
    | .darkFail => .off
    | .startGreen => .shutFlush
    | .startClear => .startClear
    | .metering => .metering
    | .shutClear => .shutClear
    | .shutFlush => .shutFlush) := by
  have kept : ((judge r (s.modRamp r fun c => { c with mode := .off })).ramps[r]).state = (s.ramps[r]).state := by
    rw [judge_state, modRamp_get]
  cases state : (s.ramps[r]).state with
  | off => rw [modeOff_off state, modRamp_get]; exact state
  | standby => rw [modeOff_leaves (Or.inl state), enterOff_state]
  | warn => rw [modeOff_leaves (Or.inr (Or.inl state)), enterOff_state]
  | darkFail => rw [modeOff_leaves (Or.inr (Or.inr state)), enterOff_state]
  | startGreen => rw [modeOff_startGreen state, enter_state]
  | startClear => rw [modeOff_goesOn (Or.inl state), kept, state]
  | metering => rw [modeOff_goesOn (Or.inr (Or.inl state)), kept, state]
  | shutClear => rw [modeOff_goesOn (Or.inr (Or.inr (Or.inl state))), kept, state]
  | shutFlush => rw [modeOff_goesOn (Or.inr (Or.inr (Or.inr state))), kept, state]

theorem modeOff_mode (r : Ramp) (s : State) : ((modeOff r s).ramps[r]).mode = .off := by
  have set : ((judge r (s.modRamp r fun c => { c with mode := .off })).ramps[r]).mode = .off := by
    rw [judge_mode, modRamp_get]
  cases state : (s.ramps[r]).state with
  | off => rw [modeOff_off state, modRamp_get]
  | standby => rw [modeOff_leaves (Or.inl state), enterOff_mode, set]
  | warn => rw [modeOff_leaves (Or.inr (Or.inl state)), enterOff_mode, set]
  | darkFail => rw [modeOff_leaves (Or.inr (Or.inr state)), enterOff_mode, set]
  | startGreen => rw [modeOff_startGreen state, enter_mode, set]
  | startClear => rw [modeOff_goesOn (Or.inl state), set]
  | metering => rw [modeOff_goesOn (Or.inr (Or.inl state)), set]
  | shutClear => rw [modeOff_goesOn (Or.inr (Or.inr (Or.inl state))), set]
  | shutFlush => rw [modeOff_goesOn (Or.inr (Or.inr (Or.inr state))), set]

/-- START_GREEN goes to SHUT_FLUSH with its lanes and its unit as they were (R72). -/
theorem modeOff_flushes {r : Ramp} {h : State} (green : (h.ramps[r]).state = .startGreen) {j : Bool}
    (judged : j = true ↔ ∃ n, (h.auth[r]).granted = some (.plan n) ∧ planRec h.tables n = none) :
    (modeOff r h).ramps[r] = { h.ramps[r] with
      mode := .off, state := .shutFlush, clearPhase := none, phaseTimer := .running 0, actionUnset := j
      stopStands := true, attention := true }
    ∧ (modeOff r h).lanes = h.lanes ∧ (modeOff r h).auth[r] = h.auth[r] ∧ (modeOff r h).vectors[r] = h.vectors[r]
    ∧ (∀ ch : OutCh, beaconOf h.tables r = some ch → ((modeOff r h).out.chans[ch]).commanded = .flash)
    ∧ (modeOff r h).rate = h.rate := by
  obtain ⟨ramp, lanes, out, auth, vectors, rate, tables⟩ := modeOff_judged r h _ rfl _ rfl j judged
  rw [modeOff_startGreen green]
  generalize judge r (h.modRamp r fun c => { c with mode := .off }) = t at *
  have state : (t.ramps[r]).state ≠ .metering := by
    rw [show (t.ramps[r]).state = (h.ramps[r]).state by rw [ramp], green]
    decide
  have units := enter_units r .shutFlush none (.running 0) t state
  refine ⟨?_, (enter_lanes ..).trans lanes, by rw [units.auth, auth], by rw [units.vectors, vectors], fun ch beacon => ?_,
    units.rate.trans rate⟩
  · rw [enter_ramp _ _ _ _ _ state, ramp]
  · exact enter_beacon .shutFlush none (.running 0) t (by rw [tables]; exact beacon)

theorem modeOff_rate (r : Ramp) (s : State) : (modeOff r s).rate[r] = s.rate[r] := by
  obtain ⟨_, _, _, _, _, kept, _⟩ := modeOff_judged r s _ rfl _ rfl _ (judgedUnset_iff s r)
  cases state : (s.ramps[r]).state with
  | off => rw [modeOff_off state]; rfl
  | standby => rw [(modeOff_leftForOff (Or.inl state)).rate]
  | warn => rw [(modeOff_leftForOff (Or.inr (Or.inl state))).rate]
  | darkFail => rw [(modeOff_leftForOff (Or.inr (Or.inr state))).rate]
  | startGreen =>
    obtain ⟨_, _, _, _, _, rate⟩ := modeOff_flushes state (judgedUnset_iff s r)
    rw [rate]
  | startClear => rw [modeOff_goesOn (Or.inl state), kept]
  | metering => rw [modeOff_goesOn (Or.inr (Or.inl state)), kept]
  | shutClear => rw [modeOff_goesOn (Or.inr (Or.inr (Or.inl state))), kept]
  | shutFlush => rw [modeOff_goesOn (Or.inr (Or.inr (Or.inr state))), kept]

/-- Settles O27. -/
theorem rampModeOffByState : Obligations.RampModeOffByState := by
  unfold Obligations.RampModeOffByState
  refine ⟨fun own src r s h x serves hears record => ?_, AuthUnit.enterOff_eq⟩
  have tables : h.tables = s.tables := hears ▸ heard_tables s
  rw [← tables, record]
  refine ⟨modeOff r h, ?reply, (modeOff_side r h).undisturbed, modeOff_others r h, modeOff_rate r h, modeOff_mode r h,
    modeOff_state r h, fun off => ?off, fun leaves => ?leaves, fun j judged => ⟨fun green => ?green, fun goesOn => ?goesOn⟩⟩
  case reply => rw [exec_rampModeOff serves, rampModeOff_reply, hears]
  case off =>
    rw [modeOff_off off]
    exact ⟨modRamp_get .., rfl, rfl, rfl, rfl⟩
  case leaves =>
    have left := modeOff_leftForOff (r := r) (h := h) (by simpa using leaves)
    exact ⟨left.ramp, left.auth, left.sources, left.vector, left.beacon, left.lanes⟩
  case green =>
    obtain ⟨ramp, lanes, auth, vector, beacon, _⟩ := modeOff_flushes green judged
    exact ⟨ramp, lanes, auth, vector, beacon⟩
  case goesOn =>
    obtain ⟨ramp, lanes, out, auth, vectors, _⟩ := modeOff_judged r h _ rfl _ rfl j judged
    rw [modeOff_goesOn (by simpa using goesOn)]
    exact ⟨ramp, lanes, out, by rw [auth], by rw [vectors]⟩

end Sys2Proof.Machine
end

section
/-! SUPPORT. Arbitration (R105, R106, R109, R111), by its three outcomes: no winner, the holder again, another winner. -/

namespace Sys2Proof.Machine

namespace AuthUnit

/-! ### The unit pruned -/

section Pruned
variable (a : AuthUnit)

theorem prune_holder : a.prune.holder = a.holder :=
  (dropHolds_rest _ a).2.1

theorem prune_granted : a.prune.granted = a.granted :=
  (dropHolds_rest _ a).2.2

theorem prune_stays {j : Source} (kept : (a.sources[j]).standing = true ∨ j ∉ a.stack) : a.prune.sources[j] = a.sources[j] := by
  rw [prune_source, if_neg]
  rintro ⟨listed, not⟩
  rcases kept with standing | absent
  · rw [standing] at not; cases not
  · exact absent listed

theorem prune_dropped {j : Source} (listed : j ∈ a.stack) (not : (a.sources[j]).standing = false) :
    a.prune.sources[j] = { a.sources[j] with hold := none } := by
  rw [prune_source, if_pos ⟨listed, not⟩]

/-- A source without its hold is the same pruned or not. -/
theorem prune_noHold (j : Source) : { a.prune.sources[j] with hold := none } = { a.sources[j] with hold := none } := by
  rw [prune_source]
  split <;> rfl

end Pruned

/-! ### The outcomes -/

section Outcomes
variable {a : AuthUnit} {w : Source} (rec : Source → Option ActionRec) (now : Nat)

theorem arbitrate_none (none : ∀ k : Source, (a.sources[k]).standing = false) :
    (a.arbitrate rec now).1 = a.prune.vacate := by
  simp only [arbitrate, winner_none (a := a.prune) fun k => (prune_standing a k).trans (none k)]

theorem prune_winner (standing : (a.sources[w]).standing = true)
    (top : ∀ k : Source, k < w → (a.sources[k]).standing = false) : a.prune.winner = some w :=
  winner_of ((prune_standing a w).trans standing) fun k above => (prune_standing a k).trans (top k above)

theorem arbitrate_again (standing : (a.sources[w]).standing = true)
    (top : ∀ k : Source, k < w → (a.sources[k]).standing = false) (holds : a.holder = some w) :
    (a.arbitrate rec now).1 = a.prune := by
  simp only [arbitrate, prune_winner standing top, prune_holder, holds, if_true]

theorem arbitrate_winner (standing : (a.sources[w]).standing = true)
    (top : ∀ k : Source, k < w → (a.sources[k]).standing = false) (other : a.holder ≠ some w) :
    (a.arbitrate rec now).1 = a.prune.suspend.grant w (rec w) now := by
  simp only [arbitrate, prune_winner standing top, prune_holder, if_neg other]

/-- Some source is ELIGIBLE, and then a highest one is, or none is. -/
theorem winner_cases (a : AuthUnit) : (∀ k : Source, (a.sources[k]).standing = false)
    ∨ ∃ w : Source, (a.sources[w]).standing = true ∧ ∀ k : Source, k < w → (a.sources[k]).standing = false := by
  cases found : a.winner with
  | none =>
    left
    intro k
    simpa using List.find?_eq_none.mp found k (List.mem_finRange k)
  | some w =>
    right
    obtain ⟨standing, least⟩ := winner_spec found
    exact ⟨w, standing, fun k above => Bool.eq_false_iff.mpr fun high => absurd (least k high) (not_le.mpr above)⟩

theorem vacate_source (a : AuthUnit) (k : Source) : a.vacate.sources[k]
    = if k ∈ a.holder.toList ++ a.stack then { a.sources[k] with hold := none } else a.sources[k] :=
  dropHolds_source _ a k

theorem vacate_hold {k : Source} (left : a.holder = some k ∨ k ∈ a.stack) : (a.vacate.sources[k]).hold = none := by
  rw [vacate_source, if_pos]
  rcases left with holds | listed
  · rw [holds]; simp
  · exact List.mem_append_right _ listed

end Outcomes

/-! ### Another winner -/

section Granted
variable {a : AuthUnit} {w : Source} {rec : Option ActionRec} {now : Nat}

theorem grant_stack (a : AuthUnit) (w : Source) (rec : Option ActionRec) (now : Nat) :
    (a.grant w rec now).stack = a.stack.filter (fun k => k ≠ w) := by
  obtain ⟨_, _, _, fresh, resumed⟩ := grant_spec a w rec now
  by_cases listed : w ∈ a.stack
  · exact (resumed listed).2.1
  · rw [(fresh listed).2.1, eq_comm, List.filter_eq_self]
    intro k mem
    exact decide_eq_true fun same => listed (same ▸ mem)

theorem mem_suspend_stack (other : a.holder ≠ some w) : w ∈ a.suspend.stack ↔ w ∈ a.stack := by
  obtain ⟨free, held⟩ := suspend_stack a
  cases holds : a.holder with
  | none => rw [free holds]
  | some h =>
    obtain ⟨gives, spent, pushed⟩ := held h holds
    have different : w ≠ h := fun same => other (holds.trans (by rw [same]))
    cases standing : (a.sources[h]).standing with
    | false => rw [gives standing]
    | true =>
      by_cases zero : (a.sources[h]).hold = some (.running 0)
      · rw [spent standing zero]
      · rw [pushed standing zero, List.mem_cons, or_iff_right different]

/-- A source that neither held nor wins keeps its record. -/
theorem granted_source {k : Source} (loses : k ≠ w) (idle : a.holder ≠ some k) :
    (a.suspend.grant w rec now).sources[k] = a.sources[k] := by
  obtain ⟨_, _, others, _⟩ := grant_spec a.suspend w rec now
  rw [others k loses, (suspend_source a k).1 idle]

end Granted

/-- What the winner and the suspended holder take in an arbitration that another source wins (R105, R111). -/
theorem granted_spec (a : AuthUnit) (w : Source) (rec : Option ActionRec) (now : Nat) (b : AuthUnit) (kept : List Source)
    (granted : b = a.prune.suspend.grant w rec now) (stays : kept = a.stack.filter fun k => (a.sources[k]).standing)
    (standing : (a.sources[w]).standing = true) (other : a.holder ≠ some w) :
    b.granted = some (grantedAction w rec)
    ∧ (w ∉ a.stack → b.lastGrant = some ⟨w, now, .fresh⟩
        ∧ b.sources[w] = { a.sources[w] with hold := some (freshHold w rec) })
    ∧ (w ∈ a.stack → b.lastGrant = some ⟨w, now, .resumed⟩
        ∧ b.sources[w] = { a.sources[w] with hold := (a.sources[w]).hold.map Hold.resume })
    ∧ (a.holder = none → b.stack = kept.filter (fun k => k ≠ w))
    ∧ ∀ h : Source, a.holder = some h →
      ((a.sources[h]).standing = false → b.stack = kept.filter (fun k => k ≠ w)
        ∧ b.sources[h] = { a.sources[h] with hold := none })
      ∧ ((a.sources[h]).standing = true → (a.sources[h]).hold = some (.running 0) →
        b.stack = kept.filter (fun k => k ≠ w)
        ∧ b.sources[h] = { a.sources[h] with spent := true, standing := false, hold := none })
      ∧ ((a.sources[h]).standing = true → (a.sources[h]).hold ≠ some (.running 0) →
        b.stack = h :: kept.filter (fun k => k ≠ w)
        ∧ (∀ n : Nat, (a.sources[h]).hold = some (.running n) →
            b.sources[h] = { a.sources[h] with hold := some (.paused n) })
        ∧ ((∀ n : Nat, (a.sources[h]).hold ≠ some (.running n)) → b.sources[h] = a.sources[h])) := by
  have holder : a.prune.holder = a.holder := prune_holder a
  have stack : a.prune.stack = kept := stays.symm
  have listed : w ∈ a.prune.suspend.stack ↔ w ∈ a.stack := by
    rw [mem_suspend_stack (by rw [holder]; exact other), stack, stays, List.mem_filter, and_iff_left standing]
  have record : a.prune.suspend.sources[w] = a.sources[w] := by
    rw [(suspend_source a.prune w).1 (by rw [holder]; exact other), prune_stays a (Or.inl standing)]
  have below := grant_stack a.prune.suspend w rec now
  obtain ⟨_, action, losers, fresh, resumed⟩ := grant_spec a.prune.suspend w rec now
  obtain ⟨free, held⟩ := suspend_stack a.prune
  rw [record, listed] at fresh resumed
  rw [stack, holder] at free
  rw [← granted] at below action losers fresh resumed
  refine ⟨action, fun new => ⟨(fresh new).1, (fresh new).2.2⟩, fun old => ⟨(resumed old).1, (resumed old).2.2⟩,
    fun none => by rw [below, free none], fun h holds => ?_⟩
  have loses : h ≠ w := fun same => other (same ▸ holds)
  have pruned : a.prune.holder = some h := holder.trans holds
  obtain ⟨gives, spends, pushes⟩ := held h pruned
  obtain ⟨_, dropped, spent, paused⟩ := suspend_source a.prune h
  rw [stack, prune_standing] at gives spends pushes
  rw [prune_standing] at dropped spent paused
  rw [losers h loses, below]
  refine ⟨fun not => ⟨by rw [gives not], by rw [dropped pruned not, prune_noHold]⟩, fun high zero => ?_, fun high time => ?_⟩
  · rw [prune_stays a (Or.inl high)] at spends spent
    exact ⟨by rw [spends high zero], spent pruned high zero⟩
  · rw [prune_stays a (Or.inl high)] at pushes paused
    rw [pushes high time]
    exact ⟨List.filter_cons_of_pos (by simpa using loses), paused pruned high time⟩

end AuthUnit

open AuthUnit

/-! ### Actions and holds -/

theorem grantedAction_of {k : Source} (x : ActionRec) (k0 : k ≠ 0) : grantedAction k (some x) = (match x.kind with
    | .dark => .dark
    | .flush => .flush
    | .hold => .hold
    | .plan n => .plan n) := by
  obtain ⟨kind, cap⟩ := x
  cases kind <;> exact if_neg k0

theorem freshHold_of {k : Source} (x : ActionRec) (k0 : k ≠ 0) : freshHold k (some x) = (match x.cap with
    | none => .uncapped
    | some n => .running (n * 100000)) := by
  obtain ⟨kind, cap⟩ := x
  cases cap <;> exact if_neg k0

theorem granted_failsafe (r : Option ActionRec) : grantedAction 0 r = .failsafe ∧ freshHold 0 r = .uncapped :=
  ⟨if_pos rfl, if_pos rfl⟩

theorem granted_unset {k : Source} (k0 : k ≠ 0) :
    grantedAction k none = (if k = 1 then .flush else .dark) ∧ freshHold k none = .uncapped :=
  ⟨if_neg k0, if_neg k0⟩

/-- Settles O54. -/
theorem arbitrationGrantsTheHighest : Obligations.ArbitrationGrantsTheHighest := by
  unfold Obligations.ArbitrationGrantsTheHighest
  refine ⟨fun a b rec now kept result stays => ⟨fun k listed not => ?discarded, fun k idle off leaves => ?elsewhere,
      fun none => ?none, fun w standing top => ?won⟩,
    fun k r => ⟨?failsafe, ?unset, fun x k0 set => set ▸ ⟨grantedAction_of x k0, freshHold_of x k0⟩⟩,
    fun n => ⟨rfl, rfl, rfl⟩⟩
  case discarded =>
    rcases winner_cases a with none | ⟨w, standing, top⟩
    · rw [result, arbitrate_none rec now none, vacate_source, prune_dropped a listed not]
      split <;> rfl
    · by_cases holds : a.holder = some w
      · rw [result, arbitrate_again rec now standing top holds, prune_dropped a listed not]
      · have loses : k ≠ w := fun same => by rw [same, standing] at not; cases not
        rw [result, arbitrate_winner rec now standing top holds, (grant_spec ..).2.2.1 k loses]
        obtain ⟨keeps, drops, _⟩ := suspend_source a.prune k
        by_cases held : a.prune.holder = some k
        · rw [drops held ((prune_standing a k).trans not)]
        · rw [keeps held, prune_dropped a listed not]
  case elsewhere =>
    rcases winner_cases a with none | ⟨w, standing, top⟩
    · rw [result, arbitrate_none rec now none, vacate_source, if_neg, prune_stays a (Or.inr off)]
      rw [prune_holder, List.mem_append, Option.mem_toList]
      rintro (holds | listed)
      · exact idle holds
      · exact off (List.mem_of_mem_filter listed)
    · by_cases holds : a.holder = some w
      · rw [result, arbitrate_again rec now standing top holds, prune_stays a (Or.inr off)]
      · have won := arbitrate_winner rec now standing top holds
        have loses : k ≠ w := fun same => leaves (by rw [result, won, (grant_spec ..).1, same])
        rw [result, won, granted_source loses (by rw [prune_holder]; exact idle), prune_stays a (Or.inr off)]
  case none =>
    rw [result, arbitrate_none rec now none]
    refine ⟨rfl, rfl, rfl, (vacate_lastGrant _).trans (prune_lastGrant a), fun k left => ?_⟩
    rcases left with holds | listed
    · exact vacate_hold (Or.inl ((prune_holder a).trans holds))
    · rw [vacate_source, prune_dropped a listed (none k)]
      split <;> rfl
  case won =>
    by_cases holds : a.holder = some w
    · have same := arbitrate_again rec now standing top holds
      rw [result, same]
      have settled (k : Source) (high : (a.sources[k]).standing = true) := prune_stays a (j := k) (Or.inl high)
      refine ⟨(prune_holder a).trans holds, fun k mem _ _ => settled k ?_,
        fun _ => ⟨prune_granted a, prune_lastGrant a, stays.symm, settled w standing⟩, fun other => absurd holds other⟩
      rw [stays, List.mem_filter] at mem
      exact mem.2
    · have won := result.trans (arbitrate_winner rec now standing top holds)
      refine ⟨by rw [won, (grant_spec ..).1], fun k mem loses idle => ?_, fun held => absurd held holds,
        fun _ => granted_spec a w (rec w) now b kept won stays standing holds⟩
      rw [stays, List.mem_filter] at mem
      rw [won, granted_source loses (by rw [prune_holder]; exact idle), prune_stays a (Or.inl mem.2)]
  case failsafe => exact fun k0 => k0 ▸ granted_failsafe r
  case unset => exact fun k0 unset => unset ▸ granted_unset k0

end Sys2Proof.Machine
end

section
/-! SUPPORT. What a source's change brings (R60, R61, R70, R74, R103, R104, R107): the judged actions and demands, and a
decision point's result by the state of the ramp. -/

namespace Sys2Proof.Machine

/-! ### Actions and demands judged -/

theorem effectiveAction_eq (s : State) (r : Ramp) (n : Nat) (auto : n = (if (planRec s.tables (s.ramps[r]).autoPlan).isSome
      then (s.ramps[r]).autoPlan else 0)) : effectiveAction s r = (match (s.auth[r]).granted with
    | none => .auto n
    | some .failsafe => .failsafe
    | some .dark => .dark
    | some .flush => .flush
    | some .hold => .hold
    | some (.plan m) => if (planRec s.tables m).isSome then .plan m else .auto n) := by
  have judged : autoJudged s r = n := auto.symm
  rw [effectiveAction, judged]
  cases (s.auth[r]).granted with
  | none => rfl
  | some g => cases g <;> rfl

theorem standingAction_eq (s : State) (r : Ramp) : standingAction s r = (match (s.auth[r]).granted with
    | none => .auto (s.ramps[r]).autoPlan
    | some .failsafe => .failsafe
    | some .dark => .dark
    | some .flush => .flush
    | some .hold => .hold
    | some (.plan m) => if (s.ramps[r]).actionUnset = true then .auto (s.ramps[r]).autoPlan else .plan m) := by
  rw [standingAction]
  cases (s.auth[r]).granted with
  | none => rfl
  | some g => cases g <;> rfl

theorem stops_iff (e : Effective) : e.stops = true ↔ e = .dark ∨ e = .auto 0 := by
  cases e <;> simp [Effective.stops]

theorem starts_iff (e : Effective) :
    e.starts = true ↔ e = .hold ∨ (∃ m, e = .plan m) ∨ ∃ m, m ≠ 0 ∧ e = .auto m := by
  cases e <;> simp [Effective.starts]

theorem starts_not_stops {e : Effective} (starts : e.starts = true) : e.stops = false := by
  cases e <;> simp_all [Effective.starts, Effective.stops]

theorem stopDemand_iff (s : State) (r : Ramp) :
    stopDemand s r = true ↔ (s.ramps[r]).mode = .off ∨ effectiveAction s r = .dark ∨ effectiveAction s r = .auto 0 := by
  rw [stopDemand, Bool.or_eq_true, decide_eq_true_iff, stops_iff]

theorem mode_auto_iff (m : Mode) : m = .auto ↔ m ≠ .off := by
  cases m <;> simp

theorem startDemand_iff (s : State) (r : Ramp) :
    startDemand s r = true ↔ (s.ramps[r]).mode = .auto ∧ (effectiveAction s r = .hold
      ∨ (∃ m, effectiveAction s r = .plan m) ∨ ∃ m, m ≠ 0 ∧ effectiveAction s r = .auto m) := by
  rw [← starts_iff, mode_auto_iff, startDemand, Bool.and_eq_true, and_comm, and_congr_left_iff]
  intro starts
  rw [stopDemand, starts_not_stops starts]
  simp

theorem judge_attention {s : State} {r : Ramp} (change : ((judge r s).ramps[r]).actionUnset ≠ (s.ramps[r]).actionUnset) :
    ((judge r s).ramps[r]).attention = true := by
  rw [judge_eq] at change ⊢
  simp only [ne_eq] at change ⊢
  rw [decide_eq_true change, Bool.or_true]

/-- The judgement's record: the mark, the stop demand as it stands, and attention (R60, R61). -/
theorem judge_record (r : Ramp) (s : State) : (judge r s).ramps[r] = { s.ramps[r] with
    actionUnset := ((judge r s).ramps[r]).actionUnset, stopStands := stopDemand s r
    attention := ((judge r s).ramps[r]).attention } := by
  rw [judge_eq]

theorem judge_unset_iff (r : Ramp) (s : State) : ((judge r s).ramps[r]).actionUnset = true
    ↔ ∃ m, (s.auth[r]).granted = some (.plan m) ∧ planRec s.tables m = none := by
  rw [judge_eq]
  exact judgedUnset_iff s r

/-! ### A source changed (R103, R104) -/

section Changed
variable {r : Ramp} {k : Source} {s : State}

theorem sourceChanged_off (off : (s.ramps[r]).state = .off) : sourceChanged r k s = s := if_pos off

theorem sourceChanged_metering (metering : (s.ramps[r]).state = .metering) (lower : 2 ≤ k.val) :
    sourceChanged r k s = s := by
  rw [sourceChanged, if_neg (by rw [metering]; decide), if_pos ⟨metering, lower⟩]

theorem sourceChanged_agrees (agrees : ((s.auth[r]).sources[k]).standing = ((s.auth[r]).sources[k]).eligible) :
    sourceChanged r k s = s := by
  rw [sourceChanged, if_pos agrees]
  simp

theorem sourceChanged_presents (used : (s.ramps[r]).state ≠ .off) (higher : (s.ramps[r]).state = .metering → k.val < 2)
    (differs : ((s.auth[r]).sources[k]).standing ≠ ((s.auth[r]).sources[k]).eligible) :
    sourceChanged r k s = decisionPoint r (s.setAuth r ((s.auth[r]).refresh k)) := by
  rw [sourceChanged, if_neg used, if_neg, if_neg differs]
  rintro ⟨metering, lower⟩
  have := higher metering
  omega

end Changed

/-! ### A result handed over (R107) -/

section Taken
variable {r : Ramp} {old : Effective} {v u : State} (taken : u = takeResult r old v)
include taken

theorem taken_standby (standby : (v.ramps[r]).state = .standby) : (startDemand v r = false → u = v)
    ∧ (startDemand v r = true → Entered r .warn (.running 0) u ∧ u.auth = v.auth ∧ u.lanes = v.lanes) := by
  obtain ⟨_, _, lanes, auth, _, starts, stays⟩ := standbyActs_spec r v
  rw [taken, takes_standby standby]
  exact ⟨stays, fun start => ⟨starts start, auth, lanes⟩⟩

theorem taken_failsafe (failsafe : effectiveAction v r = .failsafe) (apart : v.tables.Apart) :
    ((v.ramps[r]).state = .darkFail → u = v)
    ∧ ((v.ramps[r]).state ≠ .off → (v.ramps[r]).state ≠ .standby → (v.ramps[r]).state ≠ .darkFail →
      Entered r .darkFail .stopped u ∧ u.lanes = (orderDark r v).lanes ∧ HeadsShow r u) := by
  refine ⟨fun dark => ?_, fun off standby dark => ?_⟩
  · rw [taken, takes_dark dark, if_pos failsafe]
  · obtain ⟨entered, lanes, heads⟩ := enterDarkFail_spec r v
    rw [taken, takes_failsafe failsafe off standby dark]
    exact ⟨entered, lanes, heads apart⟩

/-- DARK_FAIL released, and WARN under a stop demand, go to OFF or STANDBY by the mode (R63, R74). -/
theorem taken_leaves (free : effectiveAction v r ≠ .failsafe)
    (leaves : (v.ramps[r]).state = .darkFail ∨ (v.ramps[r]).state = .warn ∧ stopDemand v r = true) :
    u.lanes = (orderDark r v).lanes
    ∧ ((v.ramps[r]).mode = .off → Entered r .off .stopped u ∧ u.auth[r] = (v.auth[r]).enterOff
      ∧ (∀ c : Fin 16, (u.vectors[r])[c] = false) ∧ (u.ramps[r]).autoPlan = 0 ∧ (u.ramps[r]).candidate = none
      ∧ (u.ramps[r]).planUnset = false ∧ (u.ramps[r]).actionUnset = false)
    ∧ ((v.ramps[r]).mode = .auto → u.auth = v.auth
      ∧ (startDemand v r = true → Entered r .warn (.running 0) u)
      ∧ (startDemand v r = false → Entered r .standby .stopped u)) := by
  obtain ⟨_, _, _, result⟩ := takes_starting (old := old) free
  rw [taken, result leaves, enterOffOrStandby]
  by_cases off : (v.ramps[r]).mode = .off
  · obtain ⟨entered, lanes, rest⟩ := enterOff_spec r v
    rw [if_pos off]
    exact ⟨lanes, fun _ => ⟨entered, rest⟩, fun auto => by rw [off] at auto; cases auto⟩
  · obtain ⟨lanes, auth, _, starts, stays⟩ := enterStandby_spec r v
    rw [if_neg off]
    exact ⟨lanes, fun h => absurd h off, fun _ => ⟨auth, starts, stays⟩⟩

theorem taken_flushes (free : effectiveAction v r ≠ .failsafe) (green : (v.ramps[r]).state = .startGreen)
    (stop : stopDemand v r = true) : Entered r .shutFlush (.running 0) u ∧ u.auth = v.auth ∧ u.lanes = v.lanes := by
  obtain ⟨_, _, result, _⟩ := takes_starting (old := old) free
  rw [taken, result green stop]
  exact ⟨enter_entered r .shutFlush (.running 0) v (by decide),
    (enter_units r _ _ _ v (by rw [green]; decide)).auth, enter_lanes ..⟩

/-- METERING takes DARK, and AUTO with NONE where another action stood, as the shutdown (R70). -/
theorem taken_shutdown (metering : (v.ramps[r]).state = .metering) (apart : v.tables.Apart)
    (stops : effectiveAction v r = .dark ∨ effectiveAction v r = .auto 0 ∧ old ≠ .auto 0) :
    u.lanes = (orderFlush r v).lanes ∧ HeadsShow r u
    ∧ ((∀ l ∈ lanesOf v.tables r, (u.lanes[l]).state = .greenRest) → Entered r .shutFlush (.running 0) u)
    ∧ ((∃ l ∈ lanesOf v.tables r, (u.lanes[l]).state ≠ .greenRest) → Entered r .shutClear .stopped u) := by
  obtain ⟨shutdown, _⟩ := takes_meter (old := old) metering
  obtain ⟨lanes, heads, rested, clearing⟩ := enterShutClear_spec r v apart
  rw [taken, shutdown stops]
  exact ⟨lanes, heads, fun all => rested (by rw [← lanes]; exact all), fun some => clearing (by rw [← lanes]; exact some)⟩

/-- Where METERING is left the slot empties, and the lower sources' standings are presented once more (R103). -/
theorem taken_leavesMetering (metering : (v.ramps[r]).state = .metering) (left : (u.ramps[r]).state ≠ .metering) :
    NoSlot r u ∧ ∃ x : State, x.auth[r] = v.auth[r] ∧ x.tables = v.tables ∧ x.time = v.time
      ∧ u.auth[r] = (arbitrateAfterMetering r x).auth[r] := by
  obtain ⟨shutdown, stays, flush, hold, returns⟩ := takes_meter (old := old) metering
  have ordered {w : State} (result : takeResult r old v = w) (side : LaneSide v w) : False :=
    left (by rw [taken, result, side.state r, metering])
  cases action : effectiveAction v r with
  | failsafe =>
    rw [taken, takes_failsafe action (by rw [metering]; decide) (by rw [metering]; decide) (by rw [metering]; decide)]
    exact enterDarkFail_unit r v metering _ rfl
  | dark =>
    rw [taken, shutdown (Or.inl action)]
    exact enterShutClear_unit r v metering _ rfl
  | flush => exact (ordered (flush action) (orderFlush_side r v)).elim
  | hold => exact (ordered (hold action) (orderHold_side r v)).elim
  | plan n => exact (ordered (returns n (Or.inl action)) (orderReturn_side r v)).elim
  | auto n =>
    by_cases none : n = 0
    · rw [none] at action
      by_cases stood : old = .auto 0
      · exact (ordered (stays action stood) (LaneSide.refl v)).elim
      · rw [taken, shutdown (Or.inr ⟨action, stood⟩)]
        exact enterShutClear_unit r v metering _ rfl
    · exact (ordered (returns n (Or.inr ⟨none, action⟩)) (orderReturn_side r v)).elim

theorem taken_stays (apart : v.tables.Apart) (stays : (u.ramps[r]).state = (v.ramps[r]).state) :
    (u.ramps[r]).adopted = (v.ramps[r]).adopted ∧ (u.ramps[r]).patternCount = (v.ramps[r]).patternCount
    ∧ (u.ramps[r]).slotClock = (v.ramps[r]).slotClock ∧ (u.ramps[r]).slotLength = (v.ramps[r]).slotLength
    ∧ u.rate = v.rate ∧ u.auth = v.auth := by
  rw [taken] at stays ⊢
  have side := takeResult_stays apart stays
  have same : SameRamp v (takeResult r old v) r := side.ramps r
  exact ⟨same.field (·.adopted) fun _ => rfl, same.field (·.patternCount) fun _ => rfl,
    same.field (·.slotClock) fun _ => rfl, same.field (·.slotLength) fun _ => rfl, side.rate, side.auth⟩

end Taken

/-- What the lower sources' standings bring behind a slot emptied (R103). -/
theorem afterMetering_auth {r : Ramp} {s u x : State} {a : AuthUnit} (unit : x.auth[r] = a) (tables : x.tables = s.tables)
    (time : x.time = s.time) (after : u.auth[r] = (arbitrateAfterMetering r x).auth[r]) :
    ((∀ k : Source, 2 ≤ k.val → (a.sources[k]).standing
        = ((a.sources[k]).asserted && (a.sources[k]).armed && !(a.sources[k]).spent)) → u.auth[r] = a)
    ∧ ((∃ k : Source, 2 ≤ k.val ∧ (a.sources[k]).standing
        ≠ ((a.sources[k]).asserted && (a.sources[k]).armed && !(a.sources[k]).spent)) →
      u.auth[r] = (a.refreshLower.arbitrate (actionRec s.tables r) s.time.corridor).1) := by
  have result := arbitrateAfterMetering_auth r x a unit.symm
  rw [tables, time] at result
  rw [after]
  exact result

/-! ### A decision point -/

/-- Settles O56. -/
theorem sourceChangesReachArbitration : Obligations.SourceChangesReachArbitration := by
  unfold Obligations.SourceChangesReachArbitration
  refine ⟨fun r k s => ⟨sourceChanged_off, sourceChanged_metering, sourceChanged_agrees, sourceChanged_presents⟩,
    fun r s n auto => ⟨effectiveAction_eq s r n auto, standingAction_eq s r, stopDemand_iff s r, startDemand_iff s r,
      judge_unset_iff r s, judge_attention, judge_record r s⟩,
    fun r s u v a apart result arbitrated judged => ?point⟩
  case point =>
    have one : OneRamp r s u := result ▸ (decisionPoint_decided r s).one
    refine ⟨one.side.undisturbed, one.onTimers, one.others, result ▸ (decisionPoint_reach r s).lanes,
      fun held same => result.trans (decisionPoint_same arbitrated held same), fun handed => ?_⟩
    obtain ⟨unit, lanes, out, rate, _, tables, det, time, record, attention⟩ := judgedResult_spec r s a v arbitrated judged
    have taken : u = takeResult r (standingAction s r) v := by
      rw [result, decisionPoint_handed arbitrated handed, judged]
    have state : (v.ramps[r]).state = (s.ramps[r]).state := by rw [record]
    have mode : (v.ramps[r]).mode = (s.ramps[r]).mode := by rw [record]
    have dark : (orderDark r v).lanes = (orderDark r s).lanes := orderLanes_congr _ r lanes tables det
    have flush : (orderFlush r v).lanes = (orderFlush r s).lanes := orderLanes_congr _ r lanes tables det
    have apart' : v.tables.Apart := by rw [tables]; exact apart
    refine ⟨fun changed => ⟨attention changed, ?_⟩, unit, lanes, out, rate, record, fun off => ?off, fun standby => ?standby,
      fun failsafe => ?failsafe, fun free => ⟨fun goesOn => ?goesOn, fun starting none => ?none, fun green stop => ?flushes,
        fun leaves => ?leaves, fun metering => ⟨fun stops => ?shutdown, ?_⟩⟩, fun metering left => ?left, fun stays => ?stays⟩
    · rw [taken]
      exact (takeResult_side r _ v).attention r (attention changed)
    case off => rw [taken, takes_off (state.trans off)]
    case standby =>
      obtain ⟨waits, starts⟩ := taken_standby taken (state.trans standby)
      refine ⟨waits, fun start => ?_⟩
      obtain ⟨entered, auth, kept⟩ := starts start
      exact ⟨entered, by rw [auth, unit], kept.trans lanes⟩
    case failsafe =>
      have taken' := taken_failsafe taken failsafe apart'
      rw [state, dark] at taken'
      exact taken'
    case goesOn =>
      rw [taken, (takes_starting free).1 (by rw [state]; exact goesOn)]
    case none =>
      rw [taken, (takes_starting free).2.1 (by rw [state]; exact starting) none]
    case flushes =>
      obtain ⟨entered, auth, kept⟩ := taken_flushes taken free (state.trans green) stop
      exact ⟨entered, by rw [auth, unit], kept.trans lanes⟩
    case leaves =>
      obtain ⟨darkened, toOff, toStandby⟩ := taken_leaves taken free (by rw [state]; exact leaves)
      rw [mode] at toOff toStandby
      rw [unit] at toOff
      refine ⟨darkened.trans dark, toOff, fun auto => ?_⟩
      obtain ⟨auth, enters⟩ := toStandby auto
      exact ⟨by rw [auth, unit], enters⟩
    case shutdown =>
      have shutdown := taken_shutdown taken (state.trans metering) apart' stops
      rw [flush, tables] at shutdown
      exact shutdown
    · obtain ⟨_, stays, flushes, holds, returns⟩ := takes_meter (old := standingAction s r) (state.trans metering)
      rw [← taken] at stays flushes holds returns
      exact ⟨stays, flushes, holds, returns⟩
    case left =>
      obtain ⟨empty, x, auth, xTables, xTime, after⟩ := taken_leavesMetering taken (state.trans metering) left
      exact ⟨empty, afterMetering_auth (auth.trans unit) (xTables.trans tables) (xTime.trans time) after⟩
    case stays =>
      obtain ⟨adopted, pattern, clock, length, rates, auth⟩ := taken_stays taken apart' (stays.trans state.symm)
      rw [record] at adopted pattern clock length
      exact ⟨adopted, pattern, clock, length, by rw [rates, rate], by rw [auth, unit]⟩

end Sys2Proof.Machine
end

section
/-! SUPPORT. Spillback (R117 to R120): the on-timers and clear timers, an announcement's review, and a Ramp Config written
or cleared. -/

namespace Sys2Proof.Machine

/-! ### The timers -/

section Timers
variable {ch : Channel} {r : Ramp} {c : RampRec} {s : State}

theorem onTimerLeft_run (spills : spillRamp s.tables ch = some r) (config : s.tables.rampCfg[r] = some c) {n : Nat}
    (runs : s.onTimers[ch] = .running n) : onTimerLeft ch s = some (c.spillOn * 100000 - n) := by
  rw [onTimerLeft, spills, Option.bind_some, config, Option.bind_some]
  exact left_run runs

theorem clearTimerLeft_run (config : s.tables.rampCfg[r] = some c) {n : Nat} (runs : (s.auth[r]).clearTimer = .running n) :
    clearTimerLeft r s = some (c.spillClear * 100000 - n) := by
  rw [clearTimerLeft, config, Option.bind_some]
  exact left_run runs

/-- The on-timer's expiry: SPILLBACK asserted and the clear timer reviewed (R118). -/
theorem onTimerExpired_eq (spills : spillRamp s.tables ch = some r) :
    onTimerExpired ch s = reviewClear r (setAsserted r 2 true (s.setOnTimer ch .expired)) := by
  rw [onTimerExpired, spills]

theorem onTimerExpired_one (r : Ramp) (ch : Channel) (s : State) :
    OneRamp r (s.setOnTimer ch .expired) (reviewClear r (setAsserted r 2 true (s.setOnTimer ch .expired))) :=
  (setAsserted_one r 2 true _ (by decide)).trans (reviewClear_one r _)

theorem onTimerExpired_asserts (spills : spillRamp s.tables ch = some r) (config : s.tables.rampCfg[r] = some c)
    (used : usable s ch = true) (on : (s.det.chans[ch]).filtered = true) :
    (((onTimerExpired ch s).auth[r]).sources[(2 : Source)]).asserted = true
    ∧ ((onTimerExpired ch s).auth[r]).clearTimer = .stopped := by
  have side := setAsserted_side r 2 true (s.setOnTimer ch .expired) (by decide)
  have asserted := (setAsserted_unit r 2 true (s.setOnTimer ch .expired)).asserted
  rw [onTimerExpired_eq spills]
  generalize setAsserted r 2 true (s.setOnTimer ch .expired) = x at side asserted
  have tables : x.tables = s.tables := side.tables
  have det : x.det = s.det := side.det
  obtain ⟨_, _, reviewed⟩ := reviewClear_unit r x
  obtain ⟨_, present, _⟩ := reviewed asserted (by rw [tables, config]; exact Option.some_ne_none c)
  exact present ch (by rw [tables]; exact spills) ((usable_congr tables det ch).trans used) (by rw [det]; exact on)

end Timers

/-! ### Channels -/

section Channels
variable {ch : Channel} {d : DetRec} {s : State}

theorem usable_iff (mapped : s.tables.detMap[ch] = some d) :
    usable s ch = true ↔ (s.det.chans[ch]).health = .ok ∧ d.always = false := by
  rw [usable, mapped]
  simp

theorem spillRamp_other (mapped : s.tables.detMap[ch] = some d) (role : d.role ≠ .spillback) :
    spillRamp s.tables ch = none := by
  rw [spillRamp, mapped]
  exact if_neg role

theorem spillRamp_only {r : Ramp} (mapped : s.tables.detMap[ch] = some d) (role : d.role = .spillback)
    (only : ∀ q : Ramp, d.ramps.getLsbD q.val = decide (q = r)) : spillRamp s.tables ch = some r := by
  rw [spillRamp, mapped]
  refine (if_pos role).trans ?_
  simp only [only]
  cases found : (List.finRange 4).find? fun q => decide (q = r) with
  | none => simpa using List.find?_eq_none.mp found r (List.mem_finRange r)
  | some q =>
    have hit := List.find?_some found
    rw [of_decide_eq_true hit]

theorem spillRamp_unmapped (unmapped : s.tables.detMap[ch] = none) : spillRamp s.tables ch = none := by
  rw [spillRamp, unmapped]

end Channels

/-! ### An announcement's review (R118, R119) -/

theorem onTimerRuns_congr {s t : State} (tables : t.tables = s.tables) (det : t.det = s.det) (ch : Channel) :
    onTimerRuns t ch = onTimerRuns s ch := by
  unfold onTimerRuns
  rw [tables, usable_congr tables det, det]

theorem announce_onTimer (before s : State) (ch : Channel) : (announce before s).onTimers[ch]
    = if onTimerRuns s ch then (s.onTimers[ch]).keepRunning else .stopped := by
  obtain ⟨t, side, result⟩ := announce_eq before s
  rw [result, reviewSpillback_onTimers, reviewOnTimers_get, onTimerRuns_congr side.tables side.det, side.onTimers]

/-- A ramp's unit behind an announcement is its clear timer's review on the unit as it stood. -/
theorem announce_unit (before s : State) (r : Ramp) : ∃ x : State, x.auth[r] = s.auth[r] ∧ x.tables = s.tables
    ∧ x.det = s.det ∧ (announce before s).auth[r] = (reviewClear r x).auth[r] := by
  obtain ⟨t, side, result⟩ := announce_eq before s
  obtain ⟨x, auth, tables, det, reviewed⟩ := reviewSpillback_auth t r
  exact ⟨x, by rw [auth, side.auth], tables.trans side.tables, det.trans side.det, by rw [result, reviewed]⟩

/-- The review of a ramp's clear timer, read on the state announced. -/
theorem announce_review (before s : State) (r : Ramp) :
    (s.tables.rampCfg[r] = none → (((announce before s).auth[r]).sources[(2 : Source)]).asserted = false
      ∧ ((announce before s).auth[r]).clearTimer = .stopped)
    ∧ (((s.auth[r]).sources[(2 : Source)]).asserted = false →
      (((announce before s).auth[r]).sources[(2 : Source)]).asserted = false
      ∧ ((announce before s).auth[r]).clearTimer = .stopped)
    ∧ (((s.auth[r]).sources[(2 : Source)]).asserted = true → s.tables.rampCfg[r] ≠ none →
      ((∀ ch : Channel, spillRamp s.tables ch = some r → usable s ch = false) →
        (((announce before s).auth[r]).sources[(2 : Source)]).asserted = false
        ∧ (((announce before s).auth[r]).sources[(2 : Source)]).spent = false
        ∧ ((announce before s).auth[r]).clearTimer = .stopped)
      ∧ (∀ ch : Channel, spillRamp s.tables ch = some r → usable s ch = true → (s.det.chans[ch]).filtered = true →
        (((announce before s).auth[r]).sources[(2 : Source)]).asserted = true
        ∧ ((announce before s).auth[r]).clearTimer = .stopped)
      ∧ ((∃ ch : Channel, spillRamp s.tables ch = some r ∧ usable s ch = true) →
        (∀ ch : Channel, spillRamp s.tables ch = some r → usable s ch = true → (s.det.chans[ch]).filtered = false) →
        (((announce before s).auth[r]).sources[(2 : Source)]).asserted = true
        ∧ ((announce before s).auth[r]).clearTimer
          = if (s.auth[r]).clearTimer = .stopped then .running 0 else (s.auth[r]).clearTimer)) := by
  obtain ⟨x, auth, tables, det, reviewed⟩ := announce_unit before s r
  have review := reviewClear_unit r x
  simp only [auth, tables, usable_congr tables det, det] at review
  rw [reviewed]
  exact review

/-! ### A Ramp Config written or cleared (R115, R120) -/

section Put
variable (r : Ramp) (rec : Option RampRec) (s : State)

/-- The state with the new record and its channels reviewed, ahead of the spillback timers and the lines. -/
def rampConfigured (r : Ramp) (rec : Option RampRec) (s : State) : State :=
  reviewChecked s.tables { s with tables := { s.tables with rampCfg := vset s.tables.rampCfg r rec } }

theorem putRamp_eq : putRamp r rec s = judgeLines r (restartSpillback r (rampConfigured r rec s)) := rfl

theorem rampConfigured_side :
    LaneSide { s with tables := { s.tables with rampCfg := vset s.tables.rampCfg r rec } } (rampConfigured r rec s) :=
  reviewChecked_side s.tables _

theorem rampConfigured_config : (rampConfigured r rec s).tables.rampCfg[r] = rec := by
  rw [(rampConfigured_side r rec s).tables]
  exact vset_same ..

theorem rampConfigured_spills (ch : Channel) : spillRamp (rampConfigured r rec s).tables ch = spillRamp s.tables ch := by
  rw [(rampConfigured_side r rec s).tables]
  rfl

theorem rampConfigured_runs {ch : Channel} (spills : spillRamp s.tables ch = some r) :
    onTimerRuns (rampConfigured r rec s) ch = (rec.isSome && usable s ch && (s.det.chans[ch]).filtered) := by
  have side := rampConfigured_side r rec s
  have used : usable (rampConfigured r rec s) ch = usable s ch := by
    rw [usable_congr side.tables side.det]
    rfl
  rw [onTimerRuns, rampConfigured_spills, spills]
  dsimp only
  rw [rampConfigured_config, used, side.det]

theorem putRamp_spillback : (((putRamp r rec s).auth[r]).sources[(2 : Source)]).asserted = false
    ∧ ((putRamp r rec s).auth[r]).clearTimer = .stopped := by
  obtain ⟨asserted, timer⟩ := judgeLines_unit r (restartSpillback r (rampConfigured r rec s))
  obtain ⟨off, stopped⟩ := restartSpillback_unit r (rampConfigured r rec s)
  exact ⟨asserted.trans off, timer.trans stopped⟩

theorem putRamp_onTimer {ch : Channel} (spills : spillRamp s.tables ch = some r) : (putRamp r rec s).onTimers[ch]
    = if rec.isSome = true ∧ usable s ch = true ∧ (s.det.chans[ch]).filtered = true then .running 0 else .stopped := by
  rw [putRamp_eq, (judgeLines_one r _).onTimers,
    restartSpillback_onTimers r _ ch ((rampConfigured_spills r rec s ch).trans spills), rampConfigured_runs r rec s spills]
  simp only [Bool.and_eq_true, and_assoc]

theorem putRamp_lines :
    (((putRamp r rec s).auth[r]).sources[(1 : Source)]).asserted = lineAsserts (rampConfigured r rec s) r 1
    ∧ (((putRamp r rec s).auth[r]).sources[(4 : Source)]).asserted = lineAsserts (rampConfigured r rec s) r 4 := by
  have side := restartSpillback_side r (rampConfigured r rec s)
  rw [putRamp_eq, ← lineAsserts_congr side.tables side.lines, ← lineAsserts_congr side.tables side.lines]
  exact judgeLines_lines r _

end Put

/-- Settles O58. -/
theorem spillbackTimersAssertAndClear : Obligations.SpillbackTimersAssertAndClear := by
  unfold Obligations.SpillbackTimersAssertAndClear
  refine ⟨fun ch r c s spills config => ⟨fun n => onTimerLeft_run spills config, fun due => ?onTimer⟩,
    fun r c s config => ⟨fun n => clearTimerLeft_run config, fun due => ?clearTimer⟩,
    fun ch s => ⟨fun due => ?silence, fun due => ?stuck, fun due => ?filter,
      fun d mapped => ⟨usable_iff mapped, spillRamp_other mapped, fun r => spillRamp_only mapped⟩, spillRamp_unmapped⟩,
    fun before s u announced => ⟨fun ch => ⟨fun stands => ?stopped, fun r spills config used on => ?runs⟩,
      fun r => announced ▸ (announce_review before s r).1, fun r => announced ▸ (announce_review before s r).2.1,
      fun r => announced ▸ (announce_review before s r).2.2⟩,
    fun r rec s u put => ?put, fun r rec s u put => ?lines⟩
  case onTimer =>
    have one := onTimerExpired_one r ch s
    have others := one.others
    have timers := one.onTimers
    rw [← onTimerExpired_eq spills] at others timers
    refine ⟨onTimerExpired ch s, congrArg Host.Outcome.next (whenDue_due due _ s), (onTimerExpired_side ch s).undisturbed, ?_,
      fun x other => ?_, fun q other => (others q other).2.1, onTimerExpired_asserts spills config⟩
    · rw [timers]
      exact vset_same ..
    · rw [timers]
      exact vset_other _ _ _ _ (Ne.symm other)
  case clearTimer =>
    have one := clearTimerExpired_one r s
    exact ⟨clearTimerExpired r s, congrArg Host.Outcome.next (whenDue_due due _ s), one.side.undisturbed, one.onTimers,
      fun q other => (one.others q other).2.1, clearTimerExpired_unit r s⟩
  case silence => exact congrArg Host.Outcome.next (whenDue_due due (changeChannel ch silenceExpired) s)
  case stuck => exact congrArg Host.Outcome.next (whenDue_due due (changeChannel ch stuckExpired) s)
  case filter => exact congrArg Host.Outcome.next (whenDue_due due (changeChannel ch filterExpired) s)
  case stopped =>
    rw [announced, announce_onTimer, if_neg]
    rw [onTimerRuns_iff]
    rintro ⟨r, spills, config, used, on⟩
    rcases stands with none | unused | off
    · exact config (none r spills)
    · rw [used] at unused; cases unused
    · rw [on] at off; cases off
  case runs =>
    rw [announced, announce_onTimer, if_pos ((onTimerRuns_iff s ch).mpr ⟨r, spills, config, used, on⟩), keepRunning_eq]
  case put =>
    obtain ⟨off, stopped⟩ := putRamp_spillback r rec s
    rw [put]
    exact ⟨off, stopped, fun ch => putRamp_onTimer r rec s⟩
  case lines =>
    obtain ⟨preempt, panel⟩ := putRamp_lines r rec s
    have asserts := lineAsserts_iff (rampConfigured r rec s) r
    have lines : (rampConfigured r rec s).lines = s.lines := (rampConfigured_side r rec s).lines
    rw [rampConfigured_config, lines] at asserts
    rw [put, preempt, panel]
    exact asserts

end Sys2Proof.Machine
end

section
/-! SUPPORT. What a record written or cleared does to the tables: its own index reads as stored, every other index of
every table as before (R171, R174). -/

namespace Sys2Proof.Machine

/-! ### One index of the tables changed -/

/-- The tables `u` are the tables `t` but for one index of one table, which now reads `x`. -/
structure StoredAt (t u : Tables) (table index : Nat) (x : Option (List Byte)) : Prop where
  here : storedRecord u table index = x
  others : ∀ a i : Nat, (a, i) ≠ (table, index) → (a ≠ 10 ∨ table ≠ 10) → storedRecord u a i = storedRecord t a i

/-- The records read are those of the table's own field. -/
theorem storedRecord_congr {t u : Tables} {table : Nat}
    (detMap : table = 1 → u.detMap = t.detMap := by exact fun _ => rfl)
    (conds : table = 2 → u.conds = t.conds := by exact fun _ => rfl)
    (matches_ : table = 3 → u.matches_ = t.matches_ := by exact fun _ => rfl)
    (plans : table = 4 → u.plans = t.plans := by exact fun _ => rfl)
    (curves : table = 5 → u.curves = t.curves := by exact fun _ => rfl)
    (rampCfg : table = 6 → u.rampCfg = t.rampCfg := by exact fun _ => rfl)
    (laneCfg : table = 7 → u.laneCfg = t.laneCfg := by exact fun _ => rfl)
    (outMap : table = 8 → u.outMap = t.outMap := by exact fun _ => rfl)
    (actions : table = 9 → u.actions = t.actions := by exact fun _ => rfl)
    (settings : table = 10 → u.settings = t.settings := by exact fun _ => rfl) (i : Nat) :
    storedRecord u table i = storedRecord t table i := by
  unfold storedRecord planRec curveRec
  split <;> simp_all only

theorem vset_getElem? {α : Type} {n : Nat} (v : Vector α n) (i : Fin n) (x : α) (j : Nat) :
    (vset v i x)[j]? = if i.val = j then some x else v[j]? :=
  Vector.getElem?_set i.isLt

theorem stored_place {α : Type} {n : Nat} (v : Vector (Option α) n) (i : Fin n) : (v[i.val]?).join = v[i] := by
  rw [Vector.getElem?_eq_getElem i.isLt]
  rfl

theorem vset_here {α : Type} {n : Nat} (v : Vector (Option α) n) (i : Fin n) (x : Option α) :
    ((vset v i x)[i.val]?).join = x := by
  rw [vset_getElem?, if_pos rfl]
  rfl

theorem vset_there {α : Type} {n j : Nat} {v : Vector (Option α) n} {i : Fin n} {x : Option α} (other : j ≠ i.val) :
    ((vset v i x)[j]?).join = (v[j]?).join := by
  rw [vset_getElem?, if_neg (Ne.symm other)]

/-- One index changes: the index itself, the others of its table and the other tables. -/
theorem storedAt_of {t u : Tables} {table index : Nat} {x : Option (List Byte)} (here : storedRecord u table index = x)
    (beside : ∀ i : Nat, table ≠ 10 → i ≠ index → storedRecord u table i = storedRecord t table i)
    (elsewhere : ∀ a : Nat, a ≠ table → ∀ i : Nat, storedRecord u a i = storedRecord t a i) : StoredAt t u table index x where
  here := here
  others a i other bound := by
    by_cases same : a = table
    · subst same
      exact beside i (bound.elim id id) fun e => other (by rw [e])
    · exact elsewhere a same i

section Fields
variable (t : Tables)

theorem storedAt_detMap (ch : Channel) (x : Option DetRec) :
    StoredAt t { t with detMap := vset t.detMap ch x } 1 ch.val (x.map writeDet) :=
  storedAt_of (congrArg (Option.map writeDet) (vset_here ..))
    (fun _ _ other => congrArg (Option.map writeDet) (vset_there other))
    fun _ other => storedRecord_congr (detMap := fun h => absurd h other)

theorem storedAt_conds (i : Fin 64) (x : Option CondRec) :
    StoredAt t { t with conds := vset t.conds i x } 2 i.val (x.map writeCond) :=
  storedAt_of (congrArg (Option.map writeCond) (vset_here ..))
    (fun _ _ other => congrArg (Option.map writeCond) (vset_there other))
    fun _ other => storedRecord_congr (conds := fun h => absurd h other)

theorem storedAt_matches (i : Fin 48) (x : Option MatchRec) :
    StoredAt t { t with matches_ := vset t.matches_ i x } 3 i.val (x.map writeMatch) :=
  storedAt_of (congrArg (Option.map writeMatch) (vset_here ..))
    (fun _ _ other => congrArg (Option.map writeMatch) (vset_there other))
    fun _ other => storedRecord_congr (matches_ := fun h => absurd h other)

/-- A table whose records are numbered from one. -/
theorem vset_there_from_one {α : Type} {n j : Nat} {v : Vector (Option α) n} {i : Fin n} {x : Option α}
    (other : j ≠ i.val + 1) :
    (if j = 0 then none else ((vset v i x)[j - 1]?).join) = if j = 0 then none else (v[j - 1]?).join := by
  by_cases zero : j = 0
  · rw [if_pos zero, if_pos zero]
  · rw [if_neg zero, if_neg zero, vset_there (by omega)]

theorem storedAt_plans (i : Fin 32) (x : Option PlanRec) :
    StoredAt t { t with plans := vset t.plans i x } 4 (i.val + 1) (x.map writePlan) :=
  storedAt_of (congrArg (Option.map writePlan) (vset_here ..))
    (fun _ _ other => congrArg (Option.map writePlan) (vset_there_from_one other))
    fun _ other => storedRecord_congr (plans := fun h => absurd h other)

theorem storedAt_curves (i : Fin 8) (x : Option CurveRec) :
    StoredAt t { t with curves := vset t.curves i x } 5 (i.val + 1) (x.map writeCurve) :=
  storedAt_of (congrArg (Option.map writeCurve) (vset_here ..))
    (fun _ _ other => congrArg (Option.map writeCurve) (vset_there_from_one other))
    fun _ other => storedRecord_congr (curves := fun h => absurd h other)

theorem storedAt_rampCfg (r : Ramp) (x : Option RampRec) :
    StoredAt t { t with rampCfg := vset t.rampCfg r x } 6 r.val (x.map writeRamp) :=
  storedAt_of (congrArg (Option.map writeRamp) (vset_here ..))
    (fun _ _ other => congrArg (Option.map writeRamp) (vset_there other))
    fun _ other => storedRecord_congr (rampCfg := fun h => absurd h other)

theorem storedAt_laneCfg (l : Lane) (x : Option LaneRec) :
    StoredAt t { t with laneCfg := vset t.laneCfg l x } 7 (l.val + 1) (x.map writeLane) := by
  refine storedAt_of (congrArg (Option.map writeLane) (vset_here ..)) (fun i _ other => ?_)
    fun _ other => storedRecord_congr (laneCfg := fun h => absurd h other)
  simp only [storedRecord]
  by_cases zero : i = 0
  · rw [if_pos zero, if_pos zero]
  · rw [if_neg zero, if_neg zero, vset_there (by omega)]

theorem storedAt_outMap (ch : OutCh) (x : Option OutRec) :
    StoredAt t { t with outMap := vset t.outMap ch x } 8 ch.val (x.map writeOut) :=
  storedAt_of (congrArg (Option.map writeOut) (vset_here ..))
    (fun _ _ other => congrArg (Option.map writeOut) (vset_there other))
    fun _ other => storedRecord_congr (outMap := fun h => absurd h other)

theorem storedAt_actions (i : Fin 20) (x : Option ActionRec) :
    StoredAt t { t with actions := vset t.actions i x } 9 i.val (x.map writeAction) :=
  storedAt_of (congrArg (Option.map writeAction) (vset_here ..))
    (fun _ _ other => congrArg (Option.map writeAction) (vset_there other))
    fun _ other => storedRecord_congr (actions := fun h => absurd h other)

theorem storedAt_settings (x : Option Nat) : StoredAt t { t with settings := x } 10 0 (x.map be16) :=
  storedAt_of rfl (fun _ same => absurd rfl same) fun _ other => storedRecord_congr (settings := fun h => absurd h other)

end Fields

/-! ### The tables behind each record put -/

section Put
variable (s : State)

theorem putDetMap_tables (ch : Channel) (x : Option DetRec) :
    (putDetMap ch x s).tables = { s.tables with detMap := vset s.tables.detMap ch x } :=
  (announce_side s _).tables

theorem putRamp_tables (r : Ramp) (x : Option RampRec) :
    (putRamp r x s).tables = { s.tables with rampCfg := vset s.tables.rampCfg r x } :=
  (putRamp_side r x s).tables

theorem putLaneCfg_tables (l : Lane) (x : Option LaneRec) :
    (putLaneCfg l x s).tables = { s.tables with laneCfg := vset s.tables.laneCfg l x } :=
  (putLaneCfg_side l x s).tables

theorem touchStation_tables (st : Option Nat) : (touchStation st s).tables = s.tables :=
  (congrArg State.tables (touchStation_touched st s).frame).trans rfl

/-- The Output Map's new record in place and its channel back at its reset values but for its commanded aspect. -/
def outRecordPut (ch : OutCh) (x : Option OutRec) (s : State) : State :=
  ({ s with tables := { s.tables with outMap := vset s.tables.outMap ch x } }).setOut ch (resetOutChan s.out.chans[ch])

/-- The attention that a fault of the channel sets on the ramp it belonged to. -/
def tellOwner (owner : Option Ramp) (fault : Bool) (s : State) : State :=
  match owner with
  | some r => attentionIf fault r s
  | none => s

theorem putOutMap_eq (ch : OutCh) (x : Option OutRec) : putOutMap ch x s
    = judgeSilence ch (touchStation (x.map (·.station)) (touchStation ((s.tables.outMap[ch]).map (·.station))
      (tellOwner (ownerOf s.tables ch) (s.out.chans[ch]).fault (outRecordPut ch x s)))) := by
  unfold putOutMap tellOwner outRecordPut
  cases ownerOf s.tables ch <;> rfl

theorem tellOwner_side (owner : Option Ramp) (fault : Bool) : LaneSide s (tellOwner owner fault s) := by
  cases owner with
  | none => exact LaneSide.refl s
  | some r => exact attentionIf_side fault r s

theorem putOutMap_tables (ch : OutCh) (x : Option OutRec) :
    (putOutMap ch x s).tables = { s.tables with outMap := vset s.tables.outMap ch x } := by
  rw [putOutMap_eq, (judgeSilence_side ch _).tables, touchStation_tables, touchStation_tables, (tellOwner_side ..).tables]
  rfl

end Put

/-! ### A write and a clear that are done -/

theorem atIndex_done {n lo index : Nat} {s u : State} {f : Fin n → Result × State} (done : atIndex lo index s f = (.done, u)) :
    ∃ i : Fin n, index = i.val + lo ∧ f i = (.done, u) := by
  by_cases inside : lo ≤ index ∧ index < n + lo
  · have place : index = (⟨index - lo, by omega⟩ : Fin n).val + lo := by dsimp only; omega
    exact ⟨_, place, (atIndex_at _ place).symm.trans done⟩
  · rw [atIndex_out lo index s f (by omega)] at done
    cases done

section Done
variable {α : Type} {s u : State}

theorem writeTested_takes {read : Option α} {conflict locked : α → Bool} {put : Option α → State → State}
    (done : writeTested read conflict locked put s = (.done, u)) : ∃ x, read = some x ∧ u = put (some x) s := by
  cases read with
  | none => cases done
  | some x =>
    refine ⟨x, rfl, ?_⟩
    have judged := writeTested_judged (rec := some x) (conflict := conflict) (locked := locked) (put := put) (s := s) rfl
      Iff.rfl Iff.rfl
    obtain ⟨refused, used, taken⟩ := judged
    by_cases conflicts : conflict x = true
    · cases (refused conflicts).symm.trans done
    by_cases locks : locked x = true
    · cases (used conflicts locks).symm.trans done
    · exact (congrArg Prod.snd ((taken conflicts locks).symm.trans done)).symm

theorem clearTested_takes {stored : Option α} {locked : Bool} {put : Option α → State → State}
    (done : clearTested stored locked put s = (.done, u)) : u = if stored.isSome then put none s else s := by
  obtain ⟨used, taken⟩ := clearTested_judged (stored := stored) (locked := locked) (put := put) (s := s) Iff.rfl
  by_cases locks : locked = true
  · cases (used locks).symm.trans done
  · exact (congrArg Prod.snd ((taken locks).symm.trans done)).symm

variable {n lo table index : Nat} {record : List Byte} {put : Fin n → Option α → State → State} {write : α → List Byte}

/-- A table's write that is done stores the record, where its writer inverts its reader. -/
theorem writeAt_stores {read : Option α} {conflict locked : Fin n → α → Bool} (reads : ∀ {x}, read = some x → write x = record)
    (stores : ∀ (i : Fin n) (x : Option α), StoredAt s.tables (put i x s).tables table (i.val + lo) (x.map write))
    (done : atIndex lo index s (fun i => writeTested read (conflict i) (locked i) (put i) s) = (.done, u)) :
    StoredAt s.tables u.tables table index (some record) := by
  obtain ⟨i, place, tested⟩ := atIndex_done done
  obtain ⟨x, taken, result⟩ := writeTested_takes tested
  rw [place, result, ← reads taken]
  exact stores i (some x)

/-- A table's clear that is done leaves its index unset, whether it was set or not. -/
theorem clearAt_stores {stored : Fin n → Option α} {locked : Fin n → Bool}
    (stores : ∀ (i : Fin n) (x : Option α), StoredAt s.tables (put i x s).tables table (i.val + lo) (x.map write))
    (reads : ∀ i : Fin n, storedRecord s.tables table (i.val + lo) = (stored i).map write)
    (done : atIndex lo index s (fun i => clearTested (stored i) (locked i) (put i) s) = (.done, u)) :
    StoredAt s.tables u.tables table index none := by
  obtain ⟨i, place, tested⟩ := atIndex_done done
  have result := clearTested_takes tested
  rw [place, result]
  cases set : stored i with
  | some _ => exact stores i none
  | none => exact ⟨(reads i).trans (congrArg (Option.map write) set), fun _ _ _ _ => rfl⟩

end Done

section Stores
variable (s : State)

theorem putDetMap_stores (ch : Channel) (x : Option DetRec) :
    StoredAt s.tables (putDetMap ch x s).tables 1 (ch.val + 0) (x.map writeDet) := by
  rw [putDetMap_tables]
  exact storedAt_detMap s.tables ch x

theorem putRamp_stores (r : Ramp) (x : Option RampRec) :
    StoredAt s.tables (putRamp r x s).tables 6 (r.val + 0) (x.map writeRamp) := by
  rw [putRamp_tables]
  exact storedAt_rampCfg s.tables r x

theorem putLaneCfg_stores (l : Lane) (x : Option LaneRec) :
    StoredAt s.tables (putLaneCfg l x s).tables 7 (l.val + 1) (x.map writeLane) := by
  rw [putLaneCfg_tables]
  exact storedAt_laneCfg s.tables l x

theorem putOutMap_stores (ch : OutCh) (x : Option OutRec) :
    StoredAt s.tables (putOutMap ch x s).tables 8 (ch.val + 0) (x.map writeOut) := by
  rw [putOutMap_tables]
  exact storedAt_outMap s.tables ch x

end Stores

theorem writeTable_stores {table index : Nat} {record : List Byte} {s u : State} (shape : shapeOk table record = true)
    (done : writeTable table index record s = (.done, u)) : StoredAt s.tables u.tables table index (some record) := by
  match table, shape, done with
  | 1, _, done => exact writeAt_stores writeDet_readDet (putDetMap_stores s) done
  | 2, _, done => exact writeAt_stores writeCond_readCond (storedAt_conds s.tables) done
  | 3, _, done => exact writeAt_stores writeMatch_readMatch (storedAt_matches s.tables) done
  | 4, _, done => exact writeAt_stores writePlan_readPlan (storedAt_plans s.tables) done
  | 5, shape, done => exact writeAt_stores (writeCurve_readCurve shape) (storedAt_curves s.tables) done
  | 6, _, done => exact writeAt_stores writeRamp_readRamp (putRamp_stores s) done
  | 7, _, done => exact writeAt_stores writeLane_readLane (putLaneCfg_stores s) done
  | 8, _, done => exact writeAt_stores writeOut_readOut (putOutMap_stores s) done
  | 9, _, done => exact writeAt_stores writeAction_readAction (storedAt_actions s.tables) done
  | 10, _, done =>
    by_cases first : index = 0
    · subst first
      obtain ⟨w, read, result⟩ := writeTested_takes ((writeTable_settings record s).symm.trans done)
      rw [result, ((readSettings_iff record w).mp read).2]
      exact storedAt_settings s.tables (some w)
    · cases (if_neg first).symm.trans done
  | 0, _, done => cases done
  | _ + 11, _, done => cases done

theorem clearTable_stores {table index : Nat} {s u : State} (done : clearTable table index s = (.done, u)) :
    StoredAt s.tables u.tables table index none := by
  match table, done with
  | 1, done => exact clearAt_stores (putDetMap_stores s) (fun i => congrArg (Option.map writeDet) (stored_place _ i)) done
  | 2, done => exact clearAt_stores (storedAt_conds s.tables) (fun i => congrArg (Option.map writeCond) (stored_place _ i)) done
  | 3, done => exact clearAt_stores (storedAt_matches s.tables) (fun i => congrArg (Option.map writeMatch) (stored_place _ i)) done
  | 4, done => exact clearAt_stores (lo := 1) (storedAt_plans s.tables) (fun i => congrArg (Option.map writePlan) (stored_place s.tables.plans i)) done
  | 5, done => exact clearAt_stores (lo := 1) (storedAt_curves s.tables) (fun i => congrArg (Option.map writeCurve) (stored_place s.tables.curves i)) done
  | 6, done => exact clearAt_stores (putRamp_stores s) (fun i => congrArg (Option.map writeRamp) (stored_place _ i)) done
  | 7, done => exact clearAt_stores (putLaneCfg_stores s) (fun i => congrArg (Option.map writeLane) (stored_place _ i)) done
  | 8, done => exact clearAt_stores (putOutMap_stores s) (fun i => congrArg (Option.map writeOut) (stored_place _ i)) done
  | 9, done => exact clearAt_stores (storedAt_actions s.tables) (fun i => congrArg (Option.map writeAction) (stored_place _ i)) done
  | 10, done =>
    by_cases first : index = 0
    · subst first
      rw [clearTested_takes ((clearTable_settings s).symm.trans done)]
      cases set : s.tables.settings with
      | some _ => exact storedAt_settings s.tables none
      | none => exact ⟨congrArg (Option.map be16) set, fun _ _ _ _ => rfl⟩
    · cases (if_neg first).symm.trans done
  | 0, done => cases done
  | _ + 11, done => cases done

/-- Settles O21: the record read back is the one the reader took, its writer being the reader's inverse. -/
theorem writtenRecordReadsBack : Obligations.WrittenRecordReadsBack := by
  unfold Obligations.WrittenRecordReadsBack
  intro table index record s u shape done
  obtain ⟨here, others⟩ := writeTable_stores shape done
  exact ⟨here, fun t i other _ bound => others t i other bound⟩

/-- Settles O25. -/
theorem clearedRecordReadsUnset : Obligations.ClearedRecordReadsUnset := by
  unfold Obligations.ClearedRecordReadsUnset
  intro table index s u done
  obtain ⟨here, others⟩ := clearTable_stores done
  exact ⟨here, others⟩

end Sys2Proof.Machine
end

section
/-! SUPPORT. The effect of a TABLE WRITE that is done, table by table (R3, R15, R126, R127, R130, R172). -/

namespace Sys2Proof.Machine

/-- A write of a record that its reader takes, without conflict or lock, answers with the record put. -/
theorem written {own src : Nat} {s : State} (serves : Serves own src s) {t i : Byte} {record : List Byte}
    (fits : record.length ≤ 45) {α : Type} {read : Option α} {conflict locked : α → Bool} {put : Option α → State → State}
    {x : α} (shape : shapeOk t.toNat record = true)
    (place : writeTable t.toNat i.toNat record (heard s) = writeTested read conflict locked put (heard s))
    (taken : read = some x) (free : conflict x = false) (idle : locked x = false) :
    exec (.tableWrite src t i record) s
      = .next (respond src (2 :: t :: i :: record) (answer [t, i] (put (some x) (heard s)))) := by
  rw [exec_tableWrite serves t i fits, tableWrite_shaped _ shape, place, writeTested_done taken free idle]
  rfl

/-! ### The Detector Map (R3) -/

/-- The announcement of a channel's new record is made on the state with the record and the reset channel alone. -/
theorem putDetMap_announces (ch : Channel) (rec : Option DetRec) (s : State) :
    ∃ t : State, t = { s with
        tables := { s.tables with detMap := vset s.tables.detMap ch rec }
        det := (putDetMap ch rec s).det } ∧ putDetMap ch rec s = announce s t := by
  refine ⟨_, ?_, rfl⟩
  rw [putDetMap, (announce_side s _).det]
  rfl

theorem putDetMap_det (ch : Channel) (rec : Option DetRec) (s : State) :
    (putDetMap ch rec s).det = { s.det with chans := vset s.det.chans ch DetState.reset } :=
  (announce_side s _).det

/-! ### The Output Map (R126, R127) -/

section Out
variable (ch : OutCh) (rec : Option OutRec) (s : State)

/-- The state with the new record, the reset channel and the owner told, ahead of the stations. -/
def outReplaced (ch : OutCh) (rec : Option OutRec) (s : State) : State :=
  tellOwner (ownerOf s.tables ch) (s.out.chans[ch]).fault (outRecordPut ch rec s)

theorem tellOwner_rest (owner : Option Ramp) (fault : Bool) :
    (tellOwner owner fault s).lanes = s.lanes ∧ (tellOwner owner fault s).out = s.out := by
  cases owner with
  | none => exact ⟨rfl, rfl⟩
  | some r => exact attentionIf_rest fault r s

theorem outReplaced_side : LaneSide (outRecordPut ch rec s) (outReplaced ch rec s) := tellOwner_side ..

theorem outReplaced_out : (outReplaced ch rec s).out = { s.out with
    chans := vset s.out.chans ch (resetOutChan s.out.chans[ch]) } := (tellOwner_rest ..).2

theorem outReplaced_tables : (outReplaced ch rec s).tables = { s.tables with outMap := vset s.tables.outMap ch rec } :=
  (outReplaced_side ch rec s).tables

theorem outReplaced_attention {r : Ramp} (owner : ownerOf s.tables ch = some r) (fault : (s.out.chans[ch]).fault = true) :
    ((outReplaced ch rec s).ramps[r]).attention = true := by
  rw [outReplaced, owner, fault]
  exact (congrArg RampCtx.attention (attentionIf_ramp true r _)).trans (Bool.or_true _)

/-- The stations that the old record and the new one name. -/
def stationTouched (ch : OutCh) (rec : Option OutRec) (t : Tables) (st : Nat) : Prop :=
  (t.outMap[ch]).map (·.station) = some st ∨ rec.map (·.station) = some st

/-- The state with its drivers and due SIGs as the new map has them, ahead of the channel's judgement. -/
theorem putOutMap_touches : ∃ t : State, Touched (stationTouched ch rec s.tables) (outReplaced ch rec s) t
    ∧ putOutMap ch rec s = judgeSilence ch t := by
  rw [putOutMap_eq]
  exact ⟨_, (touchStation_touched _ _).trans (touchStation_touched _ _), rfl⟩

theorem outReplaced_same (q : Ramp) : SameRamp s (outReplaced ch rec s) q := (outReplaced_side ch rec s).ramps q

theorem outReplaced_undisturbed : (outReplaced ch rec s).lanes = s.lanes ∧ UnitsUndisturbed s (outReplaced ch rec s)
    ∧ (outReplaced ch rec s).det = s.det ∧ (outReplaced ch rec s).time = s.time := by
  have side := outReplaced_side ch rec s
  exact ⟨(tellOwner_rest ..).1, ⟨side.vectors, side.auth, side.onTimers, side.rate⟩, side.det, side.time⟩

/-- The channel written: its reset values but for the aspect commanded, and a fault only of a lit one on a silent
driver (R126). -/
theorem putOutMap_channel (u : State) (put : u = putOutMap ch rec s) :
    (u.out.chans[ch]).commanded = (s.out.chans[ch]).commanded ∧ (u.out.chans[ch]).reported = .absent
    ∧ (u.out.chans[ch]).lampOut = false ∧ (u.out.chans[ch]).mismatch = .stopped
    ∧ ((s.out.chans[ch]).commanded = .dark ∨ (∀ d ∈ s.out.drivers, d.silence ≠ .expired) →
        (u.out.chans[ch]).fault = false)
    ∧ ∀ c : OutCh, c ≠ ch → u.out.chans[c] = s.out.chans[c] := by
  obtain ⟨t, touches, result⟩ := putOutMap_touches ch rec s
  have chans : t.out.chans = vset s.out.chans ch (resetOutChan s.out.chans[ch]) := by
    rw [touches.frame]
    exact congrArg OutUnit.chans (outReplaced_out ch rec s)
  have here : t.out.chans[ch] = resetOutChan s.out.chans[ch] := by rw [chans]; exact vset_same ..
  have others (c : OutCh) (other : c ≠ ch) : u.out.chans[c] = s.out.chans[c] := by
    rw [put, result, (judgeSilence_get ch t).2.2 c other, chans]
    exact vset_other _ _ _ _ (Ne.symm other)
  obtain ⟨_, judged⟩ := judgeSilence_at ch t
  rw [← result, ← put, here] at judged
  rcases judged with same | ⟨lit, faulted⟩
  · rw [same]
    exact ⟨rfl, rfl, rfl, rfl, fun _ => rfl, others⟩
  · refine ⟨by rw [faulted]; rfl, by rw [faulted]; rfl, by rw [faulted]; rfl, by rw [faulted], fun free => ?_, others⟩
    rcases free with dark | present
    · exact absurd dark lit
    · rw [put, result]
      refine (judgeSilence_side ch t).sound (touches.present ?_) ch (by rw [here]; rfl)
      rw [outReplaced_out]
      exact present

/-- The stations that the old record or the new one names: a SIG each, and a driver for those that the map names (R127). -/
theorem putOutMap_stations (u : State) (put : u = putOutMap ch rec s) :
    (∀ st : Nat, st ∈ u.out.sigDue ↔ st ∈ s.out.sigDue ∨ stationTouched ch rec s.tables st)
    ∧ (∀ st : Nat, ¬ stationTouched ch rec s.tables st → driverOf u.out st = driverOf s.out st)
    ∧ (∀ st : Nat, stationTouched ch rec s.tables st → namesStation u.tables st = false → driverOf u.out st = none)
    ∧ (∀ st : Nat, stationTouched ch rec s.tables st → namesStation u.tables st = true →
        driverOf u.out st = some ((driverOf s.out st).getD ⟨st, .stopped, .running 0⟩)) := by
  obtain ⟨t, touches, result⟩ := putOutMap_touches ch rec s
  have sigs : u.out.sigDue = t.out.sigDue := by rw [put, result, (judgeSilence_at ch t).1]
  have drivers (st : Nat) : driverOf u.out st = driverOf t.out st := by
    rw [put, result, driverOf, (judgeSilence_side ch t).drivers]
    rfl
  have before (st : Nat) : driverOf (outReplaced ch rec s).out st = driverOf s.out st := by
    rw [outReplaced_out]
    rfl
  have tables : u.tables = (outReplaced ch rec s).tables := by
    rw [put, putOutMap_tables, outReplaced_tables]
  have dueBefore : (outReplaced ch rec s).out.sigDue = s.out.sigDue := by rw [outReplaced_out]
  refine ⟨fun st => ?_, fun st other => ?_, fun st touched gone => ?_, fun st touched named => ?_⟩
  · rw [sigs, touches.due, dueBefore]
  · rw [drivers, touches.others st other, before]
  · rw [drivers, touches.left st touched (tables ▸ gone)]
  · rw [drivers, touches.entered st touched (tables ▸ named), before]

/-- What a write of the Output Map leaves of the rest of the state: at most attention set, the owner's for a fault. -/
theorem putOutMap_rest (u : State) (put : u = putOutMap ch rec s) :
    (∀ r : Ramp, ownerOf s.tables ch = some r → (s.out.chans[ch]).fault = true → (u.ramps[r]).attention = true)
    ∧ (∀ q : Ramp, SameRamp s u q) ∧ u.lanes = s.lanes ∧ UnitsUndisturbed s u ∧ u.det = s.det ∧ u.time = s.time := by
  obtain ⟨t, touches, result⟩ := putOutMap_touches ch rec s
  have judged := (judgeSilence_spec ch t).1
  rw [← result, ← put] at judged
  obtain ⟨_, units, lanes⟩ := judged.undisturbed
  have side := judgeSilence_side ch t
  rw [← result, ← put] at side
  obtain ⟨lanesBefore, unitsBefore, detBefore, timeBefore⟩ := outReplaced_undisturbed ch rec s
  have ramps : t.ramps = (outReplaced ch rec s).ramps := by rw [touches.frame]
  have same (q : Ramp) : SameRamp t u q := judged.ramps q
  have unitsTouched : UnitsUndisturbed (outReplaced ch rec s) t := by
    rw [touches.frame]
    exact ⟨rfl, rfl, rfl, rfl⟩
  refine ⟨fun r owner fault => (same r).attention (ramps ▸ outReplaced_attention ch rec s owner fault), fun q => ?_, ?_,
    (unitsBefore.trans unitsTouched).trans units, ?_, ?_⟩
  · have first : SameRamp s t q := by
      unfold SameRamp
      rw [ramps]
      exact outReplaced_same ch rec s q
    exact first.trans (same q)
  · rw [lanes, touches.frame, lanesBefore]
  · rw [side.det, touches.frame, detBefore]
  · rw [side.time, touches.frame, timeBefore]

end Out

/-! ### The Ramp Config of a ramp in OFF (R115, R130) -/

section Ramp
variable (r : Ramp) (rec : Option RampRec) (s : State)

/-- In OFF the spillback and line tests move the ramp's own unit alone. -/
theorem putRamp_off (off : (s.ramps[r]).state = .off) (free : OffFree s r) :
    InUnit r (rampConfigured r rec s) (putRamp r rec s) := by
  have side := rampConfigured_side r rec s
  have stateOff : ((rampConfigured r rec s).ramps[r]).state = .off := (side.state r).trans off
  have vacant : ((rampConfigured r rec s).auth[r]).holder = none := by rw [side.auth]; exact free off
  have restarted := restartSpillback_off stateOff vacant
  have ramps : (restartSpillback r (rampConfigured r rec s)).ramps = (rampConfigured r rec s).ramps := by
    rw [restarted.frame]
  exact restarted.trans (judgeLines_off (ramps ▸ stateOff) (restarted.holder.trans vacant))

end Ramp

/-! ### Places -/

theorem condRec_at (t : Tables) (r : Ramp) (c : Fin 16) {i : Fin 64} (place : i.val = r.val * 16 + c.val) :
    condRec t r c = t.conds[i] := by
  rw [condRec, ← place]
  exact stored_place ..

theorem matchRec_at (t : Tables) (r : Ramp) (p : Fin 12) {i : Fin 48} (place : i.val = r.val * 12 + p.val) :
    matchRec t r p = t.matches_[i] := by
  rw [matchRec, ← place]
  exact stored_place ..

theorem actionRec_at (t : Tables) (r : Ramp) {k : Source} {i : Fin 20} (ranked : 1 ≤ k.val)
    (place : i.val + 1 = r.val * 5 + k.val) : actionRec t r k = t.actions[i] := by
  have notFailsafe : k ≠ 0 := fun zero => absurd (zero ▸ ranked) (by decide)
  rw [actionRec, if_neg notFailsafe, ← place]
  exact stored_place ..

/-- Settles O22: each table's write stands at its index, and each effect is read off the rules of its review. -/
theorem tableWriteCompletes : Obligations.TableWriteCompletes := by
  unfold Obligations.TableWriteCompletes
  refine ⟨fun own src s record serves fits => ?writes, fun ch rec s u put => ?detMap,
    fun ch rec s u touched put names => ?outMap, fun rec s u put => ?settings, fun l rec s u put => ?laneCfg,
    fun r rec s u off free put => ?rampCfg, fun s => ⟨fun _ _ => rfl, fun _ _ => rfl, fun _ _ => rfl, fun _ _ => rfl,
      fun _ _ => rfl⟩,
    fun t r => ⟨fun c i => condRec_at t r c, fun p i => matchRec_at t r p, fun k i => actionRec_at t r, if_pos rfl,
      if_pos rfl, if_pos rfl, fun i => stored_place t.plans i, fun i => stored_place t.curves i⟩⟩
  case writes =>
    rw [← heard_tables s]
    exact ⟨
      fun ch d shape read free old new => written serves fits shape (writeTable_detMap record _ (byte_place ch (by decide)))
        read free (by rw [old, new]; rfl),
      fun i d shape read => written serves fits shape (writeTable_conds record _ (byte_place i (by decide))) read rfl rfl,
      fun i d shape read => written serves fits shape (writeTable_matches record _ (byte_place i (by decide))) read rfl rfl,
      fun i d shape read => written serves fits shape (writeTable_plans record _ (byte_index i (by decide))) read rfl rfl,
      fun i d shape read => written serves fits shape (writeTable_curves record _ (byte_index i (by decide))) read rfl rfl,
      fun r d shape read free off => written serves fits shape (writeTable_rampCfg record _ (byte_place r (by decide)))
        read free (by rw [inUse, off]; rfl),
      fun l d shape read free idle => written serves fits shape (writeTable_laneCfg record _ (byte_index l (by decide)))
        read free idle,
      fun ch d shape read free idle => written serves fits shape (writeTable_outMap record _ (byte_place ch (by decide)))
        read free idle,
      fun i d shape read => written serves fits shape (writeTable_actions record _ (byte_place i (by decide))) read rfl rfl,
      fun w shape read idle => written serves fits shape (writeTable_settings record _) read rfl idle⟩
  case detMap =>
    have det := putDetMap_det ch rec s
    have side := announce_side s (({ s with tables := { s.tables with detMap := vset s.tables.detMap ch rec } }).setChan ch
      DetState.reset)
    rw [put]
    refine ⟨putDetMap_tables s ch rec, ?_, fun c other => ?_, ?_, ?_, side.time, side.lines, putDetMap_announces ch rec s⟩
    · rw [det]
      exact vset_same ..
    · rw [det]
      exact vset_other _ _ _ _ (Ne.symm other)
    · rw [det]
    · rw [det]
  case outMap =>
    have touches (st : Nat) : touched st ↔ stationTouched ch rec s.tables st := by
      rw [names, stationTouched, Option.map_eq_some_iff, Option.map_eq_some_iff]
    obtain ⟨commanded, reported, lampOut, mismatch, fault, others⟩ := putOutMap_channel ch rec s u put
    obtain ⟨sigs, untouched, left, entered⟩ := putOutMap_stations ch rec s u put
    obtain ⟨attention, same, lanes, units, det, time⟩ := putOutMap_rest ch rec s u put
    refine ⟨put ▸ putOutMap_tables s ch rec, commanded, reported, lampOut, mismatch, fault, others, attention,
      fun st => ?_, fun st no => untouched st (no ∘ (touches st).mpr), fun st yes gone => left st ((touches st).mp yes) ?_,
      fun st c o yes mapped station => entered st ((touches st).mp yes)
        ((namesStation_iff _ _).mpr ⟨c, o, mapped, station⟩), same, lanes, units, det, time⟩
    · rw [sigs, touches]
    · rw [← Bool.not_eq_true, namesStation_iff]
      rintro ⟨c, o, mapped, station⟩
      exact gone c o mapped station
  case settings => exact put ▸ ⟨rfl, rfl, rfl⟩
  case laneCfg =>
    obtain ⟨reviewed, same, frame⟩ := reviewChecked_spec _ s u put
    exact ⟨frame, same, reviewed⟩
  case rampCfg =>
    have inUnit := putRamp_off r rec s off free
    obtain ⟨reviewed, same, frame⟩ := reviewChecked_spec _ s (rampConfigured r rec s) rfl
    have out : u.out = (rampConfigured r rec s).out := by rw [put, inUnit.frame]
    have ramps : u.ramps = (rampConfigured r rec s).ramps := by rw [put, inUnit.frame]
    have tables : u.tables = (rampConfigured r rec s).tables := by rw [put, inUnit.frame]
    have auth : (rampConfigured r rec s).auth = s.auth := (rampConfigured_side r rec s).auth
    refine ⟨?_, fun q other => ?_, ?_, fun q => ?_, fun ch => (reviewed ch).congr tables out ramps⟩
    · rw [out, ramps, put]
      refine inUnit.frame.trans ?_
      rw [frame]
    · rw [put, inUnit.others q other, auth]
    · rw [put, inUnit.holder, auth]
      exact free off
    · unfold SameRamp
      rw [ramps]
      exact same q

end Sys2Proof.Machine
end

section
/-! SUPPORT. STATUS (R179 to R182, 11.4): each section's codes, byte by byte. -/

namespace Sys2Proof.Machine

/-! ### Codes (11.4, 11.5) -/

theorem modeCode_eq (m : Mode) : modeCode m = byte ([Mode.off, .auto].idxOf m) := by cases m <;> rfl

theorem rampStateCode_eq (x : RampState) : rampStateCode x = byte ([RampState.off, .standby, .warn, .startGreen, .startClear,
    .metering, .shutClear, .shutFlush, .darkFail].idxOf x) := by cases x <;> rfl

theorem laneStateCode_eq (x : LaneState) : laneStateCode x
    = byte ([LaneState.dark, .greenRest, .restRed, .delay, .green, .yellow, .minRed].idxOf x) := by cases x <;> rfl

/-- A bit function is the one that a flag is counted by. -/
theorem bit_eq {bit : Bool → Nat} (bits : ∀ b : Bool, bit b = if b = true then 1 else 0) : bit = Bool.toNat :=
  funext fun b => (bits b).trans (by cases b <;> rfl)

/-- Functions with the bytes of 11.4 for holds and leases are the model's. -/
theorem times_eq {hold : Option Hold → List Byte} {lease : Option Nat → List Byte}
    (times : ∀ n : Nat, hold none = [0, 0] ∧ hold (some .uncapped) = [255, 255]
      ∧ hold (some (.running n)) = be16 ((n + 99999) / 100000) ∧ hold (some (.paused n)) = be16 ((n + 99999) / 100000)
      ∧ lease none = [255, 255] ∧ lease (some n) = be16 ((n + 99999) / 100000)) :
    hold = holdBytes ∧ lease = leaseBytes := by
  obtain ⟨absent, uncapped, _, _, unleased, _⟩ := times 0
  constructor
  · funext x
    match x with
    | none => exact absent
    | some .uncapped => exact uncapped
    | some (.running n) => obtain ⟨_, _, running, _⟩ := times n; exact running
    | some (.paused n) => obtain ⟨_, _, _, paused, _⟩ := times n; exact paused
  · funext x
    match x with
    | none => exact unleased
    | some n => obtain ⟨_, _, _, _, _, leased⟩ := times n; exact leased

/-- A function with the codes of 11.4 for timers is the model's. -/
theorem timerCode_eq {timer : Timer → Nat}
    (codes : ∀ n : Nat, timer .stopped = 0 ∧ timer (.running n) = 1 ∧ timer .expired = 2) : timer = timerCode := by
  funext x
  match x with
  | .stopped => obtain ⟨stopped, _⟩ := codes 0; exact stopped
  | .running n => obtain ⟨_, running, _⟩ := codes n; exact running
  | .expired => obtain ⟨_, _, expired⟩ := codes 0; exact expired

/-- The spillback channels of a ramp, listed by their decided test. -/
theorem spillChannels_eq (s : State) (r : Ramp) :
    spillChannels s r = (List.finRange 64).filter fun ch => decide (spillRamp s.tables ch = some r) := by
  rw [spillChannels]
  congr 1
  funext ch
  rw [Bool.eq_iff_iff, beq_iff_eq, decide_eq_true_iff]

theorem weight_eq (b : Bool) (n : Nat) : (if b = true then n else 0) = n * b.toNat := by
  cases b
  · exact (Nat.mul_zero n).symm
  · exact (Nat.mul_one n).symm

theorem flagBits_four (a b c d : Bool) :
    flagBits [a, b, c, d] = a.toNat + 2 * b.toNat + 4 * c.toNat + 8 * d.toNat := by
  have one (x : Bool) : (if x = true then 1 else 0) = x.toNat := by cases x <;> rfl
  simp only [flagBits, one]
  omega

/-- The standing action's code and plan: a granted plan shows as the auto plan while ACTION_UNSET stands. -/
theorem effectiveBytes_standing (u : State) (r : Ramp) : effectiveBytes (standingAction u r) = (match (u.auth[r]).granted with
    | none => [0, byte (u.ramps[r]).autoPlan]
    | some .dark => [1, 0]
    | some .flush => [2, 0]
    | some .hold => [3, 0]
    | some (.plan n) => if (u.ramps[r]).actionUnset = true then [0, byte (u.ramps[r]).autoPlan] else [4, byte n]
    | some .failsafe => [5, 0]) := by
  unfold standingAction
  cases (u.auth[r]).granted with
  | none => rfl
  | some g =>
    cases g with
    | plan n => exact apply_ite effectiveBytes _ _ _
    | _ => rfl

theorem sourceByte_eq (x : SourceRec) :
    sourceByte x = byte (x.asserted.toNat + 2 * x.armed.toNat + 4 * x.spent.toNat + 8 * x.standing.toNat) :=
  congrArg byte (flagBits_four ..)

theorem toList_six {α : Type} (v : Vector α 6) : v.toList = ([0, 1, 2, 3, 4, 5] : List (Fin 6)).map fun k => v[k] := by
  have places : ([0, 1, 2, 3, 4, 5] : List (Fin 6)) = List.finRange 6 := by decide
  rw [places]
  apply List.ext_getElem <;> simp

theorem append_congr {a b c d : List Byte} (front : a = b) (back : c = d) : a ++ c = b ++ d := by rw [front, back]

/-! ### The request -/

section Request
variable (r : Ramp) (s : State)

theorem statusRequest_ramp : statusRequest (byte r.val) 1 s
    = answer (rampSection r (clearAttention r s)) (clearAttention r s) := onRamp_byte r s _

theorem statusRequest_authority : statusRequest (byte r.val) 2 s
    = answer (authoritySection r (clearAttention r s)) (drawnBy r (clearAttention r s)) := onRamp_byte r s _

theorem statusRequest_spillback : statusRequest (byte r.val) 3 s
    = answer (spillbackSection r (clearAttention r s)) (clearAttention r s) := onRamp_byte r s _

theorem statusRequest_bad {x : Byte} (outside : x = 0 ∨ 3 < x.toNat) :
    statusRequest (byte r.val) x s = refuse .badValue s := by
  refine (onRamp_byte r s _).trans ?_
  dsimp only
  split
  case h_4 => rfl
  all_goals
    rename_i number
    rcases outside with zero | above
    · rw [zero] at number
      cases number
    · omega

theorem clearAttention_auth : (clearAttention r s).auth = s.auth := rfl

theorem drawnBy_granted (granted : (s.auth[r]).lastGrant ≠ none) :
    drawnBy r (clearAttention r s) = clearAttention r s := by
  rw [drawnBy, clearAttention_auth]
  cases last : (s.auth[r]).lastGrant with
  | none => exact absurd last granted
  | some _ => rfl

theorem drawnBy_none (unset : (s.auth[r]).lastGrant = none) : drawnBy r (clearAttention r s)
    = { clearAttention r s with freeCount := (clearAttention r s).freeCount + 1 } := by
  rw [drawnBy, clearAttention_auth, unset]
  rfl

end Request

/-- The request served: the sections of the state left, or BADVALUE. -/
theorem statusRequests {own src : Nat} {s : State} (serves : Serves own src s) (r : Ramp) :
    exec (.status src (byte r.val) 1) s = .next (respond src [10, byte r.val, 1]
      (answer (rampSection r (clearAttention r (heard s))) (clearAttention r (heard s))))
    ∧ exec (.status src (byte r.val) 3) s = .next (respond src [10, byte r.val, 3]
      (answer (spillbackSection r (clearAttention r (heard s))) (clearAttention r (heard s))))
    ∧ (((heard s).auth[r]).lastGrant ≠ none → exec (.status src (byte r.val) 2) s = .next (respond src [10, byte r.val, 2]
      (answer (authoritySection r (clearAttention r (heard s))) (clearAttention r (heard s)))))
    ∧ (((heard s).auth[r]).lastGrant = none → exec (.status src (byte r.val) 2) s = .next (respond src [10, byte r.val, 2]
      (answer (authoritySection r (clearAttention r (heard s)))
        { clearAttention r (heard s) with freeCount := (clearAttention r (heard s)).freeCount + 1 })))
    ∧ ∀ x : Byte, x = 0 ∨ 3 < x.toNat → exec (.status src (byte r.val) x) s
      = .next (respond src [10, byte r.val, x] (refuse .badValue (heard s))) := by
  refine ⟨?_, ?_, fun granted => ?_, fun unset => ?_, fun x outside => ?_⟩
  · rw [exec_status serves, statusRequest_ramp]
  · rw [exec_status serves, statusRequest_spillback]
  · rw [exec_status serves, statusRequest_authority, drawnBy_granted r _ granted]
  · rw [exec_status serves, statusRequest_authority, drawnBy_none r _ unset]
  · rw [exec_status serves, statusRequest_bad r _ outside]

/-- Settles O31. -/
theorem statusClearsAttentionAndReports : Obligations.StatusClearsAttentionAndReports := by
  unfold Obligations.StatusClearsAttentionAndReports
  refine ⟨fun own src r s u serves cleared => ?request, fun r u c bit here bits => ?ramp,
    fun r u a bit hold lease faulted unit bits times faults => ?authority, fun r u bit timer spills bits codes listed => ?spillback⟩
  case request => exact cleared ▸ statusRequests serves r
  case ramp =>
    subst here
    obtain rfl : bit = Bool.toNat := bit_eq bits
    refine append_congr (append_congr (append_congr (append_congr (append_congr ?state ?action) rfl) ?candidate) ?figures) ?lanes
    case state =>
      rw [modeCode_eq, rampStateCode_eq]
      rfl
    case action => exact (effectiveBytes_standing u r).trans rfl
    case candidate => cases (u.ramps[r]).candidate <;> rfl
    case figures =>
      rw [flagBits_four, adoptedNumber]
      cases (u.ramps[r]).adopted <;> cases (u.ramps[r]).slotLength <;> rfl
    case lanes =>
      refine congrArg (fun f => (lanesOf u.tables r).flatMap f) (funext fun l => append_congr ?_ rfl)
      rw [laneStateCode_eq, boolByte_eq, reportedCall]
      cases u.tables.laneCfg[l] <;> rfl
  case authority =>
    subst unit faults
    obtain rfl : bit = Bool.toNat := bit_eq bits
    obtain ⟨rfl, rfl⟩ := times_eq times
    obtain ⟨x, y, z, free⟩ : ∃ x y z, be24 (Config.freeValue u.freeCount).toNat = [x, y, z] := ⟨_, _, _, rfl⟩
    refine ⟨x, y, z, append_congr (append_congr (append_congr (append_congr (append_congr (append_congr (append_congr
      (append_congr (append_congr ?holder ?time) rfl) rfl) ?lastGrant) ?sources) rfl) rfl) ?count) rfl⟩
    case holder =>
      refine append_congr (a := [byte r.val, 2] ++ [sourceCode (u.auth[r]).holder]) (append_congr rfl ?_) ?_
      · cases (u.auth[r]).holder <;> rfl
      · cases (u.auth[r]).granted with
        | none => rfl
        | some g => cases g <;> rfl
    case time => cases (u.auth[r]).holder <;> rfl
    case lastGrant =>
      cases (u.auth[r]).lastGrant with
      | none => exact congrArg (fun l => [255] ++ l ++ [0]) free
      | some g =>
        obtain ⟨source, time, kind⟩ := g
        cases kind <;> rfl
    case sources =>
      rw [toList_six, List.map_map]
      exact List.map_congr_left fun k _ => sourceByte_eq _
    case count =>
      rw [weight_eq]
      rfl
  case spillback =>
    obtain rfl : bit = Bool.toNat := bit_eq bits
    obtain rfl : timer = timerCode := timerCode_eq codes
    rw [← spillChannels_eq] at listed
    subst listed
    refine append_congr ?_ (congrArg (fun f => ((spillChannels u r).take 16).flatMap f) (funext fun ch => ?_))
    · rw [boolByte_eq]
      rfl
    · rw [weight_eq, one_mul]

end Sys2Proof.Machine
end

section
/-! SUPPORT. The end of an event (R74, R112, log entry 14): its frame, the FAILSAFE source agreeing with its causes, and
FAILSAFE taken and released. -/

namespace Sys2Proof.Machine

/-! ### The ring and the calm part -/

theorem endEvent_ring_eq (s : State) : ∃ a b c d e,
    (endEvent s).ring = { s.ring with forward := a, inFlight := b, insert := c, waiting := d, run := e } := by
  obtain ⟨a, b, c, d, e, taken⟩ := portTake_frame ((flushSigs (settle s)).station.getD 0) (flushSigs (settle s)).ring
  refine ⟨a, b, c, d, e, (pump_ring_eq _).trans (taken.trans ?_)⟩
  rw [(flushSigs_side (settle s)).ring, (settle_side s).ring]

/-! ### The FAILSAFE source and its causes -/

section Cause
variable (s : State) (r : Ramp)

theorem endEvent_cause : failsafeCause (endEvent s) r = failsafeCause (settle s) r := by
  obtain ⟨_, _, _, _, _, tables, _, chans, quiet⟩ := endEvent_settled s
  exact failsafeCause_of tables quiet chans

theorem endEvent_auth : (endEvent s).auth = (settle s).auth := by
  obtain ⟨_, _, auth, _⟩ := endEvent_settled s
  exact auth

theorem endEvent_ramps : (endEvent s).ramps = (settle s).ramps := (endEvent_settled s).1

theorem Beside.cause_kept {r : Ramp} {s t : State} (a : Beside r s t) (cause : failsafeCause s r = true) :
    failsafeCause t r = true :=
  Machine.cause_kept a.away.side.tables a.away.side.ring a.faults cause

theorem judgeFailsafe_cause_kept (cause : failsafeCause s r = true) : failsafeCause (judgeFailsafe r s) r = true :=
  cause_kept (judgeFailsafe_reach r s).tables (judgeFailsafe_side r s).ring (judgeFailsafe_reach r s).faults cause

theorem Beside.cause_sound {r : Ramp} {s t : State} (a : Beside r s t) (present : ∀ d ∈ s.out.drivers, d.silence ≠ .expired) :
    failsafeCause t r = failsafeCause s r :=
  cause_same a.away.side.tables a.away.side.ring a.faults (a.sound present).2

theorem judgeFailsafe_cause_sound (present : ∀ d ∈ s.out.drivers, d.silence ≠ .expired) :
    failsafeCause (judgeFailsafe r s) r = failsafeCause s r :=
  cause_same (judgeFailsafe_reach r s).tables (judgeFailsafe_side r s).ring (judgeFailsafe_reach r s).faults
    ((judgeFailsafe_reach r s).sound present).2

/-- Without a silent driver the end of an event latches nothing, so every cause stays as it was. -/
theorem endEvent_cause_sound (present : ∀ d ∈ s.out.drivers, d.silence ≠ .expired) :
    failsafeCause (endEvent s) r = failsafeCause s r := by
  obtain ⟨x, before, after⟩ := settle_at s r
  have presentAt : ∀ d ∈ x.out.drivers, d.silence ≠ .expired := by rw [before.away.side.drivers]; exact present
  have presentOnce : ∀ d ∈ (judgeFailsafe r x).out.drivers, d.silence ≠ .expired := by
    rw [(judgeFailsafe_side r x).drivers]; exact presentAt
  have presentTwice : ∀ d ∈ (judgeFailsafe r (judgeFailsafe r x)).out.drivers, d.silence ≠ .expired := by
    rw [(judgeFailsafe_side r _).drivers]; exact presentOnce
  rw [endEvent_cause, after.cause_sound presentTwice, judgeFailsafe_cause_sound _ r presentOnce,
    judgeFailsafe_cause_sound x r presentAt, before.cause_sound present]

/-- Source 0 agrees with its causes at the end of an event, up to a fault that another ramp's turn latches after it. -/
theorem endEvent_asserts : (failsafeCause s r = true → (((endEvent s).auth[r]).sources[(0 : Source)]).asserted = true)
    ∧ (failsafeCause (endEvent s) r = false → (((endEvent s).auth[r]).sources[(0 : Source)]).asserted = false)
    ∧ (s.tables.Apart → (((endEvent s).auth[r]).sources[(0 : Source)]).asserted = failsafeCause (endEvent s) r) := by
  obtain ⟨x, before, after⟩ := settle_at s r
  obtain ⟨asserts, agrees⟩ := judgeTwice_asserted r x
  rw [endEvent_cause, endEvent_auth, after.away.auth]
  refine ⟨fun cause => asserts (before.cause_kept cause), fun none => ?_, fun apart => ?_⟩
  · rw [agrees, ← Bool.not_eq_true]
    intro cause
    rw [after.cause_kept cause] at none
    cases none
  · rw [agrees, after.cause]
    rw [(judgeFailsafe_side r _).tables, (judgeFailsafe_side r x).tables, before.away.side.tables]
    exact apart

end Cause

/-! ### FAILSAFE taken -/

/-- A unit that a judgement has brought into agreement is not judged again. -/
theorem judgeFailsafe_settled {r : Ramp} {x : State} (cause : failsafeCause x r = true) :
    judgeFailsafe r (judgeFailsafe r x) = judgeFailsafe r x :=
  judgeFailsafe_agreed (by rw [judgeFailsafe_asserted, cause, judgeFailsafe_cause_kept x r cause])

/-- In OFF the assertion is noted and no more. -/
theorem judgeFailsafe_off {r : Ramp} {x : State} (off : (x.ramps[r]).state = .off) (cause : failsafeCause x r = true)
    (idle : ((x.auth[r]).sources[(0 : Source)]).asserted = false) :
    judgeFailsafe r x = x.setAuth r ((x.auth[r]).setAsserted 0 true) := by
  rw [judgeFailsafe, cause, setAsserted, if_neg (by rw [idle]; decide), expireFirst_true, changeAsserted]
  exact sourceChanged_off off

/-- A ramp's turn at the end of an event is one judgement, between turns that leave it alone. -/
theorem settle_once {s : State} {r : Ramp} (apart : s.tables.Apart) (cause : failsafeCause s r = true) :
    ∃ x, Beside r s x ∧ failsafeCause x r = true ∧ Beside r (judgeFailsafe r x) (settle s) := by
  obtain ⟨x, before, after⟩ := settle_at s r
  have causeAt : failsafeCause x r = true := (before.cause apart).trans cause
  exact ⟨x, before, causeAt, judgeFailsafe_settled causeAt ▸ after⟩

theorem Beside.apart {r : Ramp} {s t : State} (a : Beside r s t) (apart : s.tables.Apart) : t.tables.Apart :=
  a.away.side.tables ▸ apart

theorem Beside.state {r : Ramp} {s t : State} (a : Beside r s t) : (t.ramps[r]).state = (s.ramps[r]).state :=
  a.away.same.field (·.state) fun _ => rfl

/-- FAILSAFE taken by a ramp that does not hold it (R74). -/
theorem endEvent_takes {s u : State} {r : Ramp} (ended : u = endEvent s) (apart : s.tables.Apart)
    (cause : failsafeCause s r = true) (idle : ((s.auth[r]).sources[(0 : Source)]).asserted = false)
    (armed : ((s.auth[r]).sources[(0 : Source)]).armed = true) (fresh : ((s.auth[r]).sources[(0 : Source)]).spent = false)
    (sits : ((s.auth[r]).sources[(0 : Source)]).standing = false) (other : (s.auth[r]).holder ≠ some 0) :
    ((s.ramps[r]).state = .off → (u.ramps[r]).state = .off ∧ (u.auth[r]).holder = (s.auth[r]).holder)
    ∧ ((s.ramps[r]).state ≠ .off → (u.auth[r]).holder = some 0 ∧ (u.auth[r]).granted = some .failsafe
        ∧ (u.ramps[r]).attention = true)
    ∧ ((s.ramps[r]).state = .standby → (u.ramps[r]).state = .standby)
    ∧ ((s.ramps[r]).state = .darkFail → (u.ramps[r]).state = .darkFail)
    ∧ ((s.ramps[r]).state ≠ .off → (s.ramps[r]).state ≠ .standby → (s.ramps[r]).state ≠ .darkFail →
        Entered r .darkFail .stopped u ∧ HeadsShow r u ∧ ((s.ramps[r]).state = .metering → NoSlot r u)
        ∧ ∀ l ∈ lanesOf s.tables r, s.tables.laneCfg[l] ≠ none → u.lanes[l] = laneDark s.lanes[l]) := by
  obtain ⟨x, before, causeAt, after⟩ := settle_once apart cause
  have apartAt := before.apart apart
  have apartAfter : (judgeFailsafe r x).tables.Apart := (judgeFailsafe_side r x).tables ▸ apartAt
  have unit : x.auth[r] = s.auth[r] := before.away.auth
  have state : (x.ramps[r]).state = (s.ramps[r]).state := before.state
  rw [← unit] at idle armed fresh sits other
  have auth : u.auth[r] = (judgeFailsafe r x).auth[r] := by rw [ended, endEvent_auth, after.away.auth]
  have stateAfter : (u.ramps[r]).state = ((judgeFailsafe r x).ramps[r]).state := by
    rw [ended, endEvent_ramps]
    exact after.state
  by_cases off : (s.ramps[r]).state = .off
  · have noted := judgeFailsafe_off (state.trans off) causeAt idle
    refine ⟨fun _ => ⟨?_, ?_⟩, fun on => absurd off on, fun standby => ?_, fun dark => ?_, fun on => absurd off on⟩
    · rw [stateAfter, noted]
      exact state.trans off
    · rw [auth, noted, State.setAuth_auth, vset_same, ← unit]
      rfl
    · rw [standby] at off; cases off
    · rw [dark] at off; cases off
  · obtain ⟨holder, granted, attention, stays, leaves⟩ := failsafe_takes r x (judgeFailsafe r x) apartAt causeAt idle armed
      fresh sits other (state ▸ off) rfl
    rw [state] at stays leaves
    refine ⟨fun yes => absurd yes off, fun _ => ⟨by rw [auth, holder], by rw [auth, granted], ?_⟩,
      fun standby => by rw [stateAfter, stays (Or.inl standby), standby],
      fun dark => by rw [stateAfter, stays (Or.inr dark), dark], fun _ notStandby notDark => ?_⟩
    · rw [ended, endEvent_ramps]
      exact after.away.side.attention r attention
    · obtain ⟨entered, lanes, heads, noSlot⟩ := leaves notStandby notDark
      subst ended
      refine ⟨endEvent_entered (after.entered apartAfter entered), endEvent_heads (after.heads apartAfter heads),
        fun metering => endEvent_noSlot (after.noSlot (noSlot metering)), fun l listed set => ?_⟩
      obtain ⟨c, config⟩ := Option.ne_none_iff_exists'.mp set
      have tables : x.tables = s.tables := before.away.side.tables
      have tablesAfter : (judgeFailsafe r x).tables = s.tables := (judgeFailsafe_side r x).tables.trans tables
      obtain ⟨_, lanesEnd, _⟩ := endEvent_settled s
      rw [lanesEnd, after.lanes apartAfter l (tablesAfter ▸ listed), lanes, orderDark,
        orderLanes_get (apartAt.once r) _ (tables ▸ listed) (tables ▸ config), before.lanes apart l listed]

/-- FAILSAFE released by a ramp that it holds in DARK_FAIL or STANDBY (R62, R112). -/
theorem endEvent_releases {s : State} {r : Ramp} (apart : s.tables.Apart)
    (present : ∀ d ∈ s.out.drivers, d.silence ≠ .expired) (none : failsafeCause s r = false)
    (asserted : ((s.auth[r]).sources[(0 : Source)]).asserted = true)
    (stands : ((s.auth[r]).sources[(0 : Source)]).standing = true) (holds : (s.auth[r]).holder = some 0)
    (rests : (s.ramps[r]).state = .darkFail ∨ (s.ramps[r]).state = .standby) : Released r s (endEvent s) := by
  obtain ⟨x, before, after⟩ := settle_at s r
  have noneAt : failsafeCause x r = false := (before.cause apart).trans none
  have presentAt : ∀ d ∈ x.out.drivers, d.silence ≠ .expired := by rw [before.away.side.drivers]; exact present
  have noneAfter : failsafeCause (judgeFailsafe r x) r = false := (judgeFailsafe_cause_sound x r presentAt).trans noneAt
  rw [judgeFailsafe_agreed (s := judgeFailsafe r x) (by rw [judgeFailsafe_asserted, noneAt, noneAfter])] at after
  have apartAfter : (judgeFailsafe r x).tables.Apart := (judgeFailsafe_side r x).tables ▸ before.apart apart
  rw [← before.away.auth] at asserted stands holds
  rw [← before.state] at rests
  have released := (failsafe_releases r x noneAt asserted stands holds rests).after before
  refine released.kept ?_ ?_ ?_ fun st tm entered => endEvent_entered (after.entered apartAfter entered)
  · rw [endEvent_auth, after.away.auth]
  · rw [endEvent_ramps]
    exact after.state
  · rw [(endEvent_demand r s).2.1, after.demand.2.1]

/-- Settles O12. -/
theorem eventEndFrame : Obligations.EventEndFrame := by
  unfold Obligations.EventEndFrame
  refine ⟨fun s => ?frame, fun s r ch => ⟨belongs_iff s.tables r ch, failsafeCause_iff s r⟩, fun s u r ended => ?source,
    fun s u r x ended apart unit cause idle armed fresh sits other => ?takes,
    fun s u r x ended apart present unit none asserted stands holds rests => ?releases⟩
  case frame =>
    have side := endEvent_side s
    obtain ⟨a, b, c, d, e, ring⟩ := endEvent_ring_eq s
    obtain ⟨ramps, lanes, auth, rate, vectors, _, onTimers, chans, _⟩ := endEvent_settled s
    rw [ring]
    refine ⟨side.tables, side.det, side.lines, side.time, side.pending, side.stride, side.freeCount, rfl, rfl, rfl, rfl,
      rfl, rfl, fun calm => ?_⟩
    rw [ramps, lanes, auth, rate, vectors, onTimers, chans, calm.settle]
    exact ⟨rfl, rfl, rfl, rfl, rfl, rfl, rfl⟩
  case source =>
    subst ended
    obtain ⟨asserts, deasserts, agrees⟩ := endEvent_asserts s r
    exact ⟨asserts, deasserts, agrees, endEvent_cause_sound s r⟩
  case takes =>
    subst unit
    exact endEvent_takes ended apart cause idle armed fresh sits other
  case releases =>
    subst unit ended
    have released := endEvent_releases apart present none asserted stands holds rests
    refine ⟨released.off, fun live => ?_⟩
    obtain ⟨warns, waits, enters⟩ := released.auto live
    exact ⟨warns, waits, enters, released.vacant live, released.next live⟩

end Sys2Proof.Machine
end

section
/-! SUPPORT. Start-up (R63 to R65, R95): a state entered, then the order of that state to the listed lanes. -/

namespace Sys2Proof.Machine

/-! ### A step of a ramp's controller ahead of an order -/

/-- What a ramp's controller has done ahead of an order: its own record alone moved, and channels. -/
structure AheadOfOrder (r : Ramp) (s t : State) : Prop where
  rest : Undisturbed s t
  units : UnitsUndisturbed s t
  lanes : t.lanes = s.lanes
  others : ∀ q : Ramp, q ≠ r → SameRamp s t q

theorem Undisturbed.trans {s t u : State} (a : Undisturbed s t) (b : Undisturbed t u) : Undisturbed s u :=
  ⟨b.pending.trans a.pending, b.stride.trans a.stride, b.freeCount.trans a.freeCount, b.tables.trans a.tables,
    b.det.trans a.det, b.lines.trans a.lines, b.time.trans a.time, b.ring.trans a.ring⟩

theorem enter_ahead {r : Ramp} {st : RampState} {ph : Option ClearPhase} {tm : Timer} {s : State}
    (phase : ph.isSome = true ↔ st = .startClear) (outside : (s.ramps[r]).state ≠ .metering) :
    AheadOfOrder r s (enter r st ph tm s) :=
  ⟨(enter_core r st ph tm s phase).undisturbed, enter_units r st ph tm s outside, enter_lanes r st ph tm s,
    (enter_others r st ph tm s).same⟩

theorem modRamp_ahead (r : Ramp) (f : RampCtx → RampCtx) (s : State) : AheadOfOrder r s (s.modRamp r f) :=
  ⟨⟨rfl, rfl, rfl, rfl, rfl, rfl, rfl, rfl⟩, ⟨rfl, rfl, rfl, rfl⟩, rfl, fun _ other => Or.inl (vset_other _ _ _ _ (Ne.symm other))⟩

section Order
variable {f : LaneRec → Bool → LaneCtx → LaneCtx} {r : Ramp} {s t : State}

/-- Behind the order the controller's record stands, but for attention, and nothing else of the state has moved. -/
theorem AheadOfOrder.ordered (ahead : AheadOfOrder r s t) (side : LaneSide t (orderLanes f r t)) :
    Undisturbed s (orderLanes f r t) ∧ UnitsUndisturbed s (orderLanes f r t)
    ∧ (∀ q : Ramp, q ≠ r → SameRamp s (orderLanes f r t) q) ∧ SameRamp t (orderLanes f r t) r := by
  obtain ⟨rest, units⟩ := side.undisturbed
  exact ⟨ahead.rest.trans rest, ahead.units.trans units, fun q other => (ahead.others q other).trans (side.ramps q),
    side.ramps r⟩

/-- A state entered and its order given: the lanes move by the order, and the heads and the beacon show it. -/
theorem entered_ordered {st : RampState} {ph : Option ClearPhase} {tm : Timer} (once : (lanesOf s.tables r).Nodup)
    (side : ∀ s, LaneSide s (orderLanes f r s)) (phase : ph.isSome = true ↔ st = .startClear)
    (outside : (s.ramps[r]).state ≠ .metering) (u : State) (ordered : u = orderLanes f r (enter r st ph tm s)) :
    (Undisturbed s u ∧ UnitsUndisturbed s u ∧ ∀ q : Ramp, q ≠ r → SameRamp s u q)
    ∧ u.ramps[r] = { s.ramps[r] with state := st, clearPhase := ph, phaseTimer := tm, attention := true }
    ∧ (∀ l : Lane, l ∉ lanesOf s.tables r → u.lanes[l] = s.lanes[l])
    ∧ (∀ (l : Lane) (c : LaneRec), l ∈ lanesOf s.tables r → s.tables.laneCfg[l] = some c →
        u.lanes[l] = f c (effectiveOf (enter r st ph tm s) c.demand) s.lanes[l])
    ∧ (s.tables.Apart → HeadsShow r u ∧ ∀ ch : OutCh, beaconOf s.tables r = some ch →
        (u.out.chans[ch]).commanded = beaconAspect st) := by
  have ahead : AheadOfOrder r s (enter r st ph tm s) := enter_ahead phase outside
  obtain ⟨rest, units, others, same⟩ := ahead.ordered (side _)
  obtain ⟨unlisted, listed, shows⟩ := ordered_spec f r s (enter r st ph tm s) once ahead.rest.tables ahead.lanes side
  have entered := enter_ramp r st ph tm s outside
  rw [ordered]
  refine ⟨⟨rest, units, others⟩, (same.set (by rw [entered])).trans entered, unlisted, listed, fun apart => ?_⟩
  obtain ⟨heads, beacon⟩ := shows apart
  exact ⟨heads, fun ch named => (beacon ch named).trans (enter_beacon st ph tm s named)⟩

end Order

/-- The controller in the red phase of START_CLEAR, ahead of its order. -/
def redPhase (r : Ramp) (s : State) : State := s.modRamp r fun c => { c with clearPhase := some .red, phaseTimer := .running 0 }

theorem startYellowExpired_eq (r : Ramp) (s : State) : startYellowExpired r s = orderStartRed r (redPhase r s) := rfl

/-- Settles O50. -/
theorem startUpRunsThroughItsStates : Obligations.StartUpRunsThroughItsStates := by
  unfold Obligations.StartUpRunsThroughItsStates
  refine ⟨fun r s once => ⟨fun due => ?warn, fun due => ?green, fun due => ?yellow⟩, fun r c s config =>
    ⟨fun n runs => ⟨phaseLeft_run (·.warn) config runs, phaseLeft_run (·.startGreen) config runs,
        phaseLeft_run (·.startYellow) config runs⟩,
      fun stopped => ⟨phaseLeft_stop stopped, phaseLeft_stop stopped, phaseLeft_stop stopped⟩,
      fun other => phaseLeft_none (Or.inl other), fun other => phaseLeft_none (Or.inl other), phaseLeft_none⟩⟩
  case warn =>
    have outside : (s.ramps[r]).state ≠ .metering := by rw [(phaseLeft_state due).1]; decide
    obtain ⟨⟨rest, units, others⟩, own, unlisted, listed, shows⟩ :=
      entered_ordered once (orderStartGreen_side r) (by decide) outside (warnExpired r s) rfl
    refine ⟨warnExpired r s, congrArg Host.Outcome.next (whenDue_due due (warnExpired r) s), rest, units, others,
      by rw [own], by rw [own], by rw [own], by rw [own], unlisted, fun l mem set => ?_, shows⟩
    obtain ⟨c, config⟩ := Option.ne_none_iff_exists'.mp set
    rw [listed l c mem config]
    exact ⟨fun dark => if_pos dark, fun other => if_neg other⟩
  case green =>
    have outside : (s.ramps[r]).state ≠ .metering := by rw [(phaseLeft_state due).1]; decide
    obtain ⟨⟨rest, units, others⟩, own, unlisted, listed, shows⟩ :=
      entered_ordered once (orderStartYellow_side r) (by decide) outside (startGreenExpired r s) rfl
    refine ⟨startGreenExpired r s, congrArg Host.Outcome.next (whenDue_due due (startGreenExpired r) s), rest, units, others,
      by rw [own], by rw [own], by rw [own], by rw [own], unlisted, fun l mem set => ?_, shows⟩
    obtain ⟨c, config⟩ := Option.ne_none_iff_exists'.mp set
    rw [listed l c mem config]
    exact ⟨fun rests => if_pos rests, fun other => if_neg other⟩
  case yellow =>
    obtain ⟨state, _⟩ := phaseLeft_state due
    obtain ⟨rest, units, others, same⟩ := (modRamp_ahead r _ s).ordered (orderStartRed_side r (redPhase r s))
    obtain ⟨unlisted, listed, shows⟩ := ordered_spec _ r s (redPhase r s) once rfl rfl (orderStartRed_side r)
    have own : (redPhase r s).ramps[r] = { s.ramps[r] with clearPhase := some .red, phaseTimer := .running 0 } := vset_same ..
    refine ⟨startYellowExpired r s, congrArg Host.Outcome.next (whenDue_due due (startYellowExpired r) s), rest, units,
      others, ?_, ?_, ?_, unlisted, fun l c mem config => ?_, shows⟩
    · exact (same.field (·.state) fun _ => rfl).trans ((congrArg RampCtx.state own).trans state)
    · exact (same.field (·.clearPhase) fun _ => rfl).trans (congrArg RampCtx.clearPhase own)
    · exact (same.field (·.phaseTimer) fun _ => rfl).trans (congrArg RampCtx.phaseTimer own)
    · rw [startYellowExpired_eq, orderStartRed, listed l c mem config]
      exact ⟨fun yellow => if_pos yellow, fun other => if_neg other⟩

end Sys2Proof.Machine
end

section
/-! SUPPORT. The red phase of START_CLEAR and the shutdown flush end (R65, R66, R71). -/

namespace Sys2Proof.Machine

/-! ### A state entered leaves every channel but the beacon -/

theorem commandBeacon_other {r : Ramp} {ch : OutCh} {s : State} (a : Aspect) (other : beaconOf s.tables r ≠ some ch) :
    (commandBeacon r a s).out.chans[ch] = s.out.chans[ch] := by
  unfold commandBeacon
  cases named : beaconOf s.tables r with
  | none => rfl
  | some b => exact (setAspect_get b a s).2.2 ch fun same => other (by rw [named, same])

theorem enter_chan_other {r : Ramp} {ch : OutCh} {st : RampState} {ph : Option ClearPhase} {tm : Timer} {s : State}
    (outside : (s.ramps[r]).state ≠ .metering) (other : beaconOf s.tables r ≠ some ch) :
    (enter r st ph tm s).out.chans[ch] = s.out.chans[ch] := by
  rw [enter, leaveMetering, if_neg outside]
  exact commandBeacon_other _ other

/-- METERING entered with no plan adopted, ahead of its first slot boundary. -/
def meteringBegun (r : Ramp) (s : State) : State :=
  (enter r .metering none .stopped s).modRamp r fun c => { c with adopted := none, patternCount := 0 }

theorem enterMetering_eq (r : Ramp) (s : State) : enterMetering r s = slotBoundary r (meteringBegun r s) := rfl

theorem meteringBegun_ramp {r : Ramp} {s : State} (outside : (s.ramps[r]).state ≠ .metering) :
    (meteringBegun r s).ramps[r] = { s.ramps[r] with
      state := .metering, clearPhase := none, phaseTimer := .stopped, adopted := none, patternCount := 0, attention := true } := by
  refine (vset_same ..).trans ?_
  rw [enter_ramp r .metering none .stopped s outside]

theorem startRed_goes {r : Ramp} {s : State} (goes : (s.ramps[r]).stopStands = false) :
    startRedExpired r s = enterMetering r s :=
  if_neg (by rw [goes]; decide)

theorem startRed_stops {r : Ramp} {s : State} (stops : (s.ramps[r]).stopStands = true) :
    startRedExpired r s = enterShutClear r s := if_pos stops

theorem shutFlushExpired_off {r : Ramp} {s : State} (off : (s.ramps[r]).mode = .off) :
    shutFlushExpired r s = enterOff r s := if_pos off

theorem shutFlushExpired_auto {r : Ramp} {s : State} (auto : (s.ramps[r]).mode = .auto) :
    shutFlushExpired r s = enterStandby r s := if_neg (by rw [auto]; decide)

/-- What the shutdown flush leaves whatever the mode. -/
theorem shutFlushExpired_all (r : Ramp) (s : State) (flushes : (s.ramps[r]).state ≠ .metering) :
    (shutFlushExpired r s).lanes = (orderDark r s).lanes ∧ (shutFlushExpired r s).rate = s.rate
    ∧ (s.tables.Apart → HeadsShow r (shutFlushExpired r s)) := by
  cases mode : (s.ramps[r]).mode with
  | off =>
    obtain ⟨_, rates, shown⟩ := enterOff_all r s flushes
    rw [shutFlushExpired_off mode]
    exact ⟨(enterOff_spec r s).2.1, rates, fun apart => (shown apart).1⟩
  | auto =>
    obtain ⟨units, _, heads⟩ := enterStandby_calm r s flushes
    rw [shutFlushExpired_auto mode]
    exact ⟨(enterStandby_spec r s).1, units.rate, heads⟩

/-- Settles O51. -/
theorem startRedAndShutdownEnd : Obligations.StartRedAndShutdownEnd := by
  unfold Obligations.StartRedAndShutdownEnd
  refine ⟨fun r s x record => ⟨fun due goes => ?meters, fun due stops => ?shuts, fun due => ?flush⟩, fun r c s config =>
    ⟨fun n runs => ⟨phaseLeft_run (·.startRed) config runs, phaseLeft_run (·.shutFlush) config runs⟩,
      fun stopped => ⟨phaseLeft_stop stopped, phaseLeft_stop stopped⟩, phaseLeft_none,
      fun other => phaseLeft_none (Or.inl other)⟩, rfl⟩
  case meters =>
    subst record
    have outside : (s.ramps[r]).state ≠ .metering := by rw [(phaseLeft_state due).1]; decide
    have ran : exec (.startRedExpiry r) s = .next (endEvent (startRedExpired r s)) :=
      congrArg Host.Outcome.next (whenDue_due due (startRedExpired r) s)
    rw [startRed_goes goes] at ran
    have units := enter_units r .metering none .stopped s outside
    refine ⟨meteringBegun r s, ran, (enterMetering_side r s).undisturbed,
      (enter_others r .metering none .stopped s).trans (modRamp_others r _ _),
      ⟨units.vectors, units.auth, units.onTimers, units.rate⟩, enter_lanes r .metering none .stopped s,
      meteringBegun_ramp outside, fun ch => ⟨fun named => ?_, fun other => ?_⟩⟩
    · exact enter_beacon .metering none .stopped s named
    · exact enter_chan_other outside other
  case shuts =>
    subst record
    have outside : (s.ramps[r]).state ≠ .metering := by rw [(phaseLeft_state due).1]; decide
    have ran : exec (.startRedExpiry r) s = .next (endEvent (startRedExpired r s)) :=
      congrArg Host.Outcome.next (whenDue_due due (startRedExpired r) s)
    rw [startRed_stops stops] at ran
    obtain ⟨units, lanes, own, rested, clearing, shows⟩ := enterShutClear_calm r s outside
    rw [← lanes] at rested clearing
    exact ⟨enterShutClear r s, ran, (enterShutClear_side r s).undisturbed, enterShutClear_others r s, units, lanes, own,
      rested, clearing, shows⟩
  case flush =>
    subst record
    have outside : (s.ramps[r]).state ≠ .metering := by rw [(phaseLeft_state due).1]; decide
    obtain ⟨lanes, rates, heads⟩ := shutFlushExpired_all r s outside
    refine ⟨shutFlushExpired r s, congrArg Host.Outcome.next (whenDue_due due (shutFlushExpired r) s),
      (shutFlushExpired_side r s).undisturbed, enterOffOrStandby_others r s, lanes, rates, heads, fun off => ?_, fun auto => ?_⟩
    · rw [shutFlushExpired_off off]
      obtain ⟨entered, _, unit, vector, _⟩ := enterOff_spec r s
      exact ⟨entered, (enterOff_all r s outside).1, unit, vector⟩
    · rw [shutFlushExpired_auto auto]
      obtain ⟨units, own, _⟩ := enterStandby_calm r s outside
      obtain ⟨_, _, demand, starts, waits⟩ := enterStandby_spec r s
      refine ⟨units, ?_, ?_, fun start => starts (demand ▸ start), fun none => waits (demand ▸ none)⟩
      · have unset : ((enterStandby r s).ramps[r]).actionUnset = judgedUnset s r := by rw [own]
        rw [unset]
        exact own
      · rw [own]
        exact judgedUnset_iff s r

end Sys2Proof.Machine
end

section
/-! SUPPORT. Lanes (R85, R89 to R99): the points of the interval, announcements and orders. -/

namespace Sys2Proof.Machine

/-! ### The points of the interval (R90, R91, R94) -/

section Points
variable {l : Lane} {st : LaneState} {point : Interval → Option Nat} {s : State}

theorem pointLeft_run {v : Interval} {p : Nat} (state : (s.lanes[l]).state = st) (runs : (s.lanes[l]).interval = some v)
    (stands : point v = some p) : pointLeft l st point s = some (p - v.counter) := by
  rw [pointLeft, if_pos state, runs, Option.bind_some, stands]
  rfl

theorem pointLeft_elsewhere (other : (s.lanes[l]).state ≠ st) : pointLeft l st point s = none := if_neg other

theorem minGreenLeft_open (open_ : greenMayEnd s.lanes[l] = true) :
    minGreenLeft l s = pointLeft l .green Interval.minPoint s := if_pos open_

theorem minGreenLeft_held (held : greenMayEnd s.lanes[l] = false) : minGreenLeft l s = none :=
  if_neg (by rw [held]; decide)

theorem minGreenLeft_due {n : Nat} (left : minGreenLeft l s = some n) :
    pointLeft l .green Interval.minPoint s = some n := by
  cases opens : greenMayEnd s.lanes[l] with
  | true => rwa [minGreenLeft_open opens] at left
  | false => rw [minGreenLeft_held opens] at left; cases left

theorem minGreenLeft_elsewhere (other : (s.lanes[l]).state ≠ .green) : minGreenLeft l s = none := by
  cases opens : greenMayEnd s.lanes[l] with
  | true => rw [minGreenLeft_open opens, pointLeft_elsewhere other]
  | false => exact minGreenLeft_held opens

/-- A green may end at its minimum by a cut or a complete count (R91). -/
theorem greenMayEnd_eq {x : LaneCtx} {v : Interval} {p : ReleaseCopy} (runs : x.interval = some v)
    (release : v.release = some p) : greenMayEnd x = (v.cut || decide (p.vehicles ≤ x.greenPassageCount.getD 0)) := by
  unfold greenMayEnd
  rw [runs]
  dsimp only
  rw [release]

theorem greenEnded_run {x : LaneCtx} {v : Interval} (runs : x.interval = some v) : greenEnded x = laneGreenEnds v x := by
  rw [greenEnded, runs]

/-- The head behind a green that ends. -/
theorem laneAspect_greenEnds (v : Interval) (x : LaneCtx) :
    laneAspect (laneGreenEnds v x).state = if v.yellow = 0 then .red else .yellow := by
  by_cases short : v.yellow = 0
  · rw [if_pos short, laneGreenEnds, if_pos short]; rfl
  · rw [if_neg short, laneGreenEnds, if_neg short]; rfl

end Points

/-- The point that ends a green. -/
theorem greenEnded_point {l : Lane} {c : LaneRec} {s : State} {v : Interval} (config : s.tables.laneCfg[l] = some c)
    (runs : (s.lanes[l]).interval = some v) :
    let u := lanePoint (fun _ _ x => greenEnded x) l s
    Undisturbed s u ∧ UnitsUndisturbed s u ∧ (∀ q : Ramp, SameRamp s u q) ∧ (∀ k : Lane, k ≠ l → u.lanes[k] = s.lanes[k])
    ∧ (u.out.chans[c.head]).commanded = (if v.yellow = 0 then .red else .yellow)
    ∧ u.lanes[l] = laneGreenEnds v s.lanes[l] := by
  obtain ⟨rest, units, same, others, head, lane⟩ := lanePoint_spec (fun _ _ x => greenEnded x) config
    fun _ _ ok => greenEnded_ok ok
  rw [greenEnded_run runs] at head lane
  exact ⟨rest, units, same, others, head.trans (laneAspect_greenEnds v _), lane⟩

/-! ### The red end, and the end of SHUT_CLEAR (R71, R94) -/

section RedEnd
variable {l : Lane} {c : LaneRec} {s : State}

theorem redEnded_flush {x : LaneCtx} (demand : Bool) (flush : x.regime = .flush) : redEnded c demand x = laneGreenRest x := by
  rw [redEnded, flush]

theorem redEnded_other {x : LaneCtx} (demand : Bool) (other : x.regime ≠ .flush) :
    redEnded c demand x = laneRestRed c demand x := by
  unfold redEnded
  cases regime : x.regime with
  | flush => exact absurd regime other
  | meter => rfl
  | hold => rfl

/-- Either the ramp still clears, or its last lane has reached GREEN_REST and it enters SHUT_FLUSH. -/
theorem shutClearDone_cases (r : Ramp) (t : State) : shutClearDone r t = t
    ∨ (t.ramps[r]).state = .shutClear ∧ (∀ k ∈ lanesOf t.tables r, (t.lanes[k]).state = .greenRest)
      ∧ shutClearDone r t = enter r .shutFlush none (.running 0) t := by
  by_cases clears : (t.ramps[r]).state = .shutClear
  · obtain ⟨done, goesOn⟩ := shutClearDone_eq r t clears
    by_cases rests : ∀ k ∈ lanesOf t.tables r, (t.lanes[k]).state = .greenRest
    · exact Or.inr ⟨clears, rests, done rests⟩
    · exact Or.inl (goesOn (by simpa only [not_forall, exists_prop] using rests))
  · exact Or.inl (if_neg fun both => clears both.1)

/-- What the end of SHUT_CLEAR leaves: lanes, units and all channels but the beacon. -/
theorem shutClearDone_rest (r : Ramp) (t : State) : (shutClearDone r t).lanes = t.lanes ∧ UnitsUndisturbed t (shutClearDone r t)
    ∧ ∀ ch : OutCh, beaconOf t.tables r ≠ some ch → (shutClearDone r t).out.chans[ch] = t.out.chans[ch] := by
  rcases shutClearDone_cases r t with same | ⟨clears, _, done⟩
  · rw [same]
    exact ⟨rfl, ⟨rfl, rfl, rfl, rfl⟩, fun _ _ => rfl⟩
  · have outside : (t.ramps[r]).state ≠ .metering := by rw [clears]; decide
    rw [done]
    exact ⟨enter_lanes .., enter_units _ _ _ _ _ outside, fun ch other => enter_chan_other outside other⟩

theorem laneRedEnd_listed {r : Ramp} (listed : rampOfLane s.tables l = some r) :
    laneRedEnd l s = shutClearDone r (lanePoint redEnded l s) := by
  rw [laneRedEnd, listed]

theorem laneRedEnd_unlisted (unlisted : rampOfLane s.tables l = none) : laneRedEnd l s = lanePoint redEnded l s := by
  rw [laneRedEnd, unlisted]

/-- Behind the red end's point the rest of the state is as the point left it. -/
theorem laneRedEnd_rest (l : Lane) (s : State) : (laneRedEnd l s).lanes = (lanePoint redEnded l s).lanes
    ∧ UnitsUndisturbed (lanePoint redEnded l s) (laneRedEnd l s)
    ∧ ∀ ch : OutCh, (∀ r : Ramp, beaconOf (lanePoint redEnded l s).tables r ≠ some ch) →
      (laneRedEnd l s).out.chans[ch] = (lanePoint redEnded l s).out.chans[ch] := by
  cases ramp : rampOfLane s.tables l with
  | none =>
    rw [laneRedEnd_unlisted ramp]
    exact ⟨rfl, ⟨rfl, rfl, rfl, rfl⟩, fun _ _ => rfl⟩
  | some r =>
    obtain ⟨lanes, units, chans⟩ := shutClearDone_rest r (lanePoint redEnded l s)
    rw [laneRedEnd_listed ramp]
    exact ⟨lanes, units, fun ch other => chans ch (other r)⟩

theorem laneRedEnd_shuts (config : s.tables.laneCfg[l] = some c) {r : Ramp} (listed : rampOfLane s.tables l = some r)
    (clears : (s.ramps[r]).state = .shutClear)
    (rests : ∀ k ∈ lanesOf s.tables r, ((laneRedEnd l s).lanes[k]).state = .greenRest) :
    (laneRedEnd l s).ramps[r] = { s.ramps[r] with
      state := .shutFlush, clearPhase := none, phaseTimer := .running 0, attention := true } := by
  obtain ⟨rest, _, same, _⟩ := lanePoint_spec redEnded config fun _ _ ok => redEnded_ok ok _ _
  rw [(laneRedEnd_rest l s).1] at rests
  have state : ((lanePoint redEnded l s).ramps[r]).state = .shutClear :=
    ((same r).field (·.state) fun _ => rfl).trans clears
  rw [← rest.tables] at rests
  rw [laneRedEnd_listed listed, (shutClearDone_eq r _ state).1 rests,
    enter_ramp _ _ _ _ _ (by rw [state]; decide)]
  rcases same r with unchanged | told
  · rw [unchanged]
  · rw [told]

theorem laneRedEnd_same (config : s.tables.laneCfg[l] = some c) {r : Ramp} (goesOn : rampOfLane s.tables l ≠ some r
      ∨ (s.ramps[r]).state ≠ .shutClear ∨ ∃ k ∈ lanesOf s.tables r, ((laneRedEnd l s).lanes[k]).state ≠ .greenRest) :
    SameRamp s (laneRedEnd l s) r := by
  obtain ⟨rest, _, same, _⟩ := lanePoint_spec redEnded config fun _ _ ok => redEnded_ok ok _ _
  rw [(laneRedEnd_rest l s).1] at goesOn
  cases ramp : rampOfLane s.tables l with
  | none =>
    rw [laneRedEnd_unlisted ramp]
    exact same r
  | some q =>
    rw [laneRedEnd_listed ramp]
    by_cases own : r = q
    · subst own
      rcases shutClearDone_cases r (lanePoint redEnded l s) with unchanged | ⟨clears, rests, _⟩
      · rw [unchanged]
        exact same r
      · rw [rest.tables] at rests
        have state : (s.ramps[r]).state = .shutClear := ((same r).field (·.state) fun _ => rfl).symm.trans clears
        rcases goesOn with other | off | ⟨k, listed, moves⟩
        · exact absurd ramp other
        · exact absurd state off
        · exact absurd (rests k listed) moves
    · exact (same r).trans ((shutClearDone_others q _).same r own)

end RedEnd

/-! ### Passages (R91, R92) -/

/-- A rise of presence heard by a lane: the call latched under LOCK outside DARK. -/
theorem demand_heard {c : LaneRec} {x y : LaneCtx} {before after : Bool} {rises : Prop}
    (rising : rises ↔ before = false ∧ after = true)
    (called : rises ∧ c.lock = true ∧ x.state ≠ .dark → y = { x with call := true })
    (uncalled : ¬ (rises ∧ c.lock = true ∧ x.state ≠ .dark) → y = x) :
    y = if !before && after then laneDemand c x else x := by
  have rise : (!before && after) = true ↔ rises := by
    rw [Bool.and_eq_true, Bool.not_eq_true', rising]
  rw [laneDemand]
  by_cases heard : rises
  · rw [if_pos (rise.mpr heard)]
    by_cases latches : c.lock = true ∧ x.state ≠ .dark
    · rw [if_pos latches, called ⟨heard, latches⟩]
    · rw [if_neg latches, uncalled fun both => latches both.2]
  · rw [if_neg (mt rise.mp heard), uncalled fun both => heard both.1]

section Passage
variable {x : LaneCtx} {v : Interval} {p : ReleaseCopy} {n : Nat} {k : LaneCounts}

theorem reached_minPoint (release : v.release = some p) :
    v.reached v.minPoint = decide ((p.delay + p.minGreen) * 100000 ≤ v.counter) := by
  rw [Interval.minPoint, release]
  rfl

theorem lanePassage_green (green : x.state = .green) : lanePassage x = laneGreenPassage x := by rw [lanePassage, green]

theorem lanePassage_rests (rests : x.state = .greenRest ∨ x.state = .dark) : lanePassage x = x := by
  rw [lanePassage]
  rcases rests with state | state <;> rw [state]

theorem lanePassage_yellow (yellow : x.state = .yellow) :
    lanePassage x = { x with counts := { x.counts with yellowPassages := satInc x.counts.yellowPassages } } := by
  rw [lanePassage, yellow]

theorem lanePassage_red (red : x.state = .delay ∨ x.state = .minRed ∨ x.state = .restRed) :
    lanePassage x = { x with counts := { x.counts with violations := satInc x.counts.violations } } := by
  rw [lanePassage]
  rcases red with state | state | state <;> rw [state]

/-- A passage in a running green: counted, counted on within the release, or ending it at its minimum point. -/
theorem laneGreenPassage_run (runs : x.interval = some v) (release : v.release = some p) (passed : x.greenPassageCount = some n)
    (counted : k = { x.counts with greenPassages := satInc x.counts.greenPassages }) :
    (p.vehicles ≤ n → laneGreenPassage x = { x with counts := k })
    ∧ (n + 1 < p.vehicles → laneGreenPassage x = { x with counts := k, greenPassageCount := some (n + 1) })
    ∧ (n + 1 = p.vehicles → v.counter < (p.delay + p.minGreen) * 100000 →
        laneGreenPassage x = { x with counts := k, greenPassageCount := some (n + 1) })
    ∧ (n + 1 = p.vehicles → (p.delay + p.minGreen) * 100000 ≤ v.counter →
        laneGreenPassage x = laneGreenEnds v { x with counts := k }) := by
  have rule : laneGreenPassage x = if n < p.vehicles then
      if n + 1 = p.vehicles ∧ v.reached v.minPoint then laneGreenEnds v { x with counts := k }
      else { x with counts := k, greenPassageCount := some (n + 1) }
    else { x with counts := k } := by
    unfold laneGreenPassage
    rw [runs, passed, counted]
    dsimp only
    rw [release]
  rw [rule, reached_minPoint release]
  refine ⟨fun full => if_neg (by omega), fun short => ?_, fun last early => ?_, fun last late => ?_⟩
  · rw [if_pos (by omega), if_neg fun both => absurd both.1 (by omega)]
  · rw [if_pos (by omega), if_neg fun both => absurd (of_decide_eq_true both.2) (by omega)]
  · rw [if_pos (by omega), if_pos ⟨last, decide_eq_true late⟩]

end Passage

/-! ### Orders (R96 to R99) -/

section Orders
variable {c : LaneRec} {x : LaneCtx} {v : Interval} {p : ReleaseCopy}

theorem laneFlush_rests (moves : x.state = .restRed ∨ x.state = .delay ∨ x.state = .green) :
    laneFlush x = laneGreenRest { x with regime := .flush } := by
  rw [laneFlush]
  rcases moves with state | state | state <;> rw [state]

theorem laneFlush_stays (stays : x.state = .yellow ∨ x.state = .minRed ∨ x.state = .greenRest ∨ x.state = .dark) :
    laneFlush x = { x with regime := .flush } := by
  rw [laneFlush]
  rcases stays with state | state | state | state <;> rw [state]

theorem laneHold_stays (demand : Bool)
    (stays : x.state = .restRed ∨ x.state = .yellow ∨ x.state = .minRed ∨ x.state = .dark) :
    laneHold c demand x = { x with regime := .hold } := by
  rw [laneHold]
  rcases stays with state | state | state | state <;> rw [state]

theorem laneHold_delay (demand : Bool) (delays : x.state = .delay) :
    laneHold c demand x = laneRestRed c demand { x with regime := .hold } := by rw [laneHold, delays]

theorem laneHold_green (demand : Bool) (green : x.state = .green) :
    laneHold c demand x = laneCut { x with regime := .hold } := by rw [laneHold, green]

theorem laneHold_rests (demand : Bool) (rests : x.state = .greenRest) :
    laneHold c demand x = laneClearing c { x with regime := .hold } := by rw [laneHold, rests]

/-- A cut before the minimum point is kept for it, and ends the green at or past it. -/
theorem laneCut_run (runs : x.interval = some v) (release : v.release = some p) :
    (v.counter < (p.delay + p.minGreen) * 100000 → laneCut x = { x with interval := some { v with cut := true } })
    ∧ ((p.delay + p.minGreen) * 100000 ≤ v.counter → laneCut x = laneGreenEnds { v with cut := true } x) := by
  have rule : laneCut x = if v.reached v.minPoint then laneGreenEnds { v with cut := true } x
      else { x with interval := some { v with cut := true } } := by rw [laneCut, runs]
  rw [rule, reached_minPoint release]
  exact ⟨fun early => if_neg fun late => absurd (of_decide_eq_true late) (by omega),
    fun late => if_pos (decide_eq_true late)⟩

theorem laneReturn_clears (flush : x.regime = .flush) (rests : x.state = .greenRest) :
    laneReturn c x = laneClearing c { x with regime := .meter } := by
  rw [laneReturn, flush]
  exact if_pos rests

theorem laneReturn_stays (stays : x.regime ≠ .flush ∨ x.state ≠ .greenRest) :
    laneReturn c x = { x with regime := .meter } := by
  rw [laneReturn]
  cases regime : x.regime with
  | meter => exact congrArg (fun g => { x with regime := g }) regime
  | hold => rfl
  | flush => exact if_neg (stays.resolve_left fun other => other regime)

/-- What every order leaves and shows. -/
theorem order_rule (f : LaneRec → Bool → LaneCtx → LaneCtx) {r : Ramp} {s : State} (once : (lanesOf s.tables r).Nodup)
    (side : LaneSide s (orderLanes f r s)) :
    Undisturbed s (orderLanes f r s) ∧ UnitsUndisturbed s (orderLanes f r s) ∧ (∀ q : Ramp, SameRamp s (orderLanes f r s) q)
    ∧ (∀ l : Lane, l ∉ lanesOf s.tables r → (orderLanes f r s).lanes[l] = s.lanes[l])
    ∧ ∀ (l : Lane) (c : LaneRec), l ∈ lanesOf s.tables r → s.tables.laneCfg[l] = some c →
        (∀ k ∈ lanesOf s.tables r, k ≠ l → headOf s.tables k ≠ some c.head) →
        ((orderLanes f r s).out.chans[c.head]).commanded = laneAspect ((orderLanes f r s).lanes[l]).state := by
  obtain ⟨unlisted, listed⟩ := orderLanes_spec f r s once
  obtain ⟨rest, units⟩ := side.undisturbed
  exact ⟨rest, units, side.ramps, unlisted, fun l c mem config => (listed l c mem config).2⟩

end Orders

/-- Settles O53. -/
theorem lanePointsMoveTheLane : Obligations.LanePointsMoveTheLane := by
  unfold Obligations.LanePointsMoveTheLane
  refine ⟨fun l c s config => ⟨fun due => ?delayEnd, fun v due runs => ?maxGreen, fun v due runs => ?minGreen,
      fun due => ?yellowEnd, fun due => ?redEnd⟩,
    fun before s t heard => ⟨by rw [heard]; rfl, fun l => ?hears⟩,
    fun l c before s u rises passes y config heard rising passing called uncalled => ?announced,
    fun r s once => ⟨fun u order => ?order, fun l c x listed config lane => ?orders⟩, rfl,
    fun l x v s lane runs => ?lefts, fun l s => ?nones⟩
  case delayEnd =>
    obtain ⟨_, v, p, runs, stands, _⟩ := pointLeft_spec due
    obtain ⟨release, released, _⟩ := Option.map_eq_some_iff.mp stands
    obtain ⟨rest, units, same, others, head, lane⟩ := lanePoint_spec (fun _ _ x => delayEnded x) config
      fun _ _ ok => laneGreen_ok ok ⟨v, runs, by rw [released]; rfl⟩
    exact ⟨_, congrArg Host.Outcome.next (whenDue_due due (lanePoint (fun _ _ x => delayEnded x) l) s), rest, units, same,
      others, head, lane⟩
  case maxGreen =>
    obtain ⟨rest, units, same, others, head, lane⟩ := greenEnded_point config runs
    exact ⟨_, congrArg Host.Outcome.next (whenDue_due due (lanePoint (fun _ _ x => greenEnded x) l) s), rest, units, same,
      others, head, lane⟩
  case minGreen =>
    obtain ⟨rest, units, same, others, head, lane⟩ := greenEnded_point config runs
    exact ⟨_, congrArg Host.Outcome.next (whenDue_due due (lanePoint (fun _ _ x => greenEnded x) l) s), rest, units, same,
      others, head, lane⟩
  case yellowEnd =>
    obtain ⟨yellow, v, _, runs, _⟩ := pointLeft_spec due
    obtain ⟨rest, units, same, others, head, lane⟩ := lanePoint_spec (fun _ _ x => yellowEnded x) config
      fun _ _ ok => yellowEnded_ok ok yellow (by rw [runs]; exact Option.some_ne_none v)
    exact ⟨_, congrArg Host.Outcome.next (whenDue_due due (lanePoint (fun _ _ x => yellowEnded x) l) s), rest, units, same,
      others, head, lane⟩
  case redEnd =>
    obtain ⟨rest, units, same, others, head, lane⟩ := lanePoint_spec redEnded config fun _ _ ok => redEnded_ok ok _ _
    obtain ⟨lanes, unitsAfter, chans⟩ := laneRedEnd_rest l s
    refine ⟨laneRedEnd l s, congrArg Host.Outcome.next (whenDue_due due (laneRedEnd l) s), (laneRedEnd_side l s).undisturbed,
      units.trans unitsAfter, fun k other => lanes ▸ others k other, fun flush => ?_, fun other => ?_, fun plain => ?_,
      fun r ramp clears rests => laneRedEnd_shuts config ramp clears rests, fun r goesOn => laneRedEnd_same config goesOn⟩
    · rw [lanes, lane, redEnded_flush _ flush]
      rfl
    · rw [lanes, lane, redEnded_other _ other]
      rfl
    · rw [chans c.head (rest.tables ▸ plain), head]
      by_cases flush : (s.lanes[l]).regime = .flush
      · rw [redEnded_flush _ flush, if_pos flush]
        rfl
      · rw [redEnded_other _ flush, if_neg flush]
        rfl
  case hears =>
    rw [heard, forEach_laneHears before _ (List.nodup_finRange 12) s l, if_pos (List.mem_finRange l)]
  case announced =>
    have demanded : y = if !effectiveOf before c.demand && effectiveOf s c.demand then laneDemand c s.lanes[l]
        else s.lanes[l] := demand_heard rising called uncalled
    obtain ⟨lane, head⟩ := laneHears_get before config y demanded
    rw [← heard] at lane head
    have hears (pass : passes) : u.lanes[l] = lanePassage y := lane.trans (if_pos (passing.mp pass))
    have side := laneHears_side before l s
    rw [← heard] at side
    obtain ⟨rest, units⟩ := side.undisturbed
    refine ⟨rest, units, side.ramps, fun k other => heard ▸ laneHears_other other before s, head,
      fun none => lane.trans (if_neg (mt passing.mpr none)), fun pass rests => ?_, fun pass yellow => ?_,
      fun pass red => ?_, fun v p n k pass green runs release passed counted => ?_⟩
    · rw [hears pass, lanePassage_rests rests]
    · rw [hears pass, lanePassage_yellow yellow]
      rfl
    · rw [hears pass, lanePassage_red red]
      rfl
    · rw [hears pass, lanePassage_green green]
      exact laneGreenPassage_run runs release passed counted
  case order =>
    simp only [List.mem_cons, List.not_mem_nil, or_false] at order
    rcases order with rfl | rfl | rfl | rfl
    · exact order_rule _ once (orderFlush_side r s)
    · exact order_rule _ once (orderHold_side r s)
    · exact order_rule _ once (orderReturn_side r s)
    · exact order_rule _ once (orderDark_side r s)
  case orders =>
    subst lane
    rw [orderFlush, orderHold, orderReturn, orderDark, orderLanes_get once _ listed config, orderLanes_get once _ listed config,
      orderLanes_get once _ listed config, orderLanes_get once _ listed config]
    refine ⟨laneFlush_rests, laneFlush_stays, laneHold_stays _, laneHold_delay _, fun v p green runs release => ?_,
      laneHold_rests _, laneReturn_clears, laneReturn_stays, rfl⟩
    rw [laneHold_green _ green]
    exact laneCut_run (x := { s.lanes[l] with regime := .hold }) runs release
  case lefts =>
    subst lane
    refine ⟨fun p release => ⟨fun delays => ?_, fun green => ⟨?_, fun ends => ?_, fun uncut short => ?_⟩⟩,
      fun g ended => ⟨fun yellow => ?_, fun red => ?_⟩⟩
    · exact pointLeft_run delays runs (by rw [Interval.delayEnd, release]; rfl)
    · exact pointLeft_run green runs (by rw [Interval.maxPoint, release]; rfl)
    · have opens : greenMayEnd s.lanes[l] = true := by
        rw [greenMayEnd_eq runs release, Bool.or_eq_true, decide_eq_true_iff]
        exact ends
      rw [minGreenLeft_open opens]
      exact pointLeft_run green runs (by rw [Interval.minPoint, release]; rfl)
    · refine minGreenLeft_held ?_
      rw [greenMayEnd_eq runs release, uncut, Bool.false_or, decide_eq_false_iff_not]
      omega
    · exact pointLeft_run yellow runs (by rw [Interval.yellowEnd, ended]; rfl)
    · refine pointLeft_run red runs ?_
      rw [Interval.redEnd, ended, Nat.add_mul, ← Nat.add_assoc]
      rfl
  case nones =>
    exact ⟨pointLeft_elsewhere, fun other => ⟨pointLeft_elsewhere other, minGreenLeft_elsewhere other⟩, pointLeft_elsewhere,
      pointLeft_elsewhere⟩

end Sys2Proof.Machine
end

section
/-! SUPPORT. The slot boundary (R67 to R69, R83, R84, R87, R146): the ramp judged, then the branch that its effective
action takes. -/

namespace Sys2Proof.Machine

/-! ### The ramp judged at the boundary -/

section Judged
variable {r : Ramp} {s : State}

theorem slotBoundary_eq (r : Ramp) (s : State) : slotBoundary r s = boundaryActs r (boundaryJudged r s) := rfl

theorem boundaryJudged_undisturbed (metering : (s.ramps[r]).state = .metering) : Undisturbed s (boundaryJudged r s) := by
  have counted : Undisturbed s (s.modRamp r fun c => { c with slotCount := satInc c.slotCount }) :=
    ⟨rfl, rfl, rfl, rfl, rfl, rfl, rfl, rfl⟩
  have state : ((s.modRamp r fun c => { c with slotCount := satInc c.slotCount }).ramps[r]).state ≠ .off := by
    rw [modRamp_get, metering]
    decide
  exact (counted.trans (boundaryArbitration_side r _ state).undisturbed).trans (judge_side r _).undisturbed

/-- A field of the ramp's record that the judgement does not write stands, but for the slot counted. -/
theorem boundaryJudged_field {α : Type} (f : RampCtx → α) (plain : ∀ c : RampCtx, f c.plain = f c) :
    f (boundaryJudged r s).ramps[r] = f { s.ramps[r] with slotCount := satInc (s.ramps[r]).slotCount } := by
  obtain ⟨_, _, _, _, same, _⟩ := boundaryJudged_rest r s
  rw [← plain, same, plain]

theorem boundaryJudged_metering (metering : (s.ramps[r]).state = .metering) :
    ((boundaryJudged r s).ramps[r]).state = .metering :=
  (boundaryJudged_field (·.state) fun _ => rfl).trans metering

/-- An order given behind the judgement gives the lanes what it would have given them ahead of it. -/
theorem boundaryJudged_orders (f : LaneRec → Bool → LaneCtx → LaneCtx) (metering : (s.ramps[r]).state = .metering) :
    (orderLanes f r (boundaryJudged r s)).lanes = (orderLanes f r s).lanes := by
  have rest := boundaryJudged_undisturbed metering
  exact orderLanes_congr f r (boundaryJudged_rest r s).1 rest.tables rest.det

theorem refreshLower_source (a : AuthUnit) (k : Source) : a.refreshLower.sources[k] = (if 2 ≤ k.val then { a.sources[k] with
    standing := (a.sources[k]).asserted && (a.sources[k]).armed && !(a.sources[k]).spent } else a.sources[k]) :=
  a.refreshLower_get k

end Judged

/-! ### The branches of the boundary (R67, R68) -/

section Branches
variable {r : Ramp} {v : State}

theorem boundaryActs_failsafe (failsafe : effectiveAction v r = .failsafe) : boundaryActs r v = enterDarkFail r v :=
  if_pos failsafe

theorem boundaryActs_stop (other : effectiveAction v r ≠ .failsafe) (stops : stopDemand v r = true) :
    boundaryActs r v = enterShutClear r v := by
  rw [boundaryActs, if_neg other, if_pos stops]

theorem boundaryActs_hold (hold : effectiveAction v r = .hold) (goes : stopDemand v r = false) :
    boundaryActs r v = holdingSlot r (orderHold r v) := by
  rw [boundaryActs, if_neg (by rw [hold]; exact Effective.noConfusion), goes, hold]
  rfl

theorem boundaryActs_flush (flush : effectiveAction v r = .flush) (goes : stopDemand v r = false) :
    boundaryActs r v = holdingSlot r (orderFlush r v) := by
  rw [boundaryActs, if_neg (by rw [flush]; exact Effective.noConfusion), goes, flush]
  rfl

theorem boundaryActs_plan {n : Nat} (named : effectiveAction v r = .plan n ∨ effectiveAction v r = .auto n)
    (goes : stopDemand v r = false) : boundaryActs r v = meteredBoundary r n v := by
  rcases named with plan | auto
  · rw [boundaryActs, if_neg (by rw [plan]; exact Effective.noConfusion), goes, plan]
    rfl
  · rw [boundaryActs, if_neg (by rw [auto]; exact Effective.noConfusion), goes, auto]
    rfl

theorem meteredBoundary_set {n : Nat} {p : PlanRec} (set : planRec v.tables n = some p) :
    meteredBoundary r n v = makeOffers r (meterPlan r n p (orderReturn r v)) := by
  rw [meteredBoundary, set]

theorem meteredBoundary_unset {n : Nat} (unset : planRec v.tables n = none) : meteredBoundary r n v = v := by
  rw [meteredBoundary, unset]

/-- What the branches of the boundary keep: every other ramp's controller, the conditions and the slot count. -/
structure BoundaryKeeps (r : Ramp) (v u : State) : Prop where
  only : OnlyRamp r v u
  slots : (u.ramps[r]).slotCount = (v.ramps[r]).slotCount

theorem BoundaryKeeps.refl (r : Ramp) (v : State) : BoundaryKeeps r v v := ⟨(LaneSide.refl v).only r, rfl⟩

theorem BoundaryKeeps.trans {s t u : State} (a : BoundaryKeeps r s t) (b : BoundaryKeeps r t u) : BoundaryKeeps r s u :=
  ⟨a.only.trans b.only, b.slots.trans a.slots⟩

theorem LaneSide.boundary {t u : State} (a : LaneSide t u) (r : Ramp) : BoundaryKeeps r t u :=
  ⟨a.only r, SameRamp.field (a.ramps r) (·.slotCount) fun _ => rfl⟩

theorem holdingSlot_keeps (r : Ramp) (v : State) : BoundaryKeeps r v (holdingSlot r v) := by
  obtain ⟨own, _, _, _, _, only⟩ := startSlot_get r ((v.ramps[r]).lastNominal.getD 50) v
  exact ⟨only, by rw [holdingSlot, own]⟩

theorem meterPlan_keeps (r : Ramp) (n : Nat) (p : PlanRec) (v : State) : BoundaryKeeps r v (meterPlan r n p v) := by
  obtain ⟨own, _, _, _, _, only⟩ := meterPlan_get r n p v _ rfl
  exact ⟨only, by rw [own]⟩

theorem meteredBoundary_keeps (r : Ramp) (n : Nat) (v : State) : BoundaryKeeps r v (meteredBoundary r n v) := by
  cases set : planRec v.tables n with
  | none => rw [meteredBoundary_unset set]; exact .refl r v
  | some p =>
    rw [meteredBoundary_set set]
    exact ((orderReturn_side r v).boundary r).trans ((meterPlan_keeps r n p _).trans ((makeOffers_side r _).boundary r))

theorem boundaryActs_keeps (metering : (v.ramps[r]).state = .metering) : BoundaryKeeps r v (boundaryActs r v) := by
  have on : (v.ramps[r]).state ≠ .off := by rw [metering]; decide
  by_cases failsafe : effectiveAction v r = .failsafe
  · obtain ⟨_, _, _, _, vectors, _⟩ := enterDarkFail_left r v metering
    have one := (enterDarkFail_decided r v on).one
    rw [boundaryActs_failsafe failsafe]
    exact ⟨one.only vectors, one.slots.1⟩
  by_cases stops : stopDemand v r = true
  · obtain ⟨_, _, _, _, vectors, _⟩ := enterShutClear_left r v metering
    have one := (enterShutClear_decided r v on).one
    rw [boundaryActs_stop failsafe stops]
    exact ⟨one.only vectors, one.slots.1⟩
  have goes : stopDemand v r = false := Bool.not_eq_true _ ▸ stops
  cases action : effectiveAction v r with
  | failsafe => exact absurd action failsafe
  | dark => exact absurd ((stopDemand_iff v r).mpr (Or.inr (Or.inl action))) stops
  | hold =>
    rw [boundaryActs_hold action goes]
    exact ((orderHold_side r v).boundary r).trans (holdingSlot_keeps r _)
  | flush =>
    rw [boundaryActs_flush action goes]
    exact ((orderFlush_side r v).boundary r).trans (holdingSlot_keeps r _)
  | plan n => rw [boundaryActs_plan (Or.inl action) goes]; exact meteredBoundary_keeps r n v
  | auto n => rw [boundaryActs_plan (Or.inr action) goes]; exact meteredBoundary_keeps r n v

end Branches

/-! ### The slot fixed (R43, R50, R69, R83, R146) -/

section Slot

theorem alignedSlot_free {apply : Bool} {t offset len : Nat} (free : apply = false) :
    alignedSlot apply t offset len = (len, false) := by rw [free]; rfl

theorem alignedSlot_applies {apply : Bool} {t offset len : Nat} (applies : apply = true) :
    alignedSlot apply t offset len
      = (clampSlot (correctedSlot len (gridError t offset len)), decide (gridError t offset len = 0)) := by
  rw [applies]; rfl

/-- The nominal length and the Rate Unit's record that a boundary takes, by the plan's mode and what was adopted. -/
theorem nominalSlot_spec (p : PlanRec) (x : RateRec) (different : Prop) [Decidable different] (q : Nat × RateRec)
    (taken : q = nominalSlot p (if different then rateAdopted p else x)) :
    (p.adaptive = none → q = (p.slot, ⟨0, none, false⟩))
    ∧ (p.adaptive ≠ none → different → q = (p.slot, ⟨0, some p.slot, false⟩))
    ∧ (p.adaptive ≠ none → ¬ different → q = (x.adaptive.getD p.slot, { x with adaptive := some (x.adaptive.getD p.slot) })) := by
  subst taken
  cases mode : p.adaptive with
  | none => exact ⟨fun _ => by rw [nominalSlot, mode]; rfl, fun set => absurd rfl set, fun set => absurd rfl set⟩
  | some a =>
    refine ⟨fun none => (Option.some_ne_none a none).elim, fun _ fresh => ?_, fun _ same => ?_⟩
    · rw [if_pos fresh, nominalSlot, mode, rateAdopted, mode]
      rfl
    · rw [if_neg same, nominalSlot, mode]
      obtain ⟨relief, adaptive, degraded⟩ := x
      cases adaptive <;> rfl

theorem adoptedNumber_some {c : RampCtx} {a : Adopted} (adopted : c.adopted = some a) : adoptedNumber c = some a.number := by
  rw [adoptedNumber, adopted]
  rfl

/-- A plan adopted anew begins its pattern at 0. -/
theorem nextPatternCount_fresh {c : RampCtx} {n : Nat} (p : PlanRec) (different : adoptedNumber c ≠ some n) :
    nextPatternCount c n p = 0 := by
  refine if_pos ?_
  unfold countReturns
  cases adopted : c.adopted with
  | none => rfl
  | some a =>
    have other : a.number ≠ n := fun same => different (by rw [adoptedNumber_some adopted, same])
    exact Bool.or_eq_true _ _ |>.mpr (Or.inl (decide_eq_true other))

/-- A plan read again counts its pattern on, or returns it to 0 where its period changed. -/
theorem nextPatternCount_again {c : RampCtx} {n : Nat} {a : Adopted} (p : PlanRec) (adopted : c.adopted = some a)
    (same : a.number = n) : nextPatternCount c n p
      = if a.period = p.period then (if c.patternCount + 1 = p.period then 0 else c.patternCount + 1) else 0 := by
  have returns : countReturns c n p = decide (a.period ≠ p.period) := by
    rw [countReturns, adopted]
    dsimp only
    rw [decide_eq_false (not_not.mpr same), Bool.false_or]
  rw [nextPatternCount, returns]
  by_cases period : a.period = p.period
  · rw [if_pos period, if_neg (by rw [decide_eq_true_iff]; exact not_not.mpr period)]
  · rw [if_neg period, if_pos (decide_eq_true period)]

end Slot

/-! ### A boundary under a plan -/

section Plan
variable {r : Ramp} {s u v : State} {n : Nat} {p : PlanRec}

/-- The slot begun under a plan, ahead of its offers. -/
def slotPlanned (r : Ramp) (n : Nat) (p : PlanRec) (v : State) : State := meterPlan r n p (orderReturn r v)

/-- The slot under a plan in terms of the ramp as it stood at the boundary. -/
theorem slotPlanned_spec (metering : (s.ramps[r]).state = .metering) (judged : v = boundaryJudged r s) (q : Nat × RateRec)
    (taken : q = nominalSlot p (if adoptedNumber s.ramps[r] ≠ some n then rateAdopted p else s.rate[r]))
    (fixed : Nat × Bool)
    (aligned : fixed = alignedSlot (s.time.locked && p.coordinated) s.time.corridor (offsetOf s.tables r) q.1) :
    ∃ c : RampCtx, (slotPlanned r n p v).ramps[r] = { c with
        adopted := some (adoptedOf n p), patternCount := nextPatternCount s.ramps[r] n p, lastNominal := some q.1
        slotLength := some fixed.1, aligned := fixed.2, slotClock := .running 0
        attention := c.attention || decide (adoptedNumber s.ramps[r] ≠ some n) }
      ∧ c.state = .metering ∧ (slotPlanned r n p v).rate[r] = q.2 ∧ (slotPlanned r n p v).auth = v.auth
      ∧ (slotPlanned r n p v).lanes = (orderReturn r s).lanes ∧ (slotPlanned r n p v).out = (orderReturn r v).out
      ∧ (slotPlanned r n p v).tables = s.tables ∧ (slotPlanned r n p v).det = s.det := by
  have rest := boundaryJudged_undisturbed metering
  rw [← judged] at rest
  have returned := orderReturn_side r v
  have same : SameRamp v (orderReturn r v) r := returned.ramps r
  have field {α : Type} (f : RampCtx → α) (attention : ∀ c : RampCtx, f { c with attention := true } = f c)
      (plain : ∀ c : RampCtx, f c.plain = f c) (slots : ∀ (c : RampCtx) (k : Nat), f { c with slotCount := k } = f c) :
      f (orderReturn r v).ramps[r] = f s.ramps[r] := by
    rw [same.field f attention, judged, boundaryJudged_field f plain, slots]
  have number : adoptedNumber (orderReturn r v).ramps[r] = adoptedNumber s.ramps[r] :=
    field adoptedNumber (fun _ => rfl) (fun _ => rfl) fun _ _ => rfl
  have count : nextPatternCount (orderReturn r v).ramps[r] n p = nextPatternCount s.ramps[r] n p :=
    field (nextPatternCount · n p) (fun _ => rfl) (fun _ => rfl) fun _ _ => rfl
  have rates : (orderReturn r v).rate = s.rate := by rw [returned.rate, judged, (boundaryJudged_rest r s).2.2.1]
  have state : ((orderReturn r v).ramps[r]).state = .metering :=
    (field (·.state) (fun _ => rfl) (fun _ => rfl) fun _ _ => rfl).trans metering
  obtain ⟨own, rate, lanes, out, auth, _⟩ := meterPlan_get r n p (orderReturn r v) q (by rw [number, rates]; exact taken)
  have side := meterPlan_side r n p (orderReturn r v) state
  rw [number, count, returned.time, returned.tables, rest.time, rest.tables, ← aligned] at own
  refine ⟨(orderReturn r v).ramps[r], own, state, rate, auth.trans returned.auth, lanes.trans ?_, out,
    (side.tables.trans returned.tables).trans rest.tables, (side.det.trans returned.det).trans rest.det⟩
  rw [judged]
  exact boundaryJudged_orders _ metering

end Plan

/-! ### Offers (R84, R87) -/

section Offers
variable {c : LaneRec} {y : LaneCtx} {demand : Bool}

theorem laneOffer_releases (rests : y.state = .restRed) (called : laneCall c demand y = true) :
    laneOffer c demand y = laneRelease c y := by
  rw [laneOffer, rests]
  exact if_pos called

theorem laneOffer_idle (rests : y.state = .restRed) (uncalled : laneCall c demand y = false) :
    laneOffer c demand y = { y with counts := { y.counts with idleOffers := satInc y.counts.idleOffers } } := by
  rw [laneOffer, rests]
  exact if_neg (by rw [uncalled]; decide)

theorem laneOffer_skips (busy : y.state ≠ .restRed) :
    laneOffer c demand y = { y with counts := { y.counts with overrunSkips := satInc y.counts.overrunSkips } } := by
  unfold laneOffer
  cases state : y.state with
  | restRed => exact absurd state busy
  | _ => rfl

theorem laneRelease_eq (c : LaneRec) (y : LaneCtx) : laneRelease c y = { y with
    state := (if c.delay = 0 then .green else .delay)
    call := (if c.delay = 0 then false else y.call)
    greenPassageCount := (if c.delay = 0 then some 0 else y.greenPassageCount)
    interval := some ⟨0, some ⟨c.delay, c.minGreen, c.maxGreen, c.vehicles⟩, c.yellow, c.minRed, none, false⟩
    counts := { y.counts with releases := satInc y.counts.releases } } := by
  by_cases none : c.delay = 0
  · rw [laneRelease, if_pos none, if_pos none, if_pos none, if_pos none]
    rfl
  · rw [laneRelease, if_neg none, if_neg none, if_neg none, if_neg none]
    rfl

/-- The mask of a lane's place holds the count. -/
theorem offersAt_iff {c : RampCtx} {a : Adopted} (adopted : c.adopted = some a) (i : Nat) :
    offersAt c i = true ↔ ∃ m, a.masks[i]? = some m ∧ m.getLsbD c.patternCount = true := by
  unfold offersAt
  rw [adopted]
  dsimp only
  cases mask : a.masks[i]? with
  | none => simp
  | some m => simp

variable {r : Ramp} {x : State} {i : Nat} {l : Lane}

theorem makeOffers_unlisted (once : (lanesOf x.tables r).Nodup) (unlisted : l ∉ lanesOf x.tables r) :
    (makeOffers r x).lanes[l] = x.lanes[l] := by
  rw [makeOffers_eq]
  exact (forEach_orderLane _ _ (picked_nodup _ once) x l).1 fun mem => unlisted (picked_listed _ mem)

theorem makeOffers_lane (once : (lanesOf x.tables r).Nodup) (listed : (lanesOf x.tables r)[i]? = some l)
    (config : x.tables.laneCfg[l] = some c) :
    (offersAt x.ramps[r] i ≠ true → (makeOffers r x).lanes[l] = x.lanes[l])
    ∧ (offersAt x.ramps[r] i = true → (makeOffers r x).lanes[l] = laneOffer c (effectiveOf x c.demand) x.lanes[l]) := by
  have mem := picked_mem (offersAt x.ramps[r]) once listed
  obtain ⟨stays, moves⟩ := forEach_orderLane laneOffer _ (picked_nodup (offersAt x.ramps[r]) once) x l
  rw [makeOffers_eq]
  exact ⟨fun no => stays (mt mem.mp no), fun yes => moves (mem.mpr yes) c config⟩

/-- The head of a listed lane shows it behind the offers as ahead of them. -/
theorem makeOffers_head (once : (lanesOf x.tables r).Nodup) (listed : (lanesOf x.tables r)[i]? = some l)
    (config : x.tables.laneCfg[l] = some c) (alone : ∀ k ∈ lanesOf x.tables r, k ≠ l → headOf x.tables k ≠ some c.head)
    (shown : (x.out.chans[c.head]).commanded = laneAspect (x.lanes[l]).state) :
    ((makeOffers r x).out.chans[c.head]).commanded = laneAspect ((makeOffers r x).lanes[l]).state := by
  have mem := picked_mem (offersAt x.ramps[r]) once listed
  obtain ⟨still, shows⟩ := forEach_orderLane_head laneOffer _ (picked_nodup (offersAt x.ramps[r]) once) x config
    fun k pick => alone k (picked_listed _ pick)
  by_cases offered : offersAt x.ramps[r] i = true
  · rw [makeOffers_eq]
    exact shows (mem.mpr offered)
  · rw [(makeOffers_lane once listed config).1 offered, makeOffers_eq, still (mt mem.mp offered), shown]

end Offers

/-! ### What the boundary leaves, branch by branch -/

section Outcome
variable {r : Ramp} {s u v : State}

/-- The controller's record behind a boundary under a plan. -/
theorem planned_record {n : Nat} {p : PlanRec} (metering : (s.ramps[r]).state = .metering) (judged : v = boundaryJudged r s)
    (ended : u = makeOffers r (slotPlanned r n p v)) (q : Nat × RateRec)
    (taken : q = nominalSlot p (if adoptedNumber s.ramps[r] ≠ some n then rateAdopted p else s.rate[r]))
    (fixed : Nat × Bool)
    (aligned : fixed = alignedSlot (s.time.locked && p.coordinated) s.time.corridor (offsetOf s.tables r) q.1) :
    ∃ c : RampCtx, u.ramps[r] = { c with
        adopted := some (adoptedOf n p), patternCount := nextPatternCount s.ramps[r] n p, lastNominal := some q.1
        slotLength := some fixed.1, aligned := fixed.2, slotClock := .running 0 }
      ∧ c.state = .metering ∧ (adoptedNumber s.ramps[r] ≠ some n → c.attention = true) ∧ u.rate[r] = q.2
      ∧ u.auth = v.auth := by
  obtain ⟨c, own, state, rate, auth, _⟩ := slotPlanned_spec metering judged q taken fixed aligned
  have side := makeOffers_side r (slotPlanned r n p v)
  rw [← ended] at side
  refine ⟨{ c with attention := (u.ramps[r]).attention }, ?_, state, fun different => ?_, by rw [side.rate, rate],
    side.auth.trans auth⟩
  · rcases side.ramps r with same | told
    · rw [same, own]
    · rw [told, own]
  · have told : ((slotPlanned r n p v).ramps[r]).attention = true := by
      rw [own]
      exact Bool.or_eq_true _ _ |>.mpr (Or.inr (decide_eq_true different))
    exact SameRamp.attention (side.ramps r) told

/-- The head of a lane returned to metering behind the judgement shows the lane. -/
theorem returned_head {l : Lane} {c : LaneRec} (metering : (s.ramps[r]).state = .metering) (judged : v = boundaryJudged r s)
    (once : (lanesOf s.tables r).Nodup) (listed : l ∈ lanesOf s.tables r) (config : s.tables.laneCfg[l] = some c)
    (alone : ∀ k ∈ lanesOf s.tables r, k ≠ l → headOf s.tables k ≠ some c.head) :
    ((orderReturn r v).out.chans[c.head]).commanded = laneAspect ((orderReturn r s).lanes[l]).state := by
  have tables : v.tables = s.tables := by rw [judged]; exact (boundaryJudged_undisturbed metering).tables
  have lanes : (orderReturn r v).lanes = (orderReturn r s).lanes := by rw [judged]; exact boundaryJudged_orders _ metering
  rw [← tables] at once listed config alone
  obtain ⟨_, returned⟩ := orderLanes_spec (fun c _ x => laneReturn c x) r v once
  rw [← lanes]
  exact (returned l c listed config).2 alone

/-- The lanes behind a boundary under a plan: first returned to metering, then offered where their mask holds the count. -/
theorem planned_lanes {n : Nat} {p : PlanRec} (metering : (s.ramps[r]).state = .metering) (judged : v = boundaryJudged r s)
    (ended : u = makeOffers r (slotPlanned r n p v)) (once : (lanesOf s.tables r).Nodup) :
    (∀ l : Lane, l ∉ lanesOf s.tables r → u.lanes[l] = s.lanes[l])
    ∧ ∀ (i : Nat) (l : Lane) (c : LaneRec), (lanesOf s.tables r)[i]? = some l → s.tables.laneCfg[l] = some c →
      let offered := ∃ m, p.masks[i]? = some m ∧ m.getLsbD (u.ramps[r]).patternCount = true
      (¬ offered → u.lanes[l] = (orderReturn r s).lanes[l])
      ∧ (offered → u.lanes[l] = laneOffer c (effectiveOf s c.demand) (orderReturn r s).lanes[l])
      ∧ ((∀ k ∈ lanesOf s.tables r, k ≠ l → headOf s.tables k ≠ some c.head) →
          (u.out.chans[c.head]).commanded = laneAspect (u.lanes[l]).state) := by
  obtain ⟨x, own, _, _, _, lanes, out, tables, det⟩ := slotPlanned_spec metering judged _ rfl _ rfl (n := n) (p := p)
  obtain ⟨unlisted, _⟩ := orderLanes_spec (fun c _ x => laneReturn c x) r s once
  have count : (u.ramps[r]).patternCount = ((slotPlanned r n p v).ramps[r]).patternCount := by
    rw [ended]
    exact SameRamp.field ((makeOffers_side r _).ramps r) (·.patternCount) fun _ => rfl
  have adopted : ((slotPlanned r n p v).ramps[r]).adopted = some (adoptedOf n p) := by rw [own]
  have onceAt : (lanesOf (slotPlanned r n p v).tables r).Nodup := by rw [tables]; exact once
  refine ⟨fun l other => ?_, fun i l c listed config => ?_⟩
  · rw [ended, makeOffers_unlisted onceAt (by rw [tables]; exact other), lanes]
    exact unlisted l other
  · have listedAt : (lanesOf (slotPlanned r n p v).tables r)[i]? = some l := by rw [tables]; exact listed
    have configAt : (slotPlanned r n p v).tables.laneCfg[l] = some c := by rw [tables]; exact config
    obtain ⟨stays, moves⟩ := makeOffers_lane onceAt listedAt configAt
    have offers : offersAt (slotPlanned r n p v).ramps[r] i = true
        ↔ ∃ m, p.masks[i]? = some m ∧ m.getLsbD (u.ramps[r]).patternCount = true := by
      rw [count]
      exact offersAt_iff adopted i
    rw [← ended, lanes] at stays moves
    refine ⟨fun no => stays (mt offers.mp no), fun yes => ?_, fun alone => ?_⟩
    · rw [moves (offers.mpr yes), effectiveOf, effectiveOf, tables, det]
    · rw [ended]
      refine makeOffers_head onceAt listedAt configAt (by rw [tables]; exact alone) ?_
      rw [out, lanes]
      exact returned_head metering judged once (List.mem_of_getElem? listed) config alone

/-- The controller's record, the lanes and the units behind a holding slot (R68). -/
theorem holding_record {f : LaneRec → Bool → LaneCtx → LaneCtx} {L : Nat} (side : LaneSide v (orderLanes f r v))
    (metering : (s.ramps[r]).state = .metering) (judged : v = boundaryJudged r s)
    (ended : u = holdingSlot r (orderLanes f r v)) (nominal : L = ((s.ramps[r]).lastNominal).getD 50) :
    ∃ c : RampCtx, u.ramps[r] = { c with
        slotLength := some (alignedSlot (aligns s s.ramps[r]) s.time.corridor (offsetOf s.tables r) L).1
        aligned := (alignedSlot (aligns s s.ramps[r]) s.time.corridor (offsetOf s.tables r) L).2, slotClock := .running 0 }
      ∧ c.state = .metering ∧ c.adopted = (s.ramps[r]).adopted ∧ c.patternCount = (s.ramps[r]).patternCount
      ∧ c.lastNominal = (s.ramps[r]).lastNominal ∧ u.rate[r] = s.rate[r] ∧ u.auth[r] = v.auth[r]
      ∧ u.lanes = (orderLanes f r s).lanes := by
  have rest := boundaryJudged_undisturbed metering
  rw [← judged] at rest
  have field {α : Type} (g : RampCtx → α) (attention : ∀ c : RampCtx, g { c with attention := true } = g c)
      (plain : ∀ c : RampCtx, g c.plain = g c) (slots : ∀ (c : RampCtx) (k : Nat), g { c with slotCount := k } = g c) :
      g (orderLanes f r v).ramps[r] = g s.ramps[r] := by
    rw [SameRamp.field (side.ramps r) g attention, judged, boundaryJudged_field g plain, slots]
  have last : ((orderLanes f r v).ramps[r]).lastNominal = (s.ramps[r]).lastNominal :=
    field (·.lastNominal) (fun _ => rfl) (fun _ => rfl) fun _ _ => rfl
  have align : aligns (orderLanes f r v) (orderLanes f r v).ramps[r] = aligns s s.ramps[r] := by
    have kept : aligns s (orderLanes f r v).ramps[r] = aligns s s.ramps[r] :=
      field (aligns s) (fun _ => rfl) (fun _ => rfl) fun _ _ => rfl
    rw [← kept, aligns, aligns, side.time, rest.time]
  obtain ⟨own, lanes, _, auth, rate, _⟩ := startSlot_get r L (orderLanes f r v)
  rw [align, side.time, rest.time, side.tables, rest.tables] at own
  rw [holdingSlot, last, ← nominal] at ended
  rw [ended]
  refine ⟨(orderLanes f r v).ramps[r], own, (field (·.state) (fun _ => rfl) (fun _ => rfl) fun _ _ => rfl).trans metering,
    field (·.adopted) (fun _ => rfl) (fun _ => rfl) fun _ _ => rfl,
    field (·.patternCount) (fun _ => rfl) (fun _ => rfl) fun _ _ => rfl, last, ?_, ?_, ?_⟩
  · rw [rate, side.rate, judged, (boundaryJudged_rest r s).2.2.1]
  · rw [auth, side.auth]
  · rw [lanes, judged]
    exact boundaryJudged_orders f metering

end Outcome

theorem aligns_free {s : State} {c : RampCtx}
    (free : s.time.locked = false ∨ ∀ a, c.adopted = some a → a.coordinated = false) : aligns s c = false := by
  unfold aligns
  rcases free with unlocked | plain
  · rw [unlocked, Bool.false_and]
  · cases adopted : c.adopted with
    | none => exact Bool.and_false _
    | some a => exact Bool.and_eq_false_iff.mpr (Or.inr (plain a adopted))

theorem aligns_applies {s : State} {c : RampCtx} (locked : s.time.locked = true)
    (coordinated : ∃ a, c.adopted = some a ∧ a.coordinated = true) : aligns s c = true := by
  obtain ⟨a, adopted, follows⟩ := coordinated
  rw [aligns, locked, adopted]
  exact follows

/-- A holding slot runs its length unless it aligns, and then the corrected one. -/
theorem heldSlot_free {r : Ramp} {s : State} (L : Nat)
    (free : s.time.locked = false ∨ ∀ a, (s.ramps[r]).adopted = some a → a.coordinated = false) :
    some (alignedSlot (aligns s s.ramps[r]) s.time.corridor (offsetOf s.tables r) L).1 = some L
    ∧ (alignedSlot (aligns s s.ramps[r]) s.time.corridor (offsetOf s.tables r) L).2 = false := by
  rw [alignedSlot_free (aligns_free free)]
  exact ⟨rfl, rfl⟩

theorem heldSlot_applies {r : Ramp} {s : State} (L : Nat) (locked : s.time.locked = true)
    (follows : ∃ a, (s.ramps[r]).adopted = some a ∧ a.coordinated = true) :
    some (alignedSlot (aligns s s.ramps[r]) s.time.corridor (offsetOf s.tables r) L).1
      = some (clampSlot (correctedSlot L (gridError s.time.corridor (offsetOf s.tables r) L)))
    ∧ (alignedSlot (aligns s s.ramps[r]) s.time.corridor (offsetOf s.tables r) L).2
      = decide (gridError s.time.corridor (offsetOf s.tables r) L = 0) := by
  rw [alignedSlot_applies (aligns_applies locked follows)]
  exact ⟨rfl, rfl⟩

theorem slot_empty {c : RampCtx} (empty : c.slot = (none, 0, .stopped, none, none, false)) : c.adopted = none
    ∧ c.patternCount = 0 ∧ c.slotClock = .stopped ∧ c.slotLength = none ∧ c.lastNominal = none ∧ c.aligned = false := by
  simpa only [RampCtx.slot, Prod.mk.injEq] using empty

/-- Settles O52. -/
theorem slotBoundaryStartsTheNextSlot : Obligations.SlotBoundaryStartsTheNextSlot := by
  unfold Obligations.SlotBoundaryStartsTheNextSlot
  refine ⟨fun r s u v metering ended judged => ?boundary, fun r s => ⟨fun L n metering length runs => ?left, fun none => ?none⟩⟩
  case boundary =>
    have judged : v = boundaryJudged r s := judged
    obtain ⟨_, _, rates, unit, _, only⟩ := boundaryJudged_rest r s
    rw [← judged] at rates unit only
    have rest := boundaryJudged_undisturbed metering
    have state := boundaryJudged_metering metering
    rw [← judged] at rest state
    have side := slotBoundary_side r s metering
    have keeps := boundaryActs_keeps state
    have slots : (v.ramps[r]).slotCount = satInc (s.ramps[r]).slotCount :=
      judged ▸ boundaryJudged_field (·.slotCount) fun _ => rfl
    have acts : u = boundaryActs r v := by rw [ended, judged]; rfl
    rw [← acts] at keeps
    rw [← ended] at side
    have all := only.trans keeps.only
    refine ⟨fun due => ?exec, side.undisturbed, all.others, all.vectors, all.onTimers, keeps.slots.trans slots, unit,
      fun a => ⟨rfl, refreshLower_source a⟩, fun n p L set goes named fixed fresh again => ?plan,
      fun L goes named nominal => ?hold, fun leaves => ?leaves, fun stops other => ?stops, fun failsafe => ?failsafe⟩
    case exec => exact ended ▸ congrArg Host.Outcome.next (whenDue_due due (slotBoundary r) s)
    case plan =>
      have planned : u = makeOffers r (slotPlanned r n p v) := by
        rw [acts, boundaryActs_plan named goes, meteredBoundary_set (rest.tables ▸ set)]
        rfl
      obtain ⟨q, taken⟩ : ∃ q, q = nominalSlot p (if adoptedNumber s.ramps[r] ≠ some n then rateAdopted p else s.rate[r]) :=
        ⟨_, rfl⟩
      obtain ⟨qFixed, qFresh, qAgain⟩ := nominalSlot_spec p s.rate[r] _ q taken
      have qFresh (mode : p.adaptive ≠ none) (different : adoptedNumber s.ramps[r] ≠ some n) :
          q = (L, ⟨0, some L, false⟩) := by rw [qFresh mode different, fresh mode different]
      have qAgain (mode : p.adaptive ≠ none) (same : adoptedNumber s.ramps[r] = some n) :
          q = (L, { s.rate[r] with adaptive := some L }) := by rw [qAgain mode (not_not.mpr same), again mode same]
      have nominal : q.1 = L := by
        by_cases mode : p.adaptive = none
        · rw [qFixed mode, fixed mode]
        · by_cases same : adoptedNumber s.ramps[r] = some n
          · rw [qAgain mode same]
          · rw [qFresh mode same]
      obtain ⟨c, own, meters, told, rate, auth⟩ := planned_record metering judged planned q taken _ rfl
      rw [nominal] at own
      refine ⟨by rw [own]; exact meters, by rw [auth], by rw [own]; rfl,
        fun different => ⟨by rw [own]; exact nextPatternCount_fresh p different, by rw [own]; exact told different⟩,
        fun a adopted same => by rw [own]; exact nextPatternCount_again p adopted same, by rw [own], by rw [own],
        fun mode => by rw [rate, qFixed mode], fun mode different => by rw [rate, qFresh mode different],
        fun mode same => by rw [rate, qAgain mode same], fun free => ?_, fun follows locked => ?_, fun once => ?_⟩
      · have apart : (s.time.locked && p.coordinated) = false := Bool.and_eq_false_iff.mpr free.symm
        rw [own, alignedSlot_free apart]
        exact ⟨rfl, rfl⟩
      · have applies : (s.time.locked && p.coordinated) = true := by rw [locked, follows]; rfl
        rw [own, alignedSlot_applies applies]
        exact ⟨rfl, rfl⟩
      · obtain ⟨unlisted, listed⟩ := planned_lanes metering judged planned once
        refine ⟨unlisted, fun i l c y offered place config returned offers => ?_⟩
        obtain ⟨stays, moves, head⟩ := listed i l c place config
        rw [← returned] at stays moves
        refine ⟨fun no => stays (mt offers.mpr no), fun yes rests called => ?_, fun yes rests uncalled => ?_,
          fun yes busy => ?_, head⟩
        · rw [moves (offers.mp yes), laneOffer_releases rests called, laneRelease_eq]
          rfl
        · rw [moves (offers.mp yes), laneOffer_idle rests uncalled]
          rfl
        · rw [moves (offers.mp yes), laneOffer_skips busy]
          rfl
    case hold =>
      rcases named with hold | flush
      · obtain ⟨c, own, meters, adopted, count, last, rate, auth, lanes⟩ := holding_record (orderHold_side r v) metering judged
          (acts.trans (boundaryActs_hold hold goes)) nominal
        exact ⟨by rw [own]; exact meters, by rw [own]; exact adopted, by rw [own]; exact count, by rw [own],
          by rw [own]; exact last, rate, auth, fun free => by rw [own]; exact heldSlot_free L free,
          fun locked follows => by rw [own]; exact heldSlot_applies L locked follows, fun _ => lanes,
          fun flush => Effective.noConfusion (hold.symm.trans flush)⟩
      · obtain ⟨c, own, meters, adopted, count, last, rate, auth, lanes⟩ := holding_record (orderFlush_side r v) metering judged
          (acts.trans (boundaryActs_flush flush goes)) nominal
        exact ⟨by rw [own]; exact meters, by rw [own]; exact adopted, by rw [own]; exact count, by rw [own],
          by rw [own]; exact last, rate, auth, fun free => by rw [own]; exact heldSlot_free L free,
          fun locked follows => by rw [own]; exact heldSlot_applies L locked follows,
          fun hold => Effective.noConfusion (flush.symm.trans hold), fun _ => lanes⟩
    case leaves =>
      rw [acts]
      by_cases failsafe : effectiveAction v r = .failsafe
      · obtain ⟨slot, rate, attention, _⟩ := enterDarkFail_left r v state
        obtain ⟨adopted, count, clock, length, last, aligned⟩ := slot_empty slot
        rw [boundaryActs_failsafe failsafe]
        exact ⟨adopted, count, clock, length, last, aligned, rate, attention⟩
      · obtain ⟨slot, rate, attention, _⟩ := enterShutClear_left r v state
        obtain ⟨adopted, count, clock, length, last, aligned⟩ := slot_empty slot
        rw [boundaryActs_stop failsafe (leaves.resolve_right failsafe)]
        exact ⟨adopted, count, clock, length, last, aligned, rate, attention⟩
    case stops =>
      obtain ⟨_, _, _, lanes, _, rested, clearing⟩ := enterShutClear_left r v state
      have flushed : (orderFlush r v).lanes = (orderFlush r s).lanes := judged ▸ boundaryJudged_orders _ metering
      rw [acts, boundaryActs_stop other stops]
      rw [flushed, rest.tables] at rested clearing
      rw [flushed] at lanes
      rw [lanes]
      exact ⟨rfl, rested, clearing⟩
    case failsafe =>
      obtain ⟨_, _, _, lanes, _, dark⟩ := enterDarkFail_left r v state
      rw [acts, boundaryActs_failsafe failsafe]
      refine ⟨lanes.trans ?_, dark⟩
      rw [judged]
      exact boundaryJudged_orders _ metering
  case left =>
    rw [slotLeft, if_pos metering, length, Option.bind_some, runs]
    rfl
  case none =>
    rcases none with other | stopped
    · exact if_neg other
    · rw [slotLeft]
      split
      · cases (s.ramps[r]).slotLength with
        | none => rfl
        | some n => exact left_none stopped
      · rfl

end Sys2Proof.Machine
end

section
/-! SUPPORT. The close of a window (R15 to R19, R25, R32 to R37, R44, R75, R100), part by part. -/

namespace Sys2Proof.Machine

/-! ### The channels' results (R17 to R19) -/

section Channels
variable {s : State} {ch : Channel}

theorem windowClose_chan (s : State) (ch : Channel) : (windowClose s).det.chans[ch]
    = publish s.tables.detMap[ch] (s.det.elapsed / 100000) (judgeChatter s.tables.detMap[ch] s.det.chans[ch]) := by
  rw [windowClose_det]
  exact (vmap_get ..).trans (congrArg (publish _ _) (vmap_get ..))

theorem windowClose_unmapped (none : s.tables.detMap[ch] = none) : (windowClose s).det.chans[ch] = { s.det.chans[ch] with
    lastOcc := 0, lastVol := 0, lastValid := false, onTime := 0, volume := 0, glitches := 0, okThroughout := false } := by
  rw [windowClose_chan, none]
  rfl

/-- The health that the chatter judgement leaves (R17). -/
def chatterHealth (d : DetRec) (x : DetState) : Health :=
  if x.health = .ok ∧ d.chatterLimit < x.glitches then .chatter
  else if x.health = .chatter ∧ x.glitches ≤ d.chatterLimit then (if x.stuck = .expired then .stuck else .ok)
  else x.health

theorem chatterHealth_rises {d : DetRec} {x : DetState} (ok : x.health = .ok) (beyond : d.chatterLimit < x.glitches) :
    chatterHealth d x = .chatter := if_pos ⟨ok, beyond⟩

theorem chatterHealth_recovers {d : DetRec} {x : DetState} (chatters : x.health = .chatter)
    (within : x.glitches ≤ d.chatterLimit) : chatterHealth d x = recoveredHealth x := by
  rw [chatterHealth, if_neg fun rises => by rw [chatters] at rises; exact Health.noConfusion rises.1,
    if_pos ⟨chatters, within⟩]
  rfl

theorem chatterHealth_stays {d : DetRec} {x : DetState} (rests : ¬ (x.health = .ok ∧ d.chatterLimit < x.glitches))
    (goesOn : ¬ (x.health = .chatter ∧ x.glitches ≤ d.chatterLimit)) : chatterHealth d x = x.health := by
  rw [chatterHealth, if_neg rests, if_neg goesOn]

theorem judgeChatter_stays {d : DetRec} {x : DetState} (rests : ¬ (x.health = .ok ∧ d.chatterLimit < x.glitches))
    (goesOn : ¬ (x.health = .chatter ∧ x.glitches ≤ d.chatterLimit)) : judgeChatter (some d) x = x := by
  unfold judgeChatter
  dsimp only
  cases health : x.health with
  | ok => exact if_neg fun beyond => rests ⟨health, beyond⟩
  | chatter => exact if_neg fun within => goesOn ⟨health, within⟩
  | _ => rfl

/-- The chatter judgement: the new health, and the window OK throughout only where no fault lies in it. -/
theorem judgeChatter_some (d : DetRec) (x : DetState) : judgeChatter (some d) x = { x with
    health := chatterHealth d x
    okThroughout := x.okThroughout && decide (chatterHealth d x = x.health ∨ chatterHealth d x = .ok) } := by
  by_cases rises : x.health = .ok ∧ d.chatterLimit < x.glitches
  · obtain ⟨ok, beyond⟩ := rises
    have result : judgeChatter (some d) x = x.setHealth .chatter := by
      rw [judgeChatter, ok]
      exact if_pos beyond
    rw [result, chatterHealth_rises ok beyond, ok]
    rfl
  by_cases recovers : x.health = .chatter ∧ x.glitches ≤ d.chatterLimit
  · obtain ⟨chatters, within⟩ := recovers
    have result : judgeChatter (some d) x = x.setHealth (recoveredHealth x) := by
      rw [judgeChatter, chatters]
      exact if_pos within
    have other : recoveredHealth x ≠ .chatter := by
      rw [recoveredHealth]
      split <;> decide
    rw [result, chatterHealth_recovers chatters within, chatters]
    simp only [other, false_or]
    rfl
  · rw [judgeChatter_stays rises recovers, chatterHealth_stays rises recovers]
    simp

theorem windowClose_mapped {d : DetRec} {x : DetState} {valid : Bool} (mapped : s.tables.detMap[ch] = some d)
    (before : x = s.det.chans[ch]) (valids : valid = true ↔ x.okThroughout = true
      ∧ (chatterHealth d x = x.health ∨ chatterHealth d x = .ok) ∧ d.always = false ∧ s.det.elapsed / 100000 ≠ 0) :
    (windowClose s).det.chans[ch] = { x with
      health := chatterHealth d x, lastVol := x.volume, lastValid := valid
      lastOcc := (if s.det.elapsed / 100000 = 0 then 0 else x.onTime / 100000 * 1000 / (s.det.elapsed / 100000))
      onTime := 0, volume := 0, glitches := 0, okThroughout := decide (chatterHealth d x = .ok) } := by
  have published : valid = resultValid (some d) (judgeChatter (some d) x) (s.det.elapsed / 100000) := by
    rw [Bool.eq_iff_iff, valids, judgeChatter_some, resultValid]
    simp only [Bool.and_eq_true, decide_eq_true_iff, Bool.not_eq_true', bne_iff_ne, and_assoc]
  rw [windowClose_chan, mapped, ← before, published, judgeChatter_some]
  rfl

end Channels

/-! ### Counts, and a ramp in OFF (R25, R75) -/

section Ramps
variable (s : State) (r : Ramp)

theorem windowClose_slots : ((windowClose s).ramps[r]).lastSlotCount = (s.ramps[r]).slotCount
    ∧ ((windowClose s).ramps[r]).slotCount = 0 := by
  obtain ⟨x, y, rolled, _, _, carried, _, _, _, same, _⟩ := windowClose_way s r
  obtain ⟨slots, last, _⟩ := selectPlan_carries r x
  constructor
  · rw [same.field (·.lastSlotCount) fun _ => rfl, carried.slots.2, last, rolled.counts.1]
  · rw [same.field (·.slotCount) fun _ => rfl, carried.slots.1, slots, rolled.counts.2]

theorem selectPlan_off {s : State} {r : Ramp} (off : (s.ramps[r]).state = .off) : selectPlan r s = s := if_pos off

theorem windowClose_off (off : (s.ramps[r]).state = .off) : ((windowClose s).ramps[r]).state = .off
    ∧ (windowClose s).vectors[r] = s.vectors[r] ∧ ((windowClose s).ramps[r]).selection = (s.ramps[r]).selection := by
  obtain ⟨x, y, rolled, _, _, carried, _, _, _, same, vectors, _⟩ := windowClose_way s r
  obtain ⟨offAt, selection, vector⟩ := rolled.off off
  rw [selectPlan_off offAt] at carried
  obtain ⟨offAfter, selectionAfter, vectorAfter⟩ := carried.off offAt
  exact ⟨(same.field (·.state) fun _ => rfl).trans offAfter, vectors.trans (vectorAfter.trans vector),
    (same.field (·.selection) fun _ => rfl).trans (selectionAfter.trans selection)⟩

theorem selection_eq {c d : RampCtx} (same : c.selection = d.selection) :
    c.autoPlan = d.autoPlan ∧ c.candidate = d.candidate ∧ c.planUnset = d.planUnset := by
  simpa only [RampCtx.selection, Prod.mk.injEq] using same

/-! ### Selection (R25, R32 to R36) -/

/-- The step of selection at a close of a ramp that does not end in OFF: its vector, and its proposal persisted. -/
theorem windowClose_selection (on : ((windowClose s).ramps[r]).state ≠ .off) (p : Proposal)
    (proposed : p = propose s.tables r (windowClose s).vectors[r]) :
    (∀ c : Fin 16, ((windowClose s).vectors[r])[c]
      = conditionValue (windowClose s) (condRec s.tables r c) (s.vectors[r])[c])
    ∧ ∃ c : RampCtx, c.selection = (s.ramps[r]).selection
      ∧ ((windowClose s).ramps[r]).autoPlan = (persist p c).autoPlan
      ∧ ((windowClose s).ramps[r]).candidate = (persist p c).candidate
      ∧ ((windowClose s).ramps[r]).planUnset = p.unset
      ∧ (p.unset ≠ c.planUnset → ((windowClose s).ramps[r]).attention = true) := by
  obtain ⟨x, y, rolled, tables, det, carried, _, _, told, same, vectors, _⟩ := windowClose_way s r
  have onY : (y.ramps[r]).state ≠ .off := same.field (·.state) (fun _ => rfl) ▸ on
  obtain ⟨onSelected, selectionY, vectorY⟩ := carried.selection onY
  have onX : (x.ramps[r]).state ≠ .off := fun off => onSelected (by rw [selectPlan_off off, off])
  obtain ⟨_, selectionX, vectorX⟩ := rolled.selection onX
  obtain ⟨t, own, vector, _, one⟩ := selectPlan_spec r x onX _ _ rfl rfl
  obtain ⟨_, selectionT, vectorT⟩ := one.selection onSelected
  have vectorU : (windowClose s).vectors[r] = newVector x r := by rw [vectors, vectorY, vectorT, vector]
  rw [vectorU, ← tables] at proposed
  rw [← proposed] at own
  have selectionU : ((windowClose s).ramps[r]).selection = (t.ramps[r]).selection :=
    (same.field (·.selection) fun _ => rfl).trans (selectionY.trans selectionT)
  obtain ⟨auto, candidate, unset⟩ := selection_eq selectionU
  rw [own] at auto candidate unset
  refine ⟨fun c => ?_, x.ramps[r], selectionX, auto, candidate, unset, fun changes => ?_⟩
  · rw [vectorU, newVector, conditionValue_congr det.symm, tables, ← vectorX]
    exact vmap_get ..
  · have marked : (t.ramps[r]).attention = true := by
      rw [own]
      exact Bool.or_eq_true _ _ |>.mpr (Or.inr (decide_eq_true changes))
    exact same.attention (carried.attention (one.side.attention r marked))

end Ramps

section Propose
variable {t : Tables} {r : Ramp} {v : Vector Bool 16} {named pers n : Nat}

theorem proposalOf_eq (unset : named = 0 ∨ planSet t named = false → n = 0) (set : planSet t named = true → n = named) :
    proposalOf t named pers = ⟨n, pers, decide (named ≠ 0) && !planSet t named⟩ := by
  unfold proposalOf
  by_cases none : named = 0
  · rw [if_pos none, unset (Or.inl none), none]
    rfl
  · rw [if_neg none]
    cases stored : planSet t named with
    | true => rw [if_pos rfl, set stored, Bool.not_true, Bool.and_false]
    | false =>
      rw [if_neg Bool.false_ne_true, unset (Or.inr stored), decide_eq_true none]
      rfl

/-- The proposal is the winning entry's, or the default plan's where none matches (R32, R33). -/
theorem propose_eq {fits : MatchRec → Prop}
    (matching : ∀ m, fits m ↔ ∀ c : Fin 16, m.care.getLsbD c.val = true → m.value.getLsbD c.val = v[c])
    (names : (∃ (i : Fin 12) (m : MatchRec), matchRec t r i = some m ∧ fits m
          ∧ (∀ (j : Fin 12) (o : MatchRec), j < i → matchRec t r j = some o → ¬ fits o)
          ∧ named = m.plan ∧ pers = m.persistence.getD 1)
        ∨ ((∀ (j : Fin 12) (o : MatchRec), matchRec t r j = some o → ¬ fits o)
          ∧ named = defaultPlan t r ∧ pers = 1)) :
    propose t r v = proposalOf t named pers := by
  have fitting (m : MatchRec) : entryMatches m v = true ↔ fits m := (entryMatches_iff m v).trans (matching m).symm
  rcases names with ⟨i, m, entry, match_, first, rfl, rfl⟩ | ⟨no, rfl, rfl⟩
  · rw [propose, winningEntry_first entry ((fitting m).mpr match_) fun j o before other =>
      mt (fitting o).mp (first j o before other)]
  · rw [propose, winningEntry_none fun j o other => mt (fitting o).mp (no j o other)]

theorem nextCandidate_eq (c : Option Candidate) (n : Nat) : nextCandidate c n = ⟨n, match c with
    | some o => if o.plan = n then o.count + 1 else 1
    | none => 1⟩ := by
  cases c with
  | none => rfl
  | some o =>
    unfold nextCandidate
    dsimp only
    by_cases same : o.plan = n
    · rw [if_pos same, if_pos same, same]
    · rw [if_neg same, if_neg same]

end Propose

/-! ### The Rate Unit (R44) -/

section Rate
variable {s : State} {r : Ramp}

theorem roleOccupancies_congr {x y : State} (tables : x.tables = y.tables) (det : x.det = y.det) (role : Role) :
    roleOccupancies x role r = roleOccupancies y role r := by
  unfold roleOccupancies
  rw [tables, det]

theorem windowClose_rate_idle (idle : (s.ramps[r]).state ≠ .metering) : (windowClose s).rate[r] = s.rate[r] := by
  obtain ⟨x, y, rolled, _, _, carried, _, _, _, _, _, rate⟩ := windowClose_way s r
  obtain ⟨_, _, _, meters, _, kept⟩ := selectPlan_carries r x
  have idleX : (x.ramps[r]).state ≠ .metering := fun on => idle (rolled.metering on).1
  have idleSelected : ((selectPlan r x).ramps[r]).state ≠ .metering := fun on => idleX (meters on).1
  have idleY : (y.ramps[r]).state ≠ .metering := fun on => idleSelected (carried.metering on).1
  have none : adoptedAdaptive y r = none := if_neg idleY
  rw [rate, none]
  exact (carried.rate idleSelected).trans ((kept idleX).trans (rolled.rate idle))

/-- METERING left at a close leaves the Rate Unit's record empty. -/
theorem windowClose_rate_left (meters : (s.ramps[r]).state = .metering)
    (left : ((windowClose s).ramps[r]).state ≠ .metering) : (windowClose s).rate[r] = ⟨0, none, false⟩ := by
  obtain ⟨x, y, rolled, _, _, carried, _, _, _, same, _, rate⟩ := windowClose_way s r
  obtain ⟨_, _, _, _, leaves, kept⟩ := selectPlan_carries r x
  have idleY : (y.ramps[r]).state ≠ .metering := same.field (·.state) (fun _ => rfl) ▸ left
  have none : adoptedAdaptive y r = none := if_neg idleY
  rw [rate, none]
  by_cases selected : ((selectPlan r x).ramps[r]).state = .metering
  · exact carried.left selected idleY
  refine (carried.rate selected).trans ?_
  by_cases rolledOn : (x.ramps[r]).state = .metering
  · exact leaves rolledOn selected
  · exact (kept rolledOn).trans (rolled.left meters rolledOn)

/-- A ramp that goes on metering keeps its adopted plan, and its record takes the close's step where that is ADAPTIVE. -/
theorem windowClose_rate_metering (meters : ((windowClose s).ramps[r]).state = .metering) :
    (s.ramps[r]).state = .metering ∧ ((windowClose s).ramps[r]).adopted = (s.ramps[r]).adopted
    ∧ ∃ y : State, (y.ramps[r]).state = .metering ∧ (y.ramps[r]).adopted = (s.ramps[r]).adopted ∧ y.tables = s.tables
      ∧ y.det = (windowClose s).det ∧ y.rate[r] = s.rate[r]
      ∧ (∀ (p : PlanRec) (a : Adaptive), adoptedAdaptive y r = some (p, a) →
          (windowClose s).rate[r] = rateAtClose y r p a s.rate[r])
      ∧ (adoptedAdaptive y r = none → (windowClose s).rate[r] = s.rate[r]) := by
  obtain ⟨x, y, rolled, _, _, carried, tables, det, _, same, _, rate⟩ := windowClose_way s r
  obtain ⟨_, _, _, goes, _⟩ := selectPlan_carries r x
  have metersY : (y.ramps[r]).state = .metering := (same.field (·.state) fun _ => rfl).symm.trans meters
  obtain ⟨metersSelected, slotSelected, rateSelected⟩ := carried.metering metersY
  obtain ⟨metersX, slotX, rateX⟩ := goes metersSelected
  obtain ⟨metersS, slotS, rateS⟩ := rolled.metering metersX
  have adopted : (y.ramps[r]).adopted = (s.ramps[r]).adopted := slot_adopted (slotSelected.trans (slotX.trans slotS))
  have kept : y.rate[r] = s.rate[r] := rateSelected.trans (rateX.trans rateS)
  refine ⟨metersS, (same.field (·.adopted) fun _ => rfl).trans adopted, y, metersY, adopted, tables, det, kept,
    fun p a adaptive => ?_, fun fixed => ?_⟩
  · rw [rate, adaptive, kept]
  · rw [rate, fixed, kept]

end Rate

end Sys2Proof.Machine
end

section
/-! SUPPORT. A changed auto plan at a close is a decision for its ramp (R36, R37, R61 to R64). -/

namespace Sys2Proof.Machine

/-! ### One ramp's selection -/

/-- The ramp's state, phase and timer stand, and every lane. -/
structure Rests (r : Ramp) (a b : State) : Prop where
  state : (b.ramps[r]).state = (a.ramps[r]).state
  phase : (b.ramps[r]).clearPhase = (a.ramps[r]).clearPhase
  timer : (b.ramps[r]).phaseTimer = (a.ramps[r]).phaseTimer
  lanes : b.lanes = a.lanes

section Decision
variable {r : Ramp} {a b : State}

/-- A ramp's selection: its new auto plan, candidate and mark, and the demand acted on where the auto plan changed. -/
theorem selectPlan_parts (on : (a.ramps[r]).state ≠ .off) (selected : b = selectPlan r a) :
    ∃ (t : State) (auto : Nat) (candidate : Option Candidate) (unset attention : Bool), t.ramps[r] = { a.ramps[r] with
        autoPlan := auto, candidate := candidate, planUnset := unset, attention := attention }
      ∧ t.auth = a.auth ∧ t.tables = a.tables ∧ t.lanes = a.lanes
      ∧ (auto = (a.ramps[r]).autoPlan → b = t) ∧ (auto ≠ (a.ramps[r]).autoPlan → b = actOnDemand r (judge r t)) := by
  obtain ⟨t, own, auth, tables, lanes, _, _, same, changed⟩ := selectPlan_acts r a on
  rw [persist_eq] at own
  have auto := congrArg RampCtx.autoPlan own
  rw [auto, ← selected] at same changed
  exact ⟨t, _, _, _, _, own, auth, tables, lanes, same, changed⟩

/-- The ramp judged behind a change of its auto plan, ahead of its acting on the demand. -/
structure PlanChanged (r : Ramp) (a j : State) : Prop where
  rests : Rests r a j
  auth : j.auth = a.auth
  tables : j.tables = a.tables
  mode : (j.ramps[r]).mode = (a.ramps[r]).mode
  auto : (j.ramps[r]).autoPlan ≠ (a.ramps[r]).autoPlan
  unset : (j.ramps[r]).actionUnset = judgedUnset a r
  judged : (j.ramps[r]).actionUnset = judgedUnset j r
  stands : (j.ramps[r]).stopStands = stopDemand j r

/-- What selection comes to: nothing but the selection's own fields, or the demand acted on. -/
theorem selectPlan_decides (selected : b = selectPlan r a) :
    ((b.ramps[r]).autoPlan = (a.ramps[r]).autoPlan ∧ Rests r a b ∧ b.auth = a.auth
      ∧ (b.ramps[r]).mode = (a.ramps[r]).mode ∧ (b.ramps[r]).actionUnset = (a.ramps[r]).actionUnset
      ∧ (b.ramps[r]).stopStands = (a.ramps[r]).stopStands)
    ∨ ∃ j : State, PlanChanged r a j ∧ b = actOnDemand r j := by
  by_cases off : (a.ramps[r]).state = .off
  · rw [selected, selectPlan_off off]
    exact Or.inl ⟨rfl, ⟨rfl, rfl, rfl, rfl⟩, rfl, rfl, rfl, rfl⟩
  obtain ⟨t, auto, candidate, unset, attention, own, auth, tables, lanes, same, changed⟩ := selectPlan_parts off selected
  by_cases kept : auto = (a.ramps[r]).autoPlan
  · rw [same kept]
    refine Or.inl ⟨?_, ⟨by rw [own], by rw [own], by rw [own], lanes⟩, auth, by rw [own], by rw [own], by rw [own]⟩
    rw [own]
    exact kept
  · obtain ⟨lanesJudged, _, authJudged, _⟩ := judge_rest r t
    have side := judge_side r t
    have record := judge_record r t
    have unsetAt : judgedUnset t r = judgedUnset a r := by unfold judgedUnset; rw [auth, tables]
    have unsetJudged : judgedUnset (judge r t) r = judgedUnset t r := by unfold judgedUnset; rw [authJudged, side.tables]
    have marked : ((judge r t).ramps[r]).actionUnset = judgedUnset t r := by rw [judge_eq]
    rw [own] at record
    refine Or.inr ⟨judge r t, ⟨⟨by rw [record], by rw [record], by rw [record], lanesJudged.trans lanes⟩,
      authJudged.trans auth, side.tables.trans tables, by rw [record], ?_, marked.trans unsetAt,
      marked.trans unsetJudged.symm, judge_stopStands r t⟩, changed kept⟩
    rw [record]
    exact kept

/-- The decision taken on a changed auto plan, by the ramp's state. -/
theorem PlanChanged.decision {j : State} (change : PlanChanged r a j) (acts : b = actOnDemand r j)
    (live : (a.ramps[r]).state = .warn → (a.ramps[r]).mode = .auto) :
    b.auth = a.auth ∧ (b.ramps[r]).mode = (a.ramps[r]).mode ∧ (b.ramps[r]).autoPlan ≠ (a.ramps[r]).autoPlan
    ∧ ((a.ramps[r]).state = .standby → (startDemand b r = true → Entered r .warn (.running 0) b)
      ∧ (startDemand b r = false → Rests r a b))
    ∧ ((a.ramps[r]).state = .warn → (stopDemand b r = true → Entered r .standby .stopped b
        ∧ (a.tables.Apart → HeadsShow r b
          ∧ ∀ l ∈ lanesOf a.tables r, a.tables.laneCfg[l] ≠ none → (b.lanes[l]).state = .dark))
      ∧ (stopDemand b r = false → Rests r a b))
    ∧ ((a.ramps[r]).state = .startGreen → (stopDemand b r = true → Entered r .shutFlush (.running 0) b)
      ∧ (stopDemand b r = false → Rests r a b))
    ∧ ([RampState.standby, .warn, .startGreen].contains (a.ramps[r]).state = false → Rests r a b)
    ∧ (b.ramps[r]).stopStands = stopDemand b r
    ∧ ((b.ramps[r]).actionUnset = true
      ↔ ∃ n, (a.auth[r]).granted = some (.plan n) ∧ planRec a.tables n = none) := by
  have liveJ : (j.ramps[r]).state = .warn → (j.ramps[r]).mode = .auto := by
    rw [change.rests.state, change.mode]
    exact live
  obtain ⟨auth, mode, auto, unset, _, darkens⟩ := actOnDemand_kept r j liveJ change.judged
  have stands := actOnDemand_stands r j change.stands
  obtain ⟨standby, warn, green, rest⟩ := actOnDemand_spec r j b acts
  have demand : stopDemand b r = stopDemand j r := by
    rw [acts]
    exact (demand_congr (actOnDemand_side r j).tables (by rw [auth]) mode auto).2.2
  rw [← acts] at auth mode auto unset darkens stands
  rw [change.rests.state] at standby warn green rest darkens
  rw [change.tables] at darkens
  have still (same : b = j) : Rests r a b := same ▸ change.rests
  refine ⟨auth.trans change.auth, mode.trans change.mode, auto ▸ change.auto, fun state => ?_, fun state => ?_, fun state => ?_,
    fun other => still (rest ?_ ?_ ?_), stands, by rw [unset, change.unset]; exact judgedUnset_iff a r⟩
  · obtain ⟨starts, stays⟩ := standby state
    exact ⟨starts, fun none => still (stays none)⟩
  · obtain ⟨stops, stays⟩ := warn state (change.mode.trans (live state))
    exact ⟨fun stop => ⟨stops stop, fun apart => darkens apart state (demand ▸ stop)⟩, fun none => still (stays none)⟩
  · obtain ⟨stops, stays⟩ := green state
    exact ⟨stops, fun none => still (stays none)⟩
  all_goals
    intro state
    rw [state] at other
    exact absurd other (by decide)

end Decision
end Sys2Proof.Machine
end

section
/-! SUPPORT. A ramp's turn in the close of a window, from the announced health to its end (R15 to R19, R32 to R37, R119). -/

namespace Sys2Proof.Machine

/-! ### What a turn of the other ramps leaves of a ramp's decision -/

/-- A ramp's context, its slot counts and attention apart. -/
def RampCtx.decided (c : RampCtx) : RampCtx := { c with slotCount := 0, lastSlotCount := 0, attention := false }

theorem RampCtx.decided_eq {c d : RampCtx} (same : c.decided = d.decided) : c.state = d.state
    ∧ c.clearPhase = d.clearPhase ∧ c.phaseTimer = d.phaseTimer ∧ c.mode = d.mode ∧ c.autoPlan = d.autoPlan
    ∧ c.actionUnset = d.actionUnset ∧ c.stopStands = d.stopStands := by
  have field {α : Type} (f : RampCtx → α) : f c.decided = f d.decided := congrArg f same
  exact ⟨field (·.state), field (·.clearPhase), field (·.phaseTimer), field (·.mode), field (·.autoPlan),
    field (·.actionUnset), field (·.stopStands)⟩

/-- What a decision of the ramp and its outcome are read from stands. -/
structure Told (r : Ramp) (b u : State) : Prop where
  ctx : (u.ramps[r]).decided = (b.ramps[r]).decided
  auth : u.auth[r] = b.auth[r]
  tables : u.tables = b.tables
  lanes : b.tables.Apart → ∀ l ∈ lanesOf b.tables r, u.lanes[l] = b.lanes[l]
  starts : startDemand u r = startDemand b r
  stops : stopDemand u r = stopDemand b r
  entered : b.tables.Apart → ∀ (st : RampState) (tm : Timer), Entered r st tm b → Entered r st tm u
  heads : b.tables.Apart → HeadsShow r b → HeadsShow r u

theorem Told.trans {r : Ramp} {a b c : State} (first : Told r a b) (second : Told r b c) : Told r a c where
  ctx := second.ctx.trans first.ctx
  auth := second.auth.trans first.auth
  tables := second.tables.trans first.tables
  lanes apart l listed := by
    have step := second.lanes
    rw [first.tables] at step
    exact (step apart l listed).trans (first.lanes apart l listed)
  starts := second.starts.trans first.starts
  stops := second.stops.trans first.stops
  entered apart st tm before := second.entered (first.tables.symm ▸ apart) st tm (first.entered apart st tm before)
  heads apart before := second.heads (first.tables.symm ▸ apart) (first.heads apart before)

theorem Beside.told {r : Ramp} {b u : State} (beside : Beside r b u) : Told r b u where
  ctx := beside.away.same.field RampCtx.decided fun _ => rfl
  auth := beside.away.auth
  tables := beside.away.side.tables
  lanes := beside.lanes
  starts := beside.demand.2.1
  stops := beside.demand.2.2
  entered apart _ _ := beside.entered apart
  heads := beside.heads

theorem forRamps_rateClose_told (r : Ramp) (s : State) : Told r s (forRamps rateClose s) := by
  obtain ⟨ramps, auth, lanes, out, tables⟩ := forRamps_rateClose s
  obtain ⟨_, starts, stops⟩ := demand_congr (r := r) tables (by rw [auth]) (by rw [ramps]) (by rw [ramps])
  refine ⟨by rw [ramps], by rw [auth], tables, fun _ l _ => by rw [lanes], starts, stops, fun _ st tm before => ?_,
    fun _ before => before.kept tables lanes fun ch _ => by rw [out]⟩
  exact before.kept tables (by rw [ramps]) (fun marked => by rw [ramps, marked]) fun ch _ shown => by rw [out, shown]

/-! ### The announced health (R17, R119) -/

/-- The close's announcement is the chatter step's. -/
theorem chatterStep_of_announced {w t v : State} (det : t = { w with det := { w.det with chans := t.det.chans } })
    (judged : ∀ ch : Channel, t.det.chans[ch] = judgeChatter w.tables.detMap[ch] w.det.chans[ch])
    (announced : v = announce w t) : v = chatterStep w := by
  have chans : t.det.chans = vmap (fun ch c => judgeChatter w.tables.detMap[ch] c) w.det.chans :=
    Vector.ext fun j small => (judged ⟨j, small⟩).trans
      (vmap_getNat (fun ch c => judgeChatter w.tables.detMap[ch] c) w.det.chans j small).symm
  rw [announced, chatterStep, ← chans, ← det]

/-! ### A ramp's turn -/

/-- A ramp as its own selection finds it, between the announced health and the selections of the other ramps. -/
structure TurnBegun (r : Ramp) (s v a : State) : Prop where
  ctx : (a.ramps[r]).decided = (v.ramps[r]).decided
  auth : a.auth[r] = v.auth[r]
  tables : a.tables = s.tables
  lanes : s.tables.Apart → ∀ l ∈ lanesOf s.tables r,
    a.lanes[l] = { v.lanes[l] with last := (s.lanes[l]).counts, counts := ⟨0, 0, 0, 0, 0, 0⟩ }

theorem selectPlan_beside {q r : Ramp} (t : State) (other : q ≠ r) : Beside r t (selectPlan q t) :=
  (selectPlan_reach q t).beside_elsewhere (selectPlan_elsewhere q r t other) other

/-- The roll-over ends the publication: a ramp's slot counts and its lanes' counts alone move (R19, R75, R100). -/
theorem rollCounts_begins {s v : State} (tables : v.tables = s.tables)
    (counts : ∀ l : Lane, (v.lanes[l]).counts = (s.lanes[l]).counts) (r : Ramp) :
    TurnBegun r s v (rollCounts (publishStep v)) := by
  obtain ⟨rolled, _, _, ramps, lanes⟩ := rollCounts_spec v
  have auth : (rollCounts (publishStep v)).auth = v.auth := by rw [rollCounts, publishStep]
  refine ⟨?_, by rw [auth], rolled.trans tables, fun _ l _ => ?_⟩
  · rw [ramps]
    rfl
  · rw [lanes, rollLane, counts]
    rfl

theorem TurnBegun.told {r : Ramp} {s v a b : State} (begun : TurnBegun r s v a) (told : Told r a b) :
    TurnBegun r s v b where
  ctx := told.ctx.trans begun.ctx
  auth := told.auth.trans begun.auth
  tables := told.tables.trans begun.tables
  lanes apart l listed := by
    have kept := told.lanes
    rw [begun.tables] at kept
    rw [kept apart l listed, begun.lanes apart l listed]

theorem windowClose_turn {s v : State} (announced : v = chatterStep { s with time := { s.time with closeDue := false } })
    (r : Ramp) : ∃ a : State, TurnBegun r s v a ∧ Told r (selectPlan r a) (windowClose s) := by
  obtain ⟨counts, _, tables⟩ := chatterStep_carried { s with time := { s.time with closeDue := false } }
  rw [← announced] at counts tables
  have begun := rollCounts_begins (s := s) tables (fun l => (counts l).1) r
  have close : windowClose s = forRamps rateClose (forRamps selectPlan (rollCounts (publishStep v))) := by
    rw [announced, Machine.windowClose]
  rw [close]
  generalize rollCounts (publishStep v) = z at begun
  obtain ⟨a, before, after⟩ := forRamps_beside (fun q r t => selectPlan_beside t) z r
  exact ⟨a, begun.told before.told, after.told.trans (forRamps_rateClose_told r _)⟩

section Turn
variable {r : Ramp} {s v a : State}

/-- WARN under mode OFF stands or ends in OFF. -/
theorem selectPlan_warn_off (warn : (a.ramps[r]).state = .warn) (off : (a.ramps[r]).mode = .off) :
    ((selectPlan r a).ramps[r]).state = .warn ∨ ((selectPlan r a).ramps[r]).state = .off := by
  rcases selectPlan_decides rfl with ⟨_, rests, _⟩ | ⟨j, change, acts⟩
  · exact Or.inl (rests.state.trans warn)
  · have state : (j.ramps[r]).state = .warn := change.rests.state.trans warn
    rw [acts, actOnDemand, state]
    dsimp only
    by_cases stop : stopDemand j r = true
    · rw [if_pos stop, enterOffOrStandby, if_pos (change.mode.trans off)]
      exact Or.inr (enterOff_state r j)
    · rw [if_neg stop]
      exact Or.inl state

/-- A ramp at rest through its own turn is at rest through the close, its lanes' counts rolled over. -/
theorem TurnBegun.rests {b u : State} (begun : TurnBegun r s v a) (told : Told r b u) (tables : b.tables = s.tables)
    (apart : s.tables.Apart) (rests : Rests r a b) : (u.ramps[r]).state = (v.ramps[r]).state
      ∧ (u.ramps[r]).clearPhase = (v.ramps[r]).clearPhase ∧ (u.ramps[r]).phaseTimer = (v.ramps[r]).phaseTimer
      ∧ ∀ l ∈ lanesOf s.tables r, u.lanes[l] = { v.lanes[l] with
          last := (s.lanes[l]).counts, counts := ⟨0, 0, 0, 0, 0, 0⟩ } := by
  have kept := told.lanes
  rw [tables] at kept
  obtain ⟨state, phase, timer, _⟩ := RampCtx.decided_eq begun.ctx
  obtain ⟨stateU, phaseU, timerU, _⟩ := RampCtx.decided_eq told.ctx
  exact ⟨by rw [stateU, rests.state, state], by rw [phaseU, rests.phase, phase], by rw [timerU, rests.timer, timer],
    fun l listed => by rw [kept apart l listed, rests.lanes, begun.lanes apart l listed]⟩

end Turn

theorem windowClose_warn_off {s v : State} {r : Ramp}
    (announced : v = chatterStep { s with time := { s.time with closeDue := false } })
    (warn : (v.ramps[r]).state = .warn) (off : (v.ramps[r]).mode = .off) :
    ((windowClose s).ramps[r]).state = .warn ∨ ((windowClose s).ramps[r]).state = .off := by
  obtain ⟨a, begun, told⟩ := windowClose_turn announced r
  obtain ⟨state, _, _, mode, _⟩ := RampCtx.decided_eq begun.ctx
  obtain ⟨stateU, _⟩ := RampCtx.decided_eq told.ctx
  rw [stateU]
  exact selectPlan_warn_off (state.trans warn) (mode.trans off)

/-- A close's decision for a ramp, from the announced health on (R36, R37, R61 to R64). -/
theorem windowClose_decides {s v u : State} {r : Ramp} (closed : u = windowClose s)
    (announced : v = chatterStep { s with time := { s.time with closeDue := false } }) (apart : s.tables.Apart)
    (live : (v.ramps[r]).state = .warn → (v.ramps[r]).mode = .auto) :
    u.auth[r] = v.auth[r] ∧ (u.ramps[r]).mode = (v.ramps[r]).mode
    ∧ ∀ stays : Prop,
      (stays ↔ (u.ramps[r]).state = (v.ramps[r]).state ∧ (u.ramps[r]).clearPhase = (v.ramps[r]).clearPhase
        ∧ (u.ramps[r]).phaseTimer = (v.ramps[r]).phaseTimer
        ∧ ∀ l ∈ lanesOf s.tables r, u.lanes[l] = { v.lanes[l] with
            last := (s.lanes[l]).counts, counts := ⟨0, 0, 0, 0, 0, 0⟩ }) →
      ((u.ramps[r]).autoPlan = (v.ramps[r]).autoPlan → stays ∧ (u.ramps[r]).actionUnset = (v.ramps[r]).actionUnset
        ∧ (u.ramps[r]).stopStands = (v.ramps[r]).stopStands)
      ∧ ((u.ramps[r]).autoPlan ≠ (v.ramps[r]).autoPlan →
        ((v.ramps[r]).state = .standby → (startDemand u r = true → Entered r .warn (.running 0) u)
          ∧ (startDemand u r = false → stays))
        ∧ ((v.ramps[r]).state = .warn → (stopDemand u r = true → Entered r .standby .stopped u ∧ HeadsShow r u
            ∧ ∀ l ∈ lanesOf s.tables r, s.tables.laneCfg[l] ≠ none → (u.lanes[l]).state = .dark)
          ∧ (stopDemand u r = false → stays))
        ∧ ((v.ramps[r]).state = .startGreen → (stopDemand u r = true → Entered r .shutFlush (.running 0) u)
          ∧ (stopDemand u r = false → stays))
        ∧ ([RampState.standby, .warn, .startGreen].contains (v.ramps[r]).state = false → stays)
        ∧ (u.ramps[r]).stopStands = stopDemand u r
        ∧ ((u.ramps[r]).actionUnset = true
          ↔ ∃ n, (v.auth[r]).granted = some (.plan n) ∧ planRec s.tables n = none)) := by
  obtain ⟨a, begun, told⟩ := windowClose_turn announced r
  rw [← closed] at told
  obtain ⟨state, _, _, mode, auto, unset, stands⟩ := RampCtx.decided_eq begun.ctx
  have tables : (selectPlan r a).tables = s.tables := (selectPlan_side r a).tables.trans begun.tables
  generalize chosen : selectPlan r a = b at told tables
  have lanesKept := told.lanes
  have enters := told.entered
  have shows := told.heads
  rw [tables] at lanesKept enters shows
  have rested := begun.rests told tables apart
  obtain ⟨_, _, _, modeU, autoU, unsetU, standsU⟩ := RampCtx.decided_eq told.ctx
  rcases selectPlan_decides chosen.symm with
    ⟨sameAuto, rests, sameAuth, sameMode, sameUnset, sameStands⟩ | ⟨j, change, acts⟩
  · refine ⟨by rw [told.auth, sameAuth, begun.auth], by rw [modeU, sameMode, mode],
      fun stays staysIff => ⟨fun _ => ?_, fun other => ?_⟩⟩
    · exact ⟨staysIff.mpr (rested rests), by rw [unsetU, sameUnset, unset], by rw [standsU, sameStands, stands]⟩
    · exact absurd (by rw [autoU, sameAuto, auto]) other
  · have liveA : (a.ramps[r]).state = .warn → (a.ramps[r]).mode = .auto := by
      rw [state, mode]
      exact live
    obtain ⟨auth, sameMode, otherAuto, standby, warn, green, rest, stop, mark⟩ := change.decision acts liveA
    rw [state, ← told.starts] at standby
    rw [state, ← told.stops, begun.tables] at warn
    rw [state, ← told.stops] at green
    rw [state] at rest
    rw [begun.auth, begun.tables, ← unsetU] at mark
    refine ⟨by rw [told.auth, auth, begun.auth], by rw [modeU, sameMode, mode],
      fun stays staysIff => ⟨fun same => ?_, fun _ => ?_⟩⟩
    · exact absurd (autoU.symm.trans (same.trans auto.symm)) otherAuto
    have stay (still : Rests r a b) : stays := staysIff.mpr (rested still)
    refine ⟨fun now => ?standby, fun now => ?warn, fun now => ?green, fun other => stay (rest other),
      standsU.trans (stop.trans told.stops.symm), mark⟩
    case standby =>
      obtain ⟨starts, still⟩ := standby now
      exact ⟨fun demand => enters apart _ _ (starts demand), fun no => stay (still no)⟩
    case warn =>
      obtain ⟨stops, still⟩ := warn now
      refine ⟨fun demand => ?_, fun no => stay (still no)⟩
      obtain ⟨entered, darkens⟩ := stops demand
      obtain ⟨heads, dark⟩ := darkens apart
      exact ⟨enters apart _ _ entered, shows apart heads, fun l listed set => by
        rw [lanesKept apart l listed, dark l listed set]⟩
    case green =>
      obtain ⟨stops, still⟩ := green now
      exact ⟨fun demand => enters apart _ _ (stops demand), fun no => stay (still no)⟩

end Sys2Proof.Machine
end

section
/-! The close of a window settled (R15 to R19, R25, R32 to R37, R44, R61 to R64, R75, R100, R119). -/

namespace Sys2Proof.Machine

section Close
variable {s u : State} {r : Ramp}

/-- A close leaves a ramp in OFF as it was, its selection and vector with it. -/
theorem windowClose_off_parts (closed : u = windowClose s) (off : (s.ramps[r]).state = .off) :
    (u.ramps[r]).state = .off ∧ u.vectors[r] = s.vectors[r] ∧ (u.ramps[r]).autoPlan = (s.ramps[r]).autoPlan
    ∧ (u.ramps[r]).candidate = (s.ramps[r]).candidate ∧ (u.ramps[r]).planUnset = (s.ramps[r]).planUnset := by
  obtain ⟨state, vector, selection⟩ := windowClose_off s r off
  rw [closed]
  exact ⟨state, vector, selection_eq selection⟩

/-- The proposal of a ramp in use, and what its persistence comes to (R32 to R36). -/
theorem windowClose_persists (closed : u = windowClose s) (on : (u.ramps[r]).state ≠ .off) {named pers n : Nat}
    {fits : MatchRec → Prop} {k : Candidate}
    (matching : ∀ m, fits m ↔ ∀ c : Fin 16, m.care.getLsbD c.val = true → m.value.getLsbD c.val = (u.vectors[r])[c])
    (names : (∃ (i : Fin 12) (m : MatchRec), matchRec s.tables r i = some m ∧ fits m
          ∧ (∀ (j : Fin 12) (o : MatchRec), j < i → matchRec s.tables r j = some o → ¬ fits o)
          ∧ named = m.plan ∧ pers = m.persistence.getD 1)
        ∨ ((∀ (j : Fin 12) (o : MatchRec), matchRec s.tables r j = some o → ¬ fits o)
          ∧ named = defaultPlan s.tables r ∧ pers = 1))
    (unset : named = 0 ∨ planSet s.tables named = false → n = 0) (set : planSet s.tables named = true → n = named)
    (next : k = nextCandidate (s.ramps[r]).candidate n) :
    (u.ramps[r]).planUnset = (decide (named ≠ 0) && !planSet s.tables named)
    ∧ ((u.ramps[r]).planUnset ≠ (s.ramps[r]).planUnset → (u.ramps[r]).attention = true)
    ∧ (n = (s.ramps[r]).autoPlan → (u.ramps[r]).autoPlan = (s.ramps[r]).autoPlan ∧ (u.ramps[r]).candidate = none)
    ∧ (n ≠ (s.ramps[r]).autoPlan → pers ≤ k.count → (u.ramps[r]).autoPlan = n ∧ (u.ramps[r]).candidate = none)
    ∧ (n ≠ (s.ramps[r]).autoPlan → k.count < pers →
      (u.ramps[r]).autoPlan = (s.ramps[r]).autoPlan ∧ (u.ramps[r]).candidate = some k) := by
  have proposed : ⟨n, pers, decide (named ≠ 0) && !planSet s.tables named⟩ = propose s.tables r u.vectors[r] := by
    rw [propose_eq matching names, proposalOf_eq unset set]
  rw [closed] at on proposed ⊢
  obtain ⟨_, c, selection, auto, candidate, mark, attention⟩ := windowClose_selection s r on _ proposed
  obtain ⟨autoC, candidateC, markC⟩ := selection_eq selection
  rw [← candidateC] at next
  rw [← autoC, ← markC, auto, candidate, mark]
  exact ⟨rfl, attention, persist_spec (.mk n pers _) c k next⟩

/-- The Rate Unit's step for a ramp that goes on metering by an ADAPTIVE plan (R44). -/
theorem windowClose_adapts (closed : u = windowClose s) (meters : (u.ramps[r]).state = .metering) {d : Adopted} {p : PlanRec}
    {a : Adaptive} {level : Nat} (adopts : (s.ramps[r]).adopted = some d) (plan : planRec s.tables d.number = some p)
    (adaptive : p.adaptive = some a) (noQueue : a.queueThreshold = none → level = 0)
    (queue : ∀ t, a.queueThreshold = some t → (queueOccupancy u r = none → level = (s.rate[r]).relief - 1)
      ∧ ∀ q, queueOccupancy u r = some q → level = (if t ≤ q then min ((s.rate[r]).relief + 1) 8
        else if q < t - a.reliefHyst then (s.rate[r]).relief - 1 else (s.rate[r]).relief)) :
    (mainlineOccupancy u r = none ∨ curveRec s.tables a.curve = none → u.rate[r] = ⟨level, some p.slot, true⟩)
    ∧ ∀ (m : Nat) (c : CurveRec) (i b v : Nat), mainlineOccupancy u r = some m →
      curveRec s.tables a.curve = some c → c.points[i]? = some (b, v) → b ≤ m →
      (∀ (j b' v' : Nat), i < j → c.points[j]? = some (b', v') → m < b') →
      u.rate[r] = ⟨level, some (min (max (v - level * a.reliefStep) a.minSlot) a.maxSlot), false⟩ := by
  rw [closed] at meters queue ⊢
  obtain ⟨_, _, y, metersY, adoptedY, tables, det, _, steps, _⟩ := windowClose_rate_metering meters
  have sameTables : (windowClose s).tables = y.tables := (windowClose_side s).tables.trans tables.symm
  have means (role : Role) : meanOf (roleOccupancies (windowClose s) role r) = meanOf (roleOccupancies y role r) := by
    rw [roleOccupancies_congr sameTables det.symm]
  have mainline : mainlineOccupancy (windowClose s) r = mainlineOccupancy y r := means .mainline
  have queued : queueOccupancy (windowClose s) r = queueOccupancy y r := means .queue
  rw [steps p a (adoptedAdaptive_some metersY (adoptedY.trans adopts) (tables ▸ plan) adaptive), mainline, ← tables]
  rw [queued] at queue
  obtain ⟨degrades, computes⟩ := rateAtClose_spec y r p a s.rate[r] level noQueue queue
  exact ⟨degrades, fun m c i b v mean curve point within last =>
    computes m c v mean curve (curveValue_last point within last)⟩

/-- The Rate Unit's record of a ramp that goes on metering by a fixed plan stands. -/
theorem windowClose_rate_fixed (closed : u = windowClose s) (meters : (u.ramps[r]).state = .metering)
    (fixed : ∀ (d : Adopted) (p : PlanRec), (s.ramps[r]).adopted = some d → planRec s.tables d.number = some p →
      p.adaptive = none) : u.rate[r] = s.rate[r] := by
  rw [closed] at meters ⊢
  obtain ⟨_, _, y, _, adoptedY, tables, _, _, _, stands⟩ := windowClose_rate_metering meters
  exact stands (adoptedAdaptive_none fun d p adopts plan => fixed d p (adoptedY.symm.trans adopts) (tables ▸ plan))

/-- The mean occupancy of a role is read from its valid published results (R45, R47). -/
theorem windowClose_role (closed : u = windowClose s) (role : Role) (L : List Channel) (once : L.Nodup)
    (listed : ∀ ch, ch ∈ L ↔ ∃ d, s.tables.detMap[ch] = some d ∧ d.role = role ∧ d.ramps.getLsbD r.val = true
      ∧ (u.det.chans[ch]).lastValid = true) :
    meanOf (roleOccupancies u role r)
      = if L = [] then none else some ((L.map fun ch => (u.det.chans[ch]).lastOcc).sum / L.length) := by
  have tables : u.tables = s.tables := closed ▸ (windowClose_side s).tables
  rw [← tables] at listed
  exact roleOccupancies_eq u role r L once listed

end Close

/-- Settles O48: the parts of a close in their order, and each ramp's turn between those of the others. -/
theorem windowClosePublishesResults : Obligations.WindowClosePublishesResults := by
  unfold Obligations.WindowClosePublishesResults
  intro s due
  have runs : exec .windowClose s = .next (endEvent (windowClose s)) :=
    congrArg Host.Outcome.next (whenDue_due (if_pos due) windowClose s)
  have side := windowClose_side s
  have det := windowClose_det s
  refine ⟨windowClose s, runs, side.tables, side.ring, side.lines, side.time, by rw [det], by rw [det]; rfl,
    fun ch x before unmapped => by rw [before, windowClose_unmapped unmapped], ?channels,
    windowClose_lanes s, windowClose_slots s, fun r off => windowClose_off_parts rfl off,
    ?selection, ?decision, ?metering, ?means, fun r idle => windowClose_rate_idle idle,
    fun r meters left => windowClose_rate_left meters left⟩
  case channels =>
    intro ch d x h valid mapped before health valids
    have judged : h = chatterHealth d x := health
    rw [judged] at valids ⊢
    exact windowClose_mapped mapped before valids
  case selection =>
    intro r on
    obtain ⟨vector, _⟩ := windowClose_selection s r on _ rfl
    refine ⟨vector, fun named pers n fits k matching names unset set next => ?_⟩
    exact windowClose_persists rfl on matching names unset set (next.trans (nextCandidate_eq _ n).symm)
  case decision =>
    intro r w t v x begun chans judged announced own
    subst own
    have stepped := chatterStep_of_announced chans (fun ch => by rw [begun]; exact judged ch) announced
    rw [begun] at stepped
    refine ⟨fun quiet => ?_, windowClose_warn_off stepped, windowClose_decides rfl stepped⟩
    have authT : t.auth = w.auth := by rw [chans]
    have rampsT : t.ramps = w.ramps := by rw [chans]
    have authW : w.auth = s.auth := by rw [begun]
    have rampsW : w.ramps = s.ramps := by rw [begun]
    have kept : SameRamp s t r := Or.inl (by rw [rampsT, rampsW])
    have heard := announce_quiet (s := w) (r := r) (t := t) (by rw [authT, authW]; exact quiet)
    rw [← announced, authT, authW] at heard
    obtain ⟨same, clears⟩ := heard
    exact ⟨kept.trans same, clears⟩
  case metering =>
    intro r meters
    obtain ⟨metersS, adopted, _⟩ := windowClose_rate_metering meters
    exact ⟨metersS, adopted, windowClose_rate_fixed rfl meters, fun d p a level adopts plan adaptive noQueue queue =>
      windowClose_adapts rfl meters adopts plan adaptive noQueue queue⟩
  case means =>
    intro r of listed
    have mean (role : Role) := windowClose_role (s := s) (r := r) rfl role (of role)
      (listed role 0).1 fun ch => (listed role ch).2
    exact ⟨mean .mainline, mean .queue⟩

end Sys2Proof.Machine
end
